-- ==== Sys2Proof/Word.lean ====
section
/-! DEFINITION. The word types of the Ferod N2: scalar words, bytes, thread masks, capabilities. -/

namespace Sys2Proof

/-- A 32-bit value: one x register, one thread's element of a v register (R24). -/
abbrev Word := BitVec 32

/-- One byte of memory. -/
abbrev Byte := BitVec 8

/-- A thread mask of a course: bit t is thread t (R156). -/
abbrev Mask := BitVec 256

/-- A capability, 128 bits as R94 lays them out. -/
abbrev Cap := BitVec 128

end Sys2Proof
end

