-- ==== Sys2Proof/Config.lean ====
section
/-! DEFINITION. What the N2 fixes (counts and constants of the manual) and the free values: constants with no body, so
that nothing can be proved about a value the manual leaves open. -/

namespace Sys2Proof.Config

/-- Lanes per lane word (R2). -/
def lanes : Nat := 64

/-- Passes per lane word (R2). -/
def passes : Nat := 4

/-- Threads of a full course (R18). -/
def threads : Nat := 256

/-- VCEIL, the ceiling of %vbnd in ns (R343). -/
def vceil : Nat := 10000000

/-- The default package budget in W (R430). -/
def defaultBudget : Nat := 2000

/-- The reset value of POLICY (R353). -/
def defaultPolicy : BitVec 32 := 0x001B3000

/-- T_fix of R340, ns. -/
def tFix : Nat := 2000

/-- FREE VALUE: the core cycles that pass in a step (log 4). -/
opaque elapsed : Nat → Nat

/-- FREE VALUE: L - 1 of R242, the lease length a slice chooses from 1 to 64 (log 5). -/
opaque leaseRaw : Nat → BitVec 6

/-- FREE VALUE: how much beyond 1 a course clock rises in a microsecond (R241, log 5). -/
opaque clockRaise : Nat → Nat

/-- FREE VALUE: the set of its slice a line falls in (R209 gives 1,024 sets and no index function; log 6). -/
opaque l2Set : Nat → BitVec 10

/-- FREE VALUE: the set of an L1 a line falls in, before the division by the number of sets (R196 gives no index function;
log 6). -/
opaque l1Index : Nat → Nat

/-- FREE VALUE: which of two allowed outcomes of a race happens (log 7). -/
opaque racePick : Nat → Bool

/-- FREE VALUE: which of the things that may happen next does (log 7). -/
opaque choice : Nat → Nat

/-- FREE VALUE: one 32-bit result that an outside party supplies or the manual does not fix (log 7). -/
opaque openWord : Nat → Word

/-- FREE VALUE: the value of a tile element whose exponent field no element of its type has (R309, log 24): 0 NaN or NaR,
1 an infinity, else a finite one; its sign, its magnitude and its exponent or decade. -/
opaque strayTile : Nat → Nat → Nat → Nat × Bool × Nat × Int

/-- FREE VALUE: byte k of the SHAKE256 digest of a byte string (R434, log 8). -/
opaque digestByte : List Byte → Nat → Byte

/-- FREE VALUE: byte k of the ML-DSA-65 signature of a byte string by the identity key (R434, log 8). -/
opaque signByte : List Byte → Nat → Byte

/-- FREE VALUE: whether a patch image passes the signature check of R415 (log 8). -/
opaque imageAccepted : List Byte → Bool

/-- FREE VALUE: whether a patch supports a state-table version (R415, log 8). -/
opaque versionSupported : List Byte → Nat → Bool

/-- FREE VALUE: the device serial number, byte k (R434, log 8). -/
opaque serialByte : Nat → Byte

/-- FREE VALUE: whether the ROM of both needles can compute the digest of the image in flash (R433, log 64). -/
opaque romDigest : Nat → Bool

/-- FREE VALUE: the fabric ports that fail their training (R432, R433, log 64). -/
opaque portsFailed : Nat → BitVec 32

/-- FREE VALUE: the HBM stacks that fail their training (R433, log 64). -/
opaque stacksFailed : Nat → BitVec 8

/-- FREE VALUE: the links of the ring of panels that fail their training (R433, log 64). -/
opaque linksFailed : Nat → BitVec 4

/-- FREE VALUE: which of the ports that are up a packet takes (R383, R432, log 64). -/
opaque portChoice : Nat → Nat

/-- FREE VALUE: the ROM and flash images and the identity public key, by number (R433, R434, log 8). -/
opaque imageBytes : Nat → List Byte

end Sys2Proof.Config
end

