-- ==== Sys2Proof/Syntax.lean ====
section
/-! DEFINITION. The instructions of Wyrus and the machine's events and commands: one constructor for each row of the
opcode table. -/

namespace Sys2Proof

/-- The fields of a single-format lane word (R40), but FMT and OPC. -/
structure Single where
  look : BitVec 4
  u : Bool
  ng : Bool
  ty : BitVec 4
  d : BitVec 8
  a : BitVec 8
  b : BitVec 8
  c : BitVec 8
  imm : BitVec 16
  sel : BitVec 4
  rnd : BitVec 2
  sat : Bool
  scope : BitVec 3
  mod : BitVec 16
deriving DecidableEq, Repr

/-- The fields of an engine-format lane word (R42), but FMT and OPC. -/
structure Eng where
  look : BitVec 4
  ea : BitVec 4
  eb : BitVec 4
  d : BitVec 8
  s1 : BitVec 8
  s2 : BitVec 8
  imm : BitVec 16
  ex : BitVec 32
deriving DecidableEq, Repr

/-- The fields of one slot of a pair word (R41), but POPC. -/
structure Slot where
  u : Bool
  ng : Bool
  pty : BitVec 3
  d : BitVec 8
  a : BitVec 8
  b : BitVec 8
  c : BitVec 8
  rnd : BitVec 2
deriving DecidableEq, Repr

/-- The pair opcodes of R59, in POPC order. -/
inductive PairOp where
  | iadd
  | isub
  | imul
  | imad
  | imin
  | imax
  | and
  | or
  | xor
  | shl
  | shr
  | sra
  | mov
  | sel
  | fadd
  | fsub
  | fmul
  | fma
  | fmin
  | fmax
  | fabs
  | fneg
deriving DecidableEq, Repr

/-- The fields of a command packet (R398), but OPC, STATUS and RESULT. -/
structure Packet where
  tgt : BitVec 8
  capv : BitVec 3
  fence : Bool
  tick : Bool
  sysc : Bool
  prio : BitVec 3
  arg0 : Word
  arg1 : Word
  f0 : BitVec 128
  f1 : BitVec 128
  f2 : BitVec 128
deriving DecidableEq, Repr

/-- What became of one member of a multicast (R294, R295). -/
inductive MemberResult where
  | performed
  | failed (cause : BitVec 8)
  | refused
deriving DecidableEq, Repr

/-- What a remote packet asks of its target (R374, R379, R382). -/
inductive RemoteOp where
  | read
  | write
  | atom (op : BitVec 4) (ty : BitVec 4)
  | merge (ty : BitVec 4)
  /-- the step of an ENQ or DEQ, or ENQT or DEQT, at the home of its block, for a number of elements of a size; slots is the slot
  array's offset in the same loan, none where the array lies elsewhere (R276, log 119) -/
  | spool (enq part : Bool) (esize : BitVec 3) (count : BitVec 9) (slots : Option (BitVec 64))
  /-- the step of an SPINIT, with the line it writes (R269, R276) -/
  | spinit
  /-- that of an SPQRY (R274) -/
  | spqry
  /-- that of an SPFLS (R275) -/
  | spfls
  /-- an arrival at a barrier object with a count, tagged with a generation where it is an engine's or a tagged BARV's (R228, R230) -/
  | arrive (gen : Option (BitVec 8)) (count : BitVec 32)
deriving DecidableEq, Repr

/-- One thread's access in a remote packet: the tenant virtual address, the size in bytes, the data (the operand of an
atomic or the bytes of a store) and the comparand of cas. -/
structure RemoteAcc where
  thread : Nat
  addr : Nat
  size : Nat
  data : List Byte
  cmp : Word
deriving DecidableEq, Repr

/-- A remote request packet (R375, R383). -/
structure RemotePkt where
  source : Nat
  target : Nat
  seqno : Nat
  tenant : Nat
  clock : Nat
  op : RemoteOp
  accs : List RemoteAcc
deriving DecidableEq, Repr

/-- What a target answers to a remote packet: each thread's old or loaded bytes, the write time of the line, the threads whose
check failed there (CAPF detail 12 of R374), the lease end of a read line (R376), the flags of its atomics (R218), and CL and EVP of
the page it read (R197, R376). -/
structure RemoteReply where
  values : List (Nat × List Byte)
  wts : Nat
  failed : List Nat
  lease : Nat := 0
  flags : BitVec 5 := 0
  cl : Nat := 0
  evp : Nat := 0
deriving DecidableEq, Repr

/-- The answer to a question about an unacknowledged packet (R384). -/
inductive LinkAnswer where
  | performed
  | notPerformed
  | silent
deriving DecidableEq, Repr

/-- What an event of the machine is about: the course, queue, context, job, line or node it names (num, and num2 for a
second number), the bytes or the register value a host access carries, the outcome of a multicast member, the remote
packet or reply that arrives, and the answer about a packet. An event uses the fields its entry names. -/
structure Subject where
  num : Nat := 0
  num2 : Nat := 0
  value : BitVec 64 := 0
  bytes : List Byte := []
  member : MemberResult := .performed
  request : RemotePkt := { source := 0, target := 0, seqno := 0, tenant := 0, clock := 0, op := .read, accs := [] }
  reply : RemoteReply := { values := [], wts := 0, failed := [] }
  answer : LinkAnswer := .silent
deriving DecidableEq, Repr

/-- The instructions of the scalar and lane streams, then the command packets and the events of the machine. The fields
of a command packet and the subject of an event stand in State (the packet register and the subject register). -/
inductive Instr where
  /-- Scalar register add, x[d] := x[a] + x[b], wrapping (R73). -/
  | add (d a b : BitVec 5)
  /-- Scalar register subtract, x[d] := x[a] - x[b], wrapping (R73). -/
  | sub (d a b : BitVec 5)
  /-- Scalar bitwise AND of two registers (R73). -/
  | and (d a b : BitVec 5)
  /-- Scalar bitwise OR of two registers (R73). -/
  | or (d a b : BitVec 5)
  /-- Scalar bitwise XOR of two registers (R73). -/
  | xor (d a b : BitVec 5)
  /-- Scalar shift left by x[b][4:0] (R73). -/
  | shl (d a b : BitVec 5)
  /-- Scalar logical shift right by x[b][4:0] (R73). -/
  | shr (d a b : BitVec 5)
  /-- Scalar arithmetic shift right by x[b][4:0] (R73). -/
  | sra (d a b : BitVec 5)
  /-- Scalar multiply, low 32 bits (R73). -/
  | mul (d a b : BitVec 5)
  /-- Scalar signed multiply, high 32 bits (R73). -/
  | mulh (d a b : BitVec 5)
  /-- Scalar unsigned multiply, high 32 bits (R73). -/
  | mulhn (d a b : BitVec 5)
  /-- Scalar unsigned divide, 0xFFFF_FFFF on divide by zero (R73). -/
  | divn (d a b : BitVec 5)
  /-- Scalar unsigned remainder, A on divide by zero (R73). -/
  | remn (d a b : BitVec 5)
  /-- Scalar signed minimum (R73). -/
  | min (d a b : BitVec 5)
  /-- Scalar signed maximum (R73). -/
  | max (d a b : BitVec 5)
  /-- Scalar unsigned minimum (R73). -/
  | minn (d a b : BitVec 5)
  /-- Scalar unsigned maximum (R73). -/
  | maxn (d a b : BitVec 5)
  /-- Scalar signed set-less-than (R73). -/
  | slt (d a b : BitVec 5)
  /-- Scalar unsigned set-less-than (R73). -/
  | sltn (d a b : BitVec 5)
  /-- Scalar set-if-equal (R73). -/
  | seq (d a b : BitVec 5)
  /-- Scalar count of leading zeros of x[a] (R73). -/
  | clz (d a : BitVec 5)
  /-- Scalar population count of x[a] (R73). -/
  | popc (d a : BitVec 5)
  /-- Scalar add of a sign-extended immediate (R74). -/
  | addi (d a : BitVec 5) (imm : BitVec 16)
  /-- Scalar AND with a zero-extended immediate (R74). -/
  | andi (d a : BitVec 5) (imm : BitVec 16)
  /-- Scalar OR with a zero-extended immediate (R74). -/
  | ori (d a : BitVec 5) (imm : BitVec 16)
  /-- Scalar XOR with a zero-extended immediate (R74). -/
  | xori (d a : BitVec 5) (imm : BitVec 16)
  /-- Scalar shift left by an immediate 0 to 31 (R74). -/
  | shli (d a : BitVec 5) (sh : BitVec 5)
  /-- Scalar logical shift right by an immediate 0 to 31 (R74). -/
  | shri (d a : BitVec 5) (sh : BitVec 5)
  /-- Scalar arithmetic shift right by an immediate 0 to 31 (R74). -/
  | srai (d a : BitVec 5) (sh : BitVec 5)
  /-- Scalar signed compare with a sign-extended immediate (R74). -/
  | slti (d a : BitVec 5) (imm : BitVec 16)
  /-- Scalar unsigned compare with a zero-extended immediate (R74). -/
  | sltni (d a : BitVec 5) (imm : BitVec 16)
  /-- Loads an immediate into the upper 16 bits of x[d] (R74). -/
  | lui (d : BitVec 5) (imm : BitVec 16)
  /-- Scalar multiply by a sign-extended immediate (R74). -/
  | muli (d a : BitVec 5) (imm : BitVec 16)
  /-- Jumps to the address in x[a], optionally linking into x[d] (R77). -/
  | jr (d a : BitVec 5)
  /-- Decrements a counter register and branches while it is non-zero (R78). -/
  | loop (a : BitVec 5) (off : BitVec 16)
  /-- Branches when x[a] equals x[b] (R75). -/
  | beq (a b : BitVec 5) (off : BitVec 16)
  /-- Branches when x[a] differs from x[b] (R75). -/
  | bne (a b : BitVec 5) (off : BitVec 16)
  /-- Branches on signed less-than (R75). -/
  | blt (a b : BitVec 5) (off : BitVec 16)
  /-- Branches on signed greater-or-equal (R75). -/
  | bge (a b : BitVec 5) (off : BitVec 16)
  /-- Branches on unsigned less-than (R75). -/
  | bltn (a b : BitVec 5) (off : BitVec 16)
  /-- Branches on unsigned greater-or-equal (R75). -/
  | bgen (a b : BitVec 5) (off : BitVec 16)
  /-- Unconditional relative jump (R76). -/
  | j (off : BitVec 26)
  /-- Relative jump that writes the return offset to x31 (R76). -/
  | jal (off : BitVec 26)
  /-- Releases a counted run of lane words to the lane stream with captured registers (R79). -/
  | lrun (a : BitVec 5) (imm : BitVec 16)
  /-- Sets the release pointer to a lane word index (R80). -/
  | ljmp (a : BitVec 5) (imm : BitVec 16)
  /-- Waits until every released lane word has completed (R81). -/
  | lsync
  /-- Pops the oldest return-queue entry into x[d], waiting or raising QEMPTY (R82). -/
  | xrq (d : BitVec 5)
  /-- Starts or queues an affine feed descriptor for an operand queue (R83). -/
  | qfeed (q ca : BitVec 4) (b : BitVec 5)
  /-- Stops a queue's feeds and discards its unpopped entries (R87). -/
  | qhalt (q : BitVec 4)
  /-- Writes a snapshot of a queue's feed status to x[d] (R88). -/
  | qstat (d : BitVec 5) (q : BitVec 4)
  /-- Scalar 32-bit load through a capability (R101). -/
  | xld (d : BitVec 5) (ca : BitVec 4) (imm : BitVec 16)
  /-- Scalar 32-bit store through a capability into the store-hold area (R101). -/
  | xst (d : BitVec 5) (ca : BitVec 4) (imm : BitVec 16)
  /-- Loads and validates a capability into an a register (R100). -/
  | cld (cd ca : BitVec 4) (imm : BitVec 16)
  /-- Stores a capability's 128 bits to memory (R100). -/
  | cst (cd ca : BitVec 4) (imm : BitVec 16)
  /-- Narrows a derivable capability's base and length (R102). -/
  | cbnd (cd ca : BitVec 4) (b : BitVec 5)
  /-- Masks a capability's permissions (R102). -/
  | cperm (cd ca : BitVec 4) (b : BitVec 5)
  /-- Reads a capability field selected by an immediate (R103). -/
  | cget (d : BitVec 5) (ca : BitVec 4) (which : BitVec 16)
  /-- Copies a capability register (R102). -/
  | cmov (cd ca : BitVec 4)
  /-- Reads a special register into x[d] (R89). -/
  | srd (d : BitVec 5) (num : BitVec 16)
  /-- Writes a special register from x[a] with its access type (R89). -/
  | swr (a : BitVec 5) (num : BitVec 16)
  /-- Waits for pending lane words, checkpoints and raises TRAPI (R90). -/
  | strap (code : BitVec 16)
  /-- Checkpoints and ends the scalar stream (R91). -/
  | sexit
  /-- Scalar wait until a memory word meets a condition (R92). -/
  | xwait (d : BitVec 5) (ca : BitVec 4) (cond : BitVec 16)
  /-- Scalar no-operation (R37). -/
  | nop
  /-- Lane element integer add, wrapping or saturating (R140). -/
  | iadd (w : Single)
  /-- Lane element integer subtract (R140). -/
  | isub (w : Single)
  /-- Lane element integer multiply (R140). -/
  | imul (w : Single)
  /-- Lane 32-bit multiply returning the high word (R141). -/
  | imulh (w : Single)
  /-- Lane element integer multiply-add (R140). -/
  | imad (w : Single)
  /-- Lane element integer minimum (R140). -/
  | imin (w : Single)
  /-- Lane element integer maximum (R140). -/
  | imax (w : Single)
  /-- Lane element integer absolute value (R140). -/
  | iabs (w : Single)
  /-- Lane element integer negation (R140). -/
  | ineg (w : Single)
  /-- Lane bitwise AND (R144). -/
  | andLane (w : Single)
  /-- Lane bitwise OR (R144). -/
  | orLane (w : Single)
  /-- Lane bitwise XOR (R144). -/
  | xorLane (w : Single)
  /-- Lane bitwise NOT (R144). -/
  | not (w : Single)
  /-- Lane element shift left (R140). -/
  | shlLane (w : Single)
  /-- Lane element logical shift right (R140). -/
  | shrLane (w : Single)
  /-- Lane element arithmetic shift right (R140). -/
  | sraLane (w : Single)
  /-- Lane element rotate left (R140). -/
  | rot (w : Single)
  /-- Lane bit-field extract (R142). -/
  | bfe (w : Single)
  /-- Lane bit-field insert (R142). -/
  | bfi (w : Single)
  /-- Lane element population count (R140). -/
  | popcLane (w : Single)
  /-- Lane element count of leading zeros (R140). -/
  | clzLane (w : Single)
  /-- Lane element bit reversal (R140). -/
  | brev (w : Single)
  /-- Lane register move (R144). -/
  | mov (w : Single)
  /-- Lane element-wise select by C (R144). -/
  | sel (w : Single)
  /-- Lane integer dot product accumulated into i32 (R143). -/
  | idp4 (w : Single)
  /-- Lane floating-point add, rounded once (R145). -/
  | fadd (w : Single)
  /-- Lane floating-point subtract (R145). -/
  | fsub (w : Single)
  /-- Lane floating-point multiply (R145). -/
  | fmul (w : Single)
  /-- Lane fused multiply-add with optional negations (R145). -/
  | fma (w : Single)
  /-- Lane floating-point minimum (R146). -/
  | fmin (w : Single)
  /-- Lane floating-point maximum (R146). -/
  | fmax (w : Single)
  /-- Lane floating-point absolute value (R147). -/
  | fabs (w : Single)
  /-- Lane floating-point negation (R147). -/
  | fneg (w : Single)
  /-- Lane copy of sign from B (R147). -/
  | fcpys (w : Single)
  /-- Lane round to integral value (R148). -/
  | frnd (w : Single)
  /-- Lane floating-point classification mask (R149). -/
  | fclass (w : Single)
  /-- Lane paired 16-bit dot product into f32 (R150). -/
  | fdp2 (w : Single)
  /-- SFU reciprocal (R151). -/
  | rcp (w : Single)
  /-- SFU reciprocal square root (R151). -/
  | rsq (w : Single)
  /-- SFU square root (R151). -/
  | sqrt (w : Single)
  /-- SFU base-2 exponential (R151). -/
  | exp2 (w : Single)
  /-- SFU base-2 logarithm (R151). -/
  | log2 (w : Single)
  /-- SFU sine of pi times a (R151). -/
  | sinp (w : Single)
  /-- SFU cosine of pi times a (R151). -/
  | cosp (w : Single)
  /-- SFU hyperbolic tangent (R151). -/
  | tanh (w : Single)
  /-- Converts packed elements between types (R126). -/
  | cvt (w : Single)
  /-- Converts two 32-bit values into a packed element pair (R127). -/
  | pack (w : Single)
  /-- Extracts and widens one packed element (R128). -/
  | unpk (w : Single)
  /-- Scaled accumulate of a partial sum (R129). -/
  | scacc (w : Single)
  /-- Applies or removes an e8m0 scale and rounds into the destination type (R130). -/
  | scale (w : Single)
  /-- Computes one e8m0 block scale per 32 threads (R131). -/
  | bscl (w : Single)
  /-- Pushes a predicate entry narrowed by a comparison (R159). -/
  | push (w : Single)
  /-- Pushes a predicate entry from scalar mask registers (R159). -/
  | pushv (w : Single)
  /-- Inverts the predicate top within the entry below (R160). -/
  | pinv (w : Single)
  /-- Pops the predicate top to reconverge (R160). -/
  | pop (w : Single)
  /-- Saves the predicate stack into a register (R161). -/
  | psav (w : Single)
  /-- Restores the predicate stack from a register (R161). -/
  | prst (w : Single)
  /-- Ends active threads by clearing their live bits (R162). -/
  | exit (w : Single)
  /-- Pushes a ballot, any, all or count to the return queue (R164). -/
  | vote (w : Single)
  /-- Pushes one reduced value to the return queue (R165). -/
  | rqp (w : Single)
  /-- Lane no-operation (R166). -/
  | nopl (w : Single)
  /-- Shuffles values between lanes of a pass by pattern (R168). -/
  | shfl (w : Single)
  /-- Shuffles values between lanes by index (R169). -/
  | shfli (w : Single)
  /-- Reduces across active lanes of each pass in a fixed tree (R171). -/
  | redl (w : Single)
  /-- Scans across active lanes of each pass (R172). -/
  | scanl (w : Single)
  /-- Swaps values between passes of one lane (R170). -/
  | dswp (w : Single)
  /-- Pairs two courses of a team and migrates the donor's live threads (R178). -/
  | graft (w : Single)
  /-- Enters or creates a team by key (R174). -/
  | join (w : Single)
  /-- Leaves the course's team (R175). -/
  | leave (w : Single)
  /-- Returns team count, rank or key (R177). -/
  | tmemb (w : Single)
  /-- Lane global load through a capability (R199). -/
  | ld (w : Single)
  /-- Lane global store into the store-hold area (R199). -/
  | st (w : Single)
  /-- Lane load from team scratch (R199). -/
  | lds (w : Single)
  /-- Lane store to team scratch (R199). -/
  | sts (w : Single)
  /-- Maps a stash slot from scratch onto a global range (R202). -/
  | smap (w : Single)
  /-- Writes back and frees a stash slot (R205). -/
  | sunmap (w : Single)
  /-- Writes back dirty stash bytes without unmapping (R205). -/
  | sflush (w : Single)
  /-- Prefetches lines into the caches (R207). -/
  | pref (w : Single)
  /-- Pins an L2 line for the team (R208). -/
  | llock (w : Single)
  /-- Unpins an L2 line for the team (R208). -/
  | lunlk (w : Single)
  /-- Atomic read-modify-write returning the old value (R219). -/
  | atom (w : Single)
  /-- Atomic compare-and-swap returning the old value (R219). -/
  | atomc (w : Single)
  /-- Atomic reduction without result (R219). -/
  | red (w : Single)
  /-- Lane wait until a memory word meets a condition (R222). -/
  | waitc (w : Single)
  /-- Initialises a barrier object, breaking any waiters (R227). -/
  | binit (w : Single)
  /-- Arrives at a barrier object, optionally waiting (R228). -/
  | barv (w : Single)
  /-- Waits for a barrier generation to end (R229). -/
  | bwait (w : Single)
  /-- Invalidates a barrier object, breaking any waiters (R227). -/
  | binv (w : Single)
  /-- Team barrier arrival and wait (R232). -/
  | tbar (w : Single)
  /-- Initialises a spool control block (R269). -/
  | spinit (w : Single)
  /-- Enqueues one element per active thread, all or nothing (R270). -/
  | enq (w : Single)
  /-- Dequeues one element per active thread, all or nothing (R270). -/
  | deq (w : Single)
  /-- Enqueues as many elements as fit and pushes a success mask (R271). -/
  | enqt (w : Single)
  /-- Dequeues as many elements as present and pushes a success mask (R271). -/
  | deqt (w : Single)
  /-- Reads spool state at the home (R274). -/
  | spqry (w : Single)
  /-- Writes a cached spool descriptor back to its line (R275). -/
  | spfls (w : Single)
  /-- Full fence: release, acquire and lease expiry (R248). -/
  | fence (w : Single)
  /-- Acquire fence raising the logical clock (R247). -/
  | acq (w : Single)
  /-- Release: commits and awaits the course's earlier writes (R246). -/
  | rel (w : Single)
  /-- Acquire restricted to named regions (R249). -/
  | acqr (w : Single)
  /-- Release restricted to named regions (R249). -/
  | relr (w : Single)
  /-- Opens a back copy of a publishable buffer (R252). -/
  | shdw (w : Single)
  /-- Publishes or drops a back copy by flipping the selector (R253). -/
  | publ (w : Single)
  /-- Raises TRAPI with a code (R361). -/
  | trap (w : Single)
  /-- Raises BRKI when debug is enabled (R361). -/
  | brk (w : Single)
  /-- Takes a course checkpoint (R362). -/
  | ckpt (w : Single)
  /-- Queries gauge cost, estimate or fitting size (R363). -/
  | vqry (w : Single)
  /-- Reads a special register into lanes after earlier lane words complete (R364). -/
  | srdl (w : Single)
  /-- Remote load from a named node (R379). -/
  | rld (w : Single)
  /-- Remote store to a named node (R379). -/
  | rst (w : Single)
  /-- Remote atomic on a named node (R379). -/
  | ratom (w : Single)
  /-- Stores to a set of nodes (R381). -/
  | mcast (w : Single)
  /-- Remote sparse reduction with in-network merging (R382). -/
  | rspr (w : Single)
  /-- Waits for and returns the outcome of remote writes to a node (R386). -/
  | lseq (w : Single)
  /-- Returns a page's tier word or the demotion counter (R393). -/
  | tierq (w : Single)
  /-- Waits for a change of the demotion counter (R394). -/
  | evwait (w : Single)
  /-- Team-collective copy slice to the copy engine (R292). -/
  | cpy (w : Eng)
  /-- Acknowledged multicast copy to a member list (R293). -/
  | cpym (w : Eng)
  /-- Refusing multicast copy with gate words (R295). -/
  | cpyr (w : Eng)
  /-- Copy into scratch with a follow-on tile operation (R296). -/
  | cpyf (w : Eng)
  /-- Initialises a completion ring header (R289). -/
  | crinit (w : Eng)
  /-- Waits on a completion ring slot and acquires it (R289). -/
  | await (w : Eng)
  /-- Releases completion ring slots (R289). -/
  | rslot (w : Eng)
  /-- Writes a chart node (R300). -/
  | node (w : Eng)
  /-- Arms a chart node (R301). -/
  | arm (w : Eng)
  /-- Issues a ply of sub-launches to the front end (R305). -/
  | ply (w : Eng)
  /-- Adapter prefetch hint copy into scratch (R297). -/
  | adpf (w : Eng)
  /-- Dense tile multiply-accumulate (R321). -/
  | mma (w : Eng)
  /-- 2:4-sparse tile multiply-accumulate (R321). -/
  | mmas (w : Eng)
  /-- Grouped tile multiply-accumulate with four B tiles (R321). -/
  | mmg (w : Eng)
  /-- Packs registers into a plane tile in scratch (R324). -/
  | pln (w : Eng)
  /-- Loads an accumulator tile (R325). -/
  | mlda (w : Eng)
  /-- Stores an accumulator tile (R325). -/
  | msta (w : Eng)
  /-- Zeros accumulator tiles (R326). -/
  | mzro (w : Eng)
  /-- Releases the matrix context (R326). -/
  | mrel (w : Eng)
  /-- Waits for tile operations on named tiles (R326). -/
  | mwait (w : Eng)
  /-- Pair-slot integer add (R56). -/
  | iaddPair (p : Slot) (qop : PairOp) (q : Slot)
  /-- Pair-slot integer subtract (R56). -/
  | isubPair (p : Slot) (qop : PairOp) (q : Slot)
  /-- Pair-slot integer multiply (R56). -/
  | imulPair (p : Slot) (qop : PairOp) (q : Slot)
  /-- Pair-slot integer multiply-add (R56). -/
  | imadPair (p : Slot) (qop : PairOp) (q : Slot)
  /-- Pair-slot integer minimum (R56). -/
  | iminPair (p : Slot) (qop : PairOp) (q : Slot)
  /-- Pair-slot integer maximum (R56). -/
  | imaxPair (p : Slot) (qop : PairOp) (q : Slot)
  /-- Pair-slot bitwise AND (R56). -/
  | andPair (p : Slot) (qop : PairOp) (q : Slot)
  /-- Pair-slot bitwise OR (R56). -/
  | orPair (p : Slot) (qop : PairOp) (q : Slot)
  /-- Pair-slot bitwise XOR (R56). -/
  | xorPair (p : Slot) (qop : PairOp) (q : Slot)
  /-- Pair-slot shift left (R56). -/
  | shlPair (p : Slot) (qop : PairOp) (q : Slot)
  /-- Pair-slot logical shift right (R56). -/
  | shrPair (p : Slot) (qop : PairOp) (q : Slot)
  /-- Pair-slot arithmetic shift right (R56). -/
  | sraPair (p : Slot) (qop : PairOp) (q : Slot)
  /-- Pair-slot move (R56). -/
  | movPair (p : Slot) (qop : PairOp) (q : Slot)
  /-- Pair-slot select (R56). -/
  | selPair (p : Slot) (qop : PairOp) (q : Slot)
  /-- Pair-slot floating-point add (R56). -/
  | faddPair (p : Slot) (qop : PairOp) (q : Slot)
  /-- Pair-slot floating-point subtract (R56). -/
  | fsubPair (p : Slot) (qop : PairOp) (q : Slot)
  /-- Pair-slot floating-point multiply (R56). -/
  | fmulPair (p : Slot) (qop : PairOp) (q : Slot)
  /-- Pair-slot fused multiply-add (R56). -/
  | fmaPair (p : Slot) (qop : PairOp) (q : Slot)
  /-- Pair-slot floating-point minimum (R56). -/
  | fminPair (p : Slot) (qop : PairOp) (q : Slot)
  /-- Pair-slot floating-point maximum (R56). -/
  | fmaxPair (p : Slot) (qop : PairOp) (q : Slot)
  /-- Pair-slot floating-point absolute value (R56). -/
  | fabsPair (p : Slot) (qop : PairOp) (q : Slot)
  /-- Pair-slot floating-point negation (R56). -/
  | fnegPair (p : Slot) (qop : PairOp) (q : Slot)
  /-- A lane word completes when its results, loads, held stores and pushes are in place (R64). -/
  | laneWordComplete
  /-- After SEXIT the course retires once its pending count reaches zero (R91). -/
  | courseRetire
  /-- The AAE forms and pushes the next operand-queue entry when there is room (R83). -/
  | feedEntryForm
  /-- A write to a watched line wakes the listed courses to test again (R223). -/
  | wakeup
  /-- A waiting course without a monitor tests again at each 1 us expiry (R223). -/
  | repollTimer
  /-- A cluster unit returns an idle line hold to its home after 2 us (R216). -/
  | holdReturn
  /-- A store held for 2 us forces a timed checkpoint (R181). -/
  | heldStoreTimeout
  /-- A parked GRAFT with no partner ends with status ALONE (R178). -/
  | graftParkTimeout
  /-- When all courses of a context wait internally past the period, every team is killed with WDOG (R234). -/
  | watchdogFire
  /-- The N2 raises every resident course's logical clock each microsecond (R241). -/
  | lclockAdvance
  /-- A credit or bound change re-evaluates stalled words oldest first (R344). -/
  | gateReevaluate
  /-- The home's performed or blocked report for a spool test returns and credits its charge (R438). -/
  | spoolTestReply
  /-- A copy finishes, writes its ring record, advances WP and arrives at its barrier (R291). -/
  | copyComplete
  /-- A multicast member performs or fails, completing the slot when all are resolved (R294). -/
  | multicastMemberDone
  /-- After a CPYF's last byte lands the copy engine issues its tile operation (R296). -/
  | followOnIssue
  /-- The array starts a ready tile operation when free and holding a token (R313). -/
  | tileOpStart
  /-- A tile operation writes its 32 x 32 results in one step (R321). -/
  | tileOpEnd
  /-- A core returns its token after 64 operations or 32 idle cycles (R328). -/
  | tokenIdleReturn
  /-- The walker finishes a node and decrements its successors (R302). -/
  | nodeComplete
  /-- A ply retires as one unit when every sub-launch has ended (R305). -/
  | plyComplete
  /-- A launch completes with a release when its courses retire and writes are performed (R259). -/
  | launchComplete
  /-- A fault record is posted to the context's fault ring once a slot is free (R356). -/
  | faultRingPost
  /-- The swift takes packets from ready rings in deficit-weighted order (R402). -/
  | swiftTake
  /-- A write to a notify line wakes the scheduler to map the queue (R401). -/
  | queueNotify
  /-- An empty unpinned queue is unmapped and WPTR re-read (R401). -/
  | queueUnmap
  /-- At a scheduling event the scheduler places a head's next gang on eligible cores (R406). -/
  | gangPlace
  /-- A head blocked for AGE takes a reservation in a cluster (R408). -/
  | reservationAge
  /-- A held tick-aligned launch starts its courses at a tick (R411). -/
  | tickStart
  /-- At tick minus %vbnd the outgoing context's vacate request is sent (R412). -/
  | gangswVacate
  /-- The incoming gang starts on every die at the tick or after the overrun (R351). -/
  | gangswIncomingStart
  /-- A die not saved by request plus 4 x %vbnd discards and the context is LOST (R351). -/
  | vacateCeiling
  /-- A vacate request stops issue and each cluster applies its committed option (R347). -/
  | vacateRequest
  /-- The last die's save handshake ends and %vmeas is recorded (R342). -/
  | saveComplete
  /-- The scheduler moves a waiting course's state out of the pool (R27). -/
  | swapOut
  /-- A woken swapped course is swapped in once it fits within %vbnd (R346). -/
  | swapIn
  /-- The standby needle takes over and re-executes the packet in progress (R413). -/
  | needleFailover
  /-- A verified patch takes over at a quiescent packet boundary (R415). -/
  | fwupdTakeover
  /-- A target device checks, translates and performs an arriving remote packet (R374). -/
  | remoteRequest
  /-- An acknowledgement or result of a remote packet returns to the issuer (R383). -/
  | remoteAck
  /-- A packet unacknowledged after 20 us is resent on another path (R383). -/
  | retransmit
  /-- At the link timeout the port asks the target and marks DONE, DROPPED or INDET (R384). -/
  | linkResolve
  /-- A home device delegates a line to a switch slice (R377). -/
  | lineDelegate
  /-- The home recalls a delegated line within 20 us (R377). -/
  | delegationRecall
  /-- The borrower renews a loan every TERM/4 (R389). -/
  | loanRenew
  /-- A borrower without acknowledgement for one TERM marks the loan lost (R389). -/
  | loanLost
  /-- A lender reuses a region after 2 x TERM without renewal (R389). -/
  | lenderReuse
  /-- A received recall sets the loan moving and starts the drain and copy (R390). -/
  | recallReceive
  /-- After the copy, leaves are rewritten, counters bumped and RELEASED sent (R390). -/
  | recallMoveDone
  /-- An EVWAIT with a timeout ends after IMM us returning the comparand (R394). -/
  | evwaitTimeout
  /-- Places and runs a kernel launch (R399). -/
  | launch
  /-- Arms a chart node as ARM does (R399). -/
  | armnode
  /-- Runs a ply as PLY does (R399). -/
  | plyrun
  /-- Retires when it reaches the head of its ring (R399). -/
  | mark
  /-- Defines a partition of clusters and pseudo-channel groups (R399). -/
  | part
  /-- Creates a context with its save area and fault ring (R399). -/
  | ctxnew
  /-- Kills and frees a context (R399). -/
  | ctxdel
  /-- Sets a context's page-table root (R399). -/
  | ptroot
  /-- Invalidates translations of a range (R111). -/
  | tlbinv
  /-- Writes a grant-table entry (R99). -/
  | grant
  /-- Registers a submission queue (R401). -/
  | qreg
  /-- Unregisters a queue after its taken packets retire (R399). -/
  | qunreg
  /-- Sets a context parameter (R402). -/
  | setp
  /-- Writes a tenant's WAYS mask in every slice (R210). -/
  | ways
  /-- Writes a publish-table entry's VBASE and VLEN (R250). -/
  | pubt
  /-- Lends a region as a loan (R387). -/
  | loanLend
  /-- Maps a loan entry on the borrower (R387). -/
  | loanMap
  /-- Recalls a loan (R390). -/
  | loanRecall
  /-- Ends a loan (R387). -/
  | loanEnd
  /-- Vacates a context (R347). -/
  | preempt
  /-- Resumes a vacated context (R348). -/
  | resume
  /-- Answers a posted fault with RETRY (R353). -/
  | faultansRetry
  /-- Answers a posted fault with RESUME (R353). -/
  | faultansResume
  /-- Answers a posted fault with KILL (R353). -/
  | faultansKill
  /-- Schedules a gang switch at a tick (R412). -/
  | gangsw
  /-- Writes a counter set to a device range (R399). -/
  | query
  /-- Starts a live firmware update (R415). -/
  | fwupd
  /-- Writes a signed attestation report (R434). -/
  | attest
  /-- Host write of the package budget, changing Tmax and tokens (R435). -/
  | hpbudgetWrite
  /-- Host write of the management ring location (R430). -/
  | mringWrite
  /-- Host write of a control register with no row of its own (R430). -/
  | hostRegWrite
  /-- A host CXL.mem write performed at the home slice (R260). -/
  | hostMemWrite
  /-- A host CXL.mem read served at the home slice (R431). -/
  | hostMemRead
  /-- A fabric port fails training or dies and routing avoids it (R432). -/
  | portLinkDown
  /-- Reset runs the boot stages through attestation readiness (R433). -/
  | deviceReset
  /-- Above 100 C the token count falls by one per ring every 10 ms, rising again below 95 C (R435). -/
  | thermalThrottle
  /-- A junction temperature of 110 C resets the device (R436). -/
  | thermalShutdown
  /-- The host's response to a back-invalidate snoop arrives and the held write to the HDM-DB line is performed (R431). -/
  | backInvalidateResponse
  /-- A host write to the header line of a mapped submission ring in host memory reaches the snoop filter and sets the ring's
  ready bit (R401). -/
  | ringHeaderSnoop
  /-- A lender receives a loan renewal and acknowledges it (R389). -/
  | renewalReceive
  /-- A borrower receives the lender's renewal acknowledgement, which keeps the loan from being marked lost (R389). -/
  | renewalAckReceive
  /-- A lender receives RELEASED for a recalled loan and may reuse the region (R390). -/
  | releasedReceive
  /-- A missed Voxed heartbeat detects a failed device of a job and starts membership agreement and resume (R417). -/
  | missedHeartbeat
deriving DecidableEq, Repr

end Sys2Proof
end

