-- ==== Sys2Proof/Machine/Legal.lean ====
section
/-! DEFINITION. Which words are instructions: the field rules of every lane and scalar word, each violation with its
detail code (R36, R43, R44, R55, R57, R61 and the field tables of the instruction entries). -/

namespace Sys2Proof.Legal

/-- Element width of a TYPE code (R48). -/
def width (ty : Nat) : Nat :=
  match ty with
  | 0 => 32 | 1 => 32 | 2 => 32 | 3 => 16 | 4 => 16 | 5 => 8 | 6 => 8 | 7 => 8
  | 8 => 16 | 9 => 16 | 10 => 8 | 11 => 8 | 12 => 4 | 13 => 4 | 14 => 2 | _ => 32

/-- Elements of a TYPE in a 32-bit register (R48). -/
def count (ty : Nat) : Nat := 32 / width ty

/-- INT of R138. -/
def isInt (ty : Nat) : Bool := [0, 1, 8, 9, 10, 11, 12, 13, 14].contains ty

/-- SGN of R138. -/
def isSigned (ty : Nat) : Bool := [0, 8, 10, 12, 14].contains ty

/-- FP of R138. -/
def isFp (ty : Nat) : Bool := [2, 3, 4].contains ty

/-- A code that names a v register below the allocation (R44). -/
def isV (regs : Nat) (code : BitVec 8) : Bool := code.toNat < 192 && code.toNat < regs

/-- A queue code (R44). -/
def isQ (code : BitVec 8) : Bool := 0xC0 ≤ code.toNat && code.toNat < 0xD0

/-- A g code (R44). -/
def isG (code : BitVec 8) : Bool := 0xD0 ≤ code.toNat && code.toNat < 0xE0

/-- An x code (R44). -/
def isX (code : BitVec 8) : Bool := 0xE0 ≤ code.toNat && code.toNat < 0xF0

/-- An x code or 0xF1, "x or –" of R201 and R320. -/
def isXOrNone (code : BitVec 8) : Bool := isX code || code == 0xF1

/-- A source code legal for its position (R44); immOk says whether 0xF0 is. -/
def srcOk (regs : Nat) (immOk : Bool) (code : BitVec 8) : Bool :=
  if code.toNat < 0xC0 then code.toNat < regs
  else if code.toNat < 0xF0 then true
  else if code == 0xF0 then immOk
  else code.toNat ≤ 0xF5

/-- A destination code legal for its position (R44). -/
def dstOk (regs : Nat) (u : Bool) (code : BitVec 8) : Bool := isV regs code || (isG code && u)

/-- An x group of n registers (R283). -/
def isGroup (n : Nat) (code : BitVec 8) : Bool := isX code && code.toNat - 0xE0 + n ≤ 16

/-- W registers from code on are allocated v registers (R198, R267). -/
def wideV (regs W : Nat) (code : BitVec 8) : Bool := isV regs code && code.toNat + W ≤ regs

/-- The special registers of R69. -/
def srAssigned (n : Nat) : Bool :=
  n ≤ 0x00C || (0x010 ≤ n && n ≤ 0x020) || (0x030 ≤ n && n ≤ 0x033) || (0x040 ≤ n && n ≤ 0x04F)
    || (0x050 ≤ n && n ≤ 0x055)

/-- The special registers SWR may write: W1C %faultmask0-7 and RW %fpflags (R69). -/
def srWritable (n : Nat) : Bool := (0x018 ≤ n && n ≤ 0x01F) || n == 0x020

/-- What the entry of a single-format instruction asks of its fields. -/
structure Rule where
  /-- the source codes the instruction reads -/
  src : List (BitVec 8) := []
  /-- its destination code -/
  dst : Option (BitVec 8) := none
  /-- 0xF0 is a legal source -/
  immOp : Bool := false
  /-- IMM is the class's own field, and its value is in range -/
  immOwn : Bool := false
  immOk : Bool := true
  selOk : Bool := false
  modOk : Bool := false
  satOk : Bool := false
  tyOk : Bool := false
  rndOk : Bool := false
  uOk : Bool := false
  scopeOk : Bool := false
  /-- further operand conditions (detail 4) -/
  opOk : Bool := true

/-- The lowest detail code of R61 that the word breaks, none for a legal word. -/
def Rule.detail (regs : Nat) (w : Single) (r : Rule) : Option Nat :=
  let usesImm := r.immOp && r.src.contains 0xF0
  if !((usesImm || r.immOwn || w.imm == 0) && r.immOk && (r.selOk || w.sel == 0) && (r.modOk || w.mod == 0)
      && (r.satOk || !w.sat)) then some 3
  else if !(r.src.all (srcOk regs r.immOp) && r.dst.all (dstOk regs w.u) && r.opOk) then some 4
  else if !(r.tyOk && (r.rndOk || w.rnd == 0) && (r.uOk || !w.u) && (r.scopeOk || w.scope == 0)) then some 5
  else if 1 < (r.src.filter isQ).length then some 7
  else none

/-- SEL and EHI of R137: 0, or the broadcast of an element of B. -/
def bcastOk (w : Single) (hasB : Bool) : Bool :=
  let hi := w.mod.getLsbD 15
  if w.sel.toNat < 8 then w.sel == 0 && !hi
  else hasB && width w.ty.toNat < 32 && (w.sel.toNat - 8 + (if hi then 8 else 0)) < count w.ty.toNat
    && (!hi || w.ty == 14)

/-- The rule of an arithmetic instruction (R137, R139). -/
def arith (w : Single) (tys : Nat → Bool) (src : List (BitVec 8)) (hasB sat rnd : Bool) (modMax : Nat) : Rule :=
  let m := w.mod.toNat % 0x8000
  { src := src, dst := some w.d, immOp := true, selOk := true, modOk := true, satOk := sat, tyOk := tys w.ty.toNat,
    rndOk := rnd, uOk := true, immOk := bcastOk w hasB && m ≤ modMax }

/-- SCALE of a MOD field that holds it at bit lo: 0 to 4 (R198, R217). -/
def scaleOk (m : BitVec 16) (lo : Nat) : Bool := (m.toNat / 2 ^ lo) % 8 ≤ 4

/-- LD, ST, LDS, STS (R198). -/
def memRule (regs : Nat) (w : Single) (store scratch : Bool) : Rule :=
  let width := w.mod.toNat / 32 % 4
  let ord := w.mod.getLsbD 7
  let W := 2 ^ width
  { src := w.a :: (if store then [w.d] else []), dst := if store then none else some w.d, immOwn := true,
    selOk := !scratch,
    modOk := true,
    immOk := scaleOk w.mod 0 && width ≤ 2 && w.mod.toNat < 256 && (!scratch || (w.mod.toNat / 8 % 4 == 0 && !ord)),
    tyOk := w.ty.toNat ≤ 11 && (width == 0 || Legal.width w.ty.toNat == 32),
    scopeOk := ord && w.scope.toNat ≤ 4,
    opOk := if store then (w.d.toNat ≥ 192 && width == 0) || wideV regs W w.d else wideV regs W w.d }

/-- ATOM, ATOMC, RED (R215, R217, R218). -/
def atomRule (regs : Nat) (w : Single) (hasD hasC : Bool) : Rule :=
  let op := w.mod.toNat % 16
  let scr := w.mod.getLsbD 7
  { src := [w.a, w.b] ++ (if hasC then [w.c] else []), dst := if hasD then some w.d else none, immOwn := true,
    selOk := !scr, modOk := true,
    immOk := scaleOk w.mod 4 && w.mod.toNat < 1024 && (if hasC then op == 0 else op ≤ 8),
    tyOk := w.ty.toNat ≤ 2 && (w.ty != 2 || hasC || [0, 1, 2, 6].contains op),
    scopeOk := if scr then w.scope.toNat ≤ 1 else 2 ≤ w.scope.toNat && w.scope.toNat ≤ 4,
    opOk := !hasD || isV regs w.d }

/-- Scope 2 to 4. -/
def wideScope (w : Single) : Bool := 2 ≤ w.scope.toNat && w.scope.toNat ≤ 4

/-- A spool word (R267). -/
def spoolRule (regs : Nat) (w : Single) (data store : Bool) (modOk : Bool) : Rule :=
  let W := 2 ^ (w.mod.toNat % 8)
  { src := if store then [w.d] else [], dst := if store then none else some w.d, immOwn := true, selOk := true,
    modOk := true, immOk := modOk,
    tyOk := if data then w.ty.toNat ≤ 2 else w.ty == 0,
    opOk := if store && w.mod.toNat % 8 == 0 && w.d.toNat ≥ 192 then true
            else wideV regs (if data then W else 1) w.d }

/-- A remote-class word (R378). -/
def remoteRule (w : Single) (src : List (BitVec 8)) (dst : Option (BitVec 8)) (tyOk modOk opOk : Bool) : Rule :=
  { src := src, dst := dst, immOwn := true, selOk := true, modOk := true, immOk := modOk, tyOk := tyOk,
    scopeOk := w.scope == 4, opOk := opOk }

/-- RLD and RST (R378): WIDTH, SCALE and HINT as LD has them. -/
def remoteMem (regs : Nat) (w : Single) (store : Bool) : Rule :=
  let width := w.mod.toNat / 32 % 4
  let W := 2 ^ width
  remoteRule w (w.a :: w.b :: (if store then [w.d] else [])) (if store then none else some w.d)
    (w.ty.toNat ≤ 11 && (width == 0 || Legal.width w.ty.toNat == 32))
    (scaleOk w.mod 0 && width ≤ 2 && w.mod.toNat < 256)
    (if store then (w.d.toNat ≥ 192 && width == 0) || wideV regs W w.d else wideV regs W w.d)

/-- SEL must be 0 and SCOPE 4 was the only allowed value: a remote word must carry SCOPE 4 (R378). -/
def remoteDetail (regs : Nat) (w : Single) (r : Rule) : Option Nat :=
  match Rule.detail regs w r with
  | some d => if d ≤ 5 then some d else if w.scope != 4 then some 5 else some d
  | none => if w.scope != 4 then some 5 else none

/-- A word whose SCOPE may not be 0 (R215, R225, R245): the rule above lets 0 pass, this does not. -/
def scopedDetail (regs : Nat) (w : Single) (ok : Bool) (r : Rule) : Option Nat :=
  match Rule.detail regs w r with
  | some d => if d ≤ 5 then some d else if !ok then some 5 else some d
  | none => if !ok then some 5 else none

/-- CVT's part selector (R126). -/
def cvtPartOk (src dst sel : Nat) : Bool :=
  let ns := count src
  let nd := count dst
  if ns == nd then sel == 0 else if nd < ns then sel < ns / nd else sel < nd / ns

/-- The conversion class (R125). -/
def cvtRule (w : Single) : Rule :=
  let dt := w.mod.toNat % 16
  { src := [w.a], dst := some w.d, immOp := true, selOk := true, modOk := true, satOk := true, rndOk := true, uOk := true,
    immOk := w.mod.toNat < 16 && (dt == 15 || w.ty == 15 || cvtPartOk w.ty.toNat dt w.sel.toNat),
    tyOk := w.ty != 15 && dt != 15 && dt != w.ty.toNat }

/-- An engine word's violation of R284, R285 and R320. -/
structure EngRule where
  eaUsed : Bool := false
  ebOk : Bool := false
  immOk : Bool := false
  exOk : Bool := false
  /-- operand conditions, detail 4 -/
  opOk : Bool := true
  /-- type conditions, detail 5 -/
  tyOk : Bool := true
  /-- sources read, for the queue count -/
  src : List (BitVec 8) := []

/-- The lowest detail code an engine word breaks. -/
def EngRule.detail (regs : Nat) (w : Eng) (r : EngRule) : Option Nat :=
  if !((r.eaUsed || w.ea == 0) && (r.ebOk || w.eb == 0) && (r.immOk || w.imm == 0) && r.exOk) then some 3
  else if !(r.src.all (srcOk regs false) && r.opOk) then some 4
  else if !r.tyOk then some 5
  else if 1 < (r.src.filter isQ).length then some 7
  else none

/-- A D that is a v register or 0xF1 (R284). -/
def dOrNone (regs : Nat) (code : BitVec 8) : Bool := isV regs code || code == 0xF1

/-- The types a tile operand may have (R307). -/
def tileTy (ty : Nat) : Bool := [3, 4, 5, 6, 7, 10, 11, 12, 13, 14].contains ty

/-- ETYPE of R285, detail 3 part. -/
def etypeOk (ex : BitVec 32) : Bool :=
  let e := ex.toNat / 2 ^ 13 % 16
  if ex.getLsbD 18 then e != 15 else [0, 2, 3, 4].contains e && !ex.getLsbD 17

/-- EX of a copy (R285): reserved bit 19, FOLLOW only in CPYF. -/
def copyExOk (w : Eng) (follow : Bool) : Bool :=
  !w.ex.getLsbD 19 && etypeOk w.ex
    && (if follow then w.ex.toNat % 64 == 0 else w.ex.toNat % 2 ^ 13 == 0)
    && (!w.ex.getLsbD 21 || w.ea == 0)

/-- PACK's element type must be a tile type (R285). -/
def packTyOk (ex : BitVec 32) : Bool := !ex.getLsbD 18 || tileTy (ex.toNat / 2 ^ 13 % 16)

/-- p of R307: the planes of a tile type. -/
def planes (ty : Nat) : Nat :=
  match ty with
  | 3 => 11 | 4 => 8 | 5 => 4 | 6 => 3 | 7 => 7 | 10 => 8 | 11 => 8 | 12 => 4 | 13 => 4 | 14 => 2 | _ => 0

/-- The pairs of types of R319. -/
def tilePair (ta tb : Nat) : Bool :=
  ([3, 4, 5, 6].contains ta && [3, 4, 5, 6].contains tb) || (ta == 7 && tb == 7)
    || ([10, 11, 12, 13, 14].contains ta && [10, 11, 12, 13, 14].contains tb)

/-- PB and RZ of a tile operation (R319, R320), detail 3: PB is judged by a type A of R307, RZ by an integer pair. -/
def tilePrecOk (ta tb pb : Nat) (rz : Bool) : Bool :=
  (!tileTy ta || (1 ≤ pb && pb ≤ planes ta)) && !(rz && tilePair ta tb && 10 ≤ ta)

/-- Registers PLN reads (R324). -/
def plnRegs (ty lay : Nat) : Nat :=
  let n := if lay == 2 then 2048 else 4096
  (n * width ty + 8191) / 8192

/-- MMA, MMAS, MMG (R319, R320): imm says whether the rest of IMM is in range, bo whether BOFF is used. -/
def tileRule (w : Eng) (imm bo opOk : Bool) : EngRule :=
  let ta := w.imm.toNat / 4096
  let tb := w.imm.toNat / 256 % 16
  { immOk := imm, opOk := opOk, tyOk := tilePair ta tb,
    exOk := !w.ex.getLsbD 0 && (bo || w.ex.toNat / 256 % 4096 == 0)
      && tilePrecOk ta tb (w.ex.toNat / 16 % 16) (w.ex.getLsbD 1) }

/-- The pair opcodes' types (R57). -/
def pairTyOk (op : PairOp) (pty : Nat) : Bool :=
  match op with
  | .iadd | .isub | .imul | .imad | .imin | .imax | .shl | .shr | .sra => [0, 1, 5, 6].contains pty
  | .and | .or | .xor | .mov | .sel => pty ≤ 6
  | .fadd | .fsub | .fmul | .fma | .fmin | .fmax | .fabs | .fneg => [2, 3, 4].contains pty

/-- The sources a pair opcode reads (R139). -/
def pairSrc (op : PairOp) (s : Slot) : List (BitVec 8) :=
  match op with
  | .imad | .sel | .fma => [s.a, s.b, s.c]
  | .mov | .fabs | .fneg => [s.a]
  | .iadd | .isub | .imul | .imin | .imax | .and | .or | .xor | .shl | .shr | .sra
  | .fadd | .fsub | .fmul | .fmin | .fmax => [s.a, s.b]

/-- The pair opcodes that round (R139). -/
def pairRounds (op : PairOp) : Bool :=
  match op with
  | .fadd | .fsub | .fmul | .fma => true
  | .iadd | .isub | .imul | .imad | .imin | .imax | .and | .or | .xor | .shl | .shr | .sra | .mov | .sel
  | .fmin | .fmax | .fabs | .fneg => false

/-- The lowest detail code a pair word breaks (R55, R57, R61); a second queue code breaks rule 5 of R55 and gives 6. -/
def pairDetail (regs : Nat) (pop : PairOp) (p : Slot) (qop : PairOp) (q : Slot) : Option Nat :=
  let srcs := pairSrc pop p ++ pairSrc qop q
  let vs := (srcs.filter fun x => x.toNat < 192).eraseDups
  if !(srcs.all (srcOk regs false) && (isV regs p.d || (isG p.d && p.u)) && (isV regs q.d || (isG q.d && q.u))) then some 4
  else if !(pairTyOk pop p.pty.toNat && pairTyOk qop q.pty.toNat && (pairRounds pop || p.rnd == 0)
      && (pairRounds qop || q.rnd == 0)) then some 5
  else if !(isV regs p.d && isV regs q.d && p.d.toNat % 4 != q.d.toNat % 4 && !(pairSrc qop q).contains p.d
      && vs.length ≤ 4 && (List.range 4).all (fun b => (vs.filter fun x => x.toNat % 4 == b).length ≤ 2)
      && (srcs.filter isQ).length ≤ 1) then some 6
  else none

/-- REDL and SCANL accept a rounding mode for an f32 sum only (R157). -/
def reduceRnd (w : Single) : Bool := w.ty == 2 && w.mod.toNat % 8 == 0

/-- The lowest detail code of R61 that a word breaks when the launch allocates regs v registers; none for an
instruction. Events and commands are no words and break nothing. -/
def detail (regs : Nat) (i : Instr) : Option Nat :=
  match i with
  | .cget _ _ which => if which.toNat ≤ 4 then none else some 4
  | .qfeed _ _ b => if b.toNat ≤ 25 then none else some 4
  | .cbnd _ _ b => if b.toNat ≤ 28 then none else some 4
  | .srd _ n => if srAssigned n.toNat then none else some 4
  | .swr _ n => if srWritable n.toNat then none else some 4
  | .xwait _ _ m => if 256 ≤ m.toNat then some 3 else if m.toNat / 16 % 8 ≤ 4 && m.toNat % 8 ≤ 3 then none else some 4
  | .add .. | .sub .. | .and .. | .or .. | .xor .. | .shl .. | .shr .. | .sra .. | .mul .. | .mulh .. | .mulhn ..
  | .divn .. | .remn .. | .min .. | .max .. | .minn .. | .maxn .. | .slt .. | .sltn .. | .seq .. | .clz .. | .popc ..
  | .addi .. | .andi .. | .ori .. | .xori .. | .shli .. | .shri .. | .srai .. | .slti .. | .sltni .. | .lui .. | .muli ..
  | .jr .. | .loop .. | .beq .. | .bne .. | .blt .. | .bge .. | .bltn .. | .bgen .. | .j .. | .jal .. | .lrun .. | .ljmp ..
  | .lsync | .xrq .. | .qhalt .. | .qstat .. | .xld .. | .xst .. | .cld .. | .cst .. | .cperm .. | .cmov .. | .strap ..
  | .sexit | .nop => none
  -- integer class (R139)
  | .iadd w | .isub w | .imul w => (arith w isInt [w.a, w.b] true true false 0).detail regs w
  | .imulh w | .bfe w => (arith w (· ≤ 1) [w.a, w.b] true false false 0).detail regs w
  | .imad w => (arith w isInt [w.a, w.b, w.c] true true false 0).detail regs w
  | .imin w | .imax w | .shlLane w | .shrLane w | .sraLane w | .rot w =>
    (arith w isInt [w.a, w.b] true false false 0).detail regs w
  | .iabs w | .ineg w => (arith w isSigned [w.a] false true false 0).detail regs w
  | .andLane w | .orLane w | .xorLane w => (arith w (· ≤ 14) [w.a, w.b] true false false 0).detail regs w
  | .not w | .mov w => (arith w (· ≤ 14) [w.a] false false false 0).detail regs w
  | .bfi w => (arith w (· ≤ 1) [w.a, w.b, w.c] true false false 0).detail regs w
  | .popcLane w | .clzLane w | .brev w => (arith w isInt [w.a] false false false 0).detail regs w
  | .sel w => (arith w (· ≤ 14) [w.a, w.b, w.c] true false false 0).detail regs w
  | .idp4 w => (arith w ([10, 11, 12, 13].contains ·) [w.a, w.b, w.c] false true false 1).detail regs w
  -- float class
  | .fadd w | .fsub w | .fmul w => (arith w isFp [w.a, w.b] true true true 0).detail regs w
  | .fma w => (arith w isFp [w.a, w.b, w.c] true true true 3).detail regs w
  | .fmin w | .fmax w => (arith w isFp [w.a, w.b] true false false 1).detail regs w
  | .fabs w | .fneg w => (arith w isFp [w.a] false false false 0).detail regs w
  | .fcpys w => (arith w isFp [w.a, w.b] true false false 0).detail regs w
  | .frnd w => (arith w isFp [w.a] false false true 1).detail regs w
  | .fclass w => (arith w isFp [w.a] false false false 0).detail regs w
  | .fdp2 w => (arith w ([3, 4].contains ·) [w.a, w.b, w.c] true true true 0).detail regs w
  -- special functions
  | .rcp w | .sqrt w => (arith w isFp [w.a] false true true 0).detail regs w
  | .rsq w | .exp2 w | .log2 w | .sinp w | .cosp w | .tanh w => (arith w isFp [w.a] false true false 0).detail regs w
  -- conversion class (R125)
  | .cvt w => (cvtRule w).detail regs w
  | .pack w =>
    Rule.detail regs w { src := [w.a, w.b], dst := some w.d, immOp := true, selOk := true, modOk := true, satOk := true,
                         rndOk := true, uOk := true, tyOk := 3 ≤ w.ty.toNat && w.ty.toNat ≤ 14,
                         immOk := w.mod.toNat ≤ 1 && (w.ty.toNat < 3 || w.ty == 15 || w.sel.toNat < count w.ty.toNat / 2) }
  | .unpk w =>
    Rule.detail regs w { src := [w.a, w.b], dst := some w.d, immOp := true, modOk := true, uOk := true,
                         tyOk := 3 ≤ w.ty.toNat && w.ty.toNat ≤ 14, immOk := w.mod.toNat ≤ 1 }
  | .scacc w =>
    Rule.detail regs w { src := [w.a, w.b, w.c], dst := some w.d, immOp := true, selOk := true, modOk := true, uOk := true,
                         tyOk := w.ty == 2, immOk := w.mod.toNat ≤ 1 && (w.mod == 0 || w.sel == 0) }
  | .scale w =>
    Rule.detail regs w { src := [w.a, w.b], dst := some w.d, immOp := true, selOk := true, modOk := true, satOk := true,
                         rndOk := true, uOk := true, tyOk := [2, 3, 4, 5, 6].contains w.ty.toNat,
                         immOk := w.sel.toNat < 4 && w.mod.toNat < 32
                         && (!([2, 3, 4, 5, 6].contains w.ty.toNat) || w.mod.toNat / 2 < count w.ty.toNat) }
  | .bscl w =>
    Rule.detail regs w { src := [w.a], dst := some w.d, immOp := true, modOk := true, tyOk := w.ty == 2,
                         immOk := w.mod.toNat ≤ 2 }
  -- predicate class (R157)
  | .push w =>
    Rule.detail regs w { src := [w.a, w.b], immOp := true, modOk := true, tyOk := w.ty.toNat ≤ 2, immOk := w.mod.toNat ≤ 5 }
  | .vote w =>
    Rule.detail regs w { src := [w.a, w.b], immOp := true, modOk := true, tyOk := w.ty.toNat ≤ 2,
                         immOk := w.mod.toNat < 64 && w.mod.toNat % 16 ≤ 5 }
  | .pushv w => Rule.detail regs w { tyOk := w.ty == 0, opOk := 0xE0 ≤ w.a.toNat && w.a.toNat ≤ 0xE8 }
  | .pinv w | .pop w | .exit w | .nopl w => Rule.detail regs w { tyOk := w.ty == 0 }
  | .psav w => Rule.detail regs w { tyOk := w.ty == 0, dst := some w.d }
  | .prst w => Rule.detail regs w { tyOk := w.ty == 0, src := [w.a], immOp := true, immOk := w.imm == 0 }
  | .rqp w => Rule.detail regs w { tyOk := w.ty == 0, opOk := isV regs w.d, modOk := true, immOk := w.mod.toNat ≤ 3 }
  -- cross-lane and team class (R157)
  | .shfl w =>
    let pat := w.mod.toNat % 16
    let j := w.mod.toNat / 16
    Rule.detail regs w { src := [w.a, w.c], dst := some w.d, modOk := true, tyOk := w.ty == 0,
                         immOk := (pat ≤ 3 && j == 0) || (4 ≤ pat && pat ≤ 6 && 1 ≤ j && j ≤ 6) }
  | .shfli w => Rule.detail regs w { src := [w.a, w.b, w.c], dst := some w.d, immOwn := true, tyOk := w.ty == 0 }
  | .redl w =>
    Rule.detail regs w { src := [w.a], dst := some w.d, modOk := true, tyOk := w.ty.toNat ≤ 2, rndOk := reduceRnd w,
                         immOk := w.mod.toNat < 32 && w.mod.toNat % 8 ≤ 5 && !w.mod.getLsbD 3 }
  | .scanl w =>
    Rule.detail regs w { src := [w.a, w.c], dst := some w.d, modOk := true, tyOk := w.ty.toNat ≤ 2, rndOk := reduceRnd w,
                         immOk := w.mod.toNat < 32 && w.mod.toNat % 8 ≤ 5 }
  | .dswp w =>
    Rule.detail regs w { src := [w.a, w.c], dst := some w.d, immOwn := true, modOk := true, tyOk := w.ty == 0,
                         immOk := w.mod.toNat ≤ 2 && w.imm.toNat ≤ 3 }
  | .graft w => Rule.detail regs w { dst := some w.d, immOwn := true, tyOk := w.ty == 0 }
  | .join w => Rule.detail regs w { dst := some w.d, immOwn := true, tyOk := w.ty == 0, immOk := w.imm != 0 }
  | .leave w => Rule.detail regs w { dst := some w.d, tyOk := w.ty == 0 }
  | .tmemb w => Rule.detail regs w { dst := some w.d, modOk := true, tyOk := w.ty == 0, immOk := w.mod.toNat ≤ 2 }
  -- memory class
  | .ld w => (memRule regs w false false).detail regs w
  | .st w => (memRule regs w true false).detail regs w
  | .lds w => (memRule regs w false true).detail regs w
  | .sts w => (memRule regs w true true).detail regs w
  | .smap w =>
    Rule.detail regs w { src := [], dst := some w.d, immOwn := true, selOk := true, modOk := true, tyOk := w.ty == 0,
                         immOk := w.imm.toNat < 16 && w.mod.toNat ≤ 2,
                         opOk := isXOrNone w.a && isXOrNone w.b && isXOrNone w.c && isV regs w.d }
  | .sunmap w =>
    Rule.detail regs w { dst := some w.d, immOwn := true, modOk := true, tyOk := w.ty == 0, opOk := isV regs w.d,
                         immOk := w.imm.toNat < 16 && w.mod.toNat ≤ 1 }
  | .sflush w =>
    Rule.detail regs w { immOwn := true, modOk := true, tyOk := w.ty == 0,
                         immOk := w.imm.toNat < 16 && w.mod.toNat ≤ 1 && (w.mod != 1 || w.imm == 0) }
  | .pref w =>
    Rule.detail regs w { src := [w.a], immOwn := true, selOk := true, modOk := true, tyOk := w.ty == 0,
                         immOk := w.mod.toNat < 32 && scaleOk w.mod 0 }
  | .llock w | .lunlk w =>
    Rule.detail regs w { src := [w.a], dst := some w.d, immOwn := true, selOk := true, modOk := true, tyOk := w.ty == 0,
                         immOk := w.mod.toNat ≤ 4, opOk := isV regs w.d }
  -- atomics and synchronisation
  | .atom w => scopedDetail regs w (atomRule regs w true false).scopeOk (atomRule regs w true false)
  | .atomc w => scopedDetail regs w (atomRule regs w true true).scopeOk (atomRule regs w true true)
  | .red w => scopedDetail regs w (atomRule regs w false false).scopeOk (atomRule regs w false false)
  | .waitc w =>
    let ok := if w.mod.getLsbD 7 then wideScope w else w.scope == 0
    scopedDetail regs w ok { src := [w.a, w.b], dst := some w.d, immOwn := true, selOk := true, modOk := true, tyOk := w.ty == 0,
                             scopeOk := ok, opOk := isV regs w.d,
                             immOk := w.mod.toNat < 256 && w.mod.toNat % 8 ≤ 3 && scaleOk w.mod 3 }
  | .binit w =>
    scopedDetail regs w (wideScope w) { src := [w.a], dst := some w.d, immOwn := true, selOk := true, modOk := true,
                                        tyOk := w.ty == 0, scopeOk := true, immOk := w.mod.toNat ≤ 1, opOk := isV regs w.d }
  | .barv w =>
    Rule.detail regs w { src := w.a :: (if w.mod.getLsbD 2 then [w.b] else []), dst := some w.d, immOwn := true,
                         selOk := true, modOk := true, tyOk := w.ty == 0, immOk := w.mod.toNat ≤ 7, opOk := isV regs w.d }
  | .bwait w =>
    Rule.detail regs w { src := [w.a], dst := some w.d, immOwn := true, selOk := true, tyOk := w.ty == 0, opOk := isV regs w.d }
  | .binv w => Rule.detail regs w { dst := some w.d, immOwn := true, selOk := true, tyOk := w.ty == 0, opOk := isV regs w.d }
  | .tbar w => Rule.detail regs w { tyOk := w.ty == 0 }
  -- spools (R267)
  | .spinit w =>
    let ok := 1 ≤ w.scope.toNat && w.scope.toNat ≤ 4
    let r := spoolRule regs w false false
      (w.mod.toNat < 512 && w.mod.toNat % 8 ≤ 4 && w.mod.toNat / 8 % 32 ≤ 24 && w.sel != 15)
    scopedDetail regs w ok { r with scopeOk := true, tyOk := w.ty.toNat ≤ 2 }
  | .enq w => (spoolRule regs w true true (w.mod.toNat ≤ 4)).detail regs w
  | .deq w => (spoolRule regs w true false (w.mod.toNat ≤ 4)).detail regs w
  | .enqt w => (spoolRule regs w true true (w.mod.toNat < 16 && w.mod.toNat % 8 ≤ 4)).detail regs w
  | .deqt w => (spoolRule regs w true false (w.mod.toNat < 16 && w.mod.toNat % 8 ≤ 4)).detail regs w
  | .spqry w => (spoolRule regs w false false (w.mod.toNat ≤ 4)).detail regs w
  | .spfls w => (spoolRule regs w false false (w.mod == 0)).detail regs w
  -- ordering (R245)
  | .fence w | .acq w | .rel w =>
    let ok := 1 ≤ w.scope.toNat && w.scope.toNat ≤ 4
    scopedDetail regs w ok { tyOk := w.ty == 0, scopeOk := true }
  | .acqr w | .relr w =>
    scopedDetail regs w (wideScope w) { tyOk := w.ty == 0, scopeOk := true, selOk := true, modOk := true,
                                        immOk := w.mod.toNat ≤ 3 && w.sel.toNat + w.mod.toNat ≤ 15 }
  | .shdw w =>
    Rule.detail regs w { tyOk := w.ty == 0, selOk := true, modOk := true, immOk := w.mod.toNat ≤ 1, dst := some w.d,
                         opOk := isV regs w.d }
  | .publ w =>
    scopedDetail regs w (wideScope w) { tyOk := w.ty == 0, scopeOk := true, selOk := true, modOk := true, dst := some w.d,
                                        immOk := w.mod.toNat ≤ 1, opOk := isV regs w.d }
  -- system (R360)
  | .trap w | .brk w => Rule.detail regs w { tyOk := w.ty == 0, immOwn := true }
  | .ckpt w => Rule.detail regs w { tyOk := w.ty == 0 }
  | .vqry w =>
    Rule.detail regs w { tyOk := w.ty == 0, src := [w.a], dst := some w.d, modOk := true, opOk := isV regs w.d,
                         immOk := w.mod.toNat < 48 }
  | .srdl w =>
    Rule.detail regs w { tyOk := w.ty == 0, immOwn := true, dst := some w.d,
                         opOk := isV regs w.d && srAssigned w.imm.toNat && w.imm != 0x053 && w.imm != 0x055 }
  -- remote and lease (R378)
  | .rld w => remoteDetail regs w (remoteMem regs w false)
  | .rst w => remoteDetail regs w (remoteMem regs w true)
  | .ratom w =>
    let op := w.mod.toNat % 16
    remoteDetail regs w (remoteRule w ([w.a, w.b, w.c] ++ (if op == 9 then [w.d] else [])) none
      (w.ty.toNat ≤ 2 && (w.ty != 2 || [0, 1, 2, 6, 9].contains op))
      (w.mod.toNat < 1024 && op ≤ 9 && scaleOk w.mod 4 && !w.mod.getLsbD 7)
      (isV regs w.d || (w.d == 0xF1 && op != 9)))
  | .mcast w =>
    remoteDetail regs w (remoteRule w [w.a, w.d] none (w.ty.toNat ≤ 11)
      (scaleOk w.mod 0 && (w.mod.toNat == w.mod.toNat % 8 || w.mod.toNat == 0x80 + w.mod.toNat % 8)) (isGroup 3 w.b))
  | .rspr w => remoteDetail regs w (remoteRule w [w.a, w.b, w.d] none (w.ty.toNat ≤ 2) (w.mod == 0) true)
  | .lseq w => remoteDetail regs w (remoteRule w [w.b] (some w.d) (w.ty == 0) (w.mod == 0 && w.imm == 0 && w.sel == 0) (isV regs w.d))
  | .tierq w =>
    remoteDetail regs w (remoteRule w (if w.mod.getLsbD 3 then [] else [w.a]) (some w.d) (w.ty == 0)
      (w.mod.toNat < 16 && scaleOk w.mod 0 && (!w.mod.getLsbD 3 || (w.sel == 0 && w.imm == 0 && w.mod == 8))) (isV regs w.d))
  | .evwait w => remoteDetail regs w (remoteRule w [w.b] (some w.d) (w.ty == 0) (w.mod == 0 && w.sel == 0) (isV regs w.d))
  -- engine format: copies, rings, charts (R284, R285)
  | .cpy w =>
    EngRule.detail regs w { eaUsed := true, ebOk := !w.ex.getLsbD 20 || w.eb == 0, exOk := copyExOk w false, tyOk := packTyOk w.ex,
                            opOk := dOrNone regs w.d && isGroup 3 w.s1 }
  | .cpym w | .cpyr w =>
    EngRule.detail regs w { eaUsed := true, ebOk := true, exOk := copyExOk w false && !w.ex.getLsbD 20, tyOk := packTyOk w.ex,
                            opOk := dOrNone regs w.d && isGroup 3 w.s1 && isGroup 1 w.s2 }
  | .cpyf w =>
    let ta := w.imm.toNat / 4096
    let tb := w.imm.toNat / 256 % 16
    EngRule.detail regs w { eaUsed := true, immOk := w.imm.toNat % 256 == 0,
                            exOk := copyExOk w true && w.ex.getLsbD 20 && tilePrecOk ta tb (w.ex.toNat / 64 % 16) false,
                            tyOk := packTyOk w.ex && tilePair ta tb,
                            opOk := dOrNone regs w.d && isGroup 3 w.s1 && isGroup (if w.ex.getLsbD 12 then 5 else 2) w.s2 }
  | .crinit w =>
    EngRule.detail regs w { eaUsed := true, immOk := w.imm.toNat ≤ 16, exOk := w.ex.toNat < 8, tyOk := w.ex == 3 || w.ex == 4,
                            opOk := dOrNone regs w.d }
  | .await w => EngRule.detail regs w { eaUsed := true, exOk := w.ex == 0, opOk := isV regs w.d, src := [w.s1] }
  | .rslot w => EngRule.detail regs w { eaUsed := true, exOk := w.ex == 0, opOk := dOrNone regs w.d, src := [w.s1] }
  | .node w =>
    EngRule.detail regs w { eaUsed := true, ebOk := w.eb.toNat ≤ 11, exOk := w.ex == 0, opOk := dOrNone regs w.d && isGroup 4 w.s1 }
  | .arm w => EngRule.detail regs w { eaUsed := true, exOk := w.ex == 0, opOk := dOrNone regs w.d }
  | .ply w => EngRule.detail regs w { eaUsed := true, opOk := dOrNone regs w.d, exOk := w.ex.toNat % 2 ^ 27 == 0 }
  | .adpf w =>
    EngRule.detail regs w { eaUsed := true, immOk := true, opOk := dOrNone regs w.d && isGroup 3 w.s1,
                            exOk := w.ex.toNat % 2 ^ 13 == 0 && w.ex.toNat / 2 ^ 17 % 2 ^ 10 == 0 && etypeOk w.ex }
  -- matrix (R320; a column shown as a dash is unused and takes any code but a queue's, log 84)
  | .mma w => (tileRule w (w.imm.toNat % 256 == 0) true (isXOrNone w.s1 && isXOrNone w.s2)).detail regs w
  | .mmas w => (tileRule w (w.imm.toNat % 256 == 0 || w.imm.toNat % 256 == 16) true (isXOrNone w.s1 && isV regs w.s2)).detail regs w
  | .mmg w =>
    (tileRule w (w.imm.toNat % 256 == 0) false
      (isXOrNone w.s1 && 0xD0 ≤ w.s2.toNat && w.s2.toNat ≤ 0xDC)).detail regs w
  | .pln w =>
    let ty := w.imm.toNat / 4096
    let lay := w.ex.toNat % 4
    EngRule.detail regs w { immOk := w.imm.toNat % 4096 == 0, exOk := lay ≤ 2 && w.ex.toNat / 4 % 2 ^ 18 == 0,
                            tyOk := tileTy ty, opOk := isXOrNone w.s2 && wideV regs (plnRegs ty lay) w.s1 }
  | .mlda w | .msta w =>
    let scr := w.ex.getLsbD 31
    EngRule.detail regs w { eaUsed := !scr, immOk := true, opOk := isXOrNone w.s1 && !isQ w.s2,
                            exOk := w.ex.toNat % 4 == 0 && w.ex.toNat / 16 % 2 ^ 27 == 0 }
  | .mzro w | .mwait w =>
    EngRule.detail regs w { exOk := 1 ≤ w.ex.toNat && w.ex.toNat ≤ 15, opOk := !isQ w.s1 && !isQ w.s2 }
  | .mrel w => EngRule.detail regs w { exOk := w.ex == 0, opOk := !isQ w.s1 && !isQ w.s2 }
  -- pair words
  | .iaddPair p qop q => pairDetail regs .iadd p qop q
  | .isubPair p qop q => pairDetail regs .isub p qop q
  | .imulPair p qop q => pairDetail regs .imul p qop q
  | .imadPair p qop q => pairDetail regs .imad p qop q
  | .iminPair p qop q => pairDetail regs .imin p qop q
  | .imaxPair p qop q => pairDetail regs .imax p qop q
  | .andPair p qop q => pairDetail regs .and p qop q
  | .orPair p qop q => pairDetail regs .or p qop q
  | .xorPair p qop q => pairDetail regs .xor p qop q
  | .shlPair p qop q => pairDetail regs .shl p qop q
  | .shrPair p qop q => pairDetail regs .shr p qop q
  | .sraPair p qop q => pairDetail regs .sra p qop q
  | .movPair p qop q => pairDetail regs .mov p qop q
  | .selPair p qop q => pairDetail regs .sel p qop q
  | .faddPair p qop q => pairDetail regs .fadd p qop q
  | .fsubPair p qop q => pairDetail regs .fsub p qop q
  | .fmulPair p qop q => pairDetail regs .fmul p qop q
  | .fmaPair p qop q => pairDetail regs .fma p qop q
  | .fminPair p qop q => pairDetail regs .fmin p qop q
  | .fmaxPair p qop q => pairDetail regs .fmax p qop q
  | .fabsPair p qop q => pairDetail regs .fabs p qop q
  | .fnegPair p qop q => pairDetail regs .fneg p qop q
  -- events and commands
  | .laneWordComplete | .courseRetire | .feedEntryForm | .wakeup | .repollTimer | .holdReturn
  | .heldStoreTimeout | .graftParkTimeout | .watchdogFire | .lclockAdvance | .gateReevaluate
  | .spoolTestReply | .copyComplete | .multicastMemberDone | .followOnIssue | .tileOpStart
  | .tileOpEnd | .tokenIdleReturn | .nodeComplete | .plyComplete | .launchComplete | .faultRingPost
  | .swiftTake | .queueNotify | .queueUnmap | .gangPlace | .reservationAge | .tickStart
  | .gangswVacate | .gangswIncomingStart | .vacateCeiling | .vacateRequest | .saveComplete
  | .swapOut | .swapIn | .needleFailover | .fwupdTakeover | .remoteRequest | .remoteAck | .retransmit
  | .linkResolve | .lineDelegate | .delegationRecall | .loanRenew | .loanLost | .lenderReuse
  | .recallReceive | .recallMoveDone | .evwaitTimeout | .launch | .armnode | .plyrun | .mark
  | .part | .ctxnew | .ctxdel | .ptroot | .tlbinv | .grant | .qreg | .qunreg | .setp
  | .ways | .pubt | .loanLend | .loanMap | .loanRecall | .loanEnd | .preempt | .resume
  | .faultansRetry | .faultansResume | .faultansKill | .gangsw | .query | .fwupd | .attest
  | .hpbudgetWrite | .mringWrite | .hostRegWrite | .hostMemWrite | .hostMemRead | .portLinkDown
  | .deviceReset | .thermalThrottle | .thermalShutdown | .backInvalidateResponse | .ringHeaderSnoop
  | .renewalReceive | .renewalAckReceive | .releasedReceive | .missedHeartbeat => none

end Sys2Proof.Legal
end

