-- ==== Sys2Proof/Machine/Number.lean ====
section
/-! DEFINITION. Number formats: the value a pattern stands for, rounding into a format, and the flags (R113 to R124). -/

namespace Sys2Proof.Num

/-- The sticky flags of %fpflags: NV 4, DZ 3, OF 2, UF 1, NX 0 (R71). -/
abbrev Flags := BitVec 5

/-- Invalid operation. -/
def NV : Flags := 16

/-- Division by zero. -/
def DZ : Flags := 8

/-- Overflow. -/
def OF : Flags := 4

/-- Underflow. -/
def UF : Flags := 2

/-- Inexact. -/
def NX : Flags := 1

/-- An element result: its pattern and the flags it sets. -/
structure Res where
  bits : Nat
  fl : Flags := 0
deriving DecidableEq, Repr

/-- The value of a floating-point element: NaN, infinity, or sign and magnitude m times 2^e (m 0 for a signed zero). -/
inductive FVal where
  | nan (signalling : Bool)
  | inf (neg : Bool)
  | fin (neg : Bool) (m : Nat) (e : Int)
deriving DecidableEq, Repr

/-- A rounding mode (R122). -/
inductive Rm where
  | rne
  | rz
  | rd
  | ru
deriving DecidableEq, Repr

/-- RND (R40). -/
def rmOf (rnd : BitVec 2) : Rm :=
  match rnd.toNat with
  | 0 => .rne | 1 => .rz | 2 => .rd | _ => .ru

/-- Exponent bits of a binary type (R113). -/
def expBits (ty : Nat) : Nat := match ty with | 2 => 8 | 3 => 5 | 4 => 8 | 5 => 4 | _ => 5

/-- Fraction bits of a binary type (R113). -/
def fracBits (ty : Nat) : Nat := match ty with | 2 => 23 | 3 => 10 | 4 => 7 | 5 => 3 | _ => 2

/-- Bias of a binary type (R113). -/
def bias (ty : Nat) : Nat := 2 ^ (expBits ty - 1) - 1

/-- Element width. -/
def fwidth (ty : Nat) : Nat := 1 + expBits ty + fracBits ty

/-- The canonical NaN (R115). -/
def canonNaN (ty : Nat) : Nat := match ty with | 2 => 0x7FC00000 | 3 => 0x7E00 | 4 => 0x7FC0 | 5 => 0x7F | 6 => 0x7E | _ => 0x80

/-- The sign bit of a pattern as a value. -/
def signBit (ty : Nat) (neg : Bool) : Nat := if neg then 2 ^ (fwidth ty - 1) else 0

/-- The largest finite magnitude as a pattern (R113). -/
def maxPat (ty : Nat) : Nat := match ty with | 2 => 0x7F7FFFFF | 3 => 0x7BFF | 4 => 0x7F7F | 5 => 0x7E | _ => 0x7B

/-- Infinity as a pattern, the canonical NaN for e4m3, which has none (R114, R122). -/
def infPat (ty : Nat) (neg : Bool) : Nat :=
  match ty with
  | 2 => 0x7F800000 + signBit 2 neg | 3 => 0x7C00 + signBit 3 neg | 4 => 0x7F80 + signBit 4 neg
  | 5 => 0x7F | _ => 0x7C + signBit 6 neg

/-- The value of a binary floating-point pattern (R113, R114). -/
def fval (ty p : Nat) : FVal :=
  let fb := fracBits ty
  let neg := p / 2 ^ (fwidth ty - 1) % 2 == 1
  let E := p / 2 ^ fb % 2 ^ expBits ty
  let M := p % 2 ^ fb
  let allOnes := E == 2 ^ expBits ty - 1
  if ty == 5 then
    if p % 128 == 0x7F then .nan false
    else if E == 0 then .fin neg M (1 - (bias ty : Int) - fb) else .fin neg (2 ^ fb + M) (E - (bias ty : Int) - fb)
  else if allOnes then
    if M == 0 then .inf neg else .nan (ty != 6 && M < 2 ^ (fb - 1))
  else if E == 0 then .fin neg M (1 - (bias ty : Int) - fb)
  else .fin neg (2 ^ fb + M) (E - (bias ty : Int) - fb)

/-- m / 2^s rounded to an integer, and whether it changed. -/
def roundShift (rm : Rm) (neg : Bool) (m s : Nat) : Nat × Bool :=
  let n := m / 2 ^ s
  let r := m % 2 ^ s
  let up := match rm with
    | .rne => 2 ^ s < 2 * r || (2 * r == 2 ^ s && n % 2 == 1 && r != 0)
    | .rz => false
    | .rd => neg && r != 0
    | .ru => !neg && r != 0
  (if up then n + 1 else n, r != 0)

/-- A signed zero. -/
def zeroPat (ty : Nat) (neg : Bool) : Nat := signBit ty neg

/-- The mode rounds away from zero where it overflows (R122). -/
def awayFromZero (rm : Rm) (neg : Bool) : Bool :=
  match rm with
  | .rne => true | .rz => false | .rd => neg | .ru => !neg

/-- The delivered value of an overflow (R122). -/
def overflow (ty : Nat) (rm : Rm) (sat neg : Bool) : Res :=
  if sat || !awayFromZero rm neg then ⟨maxPat ty + signBit ty neg, OF ||| NX⟩ else ⟨infPat ty neg, OF ||| NX⟩

/-- The exact value (-1)^neg m 2^e rounded once into a binary type (R122, R123); m = 0 is a signed zero. -/
def roundTo (ty : Nat) (rm : Rm) (sat neg : Bool) (m : Nat) (e : Int) : Res :=
  if m == 0 then ⟨zeroPat ty neg, 0⟩ else
  let p : Int := fracBits ty + 1
  let emin : Int := 1 - (bias ty : Int)
  let x : Int := Nat.log2 m + e
  let qmin := emin - (p - 1)
  let q := if x - (p - 1) < qmin then qmin else x - (p - 1)
  let at' (q : Int) : Nat × Bool := if q ≤ e then (m * 2 ^ (e - q).toNat, false) else roundShift rm neg m (q - e).toNat
  let (n, inexact) := at' q
  let pat := (q - qmin).toNat * 2 ^ fracBits ty + n
  if maxPat ty < pat then overflow ty rm sat neg
  else
    let n2 := (at' (x - (p - 1))).1
    let tiny := x < emin && !(x == emin - 1 && n2 == 2 ^ p.toNat)
    ⟨pat + signBit ty neg, (if inexact then NX else 0) ||| (if inexact && tiny then UF else 0)⟩

/-- A value that lies strictly between m 2^e and (m + 1) 2^e, rounded once; m holds more bits than the type. -/
def roundSticky (ty : Nat) (rm : Rm) (sat neg : Bool) (m : Nat) (e : Int) : Res :=
  roundTo ty rm sat neg (4 * m + 1) (e - 2)

/-- A rational num/den rounded once into a binary type. -/
def roundRat (ty : Nat) (rm : Rm) (sat neg : Bool) (num den : Nat) : Res :=
  let k := 64 + Nat.log2 den
  let m := num * 2 ^ k / den
  if num * 2 ^ k % den == 0 then roundTo ty rm sat neg m (-(k : Int)) else roundSticky ty rm sat neg m (-(k : Int))

/-! dm8 (R117 to R120). -/

/-- The magnitude of a nonzero dm8 payload in units of 1/64000 (R117). -/
def dm8Mag (P : Nat) : Nat :=
  let n := Nat.log2 P
  let k := 6 - n
  let F := P % 2 ^ n
  let d3 := if k % 2 == 0 then k / 2 + 3 else 3 - (k + 1) / 2
  10 ^ d3 * (2 ^ n + 9 * F) * 2 ^ (6 - n)

/-- The dm8 payloads with a magnitude. -/
def dm8Payloads : List Nat := (List.range 127).map (· + 1)

/-- The largest dm8 payload magnitude not above num/den (den a power of two times one), 0 where there is none. -/
def dm8Lo (num den : Nat) : Nat :=
  dm8Payloads.foldl (fun best P =>
    if dm8Mag P * den ≤ num * 64000 && (best == 0 || dm8Mag best < dm8Mag P) then P else best) 0

/-- The smallest dm8 payload magnitude not below num/den, 0 where there is none. -/
def dm8Hi (num den : Nat) : Nat :=
  dm8Payloads.foldl (fun best P =>
    if num * 64000 ≤ dm8Mag P * den && (best == 0 || dm8Mag P < dm8Mag best) then P else best) 0

/-- Of two dm8 candidates (0 for zero) around num/den, the one RNE takes (R119). -/
def dm8Nearer (lo hi num den : Nat) : Nat :=
  let l := if lo == 0 then 0 else dm8Mag lo * den
  let h := dm8Mag hi * den
  let a := num * 64000
  if 2 * a < l + h then lo
  else if l + h < 2 * a then hi
  else if lo % 2 == 0 then lo
  else if hi % 2 == 0 then hi else lo

/-- R119 for the exact value (-1)^neg num/den. -/
def toDm8Rat (rm : Rm) (sat neg : Bool) (num den : Nat) : Res :=
  if num == 0 then ⟨0, 0⟩ else
  let sgn := if neg then 0x80 else 0
  let lo := dm8Lo num den
  let hi := dm8Hi num den
  let past : Res := ⟨if sat then 0x01 + sgn else 0x80, OF ||| NX⟩
  let uf : Flags := if num * 1000 < den then UF else 0
  let pick (P : Nat) : Res := ⟨if P == 0 then 0 else P + sgn, NX ||| uf⟩
  if lo != 0 && dm8Mag lo * den == num * 64000 then ⟨lo + sgn, 0⟩
  else match rm with
  | .rne => if hi == 0 then past else pick (dm8Nearer lo hi num den)
  | .rz => pick lo
  | .rd => if !neg then pick lo else if hi == 0 then past else pick hi
  | .ru => if neg then pick lo else if hi == 0 then past else pick hi

/-- R119 for a floating-point value. -/
def toDm8 (rm : Rm) (sat : Bool) (v : FVal) : Res :=
  match v with
  | .nan s => ⟨0x80, if s then NV else 0⟩
  | .inf neg => if sat then ⟨if neg then 0x81 else 0x01, 0⟩ else ⟨0x80, NV⟩
  | .fin neg m e =>
    if e < 0 then toDm8Rat rm sat neg m (2 ^ (-e).toNat) else toDm8Rat rm sat neg (m * 2 ^ e.toNat) 1

/-! Integers. -/

/-- The value of a w-bit element. -/
def sval (signed : Bool) (w x : Nat) : Int := if signed && 2 ^ (w - 1) ≤ x then (x : Int) - 2 ^ w else x

/-- The low w bits of an integer. -/
def wrap (w : Nat) (r : Int) : Nat := (r % 2 ^ w).toNat

/-- The least value of an integer type (R116). -/
def imin (signed : Bool) (w : Nat) : Int := if signed then -(2 ^ (w - 1)) else 0

/-- The greatest value of an integer type (R116). -/
def imax (signed : Bool) (w : Nat) : Int := if signed then 2 ^ (w - 1) - 1 else 2 ^ w - 1

/-- An integer clamped to a type's range. -/
def clamp (signed : Bool) (w : Nat) (r : Int) : Int :=
  if r < imin signed w then imin signed w else if imax signed w < r then imax signed w else r

/-- An exact integer result written with or without SAT (R140). -/
def intRes (signed sat : Bool) (w : Nat) (r : Int) : Nat := wrap w (if sat then clamp signed w r else r)

/-- A rational magnitude rounded to an integer by RND, and whether it changed. -/
def roundInt (rm : Rm) (neg : Bool) (num den : Nat) : Nat × Bool :=
  let n := num / den
  let r := num % den
  let up := match rm with
    | .rne => den < 2 * r || (2 * r == den && n % 2 == 1 && r != 0)
    | .rz => false
    | .rd => neg && r != 0
    | .ru => !neg && r != 0
  (if up then n + 1 else n, r != 0)

/-- A float-to-integer conversion of the exact value (-1)^neg num/den (R122, R126). -/
def ratToInt (signed : Bool) (w : Nat) (rm : Rm) (neg : Bool) (num den : Nat) : Res :=
  let (n, ch) := roundInt rm neg num den
  let r : Int := if neg then -(n : Int) else n
  if r < imin signed w || imax signed w < r then ⟨wrap w (clamp signed w r), NV⟩
  else ⟨wrap w r, if ch then NX else 0⟩

/-- A floating-point value to an integer type (R122). -/
def toInt (signed : Bool) (w : Nat) (rm : Rm) (v : FVal) : Res :=
  match v with
  | .nan _ => ⟨0, NV⟩
  | .inf neg => ⟨wrap w (if neg then imin signed w else imax signed w), NV⟩
  | .fin neg m e =>
    if e < 0 then ratToInt signed w rm neg m (2 ^ (-e).toNat)
    else ratToInt signed w rm neg (m * 2 ^ e.toNat) 1

/-! Conversions (R126). -/

/-- A floating-point value into a binary type, with the conversion class's rule for infinities (R122). -/
def toFloat (ty : Nat) (rm : Rm) (sat : Bool) (v : FVal) : Res :=
  match v with
  | .nan s => ⟨canonNaN ty, if s then NV else 0⟩
  | .inf neg =>
    if sat then ⟨maxPat ty + signBit ty neg, 0⟩ else ⟨infPat ty neg, if ty == 5 then NV else 0⟩
  | .fin neg m e => roundTo ty rm sat neg m e

/-- One element of type src converted to type dst (R126). -/
def conv (src dst : Nat) (rm : Rm) (sat : Bool) (x : Nat) : Res :=
  let dInt := Legal.isInt dst
  let ds := Legal.isSigned dst
  let dw := Legal.width dst
  if src == 7 then
    -- dm8 source (R120)
    if x == 0x80 then (if dInt then ⟨0, NV⟩ else ⟨canonNaN dst, 0⟩)
    else if x == 0 then ⟨0, 0⟩
    else
      let neg := 0x80 ≤ x
      let N := dm8Mag (x % 128)
      if dInt then ratToInt ds dw rm neg N 64000 else roundRat dst rm sat neg N 64000
  else if Legal.isInt src then
    let v := sval (Legal.isSigned src) (Legal.width src) x
    let neg : Bool := v < 0
    if dInt then ⟨intRes ds sat dw v, 0⟩
    else if dst == 7 then toDm8Rat rm sat neg v.natAbs 1
    else roundTo dst rm sat neg v.natAbs 0
  else
    let v := fval src x
    if dInt then toInt ds dw rm v
    else if dst == 7 then toDm8 rm sat v
    else toFloat dst rm sat v

/-! Elements of a packed register (R48). -/

/-- Element i of width w. -/
def elem (w : Nat) (x : Word) (i : Nat) : Nat := x.toNat / 2 ^ (w * i) % 2 ^ w

/-- A register from its elements of width w, element 0 lowest. -/
def pack (w : Nat) (l : List Nat) : Word := BitVec.ofNat 32 (l.foldr (fun v acc => v % 2 ^ w + 2 ^ w * acc) 0)

/-- The elements of a register of a type. -/
def elems (ty : Nat) (x : Word) : List Nat := (List.range (Legal.count ty)).map (elem (Legal.width ty) x)

/-- Element i replaced. -/
def setElem (w : Nat) (x : Word) (i v : Nat) : Word :=
  pack w ((List.range (32 / w)).map fun k => if k == i then v else elem w x k)

/-- Element j of B replicated to every element (R136). -/
def splat (ty : Nat) (x : Word) (j : Nat) : Word :=
  pack (Legal.width ty) (List.replicate (Legal.count ty) (elem (Legal.width ty) x j))

/-- IMM as code 0xF0 in the element type (R50). -/
def expandImm (ty : Nat) (imm : BitVec 16) : Word :=
  match ty with
  | 0 => imm.signExtend 32
  | 1 => imm.zeroExtend 32
  | 2 => imm ++ (0 : BitVec 16)
  | 5 | 6 | 7 | 10 | 11 =>
    let hi := imm.extractLsb' 8 8
    let lo := imm.extractLsb' 0 8
    hi ++ lo ++ hi ++ lo
  | _ => imm ++ imm

/-- A register of element results and the union of their flags. -/
def packRes (w : Nat) (l : List Res) : Word × Flags :=
  (pack w (l.map (·.bits)), l.foldl (fun f r => f ||| r.fl) 0)

end Sys2Proof.Num
end

