-- ==== Sys2Proof/Machine/FloatOps.lean ====
section
/-! DEFINITION. The float class on elements: exact sums of products rounded once, minimum and maximum, sign operations,
rounding to integral, classification and the paired dot product (R145 to R150). -/

namespace Sys2Proof.Num

/-- A value is a signalling NaN. -/
def FVal.isSnan (v : FVal) : Bool := match v with | .nan s => s | .inf _ | .fin _ _ _ => false

/-- A value is a NaN. -/
def FVal.isNan (v : FVal) : Bool := match v with | .nan _ => true | .inf _ | .fin _ _ _ => false

/-- The sign of a value; a NaN counts as positive. -/
def FVal.neg (v : FVal) : Bool := match v with | .nan _ => false | .inf n => n | .fin n _ _ => n

/-- A zero of either sign. -/
def FVal.isZero (v : FVal) : Bool := match v with | .fin _ m _ => m == 0 | .nan _ | .inf _ => false

/-- The value with its sign inverted where the flag is set; a NaN stays. -/
def FVal.flip (b : Bool) (v : FVal) : FVal :=
  match v with
  | .nan s => .nan s | .inf n => .inf (n != b) | .fin n m e => .fin (n != b) m e

/-- NV where a signalling NaN is among the inputs (R115). -/
def snanFlag (l : List FVal) : Flags := if l.any FVal.isSnan then NV else 0

/-- The exact product: none for 0 times infinity; a NaN input gives a quiet NaN. -/
def mulVal (a b : FVal) : Option FVal :=
  match a, b with
  | .nan _, _ | _, .nan _ => some (.nan false)
  | .inf n, v => if v.isZero then none else some (.inf (n != v.neg))
  | v, .inf n => if v.isZero then none else some (.inf (v.neg != n))
  | .fin n m e, .fin n' m' e' => some (.fin (n != n') (m * m') (e + e'))

/-- The signed exact sum of finite terms at the least exponent. -/
def finSum (l : List (Bool × Nat × Int)) : Int × Int :=
  let e0 := l.foldl (fun acc t => if t.2.2 < acc then t.2.2 else acc) (l.headD (false, 0, 0)).2.2
  (l.foldl (fun acc t =>
    let v : Int := t.2.1 * 2 ^ (t.2.2 - e0).toNat
    acc + (if t.1 then -v else v)) 0, e0)

/-- The finite term of a value. -/
def finTerm (v : FVal) : Bool × Nat × Int := match v with | .fin n m e => (n, m, e) | .nan _ | .inf _ => (false, 0, 0)

/-- An exact sum rounded once (R145): none among the terms is the product 0 times infinity. A NaN among them comes before infinities
of both signs, which then raise no NV (R150; DESIGN CHOICE, log 106). -/
def sumRound (ty : Nat) (rm : Rm) (sat : Bool) (terms : List (Option FVal)) : Res :=
  if terms.any (·.isNone) then ⟨canonNaN ty, NV⟩ else
  let vs := terms.filterMap id
  if vs.any FVal.isNan then ⟨canonNaN ty, 0⟩ else
  let infs := vs.filter fun v => match v with | .inf _ => true | .nan _ | .fin _ _ _ => false
  if infs.any (·.neg) && infs.any (!·.neg) then ⟨canonNaN ty, NV⟩
  else if !infs.isEmpty then ⟨infPat ty (infs.any (·.neg)), 0⟩
  else
    let (s, e) := finSum (vs.map finTerm)
    if s == 0 then
      let neg := if vs.all (·.neg) then true else if vs.all (!·.neg) then false else rm == .rd
      ⟨zeroPat ty neg, 0⟩
    else roundTo ty rm sat (s < 0) s.natAbs e

/-- A result with more flags. -/
def Res.or (r : Res) (f : Flags) : Res := ⟨r.bits, r.fl ||| f⟩

/-- FADD (R145). -/
def fadd (ty : Nat) (rm : Rm) (sat : Bool) (a b : Nat) : Res :=
  let x := fval ty a
  let y := fval ty b
  (sumRound ty rm sat [some x, some y]).or (snanFlag [x, y])

/-- FSUB (R145). -/
def fsub (ty : Nat) (rm : Rm) (sat : Bool) (a b : Nat) : Res :=
  let x := fval ty a
  let y := fval ty b
  (sumRound ty rm sat [some x, some (y.flip true)]).or (snanFlag [x, y])

/-- FMUL (R145): the product, its sign kept for a zero. -/
def fmul (ty : Nat) (rm : Rm) (sat : Bool) (a b : Nat) : Res :=
  let x := fval ty a
  let y := fval ty b
  (sumRound ty rm sat [mulVal x y]).or (snanFlag [x, y])

/-- FMA (R145) with the sign selections NEG. -/
def fma (ty : Nat) (rm : Rm) (sat : Bool) (nab nc : Bool) (a b c : Nat) : Res :=
  let x := fval ty a
  let y := fval ty b
  let z := fval ty c
  (sumRound ty rm sat [(mulVal x y).map (·.flip nab), some (z.flip nc)]).or (snanFlag [x, y, z])

/-- FDP2 (R150): 16-bit elements, a 32-bit addend and result. -/
def fdp2 (ty : Nat) (rm : Rm) (sat : Bool) (a b c : Word) : Word × Flags :=
  let x (w : Word) (i : Nat) := fval ty (elem 16 w i)
  let z := fval 2 c.toNat
  let r := (sumRound 2 rm sat [mulVal (x a 0) (x b 0), mulVal (x a 1) (x b 1), some z]).or
    (snanFlag [x a 0, x a 1, x b 0, x b 1, z])
  (BitVec.ofNat 32 r.bits, r.fl)

/-- The order of two values that are no NaN, −0 below +0 (R146). -/
def fltVal (a b : FVal) : Bool :=
  match a, b with
  | .inf n, .inf n' => n && !n'
  | .inf n, _ => n
  | _, .inf n' => !n'
  | .fin n m e, .fin n' m' e' =>
    if m == 0 && m' == 0 then n && !n'
    else
      let (s, _) := finSum [(n, m, e), (!n', m', e')]
      s < 0
  | _, _ => false

/-- FMIN and FMAX (R146): nanProp is the NAN bit. -/
def fminmax (ty : Nat) (isMax nanProp : Bool) (a b : Nat) : Res :=
  let x := fval ty a
  let y := fval ty b
  let r := match x.isNan, y.isNan with
    | true, true => canonNaN ty
    | true, false => if nanProp then canonNaN ty else b
    | false, true => if nanProp then canonNaN ty else a
    | false, false => if fltVal x y != isMax then a else b
  ⟨r, snanFlag [x, y]⟩

/-- FABS, FNEG and FCPYS (R147): the sign bit the result takes. -/
def setSign (ty : Nat) (a : Nat) (neg : Bool) (inputs : List FVal) : Res :=
  let x := fval ty a
  ⟨if x.isNan then canonNaN ty else a % 2 ^ (fwidth ty - 1) + signBit ty neg, snanFlag inputs⟩

/-- The sign bit of a pattern. -/
def signOf (ty a : Nat) : Bool := a / 2 ^ (fwidth ty - 1) % 2 == 1

/-- FABS (R147). -/
def fabs (ty a : Nat) : Res := setSign ty a false [fval ty a]

/-- FNEG (R147). -/
def fneg (ty a : Nat) : Res := setSign ty a (!signOf ty a) [fval ty a]

/-- FCPYS (R147). -/
def fcpys (ty a b : Nat) : Res := setSign ty a (signOf ty b) [fval ty a, fval ty b]

/-- FRND (R148). -/
def frnd (ty : Nat) (rm : Rm) (quiet : Bool) (a : Nat) : Res :=
  match fval ty a with
  | .nan s => ⟨canonNaN ty, if s then NV else 0⟩
  | .inf _ => ⟨a, 0⟩
  | .fin neg m e =>
    if 0 ≤ e || m == 0 then ⟨a, 0⟩
    else
      let (n, ch) := roundInt rm neg m (2 ^ (-e).toNat)
      if ch then ⟨(roundTo ty .rz false neg n 0).bits, if quiet then 0 else NX⟩ else ⟨a, 0⟩

/-- FCLASS (R149). -/
def fclass (ty a : Nat) : Res :=
  match fval ty a with
  | .nan s => ⟨if s then 2 ^ 8 else 2 ^ 9, if s then NV else 0⟩
  | .inf neg => ⟨if neg then 1 else 2 ^ 7, 0⟩
  | .fin neg m _ =>
    let sub : Bool := m < 2 ^ fracBits ty
    let b := if m == 0 then (if neg then 3 else 4)
      else if sub then (if neg then 2 else 5)
      else if neg then 1 else 6
    ⟨2 ^ b, 0⟩

end Sys2Proof.Num
end

