-- ==== Sys2Proof/Machine/Flags.lean ====
section
/-! DEFINITION. Flags and conditions: the sticky flags of %fpflags (R71, R124), and the conditions of PUSH, VOTE and the
waits (R92, R158). -/

namespace Sys2Proof.Machine

/-- A mask from a test of each thread below n. -/
def maskOf (n : Nat) (f : Nat → Bool) : Mask :=
  BitVec.ofNat 256 ((List.range n).foldr (fun i acc => (f i).toNat + 2 * acc) 0)

/-- Flags collected over the executing units of a result list. -/
def orFlags : List (Option Num.Flags) → Num.Flags
  | [] => 0
  | none :: l => orFlags l
  | some f :: l => f ||| orFlags l

/-- The ordering of two numbers of which neither is NaN: -1, 0 or 1 (R158: -0 equals +0). -/
def fpOrder (a b : Num.FVal) : Int :=
  if Num.FVal.isZero a && Num.FVal.isZero b then 0
  else if Num.fltVal a b then -1
  else if Num.fltVal b a then 1
  else 0

/-- COND of R158 for an ordering of the operands. -/
def condOrder (cond : Nat) (o : Int) : Bool :=
  match cond with
  | 0 => o == 0
  | 1 => o != 0
  | 2 => o < 0
  | 3 => o ≤ 0
  | 4 => 0 < o
  | _ => 0 ≤ o

/-- The ordering of two integers. -/
def intOrder (a b : Int) : Int := if a < b then -1 else if a == b then 0 else 1

/-- COND(a, b) of PUSH and VOTE with its flags: a signalling NaN sets NV (R158). -/
def cond (ty cnd : Nat) (a b : Word) : Bool × Num.Flags :=
  match ty with
  | 0 => (condOrder cnd (intOrder a.toInt b.toInt), 0)
  | 1 => (condOrder cnd (intOrder a.toNat b.toNat), 0)
  | _ =>
    let x := Num.fval 2 a.toNat
    let y := Num.fval 2 b.toNat
    if Num.FVal.isNan x || Num.FVal.isNan y then (cnd == 1, Num.snanFlag [x, y])
    else (condOrder cnd (fpOrder x y), 0)

/-- COND(W, V) of XWAIT and WAITC: EQ, NE, GEN, LTN (R92, R222). -/
def waitCond (cnd : Nat) (w v : Word) : Bool :=
  match cnd with
  | 0 => w == v
  | 1 => w != v
  | 2 => v.toNat ≤ w.toNat
  | _ => w.toNat < v.toNat

end Sys2Proof.Machine
end

