-- ==== Sys2Proof/Machine/IntOps.lean ====
section
/-! DEFINITION. The integer class on elements (R140 to R144), and the scalar operations that are not one BitVec operator
(R73). -/

namespace Sys2Proof.Num

/-- The elementwise integer operation f on values, written with or without SAT (R140). -/
def intMap2 (ty : Nat) (sat : Bool) (f : Int → Int → Int) (a b : Word) : Word :=
  let w := Legal.width ty
  let s := Legal.isSigned ty
  pack w (List.zipWith (fun x y => intRes s sat w (f (sval s w x) (sval s w y))) (elems ty a) (elems ty b))

/-- The elementwise integer operation of one operand (R140). -/
def intMap1 (ty : Nat) (sat : Bool) (f : Int → Int) (a : Word) : Word :=
  let w := Legal.width ty
  let s := Legal.isSigned ty
  pack w ((elems ty a).map fun x => intRes s sat w (f (sval s w x)))

/-- IMAD (R140): a b + c formed exactly. -/
def imad (ty : Nat) (sat : Bool) (a b c : Word) : Word :=
  let w := Legal.width ty
  let s := Legal.isSigned ty
  pack w (List.zipWith (fun xy z => intRes s sat w (sval s w xy.1 * sval s w xy.2 + sval s w z))
    (List.zip (elems ty a) (elems ty b)) (elems ty c))

/-- The elementwise operation on patterns, given the width (R140). -/
def patMap2 (ty : Nat) (f : Nat → Nat → Nat → Nat) (a b : Word) : Word :=
  let w := Legal.width ty
  pack w (List.zipWith (f w) (elems ty a) (elems ty b))

/-- The elementwise operation of one operand on patterns (R140). -/
def patMap1 (ty : Nat) (f : Nat → Nat → Nat) (a : Word) : Word :=
  let w := Legal.width ty
  pack w ((elems ty a).map (f w))

/-- SHL of an element by s mod w (R140). -/
def eShl (w a s : Nat) : Nat := a * 2 ^ (s % w) % 2 ^ w

/-- SHR of an element by s mod w (R140). -/
def eShr (w a s : Nat) : Nat := a / 2 ^ (s % w)

/-- SRA of an element by s mod w (R140): copies of bit w - 1. -/
def eSra (w a s : Nat) : Nat := wrap w (sval true w a / 2 ^ (s % w))

/-- ROT of an element left by s mod w (R140). -/
def eRot (w a s : Nat) : Nat := (a * 2 ^ (s % w) + a / 2 ^ (w - s % w)) % 2 ^ w

/-- POPC of an element (R140). -/
def ePopc (w a : Nat) : Nat := ((List.range w).filter fun i => a / 2 ^ i % 2 == 1).length

/-- CLZ of an element (R140). -/
def eClz (w a : Nat) : Nat := if a == 0 then w else w - 1 - Nat.log2 a

/-- BREV of an element (R140). -/
def eBrev (w a : Nat) : Nat := (List.range w).foldl (fun acc i => acc + (a / 2 ^ i % 2) * 2 ^ (w - 1 - i)) 0

/-- IMULH (R141). -/
def imulh (signed : Bool) (a b : Word) : Word :=
  BitVec.ofInt 32 (sval signed 32 a.toNat * sval signed 32 b.toNat / 2 ^ 32)

/-- The position and the length of a bit field (R142). -/
def bfPos (b : Word) : Nat := b.toNat % 32

/-- The length of a bit field (R142). -/
def bfLen (b : Word) : Nat := Nat.min (b.toNat / 256 % 64) 32

/-- BFE (R142). -/
def bfe (signed : Bool) (a b : Word) : Word :=
  let len := bfLen b
  let f := a.toNat / 2 ^ bfPos b % 2 ^ len
  if signed && 0 < len && len < 32 then BitVec.ofInt 32 (sval true len f) else BitVec.ofNat 32 f

/-- BFI (R142). -/
def bfi (a b c : Word) : Word :=
  let mask : Word := BitVec.ofNat 32 (2 ^ bfLen b - 1)
  let m := mask <<< bfPos b
  (a &&& ~~~m) ||| ((c <<< bfPos b) &&& m)

/-- IDP4 (R143). -/
def idp4 (ty : Nat) (mix sat : Bool) (a b c : Word) : Word :=
  let w := Legal.width ty
  let s := Legal.isSigned ty
  let sb := s != mix
  let sum := (List.zipWith (fun x y => sval s w x * sval sb w y) (elems ty a) (elems ty b)).foldl (· + ·) c.toInt
  BitVec.ofNat 32 (intRes true sat 32 sum)

/-- SEL (R144). -/
def selElems (ty : Nat) (a b c : Word) : Word :=
  let w := Legal.width ty
  pack w (List.zipWith (fun ab z => if z != 0 then ab.1 else ab.2) (List.zip (elems ty a) (elems ty b)) (elems ty c))

/-- SCACC with e8m0 scales (R129). -/
def scaccE8 (d a : Word) (ea eb : Nat) : Word × Flags :=
  let x := fval 2 a.toNat
  let y := fval 2 d.toNat
  let sn := snan2 x y
  if ea == 255 || eb == 255 then (0x7FC00000, sn ||| NV)
  else match x, y with
  | .nan _, _ | _, .nan _ => (0x7FC00000, sn)
  | .inf n, .inf n' => if n != n' then (0x7FC00000, NV) else (BitVec.ofNat 32 (infPat 2 n), 0)
  | .inf n, .fin .. => (BitVec.ofNat 32 (infPat 2 n), 0)
  | .fin .., .inf n => (BitVec.ofNat 32 (infPat 2 n), 0)
  | .fin n m e, .fin n' m' e' =>
    let r := addFin n m (e + (ea : Int) + eb - 254) n' m' e'
    (BitVec.ofNat 32 r.bits, r.fl)
where
  /-- NV for a signalling input. -/
  snan2 (x y : FVal) : Flags :=
    match x, y with
    | .nan true, _ | _, .nan true => NV
    | _, _ => 0
  /-- The exact sum of two finite values rounded once to f32 by RNE; an exact zero follows R145. -/
  addFin (n : Bool) (m : Nat) (e : Int) (n' : Bool) (m' : Nat) (e' : Int) : Res :=
    let e0 := if e < e' then e else e'
    let v (n : Bool) (m : Nat) (e : Int) : Int := let t : Int := m * 2 ^ (e - e0).toNat; if n then -t else t
    let s := v n m e + v n' m' e'
    if s == 0 then ⟨zeroPat 2 (n && n'), 0⟩ else roundTo 2 .rne false (s < 0) s.natAbs e0

end Sys2Proof.Num
end

