-- ==== Sys2Proof/Decode.lean ====
section
/-! DEFINITION. The decoder: scalar words, lane words and command packets to instructions, rejecting by name; and the
encoder, from the same encoding tables (R34 to R61, R396 to R399). -/

namespace Sys2Proof

/-- Why bits are no instruction: an illegal scalar word, an illegal lane word (with the detail of R61), or a packet the
front end retires as BADPKT (with the byte offset of R400) or REFUSED (with the code of R439). -/
inductive Reject where
  | ills (detail : Nat)
  | illl (detail : Nat)
  | badPacket (off : Nat)
  | refused (code : Nat)
  | noWord
deriving DecidableEq, Repr

/-- Bits [lo + n - 1 : lo] of a word. -/
def bits (w lo n : Nat) : BitVec n := BitVec.ofNat n (w / 2 ^ lo)

/-- One bit of a word. -/
def bit (w lo : Nat) : Bool := w / 2 ^ lo % 2 == 1

/-- A flag as a bit value. -/
def flagNat (b : Bool) : Nat := if b then 1 else 0

/-- A number from its bytes, least significant first (R34). -/
def leNat (l : List Byte) : Nat := l.foldr (fun b n => b.toNat + 256 * n) 0

/-- The k low bytes of a number, least significant first (R34). -/
def leBytes : Nat → Nat → List Byte
  | 0, _ => []
  | k + 1, n => BitVec.ofNat 8 n :: leBytes k (n / 256)

namespace Enc

/-- The checks of R61 for a scalar word, in detail order: top bits, unused fields, ranges. -/
def chk (top unused range : Bool) (i : Instr) : Except Reject Instr :=
  if top then .error (.ills 2) else if unused then .error (.ills 3) else if range then .error (.ills 4) else .ok i

/-- The SR group by FN (R38), but for CLZ and POPC. -/
def srTable : List (Nat × (BitVec 5 → BitVec 5 → BitVec 5 → Instr)) :=
  [(0, .add), (1, .sub), (2, .and), (3, .or),
   (4, .xor), (5, .shl), (6, .shr), (7, .sra),
   (8, .mul), (9, .mulh), (10, .mulhn), (11, .divn),
   (12, .remn), (13, .min), (14, .max), (15, .minn),
   (16, .maxn), (17, .slt), (18, .sltn), (19, .seq)]

/-- The immediate operations by opcode (R37), but for the shifts and LUI. -/
def immTable : List (Nat × (BitVec 5 → BitVec 5 → BitVec 16 → Instr)) :=
  [(0x01, .addi), (0x02, .andi), (0x03, .ori), (0x04, .xori), (0x08, .slti), (0x09, .sltni), (0x0B, .muli)]

/-- The shifts by an immediate (R37). -/
def shiftTable : List (Nat × (BitVec 5 → BitVec 5 → BitVec 5 → Instr)) := [(0x05, .shli), (0x06, .shri), (0x07, .srai)]

/-- The conditional branches (R37). -/
def branchTable : List (Nat × (BitVec 5 → BitVec 5 → BitVec 16 → Instr)) :=
  [(0x10, .beq), (0x11, .bne), (0x12, .blt), (0x13, .bge), (0x14, .bltn), (0x15, .bgen)]

/-- The words with an x register d, a capability a and a byte offset (R37). -/
def xmemTable : List (Nat × (BitVec 5 → BitVec 4 → BitVec 16 → Instr)) := [(0x20, .xld), (0x21, .xst)]

/-- The words with two capability registers and a byte offset (R37). -/
def cmemTable : List (Nat × (BitVec 4 → BitVec 4 → BitVec 16 → Instr)) := [(0x22, .cld), (0x23, .cst)]

/-- Single-format instructions by OPC (R58): the first integer words. -/
def singleArith : List (Nat × (Single → Instr)) :=
  [(0x000, .iadd), (0x001, .isub), (0x002, .imul), (0x003, .imulh),
   (0x004, .imad), (0x005, .imin), (0x006, .imax), (0x007, .iabs),
   (0x008, .ineg), (0x009, .andLane), (0x00A, .orLane), (0x00B, .xorLane),
   (0x00C, .not), (0x00D, .shlLane), (0x00E, .shrLane), (0x00F, .sraLane),
   (0x010, .rot), (0x011, .bfe), (0x012, .bfi), (0x013, .popcLane),
   (0x014, .clzLane), (0x015, .brev), (0x016, .mov), (0x017, .sel)]

/-- Single-format instructions by OPC (R58): IDP4 to UNPK. -/
def singleFloat : List (Nat × (Single → Instr)) :=
  [(0x018, .idp4), (0x080, .fadd), (0x081, .fsub), (0x082, .fmul),
   (0x083, .fma), (0x084, .fmin), (0x085, .fmax), (0x086, .fabs),
   (0x087, .fneg), (0x088, .fcpys), (0x089, .frnd), (0x08A, .fclass),
   (0x08B, .fdp2), (0x100, .rcp), (0x101, .rsq), (0x102, .sqrt),
   (0x103, .exp2), (0x104, .log2), (0x105, .sinp), (0x106, .cosp),
   (0x107, .tanh), (0x140, .cvt), (0x141, .pack), (0x142, .unpk)]

/-- Single-format instructions by OPC (R58): SCACC to ST. -/
def singlePred : List (Nat × (Single → Instr)) :=
  [(0x143, .scacc), (0x144, .scale), (0x145, .bscl), (0x180, .push),
   (0x181, .pushv), (0x182, .pinv), (0x183, .pop), (0x184, .psav),
   (0x185, .prst), (0x186, .exit), (0x187, .vote), (0x188, .rqp),
   (0x189, .nopl), (0x1C0, .shfl), (0x1C1, .shfli), (0x1C2, .redl),
   (0x1C3, .scanl), (0x1C4, .dswp), (0x1C5, .graft), (0x1C6, .join),
   (0x1C7, .leave), (0x1C8, .tmemb), (0x200, .ld), (0x201, .st)]

/-- Single-format instructions by OPC (R58): LDS to SPFLS. -/
def singleMem : List (Nat × (Single → Instr)) :=
  [(0x202, .lds), (0x203, .sts), (0x204, .smap), (0x205, .sunmap),
   (0x206, .sflush), (0x207, .pref), (0x208, .llock), (0x209, .lunlk),
   (0x260, .atom), (0x261, .atomc), (0x262, .red), (0x263, .waitc),
   (0x264, .binit), (0x265, .barv), (0x266, .bwait), (0x267, .binv),
   (0x268, .tbar), (0x2A0, .spinit), (0x2A1, .enq), (0x2A2, .deq),
   (0x2A3, .enqt), (0x2A4, .deqt), (0x2A5, .spqry), (0x2A6, .spfls)]

/-- Single-format instructions by OPC (R58): FENCE to EVWAIT. -/
def singleSys : List (Nat × (Single → Instr)) :=
  [(0x2C0, .fence), (0x2C1, .acq), (0x2C2, .rel), (0x2C3, .acqr),
   (0x2C4, .relr), (0x2C5, .shdw), (0x2C6, .publ), (0x2E0, .trap),
   (0x2E1, .brk), (0x2E2, .ckpt), (0x2E3, .vqry), (0x2E4, .srdl),
   (0x300, .rld), (0x301, .rst), (0x302, .ratom), (0x303, .mcast),
   (0x304, .rspr), (0x305, .lseq), (0x306, .tierq), (0x307, .evwait)]

/-- The single-format instructions by OPC (R58). -/
def singleTable : List (Nat × (Single → Instr)) := singleArith ++ singleFloat ++ singlePred ++ singleMem ++ singleSys

/-- The engine-format instructions by OPC (R58). -/
def engTable : List (Nat × (Eng → Instr)) :=
  [(0x340, .cpy), (0x341, .cpym), (0x342, .cpyr), (0x343, .cpyf),
   (0x344, .crinit), (0x345, .await), (0x346, .rslot), (0x347, .node),
   (0x348, .arm), (0x349, .ply), (0x34A, .adpf), (0x380, .mma),
   (0x381, .mmas), (0x382, .mmg), (0x383, .pln), (0x384, .mlda),
   (0x385, .msta), (0x386, .mzro), (0x387, .mrel), (0x388, .mwait)]

/-- The pair opcodes by POPC (R59). -/
def pairTable : List (Nat × PairOp) :=
  [(0x00, .iadd), (0x01, .isub), (0x02, .imul), (0x03, .imad),
   (0x04, .imin), (0x05, .imax), (0x06, .and), (0x07, .or),
   (0x08, .xor), (0x09, .shl), (0x0A, .shr), (0x0B, .sra),
   (0x0C, .mov), (0x0D, .sel), (0x0E, .fadd), (0x0F, .fsub),
   (0x10, .fmul), (0x11, .fma), (0x12, .fmin), (0x13, .fmax),
   (0x14, .fabs), (0x15, .fneg)]

/-- The instruction of a pair word, named by the opcode of slot P. -/
def pairInstr (op : PairOp) (p : Slot) (qop : PairOp) (q : Slot) : Instr :=
  match op with
  | .iadd => .iaddPair p qop q
  | .isub => .isubPair p qop q
  | .imul => .imulPair p qop q
  | .imad => .imadPair p qop q
  | .imin => .iminPair p qop q
  | .imax => .imaxPair p qop q
  | .and => .andPair p qop q
  | .or => .orPair p qop q
  | .xor => .xorPair p qop q
  | .shl => .shlPair p qop q
  | .shr => .shrPair p qop q
  | .sra => .sraPair p qop q
  | .mov => .movPair p qop q
  | .sel => .selPair p qop q
  | .fadd => .faddPair p qop q
  | .fsub => .fsubPair p qop q
  | .fmul => .fmulPair p qop q
  | .fma => .fmaPair p qop q
  | .fmin => .fminPair p qop q
  | .fmax => .fmaxPair p qop q
  | .fabs => .fabsPair p qop q
  | .fneg => .fnegPair p qop q

/-- POPC of a pair opcode (R59). -/
def popc (op : PairOp) : Nat :=
  match op with
  | .iadd => 0x00
  | .isub => 0x01
  | .imul => 0x02
  | .imad => 0x03
  | .imin => 0x04
  | .imax => 0x05
  | .and => 0x06
  | .or => 0x07
  | .xor => 0x08
  | .shl => 0x09
  | .shr => 0x0A
  | .sra => 0x0B
  | .mov => 0x0C
  | .sel => 0x0D
  | .fadd => 0x0E
  | .fsub => 0x0F
  | .fmul => 0x10
  | .fma => 0x11
  | .fmin => 0x12
  | .fmax => 0x13
  | .fabs => 0x14
  | .fneg => 0x15

end Enc

open Enc

/-- The instruction a 32-bit scalar word is (R35 to R38), rejecting with the detail of R61. -/
def decodeScalar (w : Nat) : Except Reject Instr :=
  let op := w / 2 ^ 26 % 64
  let d := bits w 21 5
  let a := bits w 16 5
  let b := bits w 11 5
  let fn := w % 2 ^ 11
  let imm := bits w 0 16
  let cd := bits w 21 4
  let ca := bits w 16 4
  let td := bit w 25
  let ta := bit w 20
  if op == 0 then
    match srTable.lookup fn with
    | some f => .ok (f d a b)
    | none =>
      if fn == 20 then chk false (b != 0) false (.clz d a)
      else if fn == 21 then chk false (b != 0) false (.popc d a)
      else .error (.ills 1)
  else match immTable.lookup op with
  | some f => .ok (f d a imm)
  | none =>
  match shiftTable.lookup op with
  | some f => chk false false (32 ≤ imm.toNat) (f d a (bits w 0 5))
  | none =>
  match branchTable.lookup op with
  | some f => .ok (f d a imm)
  | none =>
  match xmemTable.lookup op with
  | some f => chk ta false false (f d ca imm)
  | none =>
  match cmemTable.lookup op with
  | some f => chk (td || ta) false false (f cd ca imm)
  | none =>
    if op == 0x0A then chk false (a != 0) false (.lui d imm)
    else if op == 0x0C then chk false (imm != 0) false (.jr d a)
    else if op == 0x0D then chk false (a != 0) false (.loop d imm)
    else if op == 0x16 then .ok (.j (bits w 0 26))
    else if op == 0x17 then .ok (.jal (bits w 0 26))
    else if op == 0x18 then chk false (d != 0) false (.lrun a imm)
    else if op == 0x19 then chk false (d != 0) false (.ljmp a imm)
    else if op == 0x1A then chk false (d != 0 || a != 0 || imm != 0) false .lsync
    else if op == 0x1B then chk false (a != 0 || imm != 0) false (.xrq d)
    else if op == 0x1C then chk (td || ta) (fn != 0) (25 < b.toNat) (.qfeed cd ca b)
    else if op == 0x1D then chk td (a != 0 || imm != 0) false (.qhalt cd)
    else if op == 0x1E then chk ta (imm != 0) false (.qstat d ca)
    else if op == 0x24 then chk (td || ta) (fn != 0) (28 < b.toNat) (.cbnd cd ca b)
    else if op == 0x25 then chk (td || ta) (fn != 0) false (.cperm cd ca b)
    else if op == 0x26 then chk ta false (4 < imm.toNat) (.cget d ca imm)
    else if op == 0x27 then chk (td || ta) (imm != 0) false (.cmov cd ca)
    else if op == 0x28 then chk false (a != 0) (!Legal.srAssigned imm.toNat) (.srd d imm)
    else if op == 0x29 then chk false (d != 0) (!Legal.srWritable imm.toNat) (.swr a imm)
    else if op == 0x2A then chk false (d != 0 || a != 0) false (.strap imm)
    else if op == 0x2B then chk false (d != 0 || a != 0 || imm != 0) false .sexit
    else if op == 0x2C then
      chk ta (256 ≤ imm.toNat) (4 < imm.toNat / 16 % 8 || 3 < imm.toNat % 8) (.xwait d ca imm)
    else if op == 0x2E then chk false (d != 0 || a != 0 || imm != 0) false .nop
    else .error (.ills 1)

/-- The fields of a single-format word (R40). -/
def singleFields (w : Nat) : Single :=
  { look := bits w 90 4, u := bit w 89, ng := bit w 88, ty := bits w 74 4, d := bits w 66 8, a := bits w 58 8,
    b := bits w 50 8, c := bits w 42 8, imm := bits w 26 16, sel := bits w 22 4, rnd := bits w 20 2, sat := bit w 19,
    scope := bits w 16 3, mod := bits w 0 16 }

/-- The fields of an engine-format word (R42). -/
def engFields (w : Nat) : Eng :=
  { look := bits w 90 4, ea := bits w 76 4, eb := bits w 72 4, d := bits w 64 8, s1 := bits w 56 8, s2 := bits w 48 8,
    imm := bits w 32 16, ex := bits w 0 32 }

/-- The fields of one 46-bit slot of a pair word (R41). -/
def slotFields (v : Nat) : Slot :=
  { u := bit v 45, ng := bit v 44, pty := bits v 34 3, d := bits v 26 8, a := bits v 18 8, b := bits v 10 8,
    c := bits v 2 8, rnd := bits v 0 2 }

/-- The instruction a 96-bit lane word names, before its field rules (R39 to R42, R58, R59). -/
def decodeLaneRaw (w : Nat) : Except Reject Instr :=
  let fmt := w / 2 ^ 94 % 4
  let opc := w / 2 ^ 80 % 1024
  if fmt == 0 then
    match singleTable.lookup (w / 2 ^ 78 % 1024) with
    | some f => .ok (f (singleFields w))
    | none => .error (.illl 2)
  else if fmt == 1 then
    match pairTable.lookup (w / 2 ^ 85 % 128), pairTable.lookup (w / 2 ^ 39 % 128) with
    | some p, some q =>
      if w % 4 == 0 then .ok (pairInstr p (slotFields (w / 2 ^ 48)) q (slotFields (w / 4))) else .error (.illl 3)
    | _, _ => .error (.illl 2)
  else if fmt == 2 then
    match engTable.lookup opc with
    | some f => .ok (f (engFields w))
    | none => .error (.illl 2)
  else .error (.illl 1)

/-- The instruction a 96-bit lane word is for a launch that allocates regs v registers (R39 to R61). -/
def decodeLane (regs w : Nat) : Except Reject Instr :=
  match decodeLaneRaw w with
  | .error e => .error e
  | .ok i =>
    match Legal.detail regs i with
    | none => .ok i
    | some d => .error (.illl d)

namespace Enc

/-- What R399 asks of a packet's fields: the command, the CAPV values it takes, and whether F0, F1 and F2 carry argument
words when their CAPV bit is clear. -/
structure PktRule where
  cmd : Instr
  capv : List Nat
  words : Bool := false

/-- The commands by OPC (R399). -/
def pktTable : List (Nat × PktRule) :=
  [(0x01, ⟨.launch, [3, 7], false⟩), (0x02, ⟨.armnode, [1], false⟩), (0x03, ⟨.plyrun, [1], false⟩),
   (0x04, ⟨.mark, [0], false⟩), (0x20, ⟨.part, [0], false⟩), (0x21, ⟨.ctxnew, [1, 3], false⟩),
   (0x22, ⟨.ctxdel, [0], false⟩), (0x23, ⟨.ptroot, [0], false⟩), (0x24, ⟨.tlbinv, [0], true⟩),
   (0x25, ⟨.grant, [0], true⟩), (0x26, ⟨.qreg, [1, 3], false⟩), (0x27, ⟨.qunreg, [0], false⟩),
   (0x28, ⟨.setp, [0], false⟩), (0x29, ⟨.ways, [0], false⟩), (0x2A, ⟨.pubt, [0], true⟩),
   (0x2C, ⟨.preempt, [0], false⟩), (0x2D, ⟨.resume, [0], false⟩), (0x2F, ⟨.gangsw, [0], false⟩),
   (0x30, ⟨.query, [0], true⟩), (0x38, ⟨.fwupd, [0], true⟩), (0x39, ⟨.attest, [0], true⟩)]

/-- LOAN by the operation in ARG0 [3:0] (R399). -/
def loanTable : List (Nat × Instr) := [(0, .loanLend), (1, .loanMap), (2, .loanRecall), (3, .loanEnd)]

/-- FAULTANS by the answer in ARG1 (R399). -/
def answerTable : List (Nat × Instr) := [(0, .faultansRetry), (1, .faultansResume), (2, .faultansKill)]

/-- Every command by OPC and sub-operation; an error names the argument word that is out of range. -/
def pktRule (opc : Nat) (p : Packet) : Except Reject PktRule :=
  if opc == 0x2B then
    match loanTable.lookup p.arg0.toNat with
    | some f => .ok ⟨f, [0], true⟩
    | none => .error (.refused 0)
  else if opc == 0x2E then
    match answerTable.lookup p.arg1.toNat with
    | some f => .ok ⟨f, [0], false⟩
    | none => .error (.refused 1)
  else match pktTable.lookup opc with
  | some r => .ok r
  | none => .error (.badPacket 0)

/-- What every form of an OPC has in common: the CAPV it allows, and whether F0 holds words. -/
def pktShape (opc : Nat) : Option PktRule :=
  if opc == 0x2B then some ⟨.loanLend, [0], true⟩
  else if opc == 0x2E then some ⟨.faultansRetry, [0], false⟩
  else pktTable.lookup opc

/-- The byte offset of the first field of a packet that breaks R398 or R399, none for a good packet. -/
def pktFault (r : PktRule) (p : Packet) : Option Nat :=
  let used (k : Nat) : Bool := p.capv.toNat / 2 ^ k % 2 == 1 || (r.words && k == 0)
  if !r.capv.contains p.capv.toNat then some 2
  else if !used 0 && p.f0 != 0 then some 16
  else if !used 1 && p.f1 != 0 then some 32
  else if !used 2 && p.f2 != 0 then some 48
  else none

end Enc

/-- The fields of a 64-byte packet (R398). -/
def packetFields (w : Nat) : Packet :=
  { tgt := bits w 8 8, capv := bits w 16 3, fence := bit w 19, tick := bit w 20, sysc := bit w 21, prio := bits w 24 3,
    arg0 := bits w 32 32, arg1 := bits w 64 32, f0 := bits w 128 128, f1 := bits w 256 128, f2 := bits w 384 128 }

/-- The command a 64-byte packet is, and its fields (R398, R399). -/
def decodePacket (w : Nat) : Except Reject (Instr × Packet) :=
  let p := packetFields w
  match pktShape (w % 256) with
  | none => .error (.badPacket 0)
  | some r =>
    if w / 2 ^ 22 % 4 != 0 then .error (.badPacket 2)
    else match pktFault r p with
    | some 2 => .error (.badPacket 2)
    | some off => if w / 2 ^ 27 % 32 != 0 then .error (.badPacket 3) else .error (.badPacket off)
    | none => if w / 2 ^ 27 % 32 != 0 then .error (.badPacket 3) else (pktRule (w % 256) p).map fun r => (r.cmd, p)

/-- The instruction the decoder reads from an instruction of the opcode table, its bits numbered as the table numbers
them: a scalar word, a lane word under the widest allocation, or a packet. -/
def decodeTableWord (nbits w : Nat) : Option Instr :=
  if nbits ≤ 32 then (decodeScalar (w % 2 ^ 32)).toOption
  else if nbits ≤ 96 then (decodeLane 192 (w % 2 ^ 96)).toOption
  else ((decodePacket (w % 2 ^ 512)).map (·.1)).toOption

/-! The encoder. -/

namespace Enc

/-- An SR-format word (R35). -/
def sr (op : Nat) (d a b : Nat) (fn : Nat) : Nat := op * 2 ^ 26 + d * 2 ^ 21 + a * 2 ^ 16 + b * 2 ^ 11 + fn

/-- An SI- or SB-format word (R35). -/
def si (op : Nat) (d a imm : Nat) : Nat := op * 2 ^ 26 + d * 2 ^ 21 + a * 2 ^ 16 + imm

/-- A single-format word (R40). -/
def single (opc : Nat) (s : Single) : Nat :=
  s.mod.toNat + 2 ^ 16 * s.scope.toNat + 2 ^ 19 * flagNat s.sat + 2 ^ 20 * s.rnd.toNat + 2 ^ 22 * s.sel.toNat
    + 2 ^ 26 * s.imm.toNat + 2 ^ 42 * s.c.toNat + 2 ^ 50 * s.b.toNat + 2 ^ 58 * s.a.toNat + 2 ^ 66 * s.d.toNat
    + 2 ^ 74 * s.ty.toNat + 2 ^ 78 * opc + 2 ^ 88 * flagNat s.ng + 2 ^ 89 * flagNat s.u + 2 ^ 90 * s.look.toNat

/-- An engine-format word (R42). -/
def eng (opc : Nat) (e : Eng) : Nat :=
  e.ex.toNat + 2 ^ 32 * e.imm.toNat + 2 ^ 48 * e.s2.toNat + 2 ^ 56 * e.s1.toNat + 2 ^ 64 * e.d.toNat
    + 2 ^ 72 * e.eb.toNat + 2 ^ 76 * e.ea.toNat + 2 ^ 80 * opc + 2 ^ 90 * e.look.toNat + 2 ^ 94 * 2

/-- A 46-bit slot (R41). -/
def slot (popc : Nat) (s : Slot) : Nat :=
  s.rnd.toNat + 2 ^ 2 * s.c.toNat + 2 ^ 10 * s.b.toNat + 2 ^ 18 * s.a.toNat + 2 ^ 26 * s.d.toNat + 2 ^ 34 * s.pty.toNat
    + 2 ^ 37 * popc + 2 ^ 44 * flagNat s.ng + 2 ^ 45 * flagNat s.u

/-- A pair word (R41). -/
def pair (op : PairOp) (p : Slot) (qop : PairOp) (q : Slot) : Nat :=
  2 ^ 2 * slot (popc qop) q + 2 ^ 48 * slot (popc op) p + 2 ^ 94

/-- A packet (R398), its STATUS and RESULT zero. -/
def packetWord (opc : Nat) (p : Packet) : Nat :=
  opc + 2 ^ 8 * p.tgt.toNat + 2 ^ 16 * p.capv.toNat + 2 ^ 19 * flagNat p.fence + 2 ^ 20 * flagNat p.tick
    + 2 ^ 21 * flagNat p.sysc + 2 ^ 24 * p.prio.toNat + 2 ^ 32 * p.arg0.toNat + 2 ^ 64 * p.arg1.toNat
    + 2 ^ 128 * p.f0.toNat + 2 ^ 256 * p.f1.toNat + 2 ^ 384 * p.f2.toNat

/-- What the encoder answers: a scalar word, a lane word, the OPC of a packet (R399), or nothing for an event of the
machine. -/
inductive Code where
  | scalar (w : Nat)
  | lane (w : Nat)
  | command (opc : Nat)
  | event
deriving DecidableEq, Repr

end Enc

/-- The word of an instruction; an event of the machine has none. -/
def encode (i : Instr) : Enc.Code :=
  match i with
  | .add d a b => .scalar (sr 0 d.toNat a.toNat b.toNat 0)
  | .sub d a b => .scalar (sr 0 d.toNat a.toNat b.toNat 1)
  | .and d a b => .scalar (sr 0 d.toNat a.toNat b.toNat 2)
  | .or d a b => .scalar (sr 0 d.toNat a.toNat b.toNat 3)
  | .xor d a b => .scalar (sr 0 d.toNat a.toNat b.toNat 4)
  | .shl d a b => .scalar (sr 0 d.toNat a.toNat b.toNat 5)
  | .shr d a b => .scalar (sr 0 d.toNat a.toNat b.toNat 6)
  | .sra d a b => .scalar (sr 0 d.toNat a.toNat b.toNat 7)
  | .mul d a b => .scalar (sr 0 d.toNat a.toNat b.toNat 8)
  | .mulh d a b => .scalar (sr 0 d.toNat a.toNat b.toNat 9)
  | .mulhn d a b => .scalar (sr 0 d.toNat a.toNat b.toNat 10)
  | .divn d a b => .scalar (sr 0 d.toNat a.toNat b.toNat 11)
  | .remn d a b => .scalar (sr 0 d.toNat a.toNat b.toNat 12)
  | .min d a b => .scalar (sr 0 d.toNat a.toNat b.toNat 13)
  | .max d a b => .scalar (sr 0 d.toNat a.toNat b.toNat 14)
  | .minn d a b => .scalar (sr 0 d.toNat a.toNat b.toNat 15)
  | .maxn d a b => .scalar (sr 0 d.toNat a.toNat b.toNat 16)
  | .slt d a b => .scalar (sr 0 d.toNat a.toNat b.toNat 17)
  | .sltn d a b => .scalar (sr 0 d.toNat a.toNat b.toNat 18)
  | .seq d a b => .scalar (sr 0 d.toNat a.toNat b.toNat 19)
  | .clz d a => .scalar (sr 0 d.toNat a.toNat 0 20)
  | .popc d a => .scalar (sr 0 d.toNat a.toNat 0 21)
  | .addi d a imm => .scalar (si 0x01 d.toNat a.toNat imm.toNat)
  | .andi d a imm => .scalar (si 0x02 d.toNat a.toNat imm.toNat)
  | .ori d a imm => .scalar (si 0x03 d.toNat a.toNat imm.toNat)
  | .xori d a imm => .scalar (si 0x04 d.toNat a.toNat imm.toNat)
  | .shli d a sh => .scalar (si 0x05 d.toNat a.toNat sh.toNat)
  | .shri d a sh => .scalar (si 0x06 d.toNat a.toNat sh.toNat)
  | .srai d a sh => .scalar (si 0x07 d.toNat a.toNat sh.toNat)
  | .slti d a imm => .scalar (si 0x08 d.toNat a.toNat imm.toNat)
  | .sltni d a imm => .scalar (si 0x09 d.toNat a.toNat imm.toNat)
  | .lui d imm => .scalar (si 0x0A d.toNat 0 imm.toNat)
  | .muli d a imm => .scalar (si 0x0B d.toNat a.toNat imm.toNat)
  | .jr d a => .scalar (si 0x0C d.toNat a.toNat 0)
  | .loop a off => .scalar (si 0x0D a.toNat 0 off.toNat)
  | .beq a b off => .scalar (si 0x10 a.toNat b.toNat off.toNat)
  | .bne a b off => .scalar (si 0x11 a.toNat b.toNat off.toNat)
  | .blt a b off => .scalar (si 0x12 a.toNat b.toNat off.toNat)
  | .bge a b off => .scalar (si 0x13 a.toNat b.toNat off.toNat)
  | .bltn a b off => .scalar (si 0x14 a.toNat b.toNat off.toNat)
  | .bgen a b off => .scalar (si 0x15 a.toNat b.toNat off.toNat)
  | .j off => .scalar (0x16 * 2 ^ 26 + off.toNat)
  | .jal off => .scalar (0x17 * 2 ^ 26 + off.toNat)
  | .lrun a imm => .scalar (si 0x18 0 a.toNat imm.toNat)
  | .ljmp a imm => .scalar (si 0x19 0 a.toNat imm.toNat)
  | .lsync => .scalar (si 0x1A 0 0 0)
  | .xrq d => .scalar (si 0x1B d.toNat 0 0)
  | .qfeed q ca b => .scalar (sr 0x1C q.toNat ca.toNat b.toNat 0)
  | .qhalt q => .scalar (si 0x1D q.toNat 0 0)
  | .qstat d q => .scalar (si 0x1E d.toNat q.toNat 0)
  | .xld d ca imm => .scalar (si 0x20 d.toNat ca.toNat imm.toNat)
  | .xst d ca imm => .scalar (si 0x21 d.toNat ca.toNat imm.toNat)
  | .cld cd ca imm => .scalar (si 0x22 cd.toNat ca.toNat imm.toNat)
  | .cst cd ca imm => .scalar (si 0x23 cd.toNat ca.toNat imm.toNat)
  | .cbnd cd ca b => .scalar (sr 0x24 cd.toNat ca.toNat b.toNat 0)
  | .cperm cd ca b => .scalar (sr 0x25 cd.toNat ca.toNat b.toNat 0)
  | .cget d ca which => .scalar (si 0x26 d.toNat ca.toNat which.toNat)
  | .cmov cd ca => .scalar (si 0x27 cd.toNat ca.toNat 0)
  | .srd d num => .scalar (si 0x28 d.toNat 0 num.toNat)
  | .swr a num => .scalar (si 0x29 0 a.toNat num.toNat)
  | .strap code => .scalar (si 0x2A 0 0 code.toNat)
  | .sexit => .scalar (si 0x2B 0 0 0)
  | .xwait d ca cond => .scalar (si 0x2C d.toNat ca.toNat cond.toNat)
  | .nop => .scalar (si 0x2E 0 0 0)
  | .iadd w => .lane (single 0x000 w)
  | .isub w => .lane (single 0x001 w)
  | .imul w => .lane (single 0x002 w)
  | .imulh w => .lane (single 0x003 w)
  | .imad w => .lane (single 0x004 w)
  | .imin w => .lane (single 0x005 w)
  | .imax w => .lane (single 0x006 w)
  | .iabs w => .lane (single 0x007 w)
  | .ineg w => .lane (single 0x008 w)
  | .andLane w => .lane (single 0x009 w)
  | .orLane w => .lane (single 0x00A w)
  | .xorLane w => .lane (single 0x00B w)
  | .not w => .lane (single 0x00C w)
  | .shlLane w => .lane (single 0x00D w)
  | .shrLane w => .lane (single 0x00E w)
  | .sraLane w => .lane (single 0x00F w)
  | .rot w => .lane (single 0x010 w)
  | .bfe w => .lane (single 0x011 w)
  | .bfi w => .lane (single 0x012 w)
  | .popcLane w => .lane (single 0x013 w)
  | .clzLane w => .lane (single 0x014 w)
  | .brev w => .lane (single 0x015 w)
  | .mov w => .lane (single 0x016 w)
  | .sel w => .lane (single 0x017 w)
  | .idp4 w => .lane (single 0x018 w)
  | .fadd w => .lane (single 0x080 w)
  | .fsub w => .lane (single 0x081 w)
  | .fmul w => .lane (single 0x082 w)
  | .fma w => .lane (single 0x083 w)
  | .fmin w => .lane (single 0x084 w)
  | .fmax w => .lane (single 0x085 w)
  | .fabs w => .lane (single 0x086 w)
  | .fneg w => .lane (single 0x087 w)
  | .fcpys w => .lane (single 0x088 w)
  | .frnd w => .lane (single 0x089 w)
  | .fclass w => .lane (single 0x08A w)
  | .fdp2 w => .lane (single 0x08B w)
  | .rcp w => .lane (single 0x100 w)
  | .rsq w => .lane (single 0x101 w)
  | .sqrt w => .lane (single 0x102 w)
  | .exp2 w => .lane (single 0x103 w)
  | .log2 w => .lane (single 0x104 w)
  | .sinp w => .lane (single 0x105 w)
  | .cosp w => .lane (single 0x106 w)
  | .tanh w => .lane (single 0x107 w)
  | .cvt w => .lane (single 0x140 w)
  | .pack w => .lane (single 0x141 w)
  | .unpk w => .lane (single 0x142 w)
  | .scacc w => .lane (single 0x143 w)
  | .scale w => .lane (single 0x144 w)
  | .bscl w => .lane (single 0x145 w)
  | .push w => .lane (single 0x180 w)
  | .pushv w => .lane (single 0x181 w)
  | .pinv w => .lane (single 0x182 w)
  | .pop w => .lane (single 0x183 w)
  | .psav w => .lane (single 0x184 w)
  | .prst w => .lane (single 0x185 w)
  | .exit w => .lane (single 0x186 w)
  | .vote w => .lane (single 0x187 w)
  | .rqp w => .lane (single 0x188 w)
  | .nopl w => .lane (single 0x189 w)
  | .shfl w => .lane (single 0x1C0 w)
  | .shfli w => .lane (single 0x1C1 w)
  | .redl w => .lane (single 0x1C2 w)
  | .scanl w => .lane (single 0x1C3 w)
  | .dswp w => .lane (single 0x1C4 w)
  | .graft w => .lane (single 0x1C5 w)
  | .join w => .lane (single 0x1C6 w)
  | .leave w => .lane (single 0x1C7 w)
  | .tmemb w => .lane (single 0x1C8 w)
  | .ld w => .lane (single 0x200 w)
  | .st w => .lane (single 0x201 w)
  | .lds w => .lane (single 0x202 w)
  | .sts w => .lane (single 0x203 w)
  | .smap w => .lane (single 0x204 w)
  | .sunmap w => .lane (single 0x205 w)
  | .sflush w => .lane (single 0x206 w)
  | .pref w => .lane (single 0x207 w)
  | .llock w => .lane (single 0x208 w)
  | .lunlk w => .lane (single 0x209 w)
  | .atom w => .lane (single 0x260 w)
  | .atomc w => .lane (single 0x261 w)
  | .red w => .lane (single 0x262 w)
  | .waitc w => .lane (single 0x263 w)
  | .binit w => .lane (single 0x264 w)
  | .barv w => .lane (single 0x265 w)
  | .bwait w => .lane (single 0x266 w)
  | .binv w => .lane (single 0x267 w)
  | .tbar w => .lane (single 0x268 w)
  | .spinit w => .lane (single 0x2A0 w)
  | .enq w => .lane (single 0x2A1 w)
  | .deq w => .lane (single 0x2A2 w)
  | .enqt w => .lane (single 0x2A3 w)
  | .deqt w => .lane (single 0x2A4 w)
  | .spqry w => .lane (single 0x2A5 w)
  | .spfls w => .lane (single 0x2A6 w)
  | .fence w => .lane (single 0x2C0 w)
  | .acq w => .lane (single 0x2C1 w)
  | .rel w => .lane (single 0x2C2 w)
  | .acqr w => .lane (single 0x2C3 w)
  | .relr w => .lane (single 0x2C4 w)
  | .shdw w => .lane (single 0x2C5 w)
  | .publ w => .lane (single 0x2C6 w)
  | .trap w => .lane (single 0x2E0 w)
  | .brk w => .lane (single 0x2E1 w)
  | .ckpt w => .lane (single 0x2E2 w)
  | .vqry w => .lane (single 0x2E3 w)
  | .srdl w => .lane (single 0x2E4 w)
  | .rld w => .lane (single 0x300 w)
  | .rst w => .lane (single 0x301 w)
  | .ratom w => .lane (single 0x302 w)
  | .mcast w => .lane (single 0x303 w)
  | .rspr w => .lane (single 0x304 w)
  | .lseq w => .lane (single 0x305 w)
  | .tierq w => .lane (single 0x306 w)
  | .evwait w => .lane (single 0x307 w)
  | .cpy w => .lane (eng 0x340 w)
  | .cpym w => .lane (eng 0x341 w)
  | .cpyr w => .lane (eng 0x342 w)
  | .cpyf w => .lane (eng 0x343 w)
  | .crinit w => .lane (eng 0x344 w)
  | .await w => .lane (eng 0x345 w)
  | .rslot w => .lane (eng 0x346 w)
  | .node w => .lane (eng 0x347 w)
  | .arm w => .lane (eng 0x348 w)
  | .ply w => .lane (eng 0x349 w)
  | .adpf w => .lane (eng 0x34A w)
  | .mma w => .lane (eng 0x380 w)
  | .mmas w => .lane (eng 0x381 w)
  | .mmg w => .lane (eng 0x382 w)
  | .pln w => .lane (eng 0x383 w)
  | .mlda w => .lane (eng 0x384 w)
  | .msta w => .lane (eng 0x385 w)
  | .mzro w => .lane (eng 0x386 w)
  | .mrel w => .lane (eng 0x387 w)
  | .mwait w => .lane (eng 0x388 w)
  | .iaddPair p qop q => .lane (pair .iadd p qop q)
  | .isubPair p qop q => .lane (pair .isub p qop q)
  | .imulPair p qop q => .lane (pair .imul p qop q)
  | .imadPair p qop q => .lane (pair .imad p qop q)
  | .iminPair p qop q => .lane (pair .imin p qop q)
  | .imaxPair p qop q => .lane (pair .imax p qop q)
  | .andPair p qop q => .lane (pair .and p qop q)
  | .orPair p qop q => .lane (pair .or p qop q)
  | .xorPair p qop q => .lane (pair .xor p qop q)
  | .shlPair p qop q => .lane (pair .shl p qop q)
  | .shrPair p qop q => .lane (pair .shr p qop q)
  | .sraPair p qop q => .lane (pair .sra p qop q)
  | .movPair p qop q => .lane (pair .mov p qop q)
  | .selPair p qop q => .lane (pair .sel p qop q)
  | .faddPair p qop q => .lane (pair .fadd p qop q)
  | .fsubPair p qop q => .lane (pair .fsub p qop q)
  | .fmulPair p qop q => .lane (pair .fmul p qop q)
  | .fmaPair p qop q => .lane (pair .fma p qop q)
  | .fminPair p qop q => .lane (pair .fmin p qop q)
  | .fmaxPair p qop q => .lane (pair .fmax p qop q)
  | .fabsPair p qop q => .lane (pair .fabs p qop q)
  | .fnegPair p qop q => .lane (pair .fneg p qop q)
  | .launch => .command 0x01
  | .armnode => .command 0x02
  | .plyrun => .command 0x03
  | .mark => .command 0x04
  | .part => .command 0x20
  | .ctxnew => .command 0x21
  | .ctxdel => .command 0x22
  | .ptroot => .command 0x23
  | .tlbinv => .command 0x24
  | .grant => .command 0x25
  | .qreg => .command 0x26
  | .qunreg => .command 0x27
  | .setp => .command 0x28
  | .ways => .command 0x29
  | .pubt => .command 0x2A
  | .loanLend => .command 0x2B
  | .loanMap => .command 0x2B
  | .loanRecall => .command 0x2B
  | .loanEnd => .command 0x2B
  | .preempt => .command 0x2C
  | .resume => .command 0x2D
  | .faultansRetry => .command 0x2E
  | .faultansResume => .command 0x2E
  | .faultansKill => .command 0x2E
  | .gangsw => .command 0x2F
  | .query => .command 0x30
  | .fwupd => .command 0x38
  | .attest => .command 0x39
  | .laneWordComplete | .courseRetire | .feedEntryForm | .wakeup | .repollTimer | .holdReturn 
  | .heldStoreTimeout | .graftParkTimeout | .watchdogFire | .lclockAdvance | .gateReevaluate | .spoolTestReply 
  | .copyComplete | .multicastMemberDone | .followOnIssue | .tileOpStart | .tileOpEnd | .tokenIdleReturn 
  | .nodeComplete | .plyComplete | .launchComplete | .faultRingPost | .swiftTake | .queueNotify | .queueUnmap 
  | .gangPlace | .reservationAge | .tickStart | .gangswVacate | .gangswIncomingStart | .vacateCeiling 
  | .vacateRequest | .saveComplete | .swapOut | .swapIn | .needleFailover | .fwupdTakeover | .remoteRequest 
  | .remoteAck | .retransmit | .linkResolve | .lineDelegate | .delegationRecall | .loanRenew | .loanLost 
  | .lenderReuse | .recallReceive | .recallMoveDone | .evwaitTimeout | .hpbudgetWrite | .mringWrite 
  | .hostRegWrite | .hostMemWrite | .hostMemRead | .portLinkDown | .deviceReset | .thermalThrottle 
  | .thermalShutdown | .backInvalidateResponse | .ringHeaderSnoop | .renewalReceive | .renewalAckReceive 
  | .releasedReceive | .missedHeartbeat => .event

/-- The 512-bit packet of a command with given fields; nothing for an instruction that is no command. -/
def encodePacket (i : Instr) (p : Packet) : Option Nat :=
  match encode i with
  | .command opc => some (packetWord opc p)
  | .scalar _ | .lane _ | .event => none

end Sys2Proof
end

