-- ==== Sys2Proof/Machine/State.lean ====
section
/-! DEFINITION. The machine's state as plain data: courses, teams, contexts, launches, engines, memory, the front end, the
fabric and the host registers; the reasons a step can stop; and the machine after reset. -/

namespace Sys2Proof.Machine

/-- Memory: address and byte, addresses rising, no byte equal to what an unlisted address reads as (log 10). -/
abbrev Memory := List Host.Cell

/-- Why the machine stops. -/
inductive Fault where
  /-- A host access named a device physical address that holds no memory (R109). Raised by the host access events; safe. -/
  | noMemory (addr : Nat)
deriving DecidableEq, Repr

/-- Why an instruction is refused. -/
inductive Refusal where
  /-- The instruction has no meaning in the model yet. Raised by the dispatcher; safe. -/
  | notModelled (mnemonic : String)
deriving DecidableEq, Repr

/-- The states of a course (R27), in the order of their codes. -/
inductive Phase where
  | placed
  | running
  | waiting
  | swapped
  | vacated
  | retired
deriving DecidableEq, Repr

/-- What a stream of a course waits for. -/
inductive WaitKind where
  /-- WAITC or XWAIT on a word (R92, R222) -/
  | word
  /-- BWAIT or BARV.wait (R229) -/
  | barrier
  /-- a blocked spool operation (R272) -/
  | spool
  /-- AWAIT on a slot, or an issue into a full ring (R288, R289) -/
  | ring
  /-- LSYNC waiting for the lane stream (R81) -/
  | lsync
  /-- STRAP, LRUN or QHALT waiting for the lane stream (R63) -/
  | lanes
  /-- XRQ on an empty return queue (R82) -/
  | returnQueue
  /-- a push into a full return queue (R82) -/
  | push
  /-- QFEED with both slots taken, or a pop whose entry is not yet formed (R63, R46) -/
  | feed
  /-- JOIN behind a team barrier or a gathering collective (R174, R292) -/
  | join
  /-- TBAR (R232) -/
  | tbar
  /-- the issue gate (R344): the course is stalled, not Waiting -/
  | gate
  /-- a full engine queue, or earlier tile operations (R290, R313) -/
  | engine
  /-- a free matrix context: the course is Waiting (R312) -/
  | context
  /-- engine writes a release waits for (R246) -/
  | writes
  /-- parked at a GRAFT (R178): the course is Running -/
  | graft
  /-- results or acknowledgements from another device (R380, R383) -/
  | remote
  /-- LSEQ (R386) -/
  | lseq
  /-- EVWAIT (R394) -/
  | event
  /-- the host's answer to a posted trap or translation fault (R108, R353) -/
  | service
  /-- a free slot of the fault ring (R356) -/
  | post
  /-- the end of a loan's move (R392) -/
  | move
deriving DecidableEq, Repr

/-- A charge in an account of R337: the cluster, the account (0 CE, 1 to 8 AR0 to AR7, 9 to 16 RQ0 to RQ7, 17 FE), ns, and
whether it is for a copy whose destination lies wholly in an unpublished shadow (R338). -/
structure Charge where
  cluster : Nat
  acct : Nat
  ns : Nat
  shadow : Bool := false
deriving DecidableEq, Repr

/-- A wait of one stream: what for, the line its monitor watches (none where no monitor holds it: it is polled, R223), whether
it is internal for the watchdog (R234), when it began, and when it was last armed. -/
structure Wait where
  kind : WaitKind
  line : Option Nat := none
  /-- the location of the barrier object waited on (R227) -/
  obj : Option Nat := none
  internal : Bool := true
  since : Nat := 0
  armed : Nat := 0
  /-- when an EVWAIT with a timeout ends (R394) -/
  limit : Option Nat := none
  /-- a stalled word: the charges it asks for, and whether it binds a matrix context (R344, R346) -/
  charges : List Charge := []
  binds : Bool := false
deriving DecidableEq, Repr

/-- One v register of a course: the threads' elements (an absent one is 0) and the elements poisoned by a register-file
error or by a memory error (R155, R200). -/
structure VReg where
  vals : List Word := []
  rf : Mask := 0
  me : Mask := 0
deriving DecidableEq, Repr

/-- One g register: the temporal groups' elements and its poison (R24, R155). -/
structure GReg where
  vals : List Word := []
  rf : BitVec 64 := 0
deriving DecidableEq, Repr

/-- An entry of an operand queue with the marks of R86 (link: an element in memory borrowed on a lost loan, R389), the
address of thread 0's element and the thread stride, and the reason of each translation mark. -/
structure QEntry where
  vals : List Word
  bounds : Mask := 0
  align : Mask := 0
  xlt : Mask := 0
  mem : Mask := 0
  link : Mask := 0
  base : Int := 0
  step : Int := 0
  reasons : List (Nat × Nat) := []
deriving DecidableEq, Repr

/-- A feed descriptor (R83, R84) with the capability captured by QFEED and the next entry's index. -/
structure FeedDesc where
  cap : Cap
  start : Word
  tstr : Word
  count0 : Word
  str0 : Word
  count1 : Word
  str1 : Word
  flags : Word
  next : Nat := 0
deriving DecidableEq, Repr

/-- The entries a feed pushes (R83). -/
def FeedDesc.entries (d : FeedDesc) : Nat := d.count0.toNat * d.count1.toNat

/-- The two feed slots of an operand queue (R62). -/
structure Feed where
  active : Option FeedDesc := none
  waiting : Option FeedDesc := none
deriving DecidableEq, Repr

/-- A release record: the next index, the words left, and the captured registers (R62). -/
structure RelRec where
  first : Nat
  count : Nat
  xs : List Word
  caps : List Cap
deriving DecidableEq, Repr

/-- A LOOK window (R53): the words left in it, the operand code of the destination, what that register held before, and whether the
word that opens it has performed in part and faulted: its window then begins after it, once the host has answered (R105, R353). -/
structure Look where
  left : Nat
  reg : BitVec 8
  old : VReg
  own : Bool := false
deriving DecidableEq, Repr

/-- A region clock (R241): a range of tenant virtual addresses and a time. -/
structure Region where
  base : Nat
  len : Nat
  time : Nat
deriving DecidableEq, Repr

/-- An accumulator tile: 1024 elements (an absent one is 0) and the poisoned ones (R26, R331). -/
structure Tile where
  vals : List Word := []
  bad : List Nat := []
deriving DecidableEq, Repr

/-- The part of a course that a checkpoint records (R66, R156, R182). -/
structure Core where
  /-- scalar PC, a byte offset in the scalar code section (R22) -/
  pc : Nat := 0
  /-- SEXIT has ended the scalar stream (R91) -/
  ended : Bool := false
  /-- x0 to x31 -/
  xs : List Word := []
  /-- a0 to a15 -/
  caps : List Cap := []
  /-- release pointer RP (R62) -/
  rp : Nat := 0
  /-- release queue, oldest record first (R62) -/
  relq : List RelRec := []
  /-- released words not yet completed (R62) -/
  pending : Nat := 0
  /-- feed slots of q0 to q15 -/
  feeds : List Feed := []
  /-- operand queues q0 to q15, oldest entry first -/
  queues : List (List QEntry) := []
  /-- return queue, oldest entry first -/
  retq : List Word := []
  /-- holding register of %clock (R72) -/
  clockHold : Word := 0
  /-- holding register of %lclock (R72) -/
  lclockHold : Word := 0
  /-- predicate stack, top first (R156) -/
  preds : List Mask := []
  /-- live mask (R156) -/
  live : Mask := 0
  /-- scratch-fault mask (R69) -/
  faultMask : Mask := 0
  /-- compact live identifiers, by thread (R156) -/
  cli : List Nat := []
  /-- v0 to v191 -/
  vregs : List VReg := []
  /-- g0 to g15 -/
  gregs : List GReg := []
  /-- %fpflags (R71) -/
  fpflags : BitVec 5 := 0
  /-- LOBS (R241) -/
  lobs : Nat := 0
  /-- region clocks, newest first, at most four (R241) -/
  regions : List Region := []
  /-- open LOOK windows, oldest first (R53) -/
  looks : List Look := []
  /-- a TBAR arrival of this course that has not yet left the barrier (R232) -/
  atBarrier : Bool := false
  /-- the generation a BARV.wait has arrived at and now waits for (R228) -/
  arrivedGen : Option Nat := none
deriving DecidableEq, Repr

/-- A register written since the checkpoint (R183). -/
inductive ShadowKey where
  | v (n : Nat)
  | g (n : Nat)
  | z (n : Nat)
deriving DecidableEq, Repr

/-- What a fault record names (R354). -/
structure FaultInfo where
  cause : Nat
  detail : Nat := 0
  mask : Mask := 0
  addr : Nat := 0
  code : Nat := 0
  scalar : Bool := false
  pc : Nat := 0
  /-- the word has completed: a remote write whose failure comes back later (R379, R381) -/
  later : Bool := false
deriving DecidableEq, Repr

/-- A trapped or rolled-back course that waits for service: its fault, the fault-ring entry once it is posted, and the
SOURCE of the posting (R353, R356). -/
structure Trapped where
  info : FaultInfo
  entry : Option Nat := none
  source : Nat := 0
deriving DecidableEq, Repr

/-- A bound matrix context: its accumulator tiles z0 to z3 (R312). -/
structure MatCtx where
  tiles : List Tile := []
deriving DecidableEq, Repr

/-- The outcome of a write-bearing packet (R384). -/
inductive PktOutcome where
  | unknown
  | done
  | dropped
  | indet
deriving DecidableEq, Repr

/-- A write-bearing packet of a course, kept until LSEQ reads it (R384): its outcome, and the ranges it writes (R249). -/
structure Sent where
  node : Nat
  seqno : Nat
  outcome : PktOutcome := .unknown
  ranges : List (Nat × Nat) := []
deriving DecidableEq, Repr

/-- A failure a remote packet's target or its link reports: the word, the node, the threads, the cause and its detail, the
address of the lowest of the threads, and whether the word is an MCAST (R374, R381, R385). -/
structure RemoteFail where
  word : Nat
  node : Nat
  threads : List Nat
  cause : Nat
  detail : Nat := 0
  addr : Nat := 0
  multi : Bool := false
  /-- the lane-word index of the word (R54) -/
  pc : Nat := 0
deriving DecidableEq, Repr

/-- A course (R18, R20, R62, R156). -/
structure Course where
  /-- context number -/
  ctx : Nat := 0
  /-- launch number -/
  launch : Nat := 0
  /-- %course -/
  index : Nat := 0
  /-- physical core 0 to 191: 8 times the cluster index plus the core (R12) -/
  place : Nat := 0
  /-- its course position of the core, 0 to 15, which keeps its slot of the core's swap region (R349) -/
  pos : Nat := 0
  /-- the team it is a member of (R173) -/
  team : Option Nat := none
  /-- allocated v registers -/
  regs : Nat := 8
  /-- %nq -/
  nq : Nat := 4
  /-- launched threads (R19) -/
  launched : Mask := 0
  /-- scalar code section -/
  scode : Cap := 0
  /-- lane code section -/
  lcode : Cap := 0
  /-- record area (R405) -/
  recArea : Cap := 0
  phase : Phase := .placed
  /-- state it was vacated from -/
  prior : Phase := .placed
  /-- OPTION of the last vacate (R354) -/
  option : Nat := 0
  /-- the present state of what a checkpoint records -/
  core : Core := {}
  /-- the latest checkpoint (R182) -/
  ckpt : Core := {}
  /-- registers written since the checkpoint (R183) -/
  shadow : List ShadowKey := []
  /-- the shadow copies of accumulator tiles written since the checkpoint (R183) -/
  tileCopies : List (Nat × Tile) := []
  /-- held bytes by tenant virtual address (R195) -/
  heldG : Memory := []
  /-- held bytes by scratch offset (R195) -/
  heldS : Memory := []
  /-- the HINT of the last store to a held line, where it is not 0 (R197, R198) -/
  heldHint : List (Nat × Nat) := []
  /-- the translation with which each held line was last stored to: the leaf and the log2 of its page (R111) -/
  heldLeaf : List (Nat × BitVec 64 × Nat) := []
  /-- the held bytes of stores before the latest checkpoint: their commit waits, for the end of a loan's move (R182, R392) -/
  owed : Memory := []
  /-- the global bytes that lane words have stored since the scalar stream last passed an LSYNC, newest store first, each with the
  byte the course held there before, where it held one (R65) -/
  unsynced : List (List (Nat × Option Byte)) := []
  /-- since when the oldest held byte is held (R181) -/
  heldSince : Nat := 0
  /-- %lclock (R241) -/
  lclock : Nat := 0
  /-- largest WTS of the writes issued (R246) -/
  wmax : Nat := 0
  /-- records written (R354) -/
  recSeq : Nat := 0
  /-- a registers made null by a grant change (R99) -/
  revoked : BitVec 16 := 0
  /-- consecutive RFERR rollbacks from this checkpoint (R358) -/
  rollbacks : Nat := 0
  /-- a non-replayable fault of a scalar word, taken when the lane words released before it have completed (R67) -/
  sfault : Option FaultInfo := none
  /-- the trap or rollback that waits for service -/
  trapped : Option Trapped := none
  /-- charges the gate has granted to the stalled word of the lane stream, and whether that word binds a matrix context
  (R344, R346) -/
  granted : Option (List Charge) := none
  grantBinds : Bool := false
  /-- the step of the latest checkpoint, by the count of free values (R347) -/
  ckptAt : Nat := 0
  /-- a KILL that reached it while it was vacated, with its cause: it is delivered on resume (R353) -/
  doomed : Option Nat := none
  swait : Option Wait := none
  lwait : Option Wait := none
  /-- the waits that a wake-up or a re-poll has ended and whose words have not yet been tested again (R28, R223) -/
  swas : Option Wait := none
  lwas : Option Wait := none
  /-- parked at a GRAFT until this clock (R178) -/
  parked : Option Nat := none
  /-- EVWAIT has timed out (R394) -/
  timedOut : Bool := false
  /-- status a finished graft leaves for the continuing course's GRAFT (R178) -/
  graftStatus : Option Nat := none
  /-- the bound matrix context (R312) -/
  mctx : Option MatCtx := none
  /-- write-bearing packets (R384) -/
  sent : List Sent := []
  /-- replies of the packets of the word that waits for results, by thread (R380) -/
  replies : List (Nat × List Byte) := []
  /-- a lane word issued and not complete: it waits for results from another device (R64) -/
  inFlight : Bool := false
  /-- of that word: the fault of the threads that failed at issue, and the largest write time of its results -/
  remoteFault : Option FaultInfo := none
  remoteWts : Nat := 0
  /-- its number, and the threads whose loaded bytes hold an uncorrectable one -/
  remoteWord : Nat := 0
  remotePoison : Mask := 0
  /-- the flags its atomics have raised at their targets (R218) -/
  remoteFlags : BitVec 5 := 0
  /-- it acts at its targets: no rollback issues it again (R380) -/
  remoteActs : Bool := false
  /-- the flags that completed words with packets out have raised so far, by the word's number (R124) -/
  wordFlags : List (Nat × BitVec 5) := []
  /-- failures reported for remote words (R374, R381, R385) -/
  remoteBad : List RemoteFail := []
deriving DecidableEq, Repr

/-- A line as a copy of it was read: the write time it came with, and the copy's lease end (R243). -/
structure HomeCopy where
  line : Nat
  wts : Nat
  lease : Nat
deriving DecidableEq, Repr

/-- A filled scratch line of a stash range (R203, R243): its line number in the window, and the home lines it was read from, two
where the global range begins within a line. -/
structure Filled where
  off : Nat
  homes : List HomeCopy
deriving DecidableEq, Repr

/-- A stash slot in use (R201): its scratch and global ranges, MODE, the filled scratch lines (R203), and the dirty bytes
(R204). -/
structure Stash where
  scr : Nat
  va : Nat
  len : Nat
  mode : Nat
  filled : List Filled := []
  dirty : List Nat := []
deriving DecidableEq, Repr

/-- A barrier object a team is enrolled in (R228). -/
structure Enrol where
  ctx : Nat
  va : Nat
  gen : Nat
deriving DecidableEq, Repr

/-- A team (R173, R191, R201, R232). -/
structure Team where
  key : Nat := 0
  isDefault : Bool := true
  place : Nat := 0
  ctx : Nat := 0
  launch : Nat := 0
  alive : Bool := true
  /-- team slot of its core -/
  slot : Nat := 0
  /-- S, bytes of the scratch window (R191) -/
  size : Nat := 0
  /-- bytes of the window -/
  scratch : Memory := []
  /-- bytes of the window written from an uncorrectable source (R290) -/
  bad : List Nat := []
  /-- the bytes placed in the window, by 64-byte line; a word is written once a byte of it is (R192) -/
  written : List (Nat × BitVec 64) := []
  /-- released lines (R192) -/
  released : List Nat := []
  /-- stash slots in use, by number (R201) -/
  stash : List (Nat × Stash) := []
  /-- courses that have arrived at the team barrier (R232) -/
  arrived : List Nat := []
  /-- barrier objects enrolled in, at most 8 (R228) -/
  enrols : List Enrol := []
  /-- lines locked by LLOCK (R208) -/
  locks : List Nat := []
  /-- the gathering collective copies, oldest first: each one's job, and the courses that have contributed (R292) -/
  gathering : List (Nat × List Nat) := []
  /-- fault masks of members that have left (R193) -/
  faultOr : Mask := 0
  /-- the lowest-numbered course that has left: its area takes the exit record, where no member is below it (R355, R405, log 120) -/
  first : Option Nat := none
  /-- the largest clock that a store or an atomic to the window has carried (R237, log 92) -/
  clock : Nat := 0
  /-- the largest clock of the courses that have left it, which an acquire from the team takes (R173, R254) -/
  left : Nat := 0
deriving DecidableEq, Repr

/-- An entry of a publish table (R250), with the back lines written since the open. -/
structure Pub where
  isOpen : Bool := false
  selb : Bool := false
  clone : Bool := false
  owner : Nat := 0
  slot : Nat := 0
  team : Nat := 0
  vlen : Nat := 0
  vbase : Nat := 0
  /-- write time of the entry's line, and the times of its flips, newest first (R251, R253) -/
  wts : Nat := 0
  flips : List Nat := []
  lines : List Nat := []
deriving DecidableEq, Repr

/-- A physical core with a split (R188, R189): its context, the granules of each kind, the launches placed on it, and its
power token and burst (R328). -/
structure Split where
  place : Nat
  ctx : Nat
  reg : Nat
  qbuf : Nat
  loc : Nat
  ckpt : Nat
  launches : List Nat := []
  /-- team slots with LOC granules, by launch: its default teams placed here and its e extra ones -/
  slots : List (Nat × Nat) := []
  token : Bool := false
  burst : Nat := 0
  /-- the array's last turn: 1 more than the course whose context ran last, 0 for none (R26) -/
  lastTile : Nat := 0
deriving DecidableEq, Repr

/-- What the host may do with a context (R399, R351). -/
inductive CtxMode where
  | active
  | vacating
  | vacated
  | lost
  | deleted
deriving DecidableEq, Repr

/-- A context (R18, R342, R353, R402). -/
structure Context where
  num : Nat := 0
  tenant : Nat := 0
  partition : Nat := 0
  mode : CtxMode := .active
  /-- page-table root (R106) -/
  ptroot : Nat := 0
  vbnd : Nat := Config.vceil
  vmode : Bool := false
  policy : Word := Config.defaultPolicy
  /-- watchdog period, ms -/
  wdog : Nat := 100
  /-- LTO, µs -/
  lto : Nat := 500
  debug : Bool := false
  /-- privileged channel (R295) -/
  priv : Bool := false
  tickp : Nat := 0
  ticko : Nat := 0
  /-- ageing limit, µs -/
  age : Nat := 50
  saveArea : Cap := 0
  faultRing : Cap := 0
  vmeas : Nat := 0
  /-- charges not yet credited (R337) -/
  charges : List Charge := []
  /-- the option each cluster applies at the vacate in progress: cluster, code of R354 -/
  options : List (Nat × Nat) := []
  /-- when the vacate in progress was requested, and %vest at that instant (R341) -/
  vacateAt : Nat := 0
  vacateEst : Nat := 0
  /-- ns that an overrun takes off its next slot (R351) -/
  debt : Nat := 0
  /-- vacated for a grant change, which resumes it (R99) -/
  byGrant : Bool := false
  /-- the splits of the cores it has left, which resume restores -/
  savedSplits : List Split := []
  /-- publish table, entries in use (R250) -/
  pub : List (Nat × Pub) := []
  /-- demotion counter, and the largest write time of the leaf rewrites it tells of (R394) -/
  demotions : Word := 0
  demotedAt : Nat := 0
  /-- dropped hints (R297) -/
  dropped : Nat := 0
  /-- bytes moved by the copy engines for it (R399 QUERY 3) -/
  copied : Nat := 0
  /-- wake list (R28) -/
  wakes : List Nat := []
deriving DecidableEq, Repr

/-- A reported completion: the ring's context and header address, the generation and the slot counter recorded (R288). -/
structure RingRef where
  ctx : Nat
  cap : Cap
  gen : Nat
  slot : Nat
  /-- the team whose work it is, which accesses its own open buffer (R251) -/
  team : Option Nat := none
deriving DecidableEq, Repr

/-- A barrier arrival that engine work carries (R230). -/
structure BarRef where
  ctx : Nat
  va : Nat
  gen : Nat
  cap : Cap := 0
  /-- the team whose work it is, which accesses its own open buffer (R251) -/
  team : Option Nat := none
deriving DecidableEq, Repr

/-- One end of a copy: a scratch offset of a team, or a tenant virtual address of a context. -/
inductive End where
  | scratch (team off : Nat)
  | global (ctx va : Nat)
deriving DecidableEq, Repr

/-- One slice of a copy, or one member of a multicast (R290, R292, R293). -/
structure Part where
  src : End
  dst : End
  len : Nat
  /-- bytes it writes: len, or the plane tiles of a packing copy -/
  outLen : Nat := 0
  /-- PACK: the element type and 0 for A layout, 1 for B layout (R285) -/
  pack : Option (Nat × Nat) := none
  /-- the clock it carries (R258) -/
  clk : Nat := 0
  /-- node of a multicast member; none for this device -/
  node : Option Nat := none
  /-- gate word address of a CPYR member (R295), and whether its device has set the gate to 1 -/
  gate : Option Nat := none
  gated : Bool := false
  /-- the capabilities of its global ends (R95, R99) -/
  srcCap : Cap := 0
  dstCap : Cap := 0
  /-- it has performed, failed (cause) or refused -/
  done : Bool := false
  failed : Option Nat := none
  refused : Bool := false
  /-- the copying course, whose contribution the slice is; none for a ply's copy -/
  course : Option Nat := none
  /-- the largest write time of its bytes, once they are written (R246) -/
  wts : Nat := 0
  /-- the step in which its word issued, by the count of free values (R347) -/
  issued : Nat := 0
  /-- its word took no checkpoint: its destination lies wholly in an unpublished shadow (R181) -/
  shadow : Bool := false
  /-- the bytes it has written, once they are written and its gate is not yet set to 2 (R295) -/
  landing : Option Nat := none
deriving DecidableEq, Repr

/-- A tile operation of a course (R321). -/
structure TileOp where
  course : Nat
  ctx : Nat
  team : Nat
  place : Nat
  z : Nat
  ta : Nat
  tb : Nat
  pb : Nat
  rz : Bool
  aoff : Nat
  /-- B tile offsets of the four row blocks -/
  boffs : List Nat
  /-- position indices of a sparse A tile (R322), none for a dense one -/
  index : Option (List Nat) := none
  /-- the copy it follows (R296) -/
  job : Option Nat := none
  /-- accepted but not ready: a follow-on whose copy has not landed (R313) -/
  ready : Bool := true
  started : Bool := false
  /-- operand bytes as they stood at the word, and from the start on as the array took them then, the A tile's and each B
  tile's, and the uncorrectable ones among them by offset (R313, R314, R331) -/
  aCap : List Byte := []
  bCaps : List (List Byte) := []
  aBad : List Nat := []
  bBad : List (List Nat) := []
  /-- the charge in the core's AR account (R330) -/
  charge : Nat := 0
deriving DecidableEq, Repr

/-- What a copy job is. -/
inductive JobKind where
  | cpy
  | cpym
  | cpyr
  | cpyf
  | adpf
  | ply
deriving DecidableEq, Repr

/-- A copy in the engine of a cluster (R290 to R297). -/
structure Job where
  kind : JobKind
  ctx : Nat
  /-- the course that issued it; none for a ply's copy -/
  course : Option Nat := none
  team : Option Nat := none
  cluster : Nat := 0
  parts : List Part := []
  /-- still gathering slices (R292) -/
  gathering : Bool := false
  /-- a member went uncontributed (R292) -/
  short : Bool := false
  ring : Option RingRef := none
  bar : Option BarRef := none
  tag : Nat := 0
  /-- bytes written, and the cause of the first failure (R287) -/
  bytes : Nat := 0
  detail : Nat := 0
  /-- the follow-on: 0 none, 1 awaited, 2 performed, 3 failed (R296, R334) -/
  follow : Nat := 0
  clock : Nat := 0
  /-- region clocks of the ply it belongs to (R299) -/
  regions : List Region := []
  /-- its word will be issued again, after DISCARD or a rollback, and takes up this job with its slot (R181, R347) -/
  reissue : Bool := false
  charges : List Charge := []
  /-- waits for the service of a translation fault (R291): the fault-ring entry -/
  waiting : Option Nat := none
  finished : Bool := false
  /-- the destination lies wholly in an unpublished shadow (R181) -/
  inShadow : Bool := false
  ply : Option (Nat × Nat) := none
deriving DecidableEq, Repr

/-- Where a launch reports (R400, R302, R305). -/
inductive Report where
  | packet (queue slot : Nat)
  | node (run : Nat)
  | ply (run sub : Nat)
deriving DecidableEq, Repr

/-- A launch (R403 to R411). -/
structure Launch where
  ctx : Nat
  report : Report
  scode : Cap
  lcode : Cap
  args : Cap
  recs : Cap
  regs : Nat
  q : Nat
  loc : Nat
  ckpt : Nat
  teamsx : Nat
  /-- teams per gang -/
  gang : Nat
  /-- courses per team -/
  cpt : Nat
  power : Nat
  ncourse : Nat
  lastn : Nat
  pin : Option Nat := none
  prio : Nat := 0
  sysc : Bool := false
  tick : Bool := false
  /-- ring it heads (R406) -/
  queue : Nat := 0
  arrival : Nat := 0
  /-- gangs placed -/
  placed : Nat := 0
  blockedSince : Option Nat := none
  /-- held until its tick begins, and that tick once every gang is placed (R411) -/
  held : Bool := false
  tickAt : Option Nat := none
  /-- ticks missed (R411) -/
  missed : Nat := 0
  /-- the first tick it could have started on (R411) -/
  firstTick : Nat := 0
  retired : Nat := 0
  killed : Option Nat := none
  finished : Bool := false
  /-- start clock (R241), and the region clocks its courses start with (R299) -/
  startClock : Nat := 0
  startRegions : List Region := []
deriving DecidableEq, Repr

/-- An armed chart node (R301, R302). -/
structure NodeRun where
  ctx : Nat
  /-- address of the node -/
  va : Nat
  /-- its predecessor count is zero: the walker has it -/
  ready : Bool := false
  /-- it has launched: its DONE slot is allocated -/
  started : Bool := false
  ring : Option RingRef := none
  /-- barrier of a BARRIER node with the generation captured at ARM -/
  bar : Option BarRef := none
  /-- its work has ended, and the cause of a failure -/
  ended : Bool := false
  failed : Option Nat := none
  /-- largest write time of the work's writes and of what made it ready, and the region clocks of its start (R299) -/
  clock : Nat := 0
  regions : List Region := []
  /-- the part of it that a release over regions publishes whatever they are: all but the engine writes (R249, R299) -/
  own : Nat := 0
  /-- STATE and DONE are written, and the out-edges already seen to (R302) -/
  closed : Bool := false
  next : Nat := 0
  /-- the FE charge of its ARM, until the walker has launched it (R306) -/
  charges : List Charge := []
  /-- its successors have been decremented -/
  finished : Bool := false
deriving DecidableEq, Repr

/-- The completion of a node as one of its successors has seen it (R299): the successor, the write time of the decrement, and the
regions of the edge; none where it lists none. -/
structure EdgeIn where
  ctx : Nat
  va : Nat
  clock : Nat
  regions : Option (List (Nat × Nat))
deriving DecidableEq, Repr

/-- A ply in progress (R305). -/
structure PlyRun where
  ctx : Nat
  /-- ring of a PLY word; the packet of a PLYRUN; the node of a PLY node -/
  ring : Option RingRef := none
  report : Option Report := none
  /-- sub-launches -/
  subs : Nat := 0
  /-- its copies, by sub-launch, not yet started -/
  copies : List (Nat × Part) := []
  /-- cluster whose copy engine takes them -/
  cluster : Nat := 0
  /-- sub-launches that have ended well, and that have failed -/
  perf : Nat := 0
  fail : Nat := 0
  /-- the header or a capability failed: the detail of R97 or R95 -/
  detail : Nat := 0
  /-- cause of the first failure -/
  cause : Nat := 0
  bytes : Nat := 0
  ended : Bool := false
  finished : Bool := false
  clock : Nat := 0
  own : Nat := 0
  regions : List Region := []
  /-- its launches complete at system scope (R298) -/
  sysc : Bool := false
  /-- the FE charge of its PLY, until its descriptor has been read (R306) -/
  charges : List Charge := []
deriving DecidableEq, Repr

/-- What of the front end waits for the service of a translation fault (R108, R356). -/
inductive FrontItem where
  | packet (queue slot : Nat)
  | node (run : Nat)
  | ply (run : Nat) (cap : Cap)
deriving DecidableEq, Repr

/-- A packet taken from a ring (R396, R400). -/
structure Taken where
  slot : Nat
  /-- its effect has begun -/
  begun : Bool := false
  retired : Bool := false
  /-- its place in the order of arrival at the swift (R406) -/
  arrival : Nat := 0
  /-- it may be a launch: it has not been read, or is a LAUNCH or PLYRUN (R406) -/
  launch : Bool := true
  /-- the write time its retirement covers, which the advance of DONE over it releases (R400) -/
  clk : Nat := 0
deriving DecidableEq, Repr

/-- A submission ring (R396, R401, R402); queue 65536 is the management ring. -/
structure Queue where
  num : Nat
  ctx : Nat
  /-- the ring lies in host memory -/
  host : Bool := false
  /-- header address: tenant virtual, or physical for the management ring and host rings -/
  base : Nat := 0
  caplog : Nat := 0
  weight : Nat := 1
  deficit : Nat := 0
  pinmap : Bool := false
  notify : Cap := 0
  mapped : Bool := true
  ready : Bool := false
  rptr : Nat := 0
  done : Nat := 0
  taken : List Taken := []
  closing : Bool := false
  error : Bool := false
  /-- the locations of its header line and of its notify line, in lines (R401) -/
  line : Nat := 0
  notifyLine : Option Nat := none
  /-- when it was last non-empty -/
  lastBusy : Nat := 0
deriving DecidableEq, Repr

/-- An entry of the loan table of a borrower (R387). -/
structure Loan where
  index : Nat
  state : Nat := 0
  dest : Bool := false
  lender : Nat := 0
  term : Nat := 0
  lbase : Nat := 0
  size : Nat := 0
  /-- the last acknowledged renewal, and the last renewal sent -/
  renewed : Nat := 0
  asked : Nat := 0
  /-- when the recall in progress was received -/
  recalledAt : Nat := 0
  /-- base of the reserved demotion space -/
  space : Nat := 0
  /-- RELEASED has been sent (R390) -/
  released : Bool := false
deriving DecidableEq, Repr

/-- The space that a moved loan's pages have taken, and the contexts whose pages they are (R390). -/
structure Demotion where
  dest : Bool
  space : Nat
  bytes : Nat
  ctxs : List Nat
deriving DecidableEq, Repr

/-- A region this device lends (R389). -/
structure Lend where
  index : Nat
  borrower : Nat := 0
  base : Nat := 0
  size : Nat := 0
  term : Nat := 0
  renewed : Nat := 0
  recalled : Bool := false
  reusable : Bool := false
deriving DecidableEq, Repr

/-- A request packet that awaits its acknowledgement (R383). A read's packet has a number of its own too, of no
architectural meaning. -/
structure Outstanding where
  node : Nat
  seqno : Nat
  course : Nat
  packet : RemotePkt
  /-- write-bearing, and whether its word waits for the result -/
  writes : Bool
  result : Bool
  /-- a packet of an MCAST (R381) -/
  multi : Bool := false
  /-- a read whose line this device may cache, and its HINT (R197, R376) -/
  keep : Bool := false
  hint : Nat := 0
  /-- threads whose contributions went into that of another thread (R382) -/
  merged : List (Nat × Nat) := []
  /-- the word that sent it: a number and the lane-word index -/
  word : Nat
  pc : Nat
  /-- the fabric port it went out over, none while no port is up (R432) -/
  port : Option Nat := none
  sentAt : Nat
  firstSent : Nat
  /-- the port has asked the target about it (R384) -/
  asked : Bool := false
  /-- its target has posted a page fault whose answer it waits for, the fault's reason, and whether the course has taken it (R374) -/
  paged : Bool := false
  reason : Nat := 0
  raised : Bool := false
deriving DecidableEq, Repr

/-- A number this device has performed or marked refused for a source (R383, R384). -/
structure Performed where
  source : Nat
  seqno : Nat
  refused : Bool := false
  reply : RemoteReply
deriving DecidableEq, Repr

/-- A line in an L1 (R196, R243): the core, the line, its bytes, its write time and its lease end. -/
structure L1Line where
  place : Nat
  line : Nat
  bytes : List Byte
  wts : Nat
  lease : Nat
deriving DecidableEq, Repr

/-- A cached translation (R110): in the TLB of a core, or in the second-level TLB of a cluster. -/
structure TlbEntry where
  place : Nat
  second : Bool := false
  ctx : Nat
  page : Nat
  size : Nat
  leaf : BitVec 64
deriving DecidableEq, Repr

/-- Bytes read from another device and cached here (R376): the tenant, the node, the tenant virtual address, the write time and
lease end they came with, and when the read was sent. They lie in a line of the local L2. One without bytes notes the latest write
time that the line has been read with (R239). -/
structure RemoteCopy where
  tenant : Nat
  node : Nat
  va : Nat
  bytes : List Byte
  wts : Nat
  lease : Nat
  filled : Nat
deriving DecidableEq, Repr

/-- A line of an L2 slice (R14, R209 to R211): where it is placed, whose fill it was, its priority and recency, and whether
the memory behind it is still to be written (R197). -/
structure L2Line where
  line : Nat
  slice : Nat
  way : Nat
  dirty : Bool := false
  tenant : Nat
  evp : Nat
  stamp : Nat
deriving DecidableEq, Repr

/-- A line held by a cluster unit (R216). -/
structure HoldLine where
  line : Nat
  cluster : Nat
  used : Nat
deriving DecidableEq, Repr

/-- A control block in the descriptor cache of its home slice: its line, the tenant that last loaded it, its recency, and
the contexts that have used it (R265, R277). Its contents are the line's bytes: every operation updates both. -/
structure SpoolDesc where
  line : Nat
  tenant : Nat
  stamp : Nat
  users : List Nat := []
deriving DecidableEq, Repr

/-- A range of memory that the save path has written (R349): its context, the cluster whose state it holds or the course swapped
out into it, its location and length, the step of the save, the bytes that something else has written since, and whether the
state in it has not yet been restored. -/
structure SaveArea where
  ctx : Nat
  cluster : Nat
  course : Option Nat := none
  loc : Nat
  len : Nat
  seed : Nat := 0
  spoilt : List Nat := []
  live : Bool := true
deriving DecidableEq, Repr

/-- A reservation of R408. -/
structure Reservation where
  partition : Nat
  launch : Nat
  cluster : Nat
  cores : List Nat
deriving DecidableEq, Repr

/-- A fault-ring entry that waits for FAULTANS (R356): the course, or the copy job, that posted it. -/
structure Posted where
  ctx : Nat
  entry : Nat
  source : Nat
  course : Option Nat := none
  job : Option Nat := none
  /-- the part of the job that waits -/
  part : Nat := 0
  front : Option FrontItem := none
deriving DecidableEq, Repr

/-- A fault-ring record waiting for a free slot (R356). -/
structure PostWait where
  ctx : Nat
  cause : Nat
  detail : Nat := 0
  source : Nat := 0
  answer : Bool := false
  course : Option Nat := none
  job : Option Nat := none
  part : Nat := 0
  front : Option FrontItem := none
  /-- the course it concerns, where no course waits for it -/
  about : Option Nat := none
  pc : Nat := 0
  addr : Nat := 0
  place : Nat := 0
  key : Nat := 0
deriving DecidableEq, Repr

/-- A partition (R399 PART). -/
structure Partition where
  num : Nat
  clusters : BitVec 24
  groups : Word
deriving DecidableEq, Repr

/-- A gang switch in progress (R351, R412). -/
structure GangSw where
  outgoing : Nat
  incoming : Nat
  tick : Nat
  queue : Nat
  slot : Nat
  requested : Option Nat := none
  /-- clock at which the last die finished its save -/
  finished : Option Nat := none
  lost : Bool := false
deriving DecidableEq, Repr

/-- A line whose write is held for the host's response, as its writer addressed it: the line, the context and the tenant virtual
address of the line (R249, R431). -/
structure HeldFor where
  line : Nat
  ctx : Nat
  va : Nat
deriving DecidableEq, Repr

/-- What happens next outside the course streams: an event with its subject, or the next packet of a queue. -/
inductive Due where
  | event (i : Instr) (subj : Subject)
  | packet (queue : Nat)
deriving DecidableEq, Repr

/-- The whole machine. -/
structure State where
  /-- core cycles since device reset (R72) -/
  clock : Nat
  /-- events and packets that come next, in order -/
  agenda : List Due
  /-- the operand of the event being performed -/
  subj : Subject
  /-- the packet being executed (R398), the queue it came from and its slot -/
  pkt : Packet
  pktQueue : Nat
  pktSlot : Nat
  /-- the course whose word is being executed -/
  cur : Nat
  /-- the courses that last issued a scalar and a lane word, by core (R24) -/
  lastScalar : List (Nat × Nat)
  lastLane : List (Nat × Nat)
  /-- the queue the swift visits (R402) -/
  swiftAt : Nat
  /-- launches and packets that have arrived, counted (R406) -/
  arrivals : Nat
  /-- the host's logical clock as a writer (R242, R260) -/
  hostClock : Nat
  /-- when the resident courses' clocks were last raised (R241) -/
  raisedAt : Nat
  /-- what this device last answered to a remote packet (R374, R383) -/
  sentReply : RemoteReply
  /-- counts the free values used -/
  free : Nat
  courses : List Course
  teams : List Team
  contexts : List Context
  launches : List Launch
  partitions : List Partition
  /-- grant entries: tenant, entry 0 to 63, the 128 bits of R96 -/
  grants : List (Nat × Nat × BitVec 128)
  splits : List Split
  reservations : List Reservation
  /-- device physical memory -/
  mem : Memory
  /-- host memory reached over CXL, by host physical address -/
  hostMem : Memory
  /-- memory borrowed from lenders: 2^52 times the node plus the lender's physical address -/
  lentMem : Memory
  /-- uncorrectable bytes of device memory (R200) -/
  badMem : List Nat
  /-- the parts of save areas in use (R349) -/
  areas : List SaveArea
  /-- WTS and RTS of written or read lines (R242) -/
  stamps : List (Nat × Nat × Nat)
  /-- the performed writes, newest first: line, write time, and the clock (R240) -/
  writes : List (Nat × Nat × Nat)
  /-- base of each slice that has raised it (R244) -/
  sliceBase : List (Nat × Nat)
  /-- lines that have taken a new timestamp with a loan's move: the first, their number, the time (R391) -/
  floors : List (Nat × Nat × Nat)
  /-- most recent first (R196) -/
  l1 : List L1Line
  tlb : List TlbEntry
  l2 : List L2Line
  /-- what the L2 holds of other devices' memory (R376) -/
  remote : List RemoteCopy
  holds : List HoldLine
  /-- lines delegated to a switch (R377) -/
  delegated : List Nat
  /-- WAYS masks firmware has written, by tenant (R209) -/
  ways : List (Nat × BitVec 16)
  spools : List SpoolDesc
  jobs : List Job
  tileOps : List TileOp
  nodes : List NodeRun
  /-- the in-edges of nodes that have not launched since (R299) -/
  edges : List EdgeIn
  plies : List PlyRun
  queues : List Queue
  /-- answers awaited (R356) -/
  posted : List Posted
  /-- records waiting for a free slot of their fault ring -/
  posts : List PostWait
  gangsws : List GangSw
  loans : List Loan
  /-- demotion spaces that hold the pages of moved loans (R390) -/
  demotions : List Demotion
  lends : List Lend
  /-- this device's node identifier and the nodes of its routing table (R373) -/
  node : Nat
  routes : List Nat
  /-- fabric ports, HBM stacks and links of the ring of panels that are down (R432, R433) -/
  portsDown : BitVec 32
  stacksDown : BitVec 8
  linksDown : BitVec 4
  /-- next sequence number per target (R383) -/
  seqnos : List (Nat × Nat)
  outstanding : List Outstanding
  performed : List Performed
  /-- firmware token count per ring, and the tokens out per panel (R327) -/
  tokens : Nat
  /-- tokens taken off each ring by heat (R435) -/
  throttle : Nat
  hpbudget : Nat
  mring : BitVec 64
  cxlwin : List (BitVec 128)
  wfilt : List (BitVec 128)
  /-- other control registers the host has written: offset, value -/
  hostRegs : List (Nat × BitVec 64)
  /-- boot stage, the image it boots, 1 of Stolnus or 3 the fallback, and whether it has stopped there (R433) -/
  boot : Nat
  image : Nat
  halted : Bool
  /-- the active needle and whether the standby is healthy (R413) -/
  needle : Bool
  standbyOk : Bool
  /-- version of the state table (R413) -/
  tableVersion : Nat
  /-- a patch image verified and waiting to take over, and the active one (R415) -/
  patchNext : Option (List Byte)
  patch : Option (List Byte)
  fwPacket : Option (Nat × Nat)
  /-- host writes held for a back-invalidate response: addresses and bytes (R431) -/
  heldWrites : List (Nat × List Byte)
  heldFor : List HeldFor
  /-- lines the host's caches may hold (R431) -/
  hostLines : List Nat
  /-- what the last host read returned -/
  hostRead : List Byte
  /-- nodes whose heartbeat was missed (R417) -/
  deadNodes : List Nat
deriving DecidableEq, Repr

/-- The machine right after reset (R72, R399, R430, log 9). -/
def State.reset : State :=
  { clock := 0, agenda := [], subj := {},
    pkt := { tgt := 0, capv := 0, fence := false, tick := false, sysc := false, prio := 0, arg0 := 0, arg1 := 0, f0 := 0,
             f1 := 0, f2 := 0 },
    pktQueue := 0, pktSlot := 0, cur := 0, lastScalar := [], lastLane := [], swiftAt := 0, arrivals := 0, hostClock := 0, raisedAt := 0,
    sentReply := { values := [], wts := 0, failed := [] }, free := 0, courses := [], teams := [], contexts := [], launches := [],
    partitions := [], grants := [], splits := [], reservations := [], mem := [], hostMem := [], lentMem := [], badMem := [], areas := [],
    stamps := [], writes := [], sliceBase := [], floors := [], l1 := [], tlb := [], l2 := [], remote := [], holds := [], delegated := [], ways := [], spools := [],
    jobs := [], tileOps := [], nodes := [], edges := [], plies := [], queues := [], posted := [], posts := [], gangsws := [], loans := [], demotions := [],
    lends := [], node := 0, routes := [], portsDown := 0, stacksDown := 0, linksDown := 0, seqnos := [], outstanding := [], performed := [], tokens := 48,
    throttle := 0, hpbudget := 2000, mring := 0, cxlwin := [], wfilt := [], hostRegs := [], boot := 0, image := 0, halted := false, needle := false,
    standbyOk := false, tableVersion := 0, patchNext := none, patch := none, fwPacket := none, heldWrites := [], heldFor := [],
    hostLines := [], hostRead := [], deadNodes := [] }

end Sys2Proof.Machine
end

