-- ==== Sys2Proof/Machine/Memory.lean ====
section
/-! DEFINITION. Memory as a canonical list: reading and writing bytes, the canonical form, and byte maps for held stores. -/

namespace Sys2Proof.Machine

/-- What an unlisted address reads as (log 10). -/
def Memory.blank : Byte := 0

/-- The byte at an address. -/
def Memory.get : Memory → Nat → Byte
  | [], _ => Memory.blank
  | (k, v) :: m, a => if k = a then v else Memory.get m a

/-- A byte written: an address that holds the blank byte is not listed. -/
def Memory.set : Memory → Nat → Byte → Memory
  | [], a, b => if b = Memory.blank then [] else [(a, b)]
  | (k, v) :: m, a, b =>
    if a < k then (if b = Memory.blank then (k, v) :: m else (a, b) :: (k, v) :: m)
    else if a = k then (if b = Memory.blank then m else (a, b) :: m)
    else (k, v) :: Memory.set m a b

/-- The canonical form from address lo on. -/
def Memory.wfFrom : Nat → Memory → Bool
  | _, [] => true
  | lo, (k, v) :: m => decide (lo ≤ k) && v != Memory.blank && Memory.wfFrom (k + 1) m

/-- The canonical form: addresses strictly rising, no byte equal to the blank one. -/
def Memory.wf (m : Memory) : Bool := Memory.wfFrom 0 m

/-- Several bytes written, in order. -/
def Memory.setMany (m : Memory) (cells : List Host.Cell) : Memory := cells.foldl (fun m c => m.set c.1 c.2) m

/-- The n bytes from an address, walking a canonical list whose entries below the address are gone. -/
def Memory.readFrom : Memory → Nat → Nat → List Byte
  | _, _, 0 => []
  | [], a, n + 1 => Memory.blank :: Memory.readFrom [] (a + 1) n
  | (k, v) :: m, a, n + 1 =>
    if k = a then v :: Memory.readFrom m (a + 1) n else Memory.blank :: Memory.readFrom ((k, v) :: m) (a + 1) n

/-- The n bytes from an address. -/
def Memory.read (m : Memory) (a n : Nat) : List Byte := Memory.readFrom (m.dropWhile fun c => c.1 < a) a n

/-- Bytes with their addresses from a on. -/
def cellsAt (a : Nat) (bytes : List Byte) : List Host.Cell := bytes.zipIdx.map fun (b, i) => (a + i, b)

/-! Byte maps: held stores, where every listed byte counts. -/

/-- The byte a map holds for an address, none where it holds none. -/
def heldGet : Memory → Nat → Option Byte
  | [], _ => none
  | (k, v) :: m, a => if k = a then some v else heldGet m a

/-- A byte put into a map, addresses rising. -/
def heldPut : Memory → Nat → Byte → Memory
  | [], a, b => [(a, b)]
  | (k, v) :: m, a, b =>
    if a < k then (a, b) :: (k, v) :: m
    else if a = k then (a, b) :: m
    else (k, v) :: heldPut m a b

/-- The 64-byte lines a map touches. -/
def heldLines (m : Memory) : List Nat := (m.map fun c => c.1 / 64).eraseDups

/-- The four bytes of a word, least significant first. -/
def wordBytes (w : Word) : List Byte := leBytes 4 w.toNat

/-- A word from its bytes. -/
def bytesWord (l : List Byte) : Word := BitVec.ofNat 32 (leNat l)

end Sys2Proof.Machine
end

