-- ==== Sys2Proof/Machine/Access.lean ====
section
/-! DEFINITION. Accessors of the state, capabilities, address translation, line timestamps and caches, and the reads and
writes every other operation is built from, and the cause codes (R94 to R112, R209 to R216, R239 to R244, R250, R251). -/

namespace Sys2Proof.Machine

/-! Cause codes (R352). -/

/-- ILLS. -/
def cILLS : Nat := 1

/-- ILLL. -/
def cILLL : Nat := 2

/-- CAPF. -/
def cCAPF : Nat := 3

/-- XLTF. -/
def cXLTF : Nat := 4

/-- ALIGN. -/
def cALIGN : Nat := 5

/-- SCRF. -/
def cSCRF : Nat := 6

/-- PSOV. -/
def cPSOV : Nat := 7

/-- PSUN. -/
def cPSUN : Nat := 8

/-- QEMPTY. -/
def cQEMPTY : Nat := 9

/-- SPCOR. -/
def cSPCOR : Nat := 10

/-- VBND. -/
def cVBND : Nat := 12

/-- VBIG. -/
def cVBIG : Nat := 13

/-- RFERR. -/
def cRFERR : Nat := 14

/-- MEMERR. -/
def cMEMERR : Nat := 15

/-- LINKF. -/
def cLINKF : Nat := 16

/-- INDET. -/
def cINDET : Nat := 17

/-- WDOG. -/
def cWDOG : Nat := 18

/-- TRAPI. -/
def cTRAPI : Nat := 19

/-- BRKI. -/
def cBRKI : Nat := 20

/-- HOST. -/
def cHOST : Nat := 21

/-- LOST. -/
def cLOST : Nat := 22

/-- RINGERR. -/
def cRINGERR : Nat := 23

/-! Courses, teams, contexts, launches. -/

/-- Course i; an unused number gives a blank course. -/
def State.course (s : State) (i : Nat) : Course := s.courses.getD i {}

/-- The course whose word is being executed. -/
def State.me (s : State) : Course := s.course s.cur

/-- Course i changed. -/
def State.modCourse (s : State) (i : Nat) (f : Course → Course) : State := { s with courses := s.courses.modify i f }

/-- The current course changed. -/
def State.modMe (s : State) (f : Course → Course) : State := s.modCourse s.cur f

/-- What checkpoints record of the current course, changed. -/
def State.modCore (s : State) (f : Core → Core) : State := s.modMe fun c => { c with core := f c.core }

/-- Team t. -/
def State.team (s : State) (t : Nat) : Team := s.teams.getD t { alive := false }

/-- Team t changed. -/
def State.modTeam (s : State) (t : Nat) (f : Team → Team) : State := { s with teams := s.teams.modify t f }

/-- Context n; an unused number gives a deleted one. -/
def State.context (s : State) (n : Nat) : Context :=
  (s.contexts.find? fun c => c.num == n).getD { num := n, mode := .deleted }

/-- Context n changed. -/
def State.modCtx (s : State) (n : Nat) (f : Context → Context) : State :=
  { s with contexts := s.contexts.map fun c => if c.num == n then f c else c }

/-- Launch l. -/
def State.launch? (s : State) (l : Nat) : Option Launch := s.launches[l]?

/-- Launch l changed. -/
def State.modLaunch (s : State) (l : Nat) (f : Launch → Launch) : State := { s with launches := s.launches.modify l f }

/-- Job j changed. -/
def State.modJob (s : State) (j : Nat) (f : Job → Job) : State := { s with jobs := s.jobs.modify j f }

/-- An event put at the end of the agenda. -/
def State.post (s : State) (i : Instr) (subj : Subject := {}) : State := { s with agenda := s.agenda ++ [.event i subj] }

/-- The cluster of a physical core (R12). -/
def clusterOf (place : Nat) : Nat := place / 8

/-- %place of a physical core (R69): panel, cluster of the panel, core. -/
def placeReg (place : Nat) : Nat := place / 48 * 64 + place / 8 % 6 * 8 + place % 8

/-- A course that still exists: placed, running, waiting, swapped or vacated. -/
def Course.alive (c : Course) : Bool := c.phase != .retired

/-- A course that holds state on a core: it exists and its context has not been vacated. -/
def Course.onCore (c : Course) (place : Nat) : Bool := c.place == place && c.phase != .retired && c.phase != .vacated

/-- The members of a team, in ascending course number. -/
def State.members (s : State) (t : Nat) : List Nat :=
  (List.range s.courses.length).filter fun i => (s.course i).team == some t && (s.course i).alive

/-! x and a registers. x0 reads zero and discards writes (R45, R73). -/

/-- x[n]. -/
def Core.x (c : Core) (n : Nat) : Word := if n = 0 then 0 else c.xs.getD n 0

/-- x[n] written; x0 keeps zero. -/
def Core.setX (c : Core) (n : Nat) (v : Word) : Core :=
  if n = 0 then c else { c with xs := (c.xs ++ List.replicate (32 - c.xs.length) 0).set n v }

/-- a[n]. -/
def Core.cap (c : Core) (n : Nat) : Cap := c.caps.getD n 0

/-- a[n] written. -/
def Core.setCap (c : Core) (n : Nat) (v : Cap) : Core :=
  { c with caps := (c.caps ++ List.replicate (16 - c.caps.length) 0).set n v }

/-- The next lane word's index. -/
def Core.lanePc (c : Core) : Nat := (c.relq.head?.map (·.first)).getD c.rp

/-! Capabilities (R94). -/

/-- BASE. -/
def capBase (c : Cap) : Nat := c.toNat % 2 ^ 57

/-- PERM: bit 0 R, 1 W, 2 A, 3 M, 4 D, 5 P, 6 X. -/
def capPerm (c : Cap) : Nat := c.toNat / 2 ^ 57 % 128

/-- LEN. -/
def capLen (c : Cap) : Nat := c.toNat / 2 ^ 64 % 2 ^ 40

/-- TEN. -/
def capTen (c : Cap) : Nat := c.toNat / 2 ^ 104 % 2 ^ 16

/-- KIND. -/
def capKind (c : Cap) : Nat := c.toNat / 2 ^ 120

/-- A capability from its fields. -/
def mkCap (kind ten len perm base : Nat) : Cap :=
  BitVec.ofNat 128 (base % 2 ^ 57 + 2 ^ 57 * (perm % 128) + 2 ^ 64 * (len % 2 ^ 40) + 2 ^ 104 * (ten % 2 ^ 16)
    + 2 ^ 120 * (kind % 256))

/-- A capability made null, its other bits kept (R99). -/
def capNull (c : Cap) : Cap := mkCap (capKind c) (capTen c) 0 (capPerm c) (capBase c)

/-- Bit masks of permissions (R94). -/
def pR : Nat := 1

/-- W. -/
def pW : Nat := 2

/-- A. -/
def pA : Nat := 4

/-- M. -/
def pM : Nat := 8

/-- D. -/
def pD : Nat := 16

/-- P. -/
def pP : Nat := 32

/-- X. -/
def pX : Nat := 64

/-- The failure of a use: its cause (3 CAPF, 5 ALIGN), its detail and the number of the check (R95). -/
structure CapFail where
  cause : Nat
  detail : Nat
  check : Nat
deriving DecidableEq, Repr

/-- Checks 1 to 5 of R95 for n bytes at an exact address, aligned to al. -/
def capCheck (c : Cap) (kind perm : Nat) (addr : Int) (n al : Nat) : Option CapFail :=
  if capLen c = 0 then some ⟨3, 1, 1⟩
  else if capKind c ≠ kind then some ⟨3, 2, 2⟩
  else if capPerm c &&& perm ≠ perm then some ⟨3, 3, 3⟩
  else if addr < capBase c ∨ (capBase c : Int) + capLen c < addr + n then some ⟨3, 4, 4⟩
  else if addr % al ≠ 0 then some ⟨5, 0, 5⟩
  else none

/-- The grant entry admits the capability (R97). -/
def grantAdmits (g : BitVec 128) (c : Cap) : Bool :=
  let n := g.toNat
  let gl := n / 2 ^ 64 % 2 ^ 40
  let gb := n % 2 ^ 57
  let gp := n / 2 ^ 57 % 128
  let kinds := n / 2 ^ 104 % 256
  gl != 0 && gb ≤ capBase c && capBase c + capLen c ≤ gb + gl && (capPerm c &&& gp) == capPerm c
    && kinds / 2 ^ capKind c % 2 == 1

/-- The validation of R97 for a tenant: none for an accepted capability, else the CAPF detail. -/
def State.validate (s : State) (tenant : Nat) (c : Cap) : Option Nat :=
  if capLen c = 0 then none
  else if 5 < capKind c then some 6
  else if capTen c ≠ tenant then some 5
  else if 2 ^ 57 < capBase c + capLen c then some 6
  else if s.grants.any fun g => g.1 == tenant && grantAdmits g.2.2 c then none
  else some 6

/-! Locations: device memory below 2^64, host memory from 2^64, borrowed memory from 2^96. -/

/-- Host physical address 0 as a location. -/
def hostBase : Nat := 2 ^ 64

/-- The first location of borrowed memory. -/
def lentBase : Nat := 2 ^ 96

/-- A byte of a write held for a back-invalidate response (R431). -/
def State.overlay (s : State) (loc : Nat) : Option Byte :=
  s.heldWrites.foldl (fun acc w => if w.1 ≤ loc && loc < w.1 + w.2.length then w.2[loc - w.1]? else acc) none

/-- A byte of a save area as the save path wrote it: the layout is not architected, so the byte is a free value (R349, log 50). -/
def SaveArea.byte (a : SaveArea) (loc : Nat) : Byte := (Config.openWord (2 ^ 255 + a.seed * 2 ^ 64 + loc)).truncate 8

/-- The byte of device memory at a location; what the save path has written there lies over it (R349). -/
def State.memGet (s : State) (loc : Nat) : Byte :=
  match s.areas.find? fun a => a.loc ≤ loc && loc < a.loc + a.len with
  | some a => if a.spoilt.contains loc then s.mem.get loc else a.byte loc
  | none => s.mem.get loc

/-- The byte at a location, as the serialisation point serves it to this device. -/
def State.locGet (s : State) (loc : Nat) : Byte :=
  if loc < hostBase then (s.overlay loc).getD (s.memGet loc)
  else if loc < lentBase then s.hostMem.get (loc - hostBase)
  else s.lentMem.get (loc - lentBase)

/-- Parts of save areas that something has written at a location (R349). -/
def touchAreas (l : List SaveArea) (loc : Nat) : List SaveArea :=
  l.map fun a => if a.loc ≤ loc && loc < a.loc + a.len && !a.spoilt.contains loc then { a with spoilt := loc :: a.spoilt } else a

/-- A byte put at a location. A line of device memory that the host may hold is written after its response (R431). -/
def State.locSet (s : State) (loc : Nat) (b : Byte) : State :=
  if loc < hostBase then
    if s.hostLines.contains (loc / 64) then { s with heldWrites := s.heldWrites ++ [(loc, [b])] }
    else { s with mem := s.mem.set loc b, badMem := s.badMem.filter (· != loc), areas := touchAreas s.areas loc }
  else if loc < lentBase then { s with hostMem := s.hostMem.set (loc - hostBase) b }
  else { s with lentMem := s.lentMem.set (loc - lentBase) b }

/-- n bytes from a location. -/
def State.locRead (s : State) (loc n : Nat) : List Byte := (List.range n).map fun i => s.locGet (loc + i)

/-- The home slice of a line (R14). -/
def sliceOf (n : Nat) : Nat :=
  (n % 256) ^^^ (n / 2 ^ 8 % 256) ^^^ (n / 2 ^ 16 % 256) ^^^ (n / 2 ^ 24 % 256) ^^^ (n / 2 ^ 32 % 256) ^^^ (n / 2 ^ 40 % 64)

/-- A pick between two allowed outcomes at a line or place n in this step (log 7). -/
def State.pick (s : State) (n : Nat) : Bool := Config.racePick (s.free * 2 ^ 128 + n)

/-! Timestamps (R242, R244). -/

/-- The least that the timestamps of a line read as: the base of its slice (R244), or the time with which it was moved (R391). -/
def State.stampBase (s : State) (line : Nat) : Nat :=
  s.floors.foldl (fun m f => if f.1 ≤ line && line < f.1 + f.2.1 then max m f.2.2 else m) ((s.sliceBase.lookup (sliceOf line)).getD 0)

/-- WTS and RTS of a line; below the base of its slice they read as the base. -/
def State.stampOf (s : State) (line : Nat) : Nat × Nat :=
  let base := s.stampBase line
  match s.stamps.find? fun t => t.1 == line with
  | some t => (max t.2.1 base, max t.2.2 base)
  | none => (base, base)

/-- WTS and RTS of a line written; a slice whose 20-bit deltas no longer fit raises its base (R244). -/
def State.setStamp (s : State) (line w r : Nat) : State :=
  let h := sliceOf line
  let base := (s.sliceBase.lookup h).getD 0
  { s with stamps := (line, w, r) :: s.stamps.filter fun t => t.1 != line,
           sliceBase := if base + 2 ^ 20 ≤ r then (h, r + 1 - 2 ^ 20) :: s.sliceBase.filter fun b => b.1 != h else s.sliceBase }

/-! Waking (R28, R223). -/

/-- The waits of a course that satisfy a condition end: their words are tested again. -/
def Course.endWaits (c : Course) (p : Wait → Bool) : Course :=
  { c with swait := c.swait.filter fun w => !p w, swas := if c.swait.any p then c.swait else c.swas,
           lwait := c.lwait.filter fun w => !p w, lwas := if c.lwait.any p then c.lwait else c.lwas }

/-- A course entered on its context's wake list (R28). -/
def State.listWake (s : State) (i : Nat) : State :=
  s.modCtx (s.course i).ctx fun x => { x with wakes := if x.wakes.contains i then x.wakes else x.wakes ++ [i] }

/-- A course's state is not in a pool, or is on its way out of one: a wake-up of it is kept (R28). -/
def State.away (s : State) (c : Course) : Bool :=
  c.phase == .swapped || c.phase == .vacated || (s.context c.ctx).mode == .vacating

/-- The waits that satisfy a condition end and their courses run (at the expiry of a re-poll timer they stay Waiting, R223); one
that is swapped out or vacated, or whose context is being vacated, goes on its context's wake list. -/
def State.wakeIf (s : State) (p : Nat → Course → Wait → Bool) (run : Bool := true) : State :=
  let woken := (List.range s.courses.length).filter fun i =>
    let c := s.course i
    c.alive && (c.swait.any (p i c) || c.lwait.any (p i c))
  woken.foldl (fun s i =>
    let c := s.course i
    let away := s.away c
    let s := s.modCourse i fun c =>
      { c.endWaits (p i c) with phase := if run && c.phase == .waiting then .running else c.phase }
    if away then s.listWake i else s) s

/-- A write to the header line of a mapped ring sets its ready bit; one to the notify line of a queue that is not mapped
wakes the scheduler (R401). -/
def State.noticeLine (s : State) (line : Nat) : State :=
  let s : State := { s with queues := s.queues.map fun q => if q.mapped && q.line == line then { q with ready := true } else q }
  (s.queues.filter fun q => !q.mapped && q.notifyLine == some line).foldl (fun s q => s.post .queueNotify { num := q.num }) s

/-- Every course whose monitor watches the line is woken, and the swift and the scheduler notice the write (R223, R401). -/
def State.wakeLine (s : State) (line : Nat) : State := (s.wakeIf fun _ _ w => w.line == some line).noticeLine line

/-! The L2 (R209 to R211). -/

/-- WAYS of a tenant (R209). -/
def State.waysOf (s : State) (tenant : Nat) : BitVec 16 := (s.ways.lookup tenant).getD 0xFFFF

/-- A line pinned by LLOCK (R208). -/
def State.pinned (s : State) (line : Nat) : Bool := s.teams.any fun t => t.alive && t.locks.contains line

/-- The slice at which the local L2 places a line: its home slice, or for a line of another device the one that its address
and its node select (R14, R376); the address is the accessing context's own, for a lent line too (DESIGN CHOICE, log 105). -/
def l2SliceOf (line va : Nat) : Nat :=
  if line < lentBase / 64 then sliceOf line else sliceOf (va / 64 ^^^ (line - lentBase / 64) / 2 ^ 46)

/-- The lines of a line's set in a slice. -/
def State.l2SetOf (s : State) (line slice : Nat) : List L2Line :=
  s.l2.filter fun e => e.slice == slice && Config.l2Set e.line == Config.l2Set line

/-- The victim way of a fill: an invalid allowed way first, else the unpinned line of lowest EVP and least recency (R211). -/
def State.victim (s : State) (line slice tenant : Nat) : Option Nat :=
  let lines := s.l2SetOf line slice
  let ways := (List.range 16).filter fun w => (s.waysOf tenant).getLsbD w
  match ways.find? fun w => !lines.any (·.way == w) with
  | some w => some w
  | none =>
    let cands := lines.filter fun e => ways.contains e.way && !s.pinned e.line
    (cands.foldl (fun (best : Option L2Line) e =>
      match best with
      | none => some e
      | some b => if e.evp < b.evp || (e.evp == b.evp && e.stamp < b.stamp) then some e else best) none).map (·.way)

/-- What an access to a line asks of the L2: the slice, the tenant, the eviction priority and recency of a fill, and whether it
leaves bytes that the memory does not hold yet. -/
structure L2Use where
  slice : Nat
  tenant : Nat
  evp : Nat := 0
  recent : Bool := true
  dirty : Bool := false
deriving DecidableEq, Repr

/-- An access of a tenant to a line: a hit refreshes it where the tenant owns the way, a miss fills a victim (R210, R211). -/
def State.l2Touch (s : State) (line : Nat) (u : L2Use) : State :=
  let now := s.l2.foldl (fun m e => max m (e.stamp + 1)) 1
  { s with l2 :=
      match s.l2.find? fun e => e.line == line with
      | some e =>
        let owns := (s.waysOf u.tenant).getLsbD e.way
        s.l2.map fun x =>
          if x.line == line then { x with stamp := if owns then now else x.stamp, dirty := x.dirty || u.dirty } else x
      | none =>
        match s.victim line u.slice u.tenant with
        | none => s.l2
        | some w =>
          let out := s.l2SetOf line u.slice
          { line := line, slice := u.slice, way := w, dirty := u.dirty, tenant := u.tenant, evp := u.evp,
            stamp := if u.recent then now else 0 } :: s.l2.filter fun x => !(x.way == w && out.any (·.line == x.line)) }

/-! Translation (R106 to R112). -/

/-- Why an access does not reach memory: XLTF with its reason, LINKF of a lost loan, MEMERR outside the host's windows, or
a loan that is moving. -/
inductive XErr where
  | xltf (reason : Nat)
  | linkf
  | memerr
  | moving
deriving DecidableEq, Repr

/-- An agent that accesses memory: its context, its team, its core, its clock and its region clocks. -/
structure Who where
  ctx : Nat
  team : Option Nat := none
  place : Option Nat := none
  clk : Nat := 0
  regions : List Region := []
deriving DecidableEq, Repr

/-- The validity clock at an address: the clock, or the larger time of a region clock whose range holds it (R243). -/
def validClock (regions : List Region) (clk va : Nat) : Nat :=
  regions.foldl (fun m r => if r.base ≤ va && va < r.base + r.len then max m r.time else m) clk

/-- Physical bytes wholly inside one group (R109). -/
def inGroup (p n : Nat) : Bool := p / 2 ^ 34 < 32 && p % 2 ^ 34 + n ≤ 12 * 10 ^ 9

/-- Two ranges meet. -/
def meet (a n b m : Nat) : Bool := decide (a < b + m) && decide (b < a + n)

/-- Some byte of a physical range is lent out: the lender does not access it (R389). -/
def State.lentOut (s : State) (p n : Nat) : Bool := s.lends.any fun l => !l.reusable && meet p n l.base (l.size * 2 ^ 21)

/-- A physical range to which pages of a context have been moved from a loan: it is the context's own, whatever groups its partition
has, and after the loan's end too (R390, log 18). -/
def State.demoted (s : State) (ctx p n : Nat) : Bool :=
  s.demotions.any fun d => !d.dest && d.ctxs.contains ctx && decide (d.space ≤ p) && decide (p + n ≤ d.space + d.bytes)

/-- The reason a physical range is refused to a partition, none for a good one (R109); a range that is lent out is no partition's
(R389, log 18). NOMEM comes before PARTITION where both hold (log 78). -/
def State.physReason (s : State) (ctx p n : Nat) : Option Nat :=
  if !inGroup p n then some 7
  else if s.lentOut p n then some 6
  else if s.demoted ctx p n then none
  else
    let groups := ((s.partitions.find? fun q => q.num == (s.context ctx).partition).map (·.groups)).getD 0
    if groups.getLsbD (p / 2 ^ 34) then none else some 6

/-- The 8-byte entry at a physical address. -/
def State.entryAt (s : State) (p : Nat) : BitVec 64 := BitVec.ofNat 64 (leNat (s.locRead p 8))

/-- PA [51:12] of an entry, as an address. -/
def entryPA (e : BitVec 64) : Nat := e.toNat / 2 ^ 12 % 2 ^ 40 * 2 ^ 12

/-- The levels of a walk below the root: low bit of the index, entries, log2 of a leaf's page. -/
def walkLevels : List (Nat × Nat) := [(30, 512), (21, 512), (16, 32)]

/-- A leaf's own conditions (R107, R108): reserved bits, then alignment, then tier and class. The manual orders no two reasons
that hold at once; the model reports them in this order (log 78). -/
def leafReason (e : BitVec 64) (log : Nat) : Option Nat :=
  let shadow := e.getLsbD 11
  let al := if shadow then log + 1 else log
  if e.toNat / 2 ^ 52 % 16 ≠ 0 then some 3
  else if entryPA e % 2 ^ al ≠ 0 then some 4
  else if e.toNat / 256 % 4 == 3 || e.toNat / 4 % 4 == 3 then some 5
  else none

/-- The walk below the root, level by level (R106 to R109): the leaf and the log2 of its page, or the reason. -/
def State.walkFrom (s : State) (ctx va : Nat) : List (Nat × Nat) → Nat → Except Nat (BitVec 64 × Nat)
  | [], _ => .error 2
  | (lo, n) :: rest, table =>
    let p := table + va / 2 ^ lo % n * 8
    match s.physReason ctx p 8 with
    | some r => .error r
    | none =>
      let e := s.entryAt p
      if !e.getLsbD 0 then .error 1
      else if e.getLsbD 1 then
        match leafReason e lo with
        | some r => .error r
        | none =>
          if e.toNat / 256 % 4 == 0 then
            match s.physReason ctx (entryPA e) (2 ^ lo * (if e.getLsbD 11 then 2 else 1)) with
            | some r => .error r
            | none => .ok (e, lo)
          else .ok (e, lo)
      else if rest.isEmpty then .error 2
      else if e.toNat / 2 ^ 52 % 16 ≠ 0 || e.toNat / 4 % 1024 ≠ 0 then .error 3
      else s.walkFrom ctx va rest (entryPA e)

/-- A page-table walk (R106). -/
def State.walk (s : State) (ctx va : Nat) : Except Nat (BitVec 64 × Nat) :=
  let root := (s.context ctx).ptroot + va / 2 ^ 39 % 2 ^ 18 * 8
  match s.physReason ctx root 8 with
  | some r => .error r
  | none =>
    let e := s.entryAt root
    if !e.getLsbD 0 then .error 1
    else if e.getLsbD 1 then .error 2
    else if e.toNat / 2 ^ 52 % 16 ≠ 0 || e.toNat / 4 % 1024 ≠ 0 then .error 3
    else s.walkFrom ctx va walkLevels (entryPA e)

/-- The entries that a walk reads, in order (R106, R110). -/
def State.walkReads (s : State) (ctx va : Nat) : List (Nat × Nat) → Nat → List Nat
  | [], _ => []
  | (lo, n) :: rest, table =>
    let p := table + va / 2 ^ lo % n * 8
    let e := s.entryAt p
    if (s.physReason ctx p 8).isSome then []
    else p :: if e.getLsbD 0 && !e.getLsbD 1 then s.walkReads ctx va rest (entryPA e) else []

/-- A TLB entry serves an agent: it is in the TLB of its core or in the second-level TLB of its core's cluster (R110). -/
def TlbEntry.serves (t : TlbEntry) (w : Who) : Bool :=
  t.ctx == w.ctx && w.place.any fun p => if t.second then clusterOf t.place == clusterOf p else t.place == p

/-- The leaf for an address: a cached translation of the core or its cluster where one is kept and used, else a walk. Which is
one choice for a page in a step, so that the threads of a word and the bytes of an access in one page share it (R110, R111). -/
def State.leafFor (s : State) (w : Who) (va : Nat) : Except Nat (BitVec 64 × Nat) :=
  match s.tlb.find? fun t => t.serves w && t.page == va / 2 ^ t.size, s.walk w.ctx va with
  | some t, .ok x => if x == (t.leaf, t.size) then .ok x else if s.pick (2 ^ 100 + t.page * 64 + t.size) then .ok (t.leaf, t.size) else .ok x
  | some t, .error r => if s.pick (2 ^ 100 + t.page * 64 + t.size) then .ok (t.leaf, t.size) else .error r
  | none, x => x

/-- A translated address: its location and its leaf. -/
structure Xlat where
  loc : Nat
  leaf : BitVec 64
  log : Nat
deriving DecidableEq, Repr

/-- The front copy an agent with validity clock clk sees: flips later than its clock are not seen (R251, R253). -/
def Pub.front (p : Pub) (clk : Nat) : Bool := p.selb != ((p.flips.filter fun t => clk < t).length % 2 == 1)

/-- The copy an access uses: the owner's back copy while it is open, else the front (R251). -/
def Pub.copy (p : Pub) (w : Who) (va : Nat) (write : Bool) : Bool :=
  let front := p.front (validClock w.regions w.clk va)
  if p.isOpen && w.team == some p.team then
    if p.clone && !write && !p.lines.contains (va / 64) then front else !p.selb
  else front

/-- The entry of a publish table. -/
def Context.pubEntry (x : Context) (i : Nat) : Pub := (x.pub.lookup i).getD {}

/-- A host physical range lies in a window the host granted (R414, R430). -/
def State.hostWindow (s : State) (p n : Nat) : Bool :=
  s.cxlwin.any fun e => e.toNat / 2 ^ 64 != 0 && e.toNat % 2 ^ 64 ≤ p && p + n ≤ e.toNat % 2 ^ 64 + e.toNat / 2 ^ 64

/-- Loan i of the loan table (R387). -/
def State.loan (s : State) (i : Nat) : Loan := (s.loans.find? fun l => l.index == i).getD { index := i }

/-- The location of n bytes at an offset from a leaf's page address, in the leaf's tier; host memory is reached only where all of
them lie in a window the host granted (R107, R388, R414). -/
def State.placeAt (s : State) (e : BitVec 64) (off : Nat) (n : Nat := 1) : Except XErr Nat :=
  let tier := e.toNat / 256 % 4
  if tier == 1 then
    let l := s.loan (entryPA e / 2 ^ 40)
    let o := entryPA e / 2 ^ 16 % 2 ^ 24 * 2 ^ 16 + off
    if l.state == 4 then .error .linkf
    else if l.state == 2 then .error .moving
    else if l.state ≠ 1 || l.size * 2 ^ 21 ≤ o then .error (.xltf 8)
    else .ok (lentBase + l.lender * 2 ^ 52 + l.lbase + o)
  else if tier == 2 then
    if s.hostWindow (entryPA e + off) n then .ok (hostBase + entryPA e + off) else .error .memerr
  else if s.lentOut (entryPA e + off) n then .error (.xltf 6)
  else .ok (entryPA e + off)

/-- The location a leaf gives an address: a publishable page lies in the copy that its buffer's selector gives (R250, R251). -/
def State.place (s : State) (w : Who) (va : Nat) (e : BitVec 64) (log : Nat) (write : Bool) (n : Nat := 1) : Except XErr Nat :=
  let off := va % 2 ^ log
  if e.getLsbD 11 then
    let p := (s.context w.ctx).pubEntry (e.toNat / 2 ^ 56)
    if p.vlen == 0 || va < p.vbase || p.vbase + p.vlen ≤ va then .error (.xltf 9)
    else s.placeAt e (off + if p.copy w va write then 2 ^ log else 0) n
  else s.placeAt e off n

/-- The locations of a publishable line in its front and its back copy (R250). -/
def State.pubCopies (s : State) (p : Pub) (va : Nat) (e : BitVec 64) (log : Nat) : Option (Nat × Nat) :=
  let off := va / 64 * 64 % 2 ^ log
  match s.placeAt e (off + if p.selb then 2 ^ log else 0) 64, s.placeAt e (off + if p.selb then 0 else 2 ^ log) 64 with
  | .ok front, .ok back => some (front, back)
  | _, _ => none

/-- The translation of an address, for n bytes of its line. -/
def State.translate (s : State) (w : Who) (va : Nat) (write : Bool := false) (n : Nat := 1) : Except XErr Xlat :=
  match s.leafFor w va with
  | .error r => .error (.xltf r)
  | .ok (e, log) =>
    match s.place w va e log write n with
    | .error x => .error x
    | .ok loc => .ok ⟨loc, e, log⟩

/-- The pieces of a range that lie in one 64-byte line each. -/
def pieces (va n : Nat) : List (Nat × Nat) :=
  (List.range ((va % 64 + n + 63) / 64)).map fun i =>
    let lo := max va ((va / 64 + i) * 64)
    (lo, min (va + n) ((va / 64 + i + 1) * 64) - lo)

/-- The locations of a range, piece by piece: virtual address, location, length. -/
def State.locsOf (s : State) (w : Who) (va n : Nat) (write : Bool) : Except XErr (List (Nat × Nat × Nat)) :=
  (pieces va n).mapM fun p => do
    let x ← s.translate w p.1 write p.2
    pure (p.1, x.loc, p.2)

/-- The page of an address is not usable: the first error of a range (R95 check 6). -/
def State.rangeErr (s : State) (w : Who) (va n : Nat) (write : Bool) : Option XErr :=
  match s.locsOf w va n write with | .error e => some e | .ok _ => none

/-- A translation put into one TLB of n entries; a full one gives up an entry by a free choice (R110, log 79). -/
def State.tlbPut (s : State) (e : TlbEntry) (n : Nat) (mine : TlbEntry → Bool) : State :=
  if s.tlb.any fun t => mine t && t.ctx == e.ctx && t.page == e.page && t.size == e.size then s
  else
    let held := s.tlb.filter mine
    let held := if held.length < n then held else held.eraseIdx (Config.choice (s.free + e.page) % n)
    { s with tlb := e :: held ++ s.tlb.filter fun t => !mine t }

/-- The lease end that a read with a clock takes on a line (R242). -/
def State.leaseTo (s : State) (line clk : Nat) : Nat :=
  max (s.stampOf line).2 (clk + (Config.leaseRaw (s.free * 2 ^ 128 + line)).toNat + 1)

/-- A line read at its home at a clock takes its lease (R242). -/
def State.readLine (s : State) (line clk : Nat) : State := s.setStamp line (s.stampOf line).1 (s.leaseTo line clk)

/-- A walk has read its entries, as plain device-scope loads: the L2 sees them, and their lines take leases. An entry lies in no page:
its line is filled with EVP 0 (R106, R110, R210, R242, log 123). -/
def State.walkNote (s : State) (w : Who) (va : Nat) : State :=
  (s.walkReads w.ctx va ((39, 2 ^ 18) :: walkLevels) (s.context w.ctx).ptroot).foldl (fun s p =>
    let line := p / 64
    (s.l2Touch line { slice := sliceOf line, tenant := (s.context w.ctx).tenant }).readLine line w.clk) s

/-- An agent has used the translation of an address. A hit in the core's TLB or in its cluster's second-level TLB changes nothing;
a miss walks, and a good translation is kept in the core's TLB of 256 entries and in its cluster's of 4,096 (R110). -/
def State.tlbNote (s : State) (w : Who) (va : Nat) : State :=
  if s.tlb.any fun t => t.serves w && t.page == va / 2 ^ t.size then s
  else match w.place, s.walk w.ctx va with
  | some pl, .ok (e, log) =>
    let t : TlbEntry := { place := pl, ctx := w.ctx, page := va / 2 ^ log, size := log, leaf := e }
    ((s.walkNote w va).tlbPut t 256 fun x => !x.second && x.place == pl).tlbPut { t with second := true } 4096 fun x =>
      x.second && clusterOf x.place == clusterOf pl
  | _, _ => s.walkNote w va

/-! Reads and writes at the serialisation point. -/

/-- The bytes of a range as its serialisation points serve them. -/
def State.readVA (s : State) (w : Who) (va n : Nat) : Except XErr (List Byte) := do
  let ps ← s.locsOf w va n false
  pure (ps.flatMap fun p => s.locRead p.2.1 p.2.2)

/-- Some byte of a range is uncorrectable (R200). -/
def State.badVA (s : State) (w : Who) (va n : Nat) : Bool :=
  match s.locsOf w va n false with
  | .ok ps => ps.any fun p => (List.range p.2.2).any fun i => s.badMem.contains (p.2.1 + i)
  | .error _ => false

/-- The bytes of one line written at its serialisation point with the writer's clock: the timestamps advance, its monitors
wake unless the write is one that wakes nobody, and a cached control block of the line is dropped (R223, R242, R265). Answers
WTS. -/
def State.writeLine (s : State) (clk line : Nat) (cells : List Host.Cell) (wake : Bool := true) : State × Nat :=
  let (_, r) := s.stampOf line
  let w := max clk (r + 1)
  let s := s.setStamp line w w
  let s := cells.foldl (fun s c => s.locSet c.1 c.2) s
  let s := { s with spools := s.spools.filter fun d => d.line != line, writes := (line, w, s.clock) :: s.writes }
  (if wake then s.wakeLine line else s, w)

/-- Cells written line by line; answers the largest WTS. -/
def State.writeLocs (s : State) (clk : Nat) (cells : List Host.Cell) (wake : Bool := true) : State × Nat :=
  let lines := (cells.map fun c => c.1 / 64).eraseDups
  lines.foldl (fun (s, m) l =>
    let (s, w) := s.writeLine clk l (cells.filter fun c => c.1 / 64 == l) wake
    (s, max m w)) (s, 0)

/-- The L2 sees an access of a context to a line with the attributes of its page and the HINT of the access: CL, EVP and WP
(R197, R210, R211). A write of a line that the host may hold will wait for its response: the line is noted as its writer addresses
it (R249, R431). -/
def State.l2Access (s : State) (ctx va line : Nat) (leaf : BitVec 64) (hint : Nat) (write : Bool) : State :=
  let cl := leaf.toNat / 4 % 4
  let h : HeldFor := { line := line, ctx := ctx, va := va / 64 * 64 }
  let s := if write && s.hostLines.contains line && !s.heldFor.contains h then { s with heldFor := h :: s.heldFor } else s
  s.l2Touch line { slice := l2SliceOf line va, tenant := (s.context ctx).tenant,
                   evp := if hint == 3 then 3 else if cl == 2 then 0 else leaf.toNat / 64 % 4, recent := cl != 2,
                   dirty := write && !leaf.getLsbD 4 && decide (line < hostBase / 64) }

/-- The L2 sees an access to the lines of a range, and the agent's TLBs keep its translations (R110). -/
def State.l2Range (s : State) (w : Who) (ps : List (Nat × Nat × Nat)) (hint : Nat) (write : Bool) : State :=
  ps.foldl (fun s p =>
    match s.leafFor w p.1 with
    | .ok (e, _) => (s.l2Access w.ctx p.1 (p.2.1 / 64) e hint write).tlbNote w p.1
    | .error _ => s) s

/-- The monitors that a team's courses hold on a line move to another: the line they watch is read there from now on (R223, R251). -/
def State.moveWatch (s : State) (t line to' : Nat) : State :=
  let move (w : Wait) : Wait := if w.line == some line then { w with line := some to' } else w
  { s with courses := s.courses.map fun c =>
      if c.team == some t then { c with swait := c.swait.map move, lwait := c.lwait.map move } else c }

/-- A line about to be written through a leaf: where it is publishable and its owner writes it, the clone is completed from the
front, and the line is recorded as written (R251). -/
def State.cloneAt (s : State) (w : Who) (va : Nat) (e : BitVec 64) (log : Nat) : State :=
  if !e.getLsbD 11 then s
  else
    let i := e.toNat / 2 ^ 56
    let p := (s.context w.ctx).pubEntry i
    if !(p.isOpen && w.team == some p.team) || p.lines.contains (va / 64) then s
    else
      let s := match if p.clone then s.pubCopies p va e log else none with
        | some (front, back) =>
          ((cellsAt back (s.locRead front 64)).foldl (fun (s : State) (c : Host.Cell) => s.locSet c.1 c.2)
            (s.readLine (front / 64) w.clk)).moveWatch p.team (front / 64) (back / 64)
        | none => s
      s.modCtx w.ctx fun x =>
        { x with pub := (i, { p with lines := va / 64 :: p.lines }) :: x.pub.filter fun q => q.1 != i }

/-- A line about to be written at an address (R251). -/
def State.cloneLine (s : State) (w : Who) (va : Nat) : State :=
  match s.leafFor w va with
  | .error _ => s
  | .ok (e, log) => s.cloneAt w va e log

/-- Bytes written to a range at its serialisation points; answers the largest WTS, or the error that stopped it before any
byte was written. -/
def State.writeVA (s : State) (w : Who) (va : Nat) (bytes : List Byte) (wake : Bool := true) : Except XErr (State × Nat) := do
  let ps ← s.locsOf w va bytes.length true
  let s := ps.foldl (fun s p => s.cloneLine w p.1) s
  let s := s.l2Range w ps 0 true
  let cells := ps.flatMap fun p => cellsAt p.2.1 ((bytes.drop (p.1 - va)).take p.2.2)
  pure (s.writeLocs w.clk cells wake)

/-- Bytes written where the page is usable, dropped where it is not; answers WTS, 0 where nothing is written. -/
def State.pokeAt (s : State) (w : Who) (va : Nat) (bytes : List Byte) (wake : Bool := true) : State × Nat :=
  match s.writeVA w va bytes wake with | .ok r => r | .error _ => (s, 0)

/-- Bytes written where the page is usable, dropped where it is not. -/
def State.pokeVA (s : State) (w : Who) (va : Nat) (bytes : List Byte) (wake : Bool := true) : State :=
  (s.pokeAt w va bytes wake).1

/-- A 32-bit word read at its serialisation point. -/
def State.readWord (s : State) (w : Who) (va : Nat) : Except XErr Word := do
  let b ← s.readVA w va 4
  pure (bytesWord b)

/-- The line of an address, in lines of locations. -/
def State.lineOf (s : State) (w : Who) (va : Nat) : Option Nat :=
  match s.translate w va with | .ok x => some (x.loc / 64) | .error _ => none

/-- The home slice of a line, numbered over the devices: the device's node beside the slice (R14, R376). Lines of host memory, which
no rule gives a home slice, have 256 of their own, by the same hash of their address (DESIGN CHOICE, log 125). -/
def homeSlice (line : Nat) : Nat := line / 2 ^ 46 * 256 + sliceOf line

/-- The unit that serialises a line and holds its monitors (R216, R223): a cluster unit below 24, else a slice of a device. -/
def State.pointOf (s : State) (line : Nat) : Nat :=
  match s.holds.find? fun h => h.line == line with
  | some h => h.cluster
  | none => 24 + homeSlice line

/-- The monitors in use, one entry for each course on a list: the course and the line (R223). -/
def State.watchers (s : State) : List (Nat × Nat) :=
  (List.range s.courses.length).flatMap fun i =>
    let c := s.course i
    if c.alive then ((c.swait.bind (·.line)).toList ++ (c.lwait.bind (·.line)).toList).map fun l => (i, l) else []

/-- The line a monitor on an address watches; none where the line's unit has no monitor free, its list is full, or it lies in
host memory: the wait is then polled. A slice has 64 monitors, a cluster unit 16, and one lists 256 courses (R30, R223). -/
def State.watchLine (s : State) (w : Who) (va : Nat) : Option Nat :=
  (s.lineOf w va).filter fun line =>
    let point := s.pointOf line
    let here := s.watchers.filter fun e => s.pointOf e.2 == point
    let mine := here.filter fun e => e.2 == line
    if hostBase / 64 ≤ line && line < lentBase / 64 then false
    else if mine.isEmpty then (here.map (·.2)).eraseDups.length < (if point < 24 then 16 else 64)
    else (mine.map (·.1)).eraseDups.length < 256

/-- The EXT attribute of an address's page (R107). -/
def State.extPage (s : State) (w : Who) (va : Nat) : Bool :=
  match s.translate w va with | .ok x => x.leaf.getLsbD 10 | .error _ => false

/-! A course's own accesses. -/

/-- A course as an agent. -/
def Course.who (c : Course) : Who :=
  { ctx := c.ctx, team := c.team, place := some c.place, clk := c.lclock, regions := c.core.regions }

/-- The validity clock of an address (R243). -/
def Course.validity (c : Course) (va : Nat) : Nat := validClock c.core.regions c.lclock va

/-- Core cycles of a number of microseconds, at 1.4 GHz (R12, R72). -/
def cyclesOfUs (us : Nat) : Nat := us * 1400

/-- A copy of a line read with a write time may still be used: no later write of the line was performed more than 100 µs ago
(R240). -/
def State.fresh (s : State) (line wts : Nat) : Bool :=
  s.writes.all fun x => !(x.1 == line && wts < x.2.1) || decide (s.clock ≤ x.2.2 + cyclesOfUs 100)

/-- The copy of a line in the core's L1 that a load uses: one whose lease covers the validity clock, that is not out of date
for longer than R240 allows, and that the core still holds (R196, R240, R243). -/
def State.l1Use (s : State) (c : Course) (va loc : Nat) : Option L1Line :=
  s.l1.find? fun l =>
    l.place == c.place && l.line == loc / 64 && c.validity va ≤ l.lease && s.fresh l.line l.wts && s.pick (loc / 64)

/-- The sets of a core's L1: its granules without the store-hold granule, of 512 lines in 8 ways each (R188, R196). -/
def State.l1Sets (s : State) (place : Nat) : Nat :=
  match s.splits.find? fun p => p.place == place with
  | none => 0
  | some p => 64 * (47 - (p.reg + p.qbuf + p.loc + p.ckpt))

/-- A line put into its core's L1, in place of an older copy of it; a full set gives up its least recent line (R196). -/
def State.l1Put (s : State) (l : L1Line) : State :=
  let n := s.l1Sets l.place
  let rest := s.l1.filter fun x => !(x.place == l.place && x.line == l.line)
  if n == 0 then { s with l1 := rest }
  else
    let mates := rest.filter fun x => x.place == l.place && Config.l1Index x.line % n == Config.l1Index l.line % n
    { s with l1 := l :: match mates.getLast? with
        | some old => if mates.length < 8 then rest else rest.filter fun x => !(x.place == old.place && x.line == old.line)
        | none => rest }

/-- The lines that a core's L1 still holds after the core is split anew: in each set of its present size the 8 most recent
(R188, R196). -/
def State.l1Trim (s : State) (place : Nat) : State :=
  let n := s.l1Sets place
  { s with l1 := s.l1.foldl (fun (kept : List L1Line) l =>
      let mates := kept.filter fun x => x.place == place && Config.l1Index x.line % n == Config.l1Index l.line % n
      if l.place != place || (n != 0 && mates.length < 8) then kept ++ [l] else kept) [] }

/-- A filled line holds a copy of a line that is older than a write time. -/
def Filled.older (f : Filled) (line wts : Nat) : Bool := f.homes.any fun h => h.line == line && h.wts < wts

/-- A reader has seen a line at a write time: older copies of the line in its core's L1 and in its team's stash are used no
more (R239). -/
def State.forget (s : State) (w : Who) (line wts : Nat) : State :=
  let s : State := { s with l1 := s.l1.filter fun l => !(some l.place == w.place && l.line == line && l.wts < wts) }
  match w.team with
  | none => s
  | some t =>
    if (s.team t).stash.all fun q => q.2.filled.all fun f => !f.older line wts then s
    else s.modTeam t fun tm =>
      { tm with stash := tm.stash.map fun q => (q.1, { q.2 with filled := q.2.filled.filter fun f => !f.older line wts }) }

/-- The byte a course holds at an address, as a load sees it that misses the newest lane stores of a number: what the course held
there before the oldest of them (R65). -/
def Course.heldSeen (c : Course) (unseen va : Nat) : Option Byte :=
  ((c.unsynced.take unseen).reverse.findSome? fun l => l.lookup va).getD (heldGet c.heldG va)

/-- The bytes of one piece of a load: each byte from the course's held stores, else from an L1 copy or the home (R199). An element
of a feed that no LSYNC orders may miss the newest lane stores, unseen of them (R65). -/
def State.loadPiece (s : State) (c : Course) (va loc n : Nat) (unseen : Nat := 0) : List Byte :=
  let copy := s.l1Use c va loc
  (List.range n).map fun i =>
    match c.heldSeen unseen (va + i) with
    | some b => b
    | none =>
      match copy with
      | some l => l.bytes.getD ((loc + i) % 64) 0
      | none => s.locGet (loc + i)

/-- A plain load of n bytes by a course (R199). -/
def State.loadVA (s : State) (c : Course) (va n : Nat) (unseen : Nat := 0) : Except XErr (List Byte) := do
  let ps ← s.locsOf c.who va n false
  pure (ps.flatMap fun p => s.loadPiece c p.1 p.2.1 p.2.2 unseen)

/-- What a performed load leaves behind: the lease of the line, the L1 copy, LOBS, the L2 fill and the translation; older copies of
the line are used no more (R110, R197, R211, R239, R241, R242). hint is the HINT of the access. -/
def State.noteLoad (s : State) (i va n : Nat) (hint : Nat := 0) : State :=
  let c := s.course i
  match s.locsOf c.who va n false with
  | .error _ => s
  | .ok ps =>
    ps.foldl (fun s p =>
      let line := p.2.1 / 64
      match s.l1Use c p.1 p.2.1 with
      | some l =>
        (((s.forget c.who line l.wts).l1Put l).tlbNote c.who p.1).modCourse i fun c =>
          { c with core := { c.core with lobs := max c.core.lobs l.wts } }
      | none =>
        let leaf := match s.leafFor c.who p.1 with | .ok (e, _) => e | .error _ => 0
        let w := (s.stampOf line).1
        let lease := s.leaseTo line (c.validity p.1)
        let s := s.setStamp line w lease
        let s := (s.tlbNote c.who p.1).l2Access c.ctx p.1 line leaf hint false
        let s := if leaf.toNat / 4 % 4 == 0 && hint != 1 && hint != 2 then
            s.l1Put { place := c.place, line := line, bytes := s.locRead (line * 64) 64, wts := w, lease := lease }
          else s
        (s.forget c.who line w).modCourse i fun c => { c with core := { c.core with lobs := max c.core.lobs w } }) s

/-- Some byte of a load that the course does not hold itself is uncorrectable (R200). -/
def State.badLoad (s : State) (c : Course) (va n : Nat) (unseen : Nat := 0) : Bool :=
  match s.locsOf c.who va n false with
  | .ok ps => ps.any fun p => (List.range p.2.2).any fun i =>
      (c.heldSeen unseen (p.1 + i)).isNone && s.badMem.contains (p.2.1 + i)
  | .error _ => false

/-- A read at the serialisation point with a reader's clock: the bytes, the largest WTS, and the state with the leases it
takes (R242). -/
def State.homeRead (s : State) (w : Who) (va n : Nat) : Except XErr (List Byte × Nat × State) :=
  match s.locsOf w va n false with
  | .error e => .error e
  | .ok ps =>
    let lines := (ps.map fun p => p.2.1 / 64).eraseDups
    let r := lines.foldl (fun (r : Nat × State) line =>
      let ws := (r.2.stampOf line).1
      (max r.1 ws, (r.2.setStamp line ws (r.2.leaseTo line (validClock w.regions w.clk va))).forget w line ws))
      (0, s.l2Range w ps 0 false)
    .ok (ps.flatMap fun p => s.locRead p.2.1 p.2.2, r.1, r.2)

/-- What a read at the serialisation point leaves behind where its value is taken beside it: the leases, the L2 and the TLBs
(R110, R210, R242). -/
def State.noteHome (s : State) (w : Who) (va n : Nat) : State :=
  match s.homeRead w va n with | .ok r => r.2.2 | .error _ => s

/-! Held stores (R195). -/

/-- The lines of the store-hold area a course uses. -/
def Course.heldCount (c : Course) : Nat := (heldLines c.heldG).length + (heldLines c.heldS).length

/-- The lines of the store-hold area of a core in use. -/
def State.coreHeld (s : State) (place : Nat) : Nat :=
  s.courses.foldl (fun n c => if c.place == place then n + c.heldCount else n) 0

/-- The stash slot of a team whose range holds a scratch offset. -/
def Team.stashAt (t : Team) (off : Nat) : Option (Nat × Stash) :=
  t.stash.find? fun p => p.2.scr ≤ off && off < p.2.scr + p.2.len

/-- The bytes of a line of the window that have been placed in it. -/
def Team.lineMask (t : Team) (line : Nat) : BitVec 64 := (t.written.lookup line).getD 0

/-- Bytes of a line marked as placed. -/
def Team.mark (t : Team) (line : Nat) (m : BitVec 64) : Team :=
  { t with written := if t.written.any (·.1 == line) then t.written.map fun l => if l.1 == line then (line, l.2 ||| m) else l
                      else (line, m) :: t.written }

/-- A byte has been placed in the window. -/
def Team.byteWritten (t : Team) (off : Nat) : Bool := (t.lineMask (off / 64)).getLsbD (off % 64)

/-- A word of the window is written (R192). -/
def Team.wordWritten (t : Team) (off : Nat) : Bool := (t.lineMask (off / 64) >>> (off % 64 / 4 * 4)) &&& 15 != 0

/-- Bytes placed in a team's window: their words become written, and in a stash range the bytes become dirty (R192, R204), also where
the range has been mapped read-only since the store (DESIGN CHOICE, log 109). -/
def Team.put (t : Team) (cells : List Host.Cell) : Team :=
  cells.foldl (fun t c =>
    { t.mark (c.1 / 64) (BitVec.ofNat 64 1 <<< (c.1 % 64)) with
             scratch := t.scratch.set c.1 c.2, bad := t.bad.filter (· != c.1),
             stash := t.stash.map fun p =>
               if p.2.scr ≤ c.1 && c.1 < p.2.scr + p.2.len then
                 (p.1, { p.2 with dirty := if p.2.dirty.contains c.1 then p.2.dirty else c.1 :: p.2.dirty })
               else p }) t

/-- Bytes written to a team's window by an agent with a clock (R192, log 92). -/
def State.putWindow (s : State) (t clk : Nat) (cells : List Host.Cell) : State :=
  s.modTeam t fun tm => { tm.put cells with clock := max tm.clock clk }

/-- What the links make of a write-bearing packet to another device for a line or place n: none where it is performed and its answer
comes back, else the cause that its outcome raises, and whether the other device has performed it. It is performed once or not at
all; which is free (R384, R385, log 33). -/
def State.linkLoss (s : State) (n : Nat) : Option (Nat × Bool) :=
  match Config.choice (s.free * 2 ^ 128 + 2 ^ 127 + n) % 4 with
  | 1 => some (cLINKF, false)
  | 2 => some (cINDET, false)
  | 3 => some (cINDET, true)
  | _ => none

/-- The loss of a store or an atomic to a line, where the line is lent. -/
def State.loanLoss (s : State) (line : Nat) : Option (Nat × Bool) := if lentBase / 64 ≤ line then s.linkLoss line else none

/-- A course's packet to the lender of a line: it takes a number, and an outcome other than DONE is kept until LSEQ or a
system-scope release reads it (R383, R384). -/
def State.loanSent (s : State) (i va line : Nat) : State :=
  if line < lentBase / 64 then s
  else
    let node := (line - lentBase / 64) / 2 ^ 46
    let n := (s.seqnos.lookup node).getD 0
    let s : State := { s with seqnos := (node, (n + 1) % 2 ^ 32) :: s.seqnos.filter fun q => q.1 != node }
    match s.loanLoss line with
    | none => s
    | some (cause, _) =>
      s.modCourse i fun c =>
        { c with sent := c.sent ++ [{ node := node, seqno := n, outcome := if cause == cLINKF then .dropped else .indet,
                                      ranges := [(va / 64 * 64, 64)] }] }

/-- The translation with which a course stored to a held line, where its page can still be reached by it (R111). -/
def State.keptXlat (s : State) (c : Course) (va n : Nat) : Option Xlat :=
  (c.heldLeaf.lookup (va / 64)).bind fun q =>
    match s.place c.who va q.1 q.2 true n with | .ok loc => some ⟨loc, q.1, q.2⟩ | .error _ => none

/-- The first address and the length of what some cells hold of a line. -/
def lineSpan (cells : List Host.Cell) (l : Nat) : Nat × Nat :=
  let as := (cells.filter fun h => h.1 / 64 == l).map (·.1)
  let lo := as.foldl min (64 * l + 63)
  (lo, as.foldl max (64 * l) + 1 - lo)

/-- Held bytes lie in host memory that no window reaches any more: they are not sent (R414, R431). -/
def State.heldBarred (s : State) (c : Course) (va n : Nat) : Bool :=
  match s.translate c.who va true n with | .error .memerr => true | .ok _ | .error _ => false

/-- Where n held bytes of a line are committed: by the page's present translation or by the one they were stored with, either while
the two differ; where the present one is gone, by the old one, so that an invalidation can complete (R111, log 118). -/
def State.heldXlat (s : State) (c : Course) (va n : Nat) : Option Xlat :=
  match s.translate c.who va true n, s.keptXlat c va n with
  | .ok x, some k => if k == x then some x else if s.pick (2 ^ 103 + va) then some k else some x
  | .ok x, none => some x
  | .error (.xltf _), k => k
  | .error .moving, _ | .error .linkf, _ | .error .memerr, _ => none

/-- The held global bytes of a course that a condition picks are performed, or lost on their way to a lender (R384); those whose
page cannot be used stay held (R182, R392). Bytes of host memory whose window the host has taken away are not sent, and their course
receives MEMERR as for a word that has completed, at the lane word it has come to (R414, R431, log 126). -/
def State.commitG (s : State) (i : Nat) (p : Nat → Bool) : State :=
  let c := s.course i
  let cells := c.heldG.filter fun h => p h.1
  let ok := (heldLines cells).filterMap fun l =>
    let p := lineSpan cells l
    (s.heldXlat c p.1 p.2).map fun x => (l, { x with loc := x.loc - p.1 % 64 : Xlat })
  let barred := (heldLines cells).filter fun l => let p := lineSpan cells l; s.heldBarred c p.1 p.2
  if ok.isEmpty && barred.isEmpty then s else
  let s := ok.foldl (fun s t => s.cloneAt c.who (64 * t.1) t.2.leaf t.2.log) s
  let s := ok.foldl (fun s t =>
    (s.l2Access c.ctx (64 * t.1) (t.2.loc / 64) t.2.leaf ((c.heldHint.lookup t.1).getD 0) true).tlbNote c.who (64 * t.1)) s
  let reach := ok.filter fun t => (s.loanLoss (t.2.loc / 64)).all (·.2)
  let s := ok.foldl (fun s t => s.loanSent i (64 * t.1) (t.2.loc / 64)) s
  let (s, w) := s.writeLocs c.lclock (reach.flatMap fun t =>
    (cells.filter fun h => h.1 / 64 == t.1).map fun h => (t.2.loc + h.1 % 64, h.2))
  s.modCourse i fun c =>
    let gone (a : Nat) : Bool := p a && (barred.contains (a / 64) || ok.any fun t => t.1 == a / 64)
    let left := c.heldG.filter fun h => !gone h.1
    { c with heldG := left, heldHint := c.heldHint.filter fun h => left.any fun x => x.1 / 64 == h.1,
             heldLeaf := c.heldLeaf.filter fun h => left.any fun x => x.1 / 64 == h.1,
             owed := c.owed.filter fun h => !gone h.1,
             remoteBad := c.remoteBad ++ barred.map fun l =>
               { word := 2 ^ 128 + s.free, node := 0, threads := [], cause := cMEMERR, addr := (lineSpan cells l).1, pc := c.core.lanePc },
             lclock := max c.lclock w, wmax := max c.wmax w }

/-- The held scratch bytes of a course that a condition picks enter the window (R192, R195). -/
def State.commitS (s : State) (i : Nat) (p : Nat → Bool) : State :=
  let c := s.course i
  let cells := c.heldS.filter fun h => p h.1
  let s := match c.team with
    | some t =>
      let tm := s.team t
      if cells.isEmpty then s
      else s.putWindow t c.lclock (cells.filter fun h => h.1 < tm.size && !tm.released.contains (h.1 / 64))
    | none => s
  s.modCourse i fun c => { c with heldS := c.heldS.filter fun h => !p h.1 }

/-- Every held store of a course committed (R182). -/
def State.commit (s : State) (i : Nat) : State := (s.commitG i fun _ => true).commitS i fun _ => true

/-- Held bytes of a course that a condition picks wait for the end of a loan's move (R392). -/
def State.moveHeld (s : State) (i : Nat) (p : Nat → Bool := fun _ => true) : Bool :=
  let c := s.course i
  c.heldG.any fun h => p h.1 && match s.translate c.who h.1 true with | .error .moving => true | .ok _ | .error _ => false

/-! The checks of a use (R95). -/

/-- Why a use fails: checks 1 to 5, or check 6 and what lies behind it. -/
inductive UseErr where
  | cap (f : CapFail)
  | page (x : XErr)
deriving DecidableEq, Repr

/-- Some page of a range lies off the device: TIER 1 or 2 (R95, R372). -/
def State.leavesDevice (s : State) (w : Who) (va n : Nat) : Bool :=
  (pieces va n).any fun p => match s.leafFor w p.1 with | .ok (e, _) => e.toNat / 256 % 4 != 0 | .error _ => false

/-- The check of a use of a capability: checks 1 to 5, M where the access leaves the device, then the pages (R95, R112). M is a
permission and its lack is reported as check 3, but it is asked only once checks 4 and 5 have passed, for whether an access leaves the
device its page alone tells, and a thread that fails them is not translated (DEDUCED, log 124). -/
def State.useErr (s : State) (w : Who) (c : Cap) (kind perm : Nat) (addr : Int) (n al : Nat) (write : Bool) :
    Option UseErr :=
  match capCheck c kind perm addr n al with
  | some f => some (.cap f)
  | none =>
    if capPerm c &&& pM == 0 && s.leavesDevice w addr.toNat n then some (.cap ⟨3, 3, 3⟩)
    else (s.rangeErr w addr.toNat n write).map .page

end Sys2Proof.Machine
end

