-- ==== Sys2Proof/Machine/PacketRing.lean ====
section
/-! DEFINITION. Submission rings as the front end reads and writes them, the retirement of a packet, and the failure of an
item of the front end (R396, R400, R302, R305). -/

namespace Sys2Proof.Machine

/-- The number of the management ring. -/
def mgmtRing : Nat := 65536

/-- A queue by its number. -/
def State.queue? (s : State) (n : Nat) : Option Queue := s.queues.find? fun q => q.num == n

/-- Queue n changed. -/
def State.modQueue (s : State) (n : Nat) (f : Queue → Queue) : State :=
  { s with queues := s.queues.map fun q => if q.num == n then f q else q }

/-- A management ring in host memory is out of reach at an offset: it lies in no window the host granted (R414, R430). -/
def State.ringBarred (s : State) (q : Queue) (off n : Nat) : Bool := q.host && !s.hostWindow (q.base + off) n

/-- Bytes of a ring from an offset of its header: the management ring is named by a physical address, a context's ring by a
tenant virtual one. -/
def State.ringRead (s : State) (q : Queue) (off n : Nat) : Except XErr (List Byte) :=
  if q.num == mgmtRing then
    if s.ringBarred q off n then .error .memerr else .ok (s.locRead ((if q.host then hostBase else 0) + q.base + off) n)
  else s.readVA { ctx := q.ctx } (q.base + off) n

/-- What a read of a line of a ring at its home leaves behind: its lease, and for a context's ring its place in the L2 (R210, R242).
-/
def State.ringNote (s : State) (q : Queue) (off : Nat) : State :=
  if q.num == mgmtRing then s.readLine (((if q.host then hostBase else 0) + q.base + off) / 64) 0
  else s.noteHome { ctx := q.ctx } (q.base + off) 64

/-- Bytes of a ring written with the front end's clock; what lies outside the host's windows is not sent (R414). -/
def State.ringWrite (s : State) (q : Queue) (clk off : Nat) (bytes : List Byte) : State :=
  if q.num == mgmtRing then
    if s.ringBarred q off bytes.length then s else (s.writeLocs clk (cellsAt ((if q.host then hostBase else 0) + q.base + off) bytes)).1
  else s.pokeVA { ctx := q.ctx, clk := clk } (q.base + off) bytes

/-- The offset of a packet's slot (R396). -/
def packetOff (q : Queue) (slot : Nat) : Nat := 64 + 64 * (slot % 2 ^ q.caplog)

/-- A packet retires (R400): STATUS and RESULT, then DONE over every consecutive retired slot, a release of all of them; a
management packet advances the version of the state table (R413). -/
def State.retirePacket (s : State) (n slot status result clk : Nat) : State :=
  match s.queue? n with
  | none => s
  | some q =>
    let s := s.ringWrite q clk (packetOff q slot + 12) (leBytes 4 (result % 2 ^ 24 + 2 ^ 24 * status))
    let taken := q.taken.map fun t => if t.slot == slot then { t with begun := true, retired := true, clk := max t.clk clk } else t
    let k := (taken.takeWhile (·.retired)).length
    let q' : Queue := { q with taken := taken.drop k, done := (q.done + k) % 2 ^ 32 }
    let s := s.modQueue n fun _ => q'
    let s := if k == 0 then s else s.ringWrite q' ((taken.take k).foldl (fun m t => max m t.clk) clk) 16 (leBytes 4 q'.done)
    if n == mgmtRing then { s with tableVersion := s.tableVersion + 1 } else s

/-- Node run k changed. -/
def State.modNode (s : State) (k : Nat) (f : NodeRun → NodeRun) : State := { s with nodes := s.nodes.modify k f }

/-- Ply run k changed. -/
def State.modPly (s : State) (k : Nat) (f : PlyRun → PlyRun) : State := { s with plies := s.plies.modify k f }

/-- A sub-launch of a ply has ended, well or with a cause; the ply ends with its last (R305). own is its clock without its engine
writes. -/
def State.subEnded (s : State) (run sub clk own bytes : Nat) (cause : Option Nat) : State :=
  s.modPly run fun p =>
    let p := { p with clock := max p.clock clk, own := max p.own own, bytes := p.bytes + bytes,
                      perf := if cause.isNone then p.perf ||| 2 ^ sub else p.perf,
                      fail := if cause.isSome then p.fail ||| 2 ^ sub else p.fail,
                      cause := if p.cause == 0 then cause.getD 0 else p.cause }
    { p with ended := p.ended || (p.perf ||| p.fail) == 2 ^ p.subs - 1 }

/-- A node's work has failed with a cause. -/
def State.failNode (s : State) (k cause : Nat) : State :=
  s.modNode k fun n => { n with started := true, ended := true, failed := n.failed.orElse fun _ => some cause }

/-- A ply that starts nothing: the failing sub-launches, the cause and its detail (R305). -/
def State.failPly (s : State) (k fail cause detail : Nat) : State :=
  s.modPly k fun p => { p with fail := fail, cause := cause, detail := detail, copies := [], ended := true }

/-- An item of the front end whose translation fault is answered KILL fails with XLTF; of a node that has ended the walker passes
over the edge it could not reach (R108, R356). -/
def State.killFront (s : State) (f : FrontItem) : State :=
  match f with
  | .packet q slot => s.retirePacket q slot 5 4 0
  | .node k =>
    if (s.nodes[k]?).any (·.closed) then s.modNode k fun n => { n with next := n.next + 1 }
    else if (s.nodes[k]?).any (·.ended) then s.modNode k fun n => { n with finished := true }
    else s.failNode k 4
  | .ply k _ => s.failPly k 0 4 0

end Sys2Proof.Machine
end

