-- ==== Sys2Proof/Machine/Ops.lean ====
section
/-! DEFINITION. The operations many instructions share: the issue gate, checkpoints and rollback, fault records and the
fault ring, taking a trap and returning from it, team barriers, the end of a team and of a course, held stores, and the
advance of the two streams. -/

namespace Sys2Proof.Machine

/-! The vacate estimate and the issue gate (R336 to R346). -/

/-- The RQ account of a core. -/
def rqAcct (place : Nat) : Nat := 9 + place % 8

/-- The AR account of a core. -/
def arAcct (place : Nat) : Nat := 1 + place % 8

/-- A charge of a class with a fixed cost to the core's RQ account. -/
def rqCharge (place ns : Nat) : Charge := { cluster := clusterOf place, acct := rqAcct place, ns := ns }

/-- The courses of a context that hold state on a core: resident, not Swapped (R339). -/
def State.resident (s : State) (ctx place : Nat) : Nat :=
  (s.courses.filter fun c => c.ctx == ctx && c.onCore place && c.phase != .swapped).length

/-- The bound matrix contexts of a core, those counted that the gate has granted to a stalled word (R312, R346). -/
def State.boundCtx (s : State) (place : Nat) : Nat :=
  (s.courses.filter fun c => c.place == place && c.phase != .vacated && (c.mctx.isSome || c.grantBinds)).length

/-- The bytes DRAIN and DISCARD save on one core that holds courses of a context; Swapped ones keep its split (R339, R409). -/
def State.coreBytes (s : State) (ctx place : Nat) : Nat :=
  let n := s.resident ctx place
  if !(s.courses.any fun c => c.ctx == ctx && c.onCore place) && s.boundCtx place == 0 then 0
  else match s.splits.find? fun p => p.place == place && p.ctx == ctx with
    | none => 16384 * n
    | some p => 32768 * (p.reg + p.qbuf + p.loc + 1) + 16384 * n + 16384 * s.boundCtx place

/-- The clusters of a context: those where it holds courses or work. -/
def State.ctxClusters (s : State) (ctx : Nat) (chs : List Charge) (extra : List (Nat × Nat)) : List Nat :=
  (List.range 24).filter fun k =>
    chs.any (·.cluster == k) || extra.any (·.1 == k)
      || s.courses.any fun c => c.ctx == ctx && clusterOf c.place == k && c.onCore c.place

/-- The largest sum of the accounts of a cluster among some accounts (R338). -/
def acctMax (chs : List Charge) (cluster : Nat) (accts : List Nat) : Nat :=
  accts.foldl (fun m a => max m ((chs.filter fun c => c.cluster == cluster && c.acct == a).foldl (fun t c => t + c.ns) 0)) 0

/-- The copy descriptors of a job that are accepted and not complete: one for a multicast, one for each slice of a collective
(R290, R339). -/
def Job.descs (j : Job) : Nat :=
  let n := (j.parts.filter fun p => !p.done).length
  match j.kind with | .cpym | .cpyr => min n 1 | .cpy | .cpyf | .adpf | .ply => n

/-- The permitted options of a cluster: X, B and the order among ties (0 DISCARD, 1 DRAIN, 2 SAVE) (R338, R339). -/
def State.clusterOptions (s : State) (ctx cluster : Nat) (chs : List Charge) (extra : List (Nat × Nat)) (mine : Bool)
    (desc : Nat) : List (Nat × Nat × Nat) :=
  let b := ((List.range 8).map fun j => s.coreBytes ctx (8 * cluster + j)).foldl (· + ·) 0
    + ((extra.filter (·.1 == cluster)).map (·.2)).foldl (· + ·) 0
  let jobs := if mine then s.jobs.filter fun j => j.ctx == ctx && j.cluster == cluster && !j.finished else []
  -- a copy granted to a stalled word counts before its job exists (R344)
  let granted := if mine then (s.courses.filter fun c => c.ctx == ctx && c.granted.any fun l => l.any fun h =>
    h.acct == 0 && h.cluster == cluster).length else 0
  let copies := (jobs.map Job.descs).foldl (· + ·) 0 + granted + desc
  let ops := if mine then
    (s.tileOps.filter fun o => o.ctx == ctx && clusterOf o.place == cluster && o.started).length else 0
  let drain := max 64 (acctMax chs cluster (List.range 18))
  let save := max 1000 (acctMax chs cluster ((List.range 8).map (· + 9) ++ [17]))
  let discard := (chs.filter (·.cluster == cluster)).all fun c => c.acct == 0 && c.shadow
  (if discard then [(64, b, 0)] else []) ++ [(drain, b, 1), (save, b + 4096 * copies + 20480 * ops, 2)]

/-- The best option with a wait of at most x: least B, then least X, then DISCARD, DRAIN, SAVE (R340). -/
def bestOption (x : Nat) (l : List (Nat × Nat × Nat)) : Option (Nat × Nat × Nat) :=
  (l.filter fun o => o.1 ≤ x).foldl (fun best o =>
    match best with
    | none => some o
    | some b =>
      if o.2.1 < b.2.1 || (o.2.1 == b.2.1 && (o.1 < b.1 || (o.1 == b.1 && o.2.2 < b.2.2))) then some o else best) none

/-- The estimate of R340 for given charges, and the committed option of each cluster (1 DRAIN, 2 SAVE, 3 DISCARD). -/
def State.estimate (s : State) (ctx : Nat) (chs : List Charge) (extra : List (Nat × Nat)) (mine : Bool) (desc : Nat) :
    Nat × List (Nat × Nat) :=
  let ks := s.ctxClusters ctx chs extra
  if ks.isEmpty then (Config.tFix, [])
  else
    let opts := ks.map fun k => (k, s.clusterOptions ctx k chs extra mine
      (if desc == 0 then 0 else (chs.reverse.take desc |>.filter fun c => c.cluster == k && c.acct == 0).length))
    let xs := opts.flatMap fun o => o.2.map (·.1)
    let tries := xs.filterMap fun x =>
      let ch := opts.map fun o => (o.1, bestOption x o.2)
      if ch.all (·.2.isSome) then
        let sel := ch.filterMap fun c => c.2.map fun o => (c.1, o)
        let X := sel.foldl (fun m o => max m o.2.1) 0
        let B := sel.foldl (fun t o => t + o.2.2.1) 0
        some (Config.tFix + X + (B + 4095) / 4096, X,
          sel.map fun o => (o.1, match o.2.2.2 with | 0 => 3 | 1 => 1 | _ => 2))
      else none
    match tries with
    | [] => (2 ^ 32 - 1, [])
    | t :: ts =>
      let b := ts.foldl (fun b t => if t.1 < b.1 || (t.1 == b.1 && t.2.1 < b.2.1) then t else b) t
      (min b.1 (2 ^ 32 - 1), b.2.2)

/-- Engine work of a context in a cluster goes on: the context is not vacated, or the cluster drains (R347). -/
def State.engineRuns (s : State) (ctx cluster : Nat) : Bool :=
  match (s.context ctx).mode with
  | .active => true
  | .vacating => (s.context ctx).options.lookup cluster == some 1
  | .vacated | .lost | .deleted => false

/-- %vest of a context (R340). -/
def State.vest (s : State) (ctx : Nat) : Nat := (s.estimate ctx (s.context ctx).charges [] true 0).1

/-- E_new of R344 for new charges and new state bytes. -/
def State.eNew (s : State) (ctx : Nat) (chs : List Charge) (extra : List (Nat × Nat)) : Nat :=
  (s.estimate ctx ((s.context ctx).charges ++ chs) extra true chs.length).1

/-- E_alone of R344. -/
def State.eAlone (s : State) (ctx : Nat) (chs : List Charge) (extra : List (Nat × Nat)) : Nat :=
  (s.estimate ctx chs extra false chs.length).1

/-- The gangs of a launch (R404). -/
def Launch.gangs (l : Launch) : Nat := ((l.ncourse + l.cpt - 1) / l.cpt + l.gang - 1) / l.gang

/-- A scheduling event for the partition of a context: its heads are considered (R406). -/
def State.schedule (s : State) (ctx : Nat) : State :=
  let p := (s.context ctx).partition
  if s.launches.any fun l => !l.finished && l.placed < l.gangs && (s.context l.ctx).partition == p then
    s.post .gangPlace { num := p }
  else s

/-- A core without courses and tile operations is empty and loses its split; a launch without courses on a core loses its
team slots there (R189). -/
def State.coreCheck (s : State) (place : Nat) : State :=
  let here := s.courses.filter fun c => c.onCore place
  if here.isEmpty && !s.tileOps.any fun o => o.place == place && (s.context o.ctx).mode != .vacated then
    { s with splits := s.splits.filter fun p => p.place != place }
  else
    { s with splits := s.splits.map fun p =>
        if p.place != place then p
        else { p with launches := p.launches.filter fun l => here.any fun c => c.launch == l,
                      slots := p.slots.filter fun q => here.any fun c => c.launch == q.1 } }

/-- Charges added to a context's accounts (R337). -/
def State.charge (s : State) (ctx : Nat) (chs : List Charge) : State :=
  s.modCtx ctx fun x => { x with charges := x.charges ++ chs }

/-- The charges of a word that leaves work behind: they stay until the work completes, whether the gate granted them to a
stalled word or the word passed (R337, R344). -/
def State.keepCharges (s : State) (i : Nat) (chs : List Charge) : State :=
  if (s.course i).granted.isSome then s.modCourse i fun c => { c with granted := none, grantBinds := false } else s.charge (s.course i).ctx chs

/-- Charges credited; the words stalled at the gate are then evaluated again (R337, R344). -/
def State.credit (s : State) (ctx : Nat) (chs : List Charge) : State :=
  if chs.isEmpty then s else
  let s := s.modCtx ctx fun x => { x with charges := chs.foldl (fun l c => l.erase c) x.charges }
  let s := if s.courses.any fun c => c.ctx == ctx && c.lwait.any (·.kind == .gate) then s.post .gateReevaluate { num := ctx } else s
  s.schedule ctx

/-- The charges of a granted word credited: it has completed, trapped or ended; a matrix context granted to it and not bound is free
again (R312, R337, R344). -/
def State.creditGranted (s : State) (i : Nat) : State :=
  match (s.course i).granted with
  | none => s
  | some chs =>
    let c := s.course i
    let s := s.modCourse i fun c => { c with granted := none, grantBinds := false }
    let s := if c.grantBinds && c.mctx.isNone then s.wakeIf fun _ d w => w.kind == .context && d.place == c.place else s
    s.credit c.ctx chs

/-- What the gate decides for a word (R344). -/
inductive GateResult where
  | pass
  | stall
  | vbnd
  | vbig
deriving DecidableEq, Repr

/-- The gate for charges and, where the word binds a matrix context, its 16,384 state bytes (R344, R346). -/
def State.gate (s : State) (ctx place : Nat) (chs : List Charge) (binds : Bool) : GateResult :=
  if chs.isEmpty && !binds then .pass
  else
    let x := s.context ctx
    let extra := if binds then [(clusterOf place, 16384)] else []
    if x.vbnd < s.eAlone ctx chs extra then .vbig
    else if s.eNew ctx chs extra ≤ x.vbnd then .pass
    else if x.vmode then .vbnd else .stall

/-! Checkpoints and held stores. -/

/-- A checkpoint of a course (R182): its held stores are committed, its state recorded, its shadow emptied; bytes whose commit must
wait are owed (R392). -/
def State.checkpoint (s : State) (i : Nat) : State :=
  (s.commit i).modCourse i fun c =>
    { c with ckpt := c.core, ckptAt := s.free, shadow := [], tileCopies := [], rollbacks := 0, heldSince := s.clock, owed := c.heldG }

/-- The bytes of a shadow copy (R183). -/
def ShadowKey.bytes (k : ShadowKey) : Nat := match k with | .v _ => 1024 | .g _ => 256 | .z _ => 4096

/-- The shadow share of a course: the CKPT granules divided among the resident courses, in whole KiB (R190). -/
def State.shadowShare (s : State) (c : Course) : Nat :=
  let n := (s.courses.filter fun d => d.onCore c.place && d.phase != .swapped).length
  match s.splits.find? fun p => p.place == c.place with
  | none => 0
  | some p => if n == 0 then 0 else p.ckpt * 32 / n * 1024

/-- The first writes of a word enter the register shadow; where they do not fit, a checkpoint comes first, since which all of the
word's writes are first ones (R181, R190). -/
def State.shadowWrites (s : State) (i : Nat) (keys : List ShadowKey) : State :=
  let c := s.course i
  let new := keys.eraseDups.filter fun k => !c.shadow.contains k
  if new.isEmpty then s else
  let size (l : List ShadowKey) := (l.map ShadowKey.bytes).foldl (· + ·) 0
  let s := if s.shadowShare c < size c.shadow + size new && !c.shadow.isEmpty then s.checkpoint i else s
  s.modCourse i fun c => { c with shadow := (keys.eraseDups.filter fun k => !c.shadow.contains k) ++ c.shadow }

/-- Stores placed in the store-hold area line by line, with the HINT of the store and whether a lane word makes it; a line that
does not fit first causes a checkpoint (R181, R195). Where the other courses of the core hold all 512 lines, that checkpoint
frees none and the line is held all the same (log 80). -/
def State.holdCells (s : State) (i : Nat) (scratch : Bool) (cells : List Host.Cell) (hint : Nat := 0) (lane : Bool := false) :
    State :=
  let lines := (cells.map fun c => c.1 / 64).eraseDups
  lines.foldl (fun s l =>
    let c := s.course i
    let map := if scratch then c.heldS else c.heldG
    let full := !(heldLines map).contains l && (64 ≤ c.heldCount || 512 ≤ s.coreHeld c.place)
    let s := if full then s.checkpoint i else s
    let mine := cells.filter fun c => c.1 / 64 == l
    let leaf := if scratch then none else (s.leafFor c.who (64 * l)).toOption
    let s := if scratch then s else s.tlbNote c.who (64 * l)
    s.modCourse i fun c =>
      let since := if c.heldCount == 0 then s.clock else c.heldSince
      if scratch then { c with heldS := mine.foldl (fun m x => heldPut m x.1 x.2) c.heldS, heldSince := since }
      else
        let before := mine.map fun (x : Host.Cell) => (x.1, heldGet c.heldG x.1)
        let others := c.unsynced.map fun l => l.filter fun a => !mine.any fun x => x.1 == a.1
        { c with heldG := mine.foldl (fun m x => heldPut m x.1 x.2) c.heldG, heldSince := since,
                 heldHint := (if hint == 0 then [] else [(l, hint)]) ++ c.heldHint.filter fun h => h.1 != l,
                 heldLeaf := (leaf.map fun x => (l, x)).toList ++ c.heldLeaf.filter fun h => h.1 != l,
                 unsynced := if lane then before :: c.unsynced else others.filter fun l => !l.isEmpty }) s

/-! Completion rings (R286, R288), the fault ring among them. -/

/-- The header line of a ring. -/
structure RingHdr where
  stale : Nat
  rp : Nat
  wp : Nat
  alloc : Nat
  gen : Nat
  scope : Nat
  caplog : Nat
  magic : Nat
deriving DecidableEq, Repr

/-- A header from its 64 bytes. -/
def ringOf (l : List Byte) : RingHdr :=
  let n := leNat l
  { stale := n / 2 ^ 128 % 2 ^ 16, rp := n / 2 ^ 96 % 2 ^ 32, wp := n / 2 ^ 64 % 2 ^ 32, alloc := n / 2 ^ 32 % 2 ^ 32,
    gen := n / 2 ^ 24 % 256, scope := n / 2 ^ 21 % 8, caplog := n / 2 ^ 16 % 32, magic := n % 2 ^ 16 }

/-- The first 18 bytes of a header, the fields that the ring operations maintain. -/
def ringBytes (h : RingHdr) : List Byte :=
  leBytes 18 (h.magic % 2 ^ 16 + 2 ^ 16 * (h.caplog % 32) + 2 ^ 21 * (h.scope % 8) + 2 ^ 24 * (h.gen % 256)
    + 2 ^ 32 * (h.alloc % 2 ^ 32) + 2 ^ 64 * (h.wp % 2 ^ 32) + 2 ^ 96 * (h.rp % 2 ^ 32) + 2 ^ 128 * (h.stale % 2 ^ 16))

/-- a - b modulo 2^32. -/
def sub32 (a b : Nat) : Nat := (a + 2 ^ 32 - b % 2 ^ 32) % 2 ^ 32

/-- A consistent header under a capability (R286). -/
def RingHdr.ok (h : RingHdr) (cap : Cap) : Bool :=
  h.magic == 0x5C05 && h.caplog ≤ 16 && (h.scope == 3 || h.scope == 4) && 64 + 32 * 2 ^ h.caplog ≤ capLen cap
    && sub32 h.wp h.rp ≤ sub32 h.alloc h.rp && sub32 h.alloc h.rp ≤ 2 ^ h.caplog

/-- The header of a ring read at its home, for a team's work where it is a team's (R251). -/
def State.ringHdr (s : State) (ctx : Nat) (cap : Cap) (team : Option Nat := none) : Except XErr RingHdr := do
  let b ← s.readVA { ctx := ctx, team := team } (capBase cap) 64
  pure (ringOf b)

/-- The header written at its home; its monitor wakes. Answers its write time. -/
def State.setRing (s : State) (w : Who) (cap : Cap) (h : RingHdr) : State × Nat := s.pokeAt w (capBase cap) (ringBytes h)

/-- The address of a slot. -/
def slotVA (cap : Cap) (h : RingHdr) (k : Nat) : Nat := capBase cap + 64 + 32 * (k % 2 ^ h.caplog)

/-- A slot allocated (R288): word 0 cleared, word 6 the counter, ALLOC advanced; none where the ring is full. Answers the write
time of the header, which is the last of the writes. -/
def State.ringAlloc (s : State) (ctx clk : Nat) (cap : Cap) (h : RingHdr) (team : Option Nat := none) :
    Option (State × RingRef × Nat) :=
  if sub32 h.alloc h.rp ≥ 2 ^ h.caplog then none
  else
    let w : Who := { ctx := ctx, team := team, clk := clk }
    let (s, a) := s.pokeAt w (slotVA cap h h.alloc) (leBytes 4 0)
    let (s, b) := s.pokeAt { w with clk := max clk a } (slotVA cap h h.alloc + 24) (leBytes 4 h.alloc)
    let (s, t) := s.setRing { w with clk := max clk b } cap { h with alloc := (h.alloc + 1) % 2 ^ 32 }
    some (s, { ctx := ctx, cap := cap, gen := h.gen, slot := h.alloc, team := team }, t)

/-- WP moved over the consecutive slots whose STATUS is not zero (R288). -/
def State.advanceWp (s : State) (w : Who) (cap : Cap) (h : RingHdr) : Nat → Nat → Nat
  | 0, wp => wp
  | fuel + 1, wp =>
    if sub32 h.alloc wp == 0 then wp
    else match s.readVA w (slotVA cap h wp) 1 with
    | .error _ => wp
    | .ok b => if b.getD 0 0 == 0 then wp else s.advanceWp w cap h fuel ((wp + 1) % 2 ^ 32)

/-- A completion reported (R288): words 0 to 5 and 7 of the slot, then WP; a stale or damaged ring only counts it. A completion that
finds the page of the ring's header gone reports nothing; one that finds its slot's page gone loses the record, and WP comes no
further than that slot (DESIGN CHOICE, log 127). -/
def State.ringComplete (s : State) (clk : Nat) (r : RingRef) (w05 : List Nat) (w7 : Nat) : State :=
  let w : Who := { ctx := r.ctx, team := r.team, clk := clk }
  match s.ringHdr r.ctx r.cap r.team with
  | .error _ => s
  | .ok h =>
    if !h.ok r.cap || h.gen != r.gen then (s.setRing w r.cap { h with stale := min (h.stale + 1) 0xFFFF }).1
    else
      let (s, a) := s.pokeAt w (slotVA r.cap h r.slot) (w05.flatMap (leBytes 4))
      let (s, b) := s.pokeAt { w with clk := max clk a } (slotVA r.cap h r.slot + 28) (leBytes 4 w7)
      (s.setRing { w with clk := max clk b } r.cap { h with wp := s.advanceWp w r.cap h (2 ^ h.caplog) h.wp }).1

/-! Records (R354, R355). -/

/-- The code of a course state (R354). -/
def Phase.code (p : Phase) : Nat :=
  match p with
  | .placed => 0 | .running => 1 | .waiting => 2 | .swapped => 3 | .vacated => 4 | .retired => 5

/-- The 64 bytes of a course fault record (R354). -/
def recordBytes (c : Course) (f : FaultInfo) (replay : Bool) (state prior : Nat) : List Byte :=
  leBytes 64 (f.cause % 256 + 2 ^ 8 * (f.detail % 256) + 2 ^ 16 * flagNat f.scalar + 2 ^ 17 * flagNat replay
    + 2 ^ 18 * state + 2 ^ 21 * c.option + 2 ^ 24 * prior + 2 ^ 32 * (f.pc % 2 ^ 32) + 2 ^ 64 * (f.code % 2 ^ 16)
    + 2 ^ 96 * (c.index % 2 ^ 32) + 2 ^ 128 * (f.addr % 2 ^ 57) + 2 ^ 192 * c.revoked.toNat
    + 2 ^ 208 * (c.recSeq % 2 ^ 16) + 2 ^ 256 * f.mask.toNat)

/-- A course fault record written in the record area; none for a null area (R354). -/
def State.writeRecord (s : State) (i : Nat) (f : FaultInfo) (replay : Bool) (state prior : Nat) : State :=
  let s := s.modCourse i fun c => { c with recSeq := c.recSeq + 1 }
  let c := s.course i
  if capLen c.recArea == 0 then s
  else s.pokeVA { ctx := c.ctx, clk := c.lclock } (capBase c.recArea) (recordBytes c f replay state prior)

/-! Stash write-back (R204). -/

/-- The clocks of a team's members past the write times of its window's bytes: they are its members' writes (R237, R242, R246). -/
def State.raiseMembers (s : State) (t w : Nat) : State :=
  { s with courses := s.courses.map fun c =>
      if c.team == some t && c.alive then { c with lclock := max c.lclock w, wmax := max c.wmax w } else c }

/-- A course's packets to the lenders of some addresses' lines (R383). -/
def State.loanStores (s : State) (w : Who) (i : Nat) (vas : List Nat) : State :=
  ((vas.map (· / 64)).eraseDups).foldl (fun s l =>
    match s.translate w (64 * l) true with | .ok x => s.loanSent i (64 * l) (x.loc / 64) | .error _ => s) s

/-- A store to an address is lost on its way to a lender (R384). -/
def State.lostStore (s : State) (w : Who) (va : Nat) : Bool :=
  match s.translate w va true with | .ok x => (s.loanLoss (x.loc / 64)).any fun l => !l.2 | .error _ => false

/-- The dirty bytes of a team's stash that a condition on slot and global address picks, written to their global ranges as
plain stores; a byte whose page cannot be used stays dirty, and one that is lost on its way to a lender is not written (R384). The
members' clocks pass the writes; the packets to a lender are those of the course that writes back, else of the first member. Answers
the largest write time. -/
def State.stashFlush (s : State) (t : Nat) (p : Nat → Nat → Bool) (clk : Nat) (by' : Option Nat := none) : State × Nat :=
  let tm := s.team t
  let w : Who := { ctx := tm.ctx, team := some t, clk := clk }
  let sender := (by'.orElse fun _ => (s.members t).head?).getD s.courses.length
  let r := tm.stash.foldl (fun (r : State × Nat) q =>
    let va (off : Nat) : Nat := q.2.va + (off - q.2.scr)
    let s := r.1.loanStores w sender ((q.2.dirty.map va).filter (p q.1))
    let out := q.2.dirty.foldl (fun (r : State × Nat × List Nat) off =>
      if !p q.1 (va off) then (r.1, r.2.1, off :: r.2.2)
      else if r.1.lostStore w (va off) then r
      else match r.1.writeVA w (va off) [tm.scratch.get off] with
      | .ok (s, w) => (s, max r.2.1 w, r.2.2)
      | .error _ => (r.1, r.2.1, off :: r.2.2)) (s, r.2, [])
    (out.1.modTeam t fun tm =>
      { tm with stash := tm.stash.map fun x => if x.1 == q.1 then (x.1, { x.2 with dirty := out.2.2 }) else x },
      out.2.1)) (s, 0)
  (r.1.raiseMembers t r.2, r.2)

/-- Every dirty byte of a team's stash written back where no member's release does it: at a vacate, a swap-out, the team's end
(R204). The writes carry the largest clock that a store to the window has carried (log 92). -/
def State.stashBack (s : State) (t : Nat) : State := (s.stashFlush t (fun _ _ => true) (s.team t).clock).1

/-! Releases and acquires (R246, R247). -/

/-- An acquire that has read a value of write time t (R247): the clock passes it, LOBS and the region clocks. -/
def State.acquire (s : State) (i t : Nat) : State :=
  s.modCourse i fun c =>
    { c with lclock := c.core.regions.foldl (fun m r => max m r.time) (max (max c.lclock t) c.core.lobs),
             core := { c.core with lobs := 0, regions := [] } }

/-- A course has packets out that no acknowledgement has resolved (R246). -/
def State.unacked (s : State) (i : Nat) (writes : Bool) : Bool :=
  s.outstanding.any fun o => o.course == i && (!writes || o.writes)

/-- A course has engine work whose writes are not all performed (R246, R258). -/
def State.engineWrites (s : State) (i : Nat) : Bool :=
  s.jobs.any fun j => !j.finished && j.parts.any fun p => p.course == some i && !p.done

/-- The largest write time of the engine writes that a course has issued, of those parts that a condition picks (R246, R258). -/
def State.engineWts (s : State) (i : Nat) (p : Part → Bool := fun _ => true) : Nat :=
  s.jobs.foldl (fun m j => j.parts.foldl (fun m q => if q.course == some i && p q then max m q.wts else m) m) 0

/-- The writes a release makes: held stores committed, and the stash written back at cluster scope or wider (R246). A course may
commit held stores early (R182), so a word that must then wait leaves them committed. -/
def State.releasePrep (s : State) (i scope : Nat) : State :=
  let s := s.commit i
  match (s.course i).team with
  | none => s
  | some t =>
    if scope < 2 then s
    else
      (s.stashFlush t (fun _ _ => true) (s.course i).lclock (some i)).1

/-- The clock of a release: past the write time of every write of the course, its engine writes among them (R246). -/
def State.releaseClock (s : State) (i : Nat) : State :=
  s.modCourse i fun c => { c with lclock := max (max c.lclock c.wmax) (s.engineWts i) }

/-- A release whose writes are all performed (R246). -/
def State.release (s : State) (i scope : Nat) : State := (s.releasePrep i scope).releaseClock i

/-! Barrier objects (R224). -/

/-- A barrier object. -/
structure BarObj where
  stale : Nat
  gen : Nat
  lastbrk : Bool
  state : Nat
  ext : Bool
  scope : Nat
  arrived : Nat
  expect : Nat
deriving DecidableEq, Repr

/-- An object from its 16 bytes. -/
def barOf (l : List Byte) : BarObj :=
  let n := leNat l
  { stale := n / 2 ^ 112 % 2 ^ 16, gen := n / 2 ^ 104 % 256, lastbrk := bit n 103, state := n / 2 ^ 101 % 4,
    ext := bit n 100, scope := n / 2 ^ 97 % 8, arrived := n / 2 ^ 32 % 2 ^ 32, expect := n % 2 ^ 32 }

/-- The 16 bytes of an object; its reserved bits read 0 (R6, R224). -/
def barBytes (b : BarObj) : List Byte :=
  leBytes 16 (b.expect % 2 ^ 32 + 2 ^ 32 * (b.arrived % 2 ^ 32)
    + 2 ^ 97 * (b.scope % 8) + 2 ^ 100 * flagNat b.ext + 2 ^ 101 * (b.state % 4) + 2 ^ 103 * flagNat b.lastbrk
    + 2 ^ 104 * (b.gen % 256) + 2 ^ 112 * (min b.stale 0xFFFF))

/-- An object that takes arrivals: open, a scope from 2 to 4, and a non-zero count (R224, R228). -/
def BarObj.isOpen (b : BarObj) : Bool := b.state == 1 && 2 ≤ b.scope && b.scope ≤ 4

/-- An arrival with count n in generation g (R228) at an open object: the object after it. -/
def BarObj.arrive (b : BarObj) (n : Nat) (g : Nat := b.gen) : BarObj :=
  let a := b.arrived + n
  if b.expect ≤ a then
    { b with stale := b.stale + (a - b.expect), gen := (g + 1) % 256, lastbrk := false, arrived := 0 }
  else { b with arrived := a }

/-- An engine's or a device's arrival, tagged with the generation captured when its work was issued; a dropped one wakes nobody
(R230). An arrival whose object's page is gone by then is lost (DESIGN CHOICE, log 127). -/
def State.tagArrive (s : State) (clk : Nat) (r : BarRef) : State :=
  let w : Who := { ctx := r.ctx, team := r.team, clk := clk }
  match s.readVA w r.va 16 with
  | .error _ => s
  | .ok old =>
    let b := barOf old
    let drop := !b.isOpen || b.expect == 0 || b.gen != r.gen
    s.pokeVA w r.va (barBytes (if drop then { b with stale := b.stale + 1 } else b.arrive 1)) (wake := !drop)

/-- An enrolled barrier whose generation has not ended is broken (R233); answers whether it was. -/
def State.breakBarrier (s : State) (e : Enrol) : State × Bool :=
  let w : Who := { ctx := e.ctx }
  match s.readVA w e.va 16 with
  | .error _ => (s, false)
  | .ok old =>
    let b := barOf old
    if b.gen != e.gen then (s, false)
    else (s.pokeVA w e.va (barBytes { b with gen := (b.gen + 1) % 256, lastbrk := true, arrived := 0 }), true)

/-! The end of a course and of a team (R91, R232, R233). -/

/-- The largest logical clock among some courses. -/
def State.maxClock (s : State) (l : List Nat) : Nat := l.foldl (fun m i => max m (s.course i).lclock) 0

/-- The clock that an acquire from a team takes of some of its members and of those that have left it (R173, R237, R254). -/
def State.teamClock (s : State) (t : Nat) (l : List Nat) : Nat := max (s.maxClock l) (s.team t).left

/-- The team barrier completes when every present member has arrived: all leave as one, each with a team-scope acquire
(R176, R232). -/
def State.barrierCheck (s : State) (t : Nat) : State :=
  let tm := s.team t
  let ms := s.members t
  if tm.arrived.isEmpty || !ms.all (fun i => tm.arrived.contains i) then s
  else
    let clk := s.teamClock t tm.arrived
    let s := tm.arrived.foldl (fun s i => s.acquire i clk) s
    let s := s.modTeam t fun tm => { tm with arrived := [] }
    (s.wakeIf fun i _ w => w.kind == .tbar && tm.arrived.contains i).wakeIf fun _ c w => w.kind == .join && c.place == tm.place

/-- The gathering collectives that every present member has contributed to are gathered (R292). -/
def State.gatherCheck (s : State) (t : Nat) : State :=
  let tm := s.team t
  let ms := s.members t
  let full := tm.gathering.filter fun g => ms.all fun i => g.2.contains i
  if full.isEmpty then s
  else
    let s := full.foldl (fun s g => s.modJob g.1 fun job => { job with gathering := false }) s
    (s.modTeam t fun tm => { tm with gathering := tm.gathering.filter fun g => !full.contains g }).wakeIf fun _ c w =>
      w.kind == .join && c.place == tm.place

/-- Whichever of two courses has the lower number: the earlier one of equals. -/
def State.lower (s : State) (a : Option Nat) (i : Nat) : Option Nat :=
  match a with
  | none => some i
  | some j => if (s.course i).index < (s.course j).index then some i else some j

/-- The record area that a team's exit record goes to: that of its lowest-numbered course, whether still a member or not (R355,
R405, log 120). -/
def State.teamArea (s : State) (t : Nat) : Cap :=
  match (s.members t).foldl s.lower (s.team t).first with
  | none => 0
  | some i => (s.course i).recArea

/-- The record of R355, in the area of the lowest-numbered course of the team. -/
def State.exitRecord (s : State) (t : Nat) (rec : Cap) (mask : Mask) (broken unlocked cause : Nat) : State :=
  let tm := s.team t
  if capLen rec == 0 then s
  else s.pokeVA { ctx := tm.ctx } (capBase rec + 64)
    (leBytes 64 (cause % 256 + 2 ^ 16 * (tm.key % 2 ^ 16) + 2 ^ 32 * min unlocked 0xFFFF + 2 ^ 64 * (broken % 2 ^ 32)
      + 2 ^ 256 * mask.toNat))

/-- What the end of a team leaves (R233): its open buffers closed without a flip, its locks released and reported, its enrolled
barriers broken, its exit record written, its slot freed; a JOIN that waited behind its barrier or collective tests again (R174).
The report of an unlocked line has the CAUSE of the team's end: 0 at a dissolution, the kill's at a kill (DESIGN CHOICE, log 128). A
part of a copy into its window that has not moved fails with SCRF, after a kill and after a dissolution (R291; DESIGN CHOICE, log
113); dirty bytes that could not be written back are gone (R204; log 108). -/
def State.endTeam (s : State) (t : Nat) (rec : Cap) (mask : Mask) (cause : Nat) : State :=
  let tm := s.team t
  let s := s.modCtx tm.ctx fun x =>
    { x with pub := x.pub.map fun p =>
        if p.2.isOpen && p.2.team == t then (p.1, { p.2 with isOpen := false, clone := false, lines := [] }) else p }
  let reports : List PostWait := tm.locks.map fun l =>
    { ctx := tm.ctx, cause := cause, source := 5, addr := l * 64, place := tm.place, key := tm.key }
  let s := { s with posts := s.posts ++ reports }
  let (s, broken) := tm.enrols.foldl (fun (s, n) e =>
    let (s, b) := s.breakBarrier e
    (s, if b then n + 1 else n)) (s, 0)
  let s := s.exitRecord t rec mask broken tm.locks.length cause
  let lost (p : Part) : Part :=
    match p.dst with
    | .scratch t' _ => if t' == t && !p.done then { p with done := true, failed := some cSCRF } else p
    | .global _ _ => p
  let s := { s with jobs := s.jobs.map fun (j : Job) =>
      let parts := j.parts.map lost
      if j.finished || parts == j.parts then j
      else { j with parts := parts, detail := if j.detail == 0 then cSCRF else j.detail } }
  let ms := s.members t
  let s := tm.gathering.foldl (fun s g => s.modJob g.1 fun job =>
    { job with gathering := false, short := job.short || ms.any fun i => !g.2.contains i }) s
  (s.modTeam t fun tm =>
    { tm with alive := false, size := 0, scratch := [], bad := [], written := [], released := [], stash := [], arrived := [],
              enrols := [], locks := [], gathering := [] }).wakeIf fun _ c w => w.kind == .join && c.place == tm.place

/-- A course leaves its team; the barrier and the gathering collective no longer count it, its clock stays with the team for those
that acquire from it later, and the last member's leaving dissolves the team: its stash bytes are written back while the member's
clock can pass them (R173, R175, R176, R232, R233, R292). -/
def State.leaveTeam (s : State) (i : Nat) : State :=
  let c := s.course i
  match c.team with
  | none => s
  | some t =>
    let s := if s.members t == [i] then s.stashBack t else s
    let s := s.modCourse i fun c => { c with team := none }
    let first := s.lower (s.team t).first i
    let s := s.modTeam t fun tm =>
      { tm with arrived := tm.arrived.erase i, faultOr := tm.faultOr ||| c.core.faultMask, first := first,
                left := max tm.left (s.course i).lclock }
    let s := ((s.team t).gathering.filter fun g => !g.2.contains i).foldl (fun s g =>
      s.modJob g.1 fun job => { job with short := true }) s
    let s := s.gatherCheck t
    if (s.members t).isEmpty then s.endTeam t (s.teamArea t) (s.team t).faultOr 0 else s.barrierCheck t

/-- A course retired: its feeds and queues are discarded, its charges for granted words credited, its matrix context freed
once its tile operations have ended (R91); no word of it takes up a stopped copy again (R347). Stores from before its checkpoint
that wait for a loan's move are still performed after it (R392). -/
def State.retire (s : State) (i : Nat) : State :=
  let c := s.course i
  let busy := s.tileOps.any fun o => o.course == i
  let owed := c.owed.filter fun h => match s.translate c.who h.1 true with | .error .moving => true | .ok _ | .error _ => false
  let s := s.creditGranted i
  let s := s.modCourse i fun c =>
    { c with phase := .retired, swait := none, lwait := none, parked := none, trapped := none, sfault := none,
             heldG := owed, owed := owed, heldS := [],
             core := { c.core with ended := true, relq := [], pending := 0, feeds := [], queues := [], retq := [] },
             mctx := if busy then c.mctx else none }
  let s : State := { s with jobs := s.jobs.map fun (j : Job) =>
    if j.reissue && j.course == some i then { j with reissue := false, gathering := false, short := true } else j }
  let s := s.modLaunch c.launch fun l => { l with retired := l.retired + 1 }
  let s := s.wakeIf fun _ d w => (w.kind == .engine || w.kind == .context) && d.place == c.place
  (s.coreCheck c.place).schedule c.ctx

/-- The record of a killed course: the fault it was killed for where it has one, else the cause with its scalar PC (R233,
R354). -/
def State.killRecord (s : State) (i cause : Nat) (about : Option (Nat × FaultInfo)) : State :=
  let f := match about with
    | some (j, f) => if j == i then { f with cause := cause } else { cause := cause, pc := (s.course i).core.pc, scalar := true }
    | none => { cause := cause, pc := (s.course i).core.pc, scalar := true }
  let s := s.writeRecord i f false 5 0
  s.modLaunch (s.course i).launch fun l => { l with killed := l.killed.orElse fun _ => some cause }

/-- A team killed with a cause (R233): held stores dropped, a record for each course, every member retired. about is the course
whose fault kills it. -/
def State.killTeam (s : State) (t : Nat) (cause : Nat) (about : Option (Nat × FaultInfo) := none) : State :=
  let ms := s.members t
  let mask := ms.foldl (fun m i => m ||| (s.course i).core.faultMask) (s.team t).faultOr
  let s := s.endTeam t (s.teamArea t) mask cause
  ms.foldl (fun s i =>
    let s := s.killRecord i cause about
    (s.modCourse i fun c => { c with team := none }).retire i) s

/-- A course killed: with its team, or alone where it is in no team; one that has retired is past killing. -/
def State.killCourse (s : State) (i : Nat) (cause : Nat) (about : Option (Nat × FaultInfo) := none) : State :=
  if (s.course i).phase == .retired then s
  else match (s.course i).team with
  | some t => s.killTeam t cause about
  | none => (s.killRecord i cause about).retire i

/-! The fault ring (R356). -/

/-- Words 0 to 5 of a fault-ring record (R356). -/
def postWords (p : PostWait) (course : Nat) : List Nat :=
  [1 + 2 ^ 8 * 7 + 2 ^ 16, p.cause % 256 + 2 ^ 8 * (p.detail % 256) + 2 ^ 16 * (p.source % 16) + 2 ^ 20 * flagNat p.answer,
   course, p.pc % 2 ^ 32, p.addr % 2 ^ 32, p.addr / 2 ^ 32 % 2 ^ 25]

/-- The fault of one part of a copy: that part fails (R291, R292, R294). -/
def State.failJob (s : State) (j part cause : Nat) : State :=
  s.modJob j fun job =>
    { job with waiting := none, detail := if job.detail == 0 then cause else job.detail,
               parts := job.parts.modify part fun p => if p.done then p else { p with done := true, failed := some cause } }

/-- The fault a trapped course is killed for, with the cause of the kill in its place (R353, R354). -/
def State.trapAbout (s : State) (i cause : Nat) : Option (Nat × FaultInfo) :=
  (s.course i).trapped.map fun t =>
    (i, if t.info.cause == cause then t.info
        else { cause := cause, pc := t.info.pc, scalar := t.info.scalar })

/-- An entry nobody can answer counts as answered KILL (R356). -/
def State.killPoster (s : State) (p : PostWait) : State :=
  match p.course, p.job, p.front with
  | some i, _, _ =>
    let cause := if p.source == 1 then cXLTF else cHOST
    s.killCourse i cause (s.trapAbout i cause)
  | none, some j, _ => s.failJob j p.part cXLTF
  | none, none, some f => s.killFront f
  | none, none, none => s

/-- A record posted to its context's fault ring: in the next free slot, or kept until one is free; with no usable ring it
is dropped, and one that waits for an answer counts as answered KILL (R356). -/
def State.postFault (s : State) (p : PostWait) : State :=
  let x := s.context p.ctx
  let refuse (s : State) : State := if p.answer then s.killPoster p else s
  if capLen x.faultRing == 0 then refuse s
  else match s.ringHdr p.ctx x.faultRing with
  | .error _ => refuse s
  | .ok h =>
    if !h.ok x.faultRing then refuse s
    else match s.ringAlloc p.ctx 0 x.faultRing h with
    | none =>
      let s := { s with posts := s.posts ++ [p] }
      match p.course with
      | some i => s.modCourse i fun c =>
          { c with swait := some { kind := .post, internal := false, since := s.clock },
                   lwait := some { kind := .post, internal := false, since := s.clock } }
      | none => s
    | some (s, r, _) =>
      let num := match p.course.orElse fun _ => p.about with | some i => (s.course i).index | none => 2 ^ 32 - 1
      let s := s.ringComplete 0 r (postWords p num) (placeReg p.place % 256 + 2 ^ 8 * (p.key % 256))
      if !p.answer then s
      else
        let s := { s with posted := s.posted ++ [{ ctx := p.ctx, entry := r.slot, source := p.source, course := p.course,
                                                   job := p.job, part := p.part, front := p.front }] }
        match p.course, p.job with
        | some i, _ => s.modCourse i fun c =>
            { c with trapped := c.trapped.map fun t => { t with entry := some r.slot },
                     swait := some { kind := .service, internal := false, since := s.clock },
                     lwait := some { kind := .service, internal := false, since := s.clock } }
        | none, some j => s.modJob j fun job => { job with waiting := some r.slot }
        | none, none => s

/-- The fault-ring record of a course's fault. -/
def State.coursePost (s : State) (i : Nat) (f : FaultInfo) (source : Nat) : PostWait :=
  let c := s.course i
  { ctx := c.ctx, cause := f.cause, detail := f.detail, source := source, answer := true, course := some i, pc := f.pc,
    addr := f.addr, place := c.place, key := match c.team with | some t => (s.team t).key | none => 0xFF }

/-! Taking a trap and returning from it (R353), rolling back (R184, R357). -/

/-- TAKING A TRAP (R353): the course stops and takes a checkpoint, its fault record is written, and POLICY kills its team
or posts an entry to the fault ring, whose answer it waits for. -/
def State.takeTrap (s : State) (i : Nat) (f : FaultInfo) : State :=
  let s := (s.creditGranted i).checkpoint i
  let s := s.writeRecord i f false (s.course i).phase.code 0
  let s := s.modCourse i fun c => { c with sfault := none }
  if !(s.context (s.course i).ctx).policy.getLsbD f.cause then s.killCourse i f.cause (some (i, f))
  else (s.modCourse i fun c => { c with trapped := some { info := f } }).postFault (s.coursePost i f 0)

/-- A scalar word's non-replayable fault: the scalar stream stops, and the trap is taken when the lane words released
before it have completed (R67). -/
def State.scalarFault (s : State) (i : Nat) (f : FaultInfo) : State :=
  if (s.course i).core.pending = 0 then s.takeTrap i f
  else s.modCourse i fun c => { c with sfault := some f, swait := some { kind := .lanes, since := s.clock } }

/-- The next lane word taken off the release queue, counted complete (R64); the LOOK windows of earlier words move on, and one that
an earlier try of this word left is gone (R53). -/
def Core.dropWord (c : Core) : Core :=
  match c.relq with
  | [] => c
  | r :: rs =>
    { c with relq := if r.count ≤ 1 then rs else { r with first := r.first + 1, count := r.count - 1 } :: rs,
             pending := c.pending - 1,
             looks := ((c.looks.filter fun l => !l.own).map fun l => { l with left := l.left - 1 }).filter fun l => l.left != 0 }

/-- The word that has faulted left behind: the window it opened begins, with all of its words still to come, and an arrival it has
waited on is over (R53, R228, R353). -/
def Core.passWord (c : Core) : Core :=
  let k := c.dropWord
  { k with arrivedGen := none, looks := k.looks ++ (c.looks.filter (·.own)).map fun l => { l with own := false } }

/-- What a word that faults has performed: a window it opens is its own until it is left behind or tried again (R53, R105). -/
def Core.tried (c : Core) (f : Core → Core) : Core :=
  let earlier := c.looks.filter fun l => !l.own
  let k := f { c with looks := earlier }
  let new := (k.looks.drop earlier.length).map fun l => { l with own := true }
  { k with looks := k.looks.take earlier.length ++ new ++ c.looks.filter fun l => l.own && !new.any fun m => m.reg == l.reg }

/-- A wait of the scalar stream that the completion of a lane word ends: LSYNC at the last pending word, XRQ once an entry has
come or none can, LRUN, QHALT and STRAP at every word, which test again (R63). -/
def Core.laneEnds (c : Core) (w : Wait) : Bool :=
  w.kind == .lanes || (w.kind == .lsync && c.pending == 0) || (w.kind == .returnQueue && (c.pending == 0 || !c.retq.isEmpty))

/-- RETURNING FROM A TRAP (R353): after RESUME the course goes on after the trapping word, after RETRY it issues the word
again. -/
def State.resumeTrap (s : State) (i : Nat) (retry : Bool) : State :=
  let f := ((s.course i).trapped.map (·.info)).getD { cause := 0 }
  s.modCourse i fun c =>
    let core := if retry || f.later then c.core else if f.scalar then { c.core with pc := c.core.pc + 4 } else c.core.passWord
    { c with trapped := none, swait := none, lwait := none, swas := none, lwas := none, core := core, ckpt := if retry || f.later then c.ckpt else core,
             phase := if c.phase == .waiting then .running else c.phase }

/-- A part of a copy that its course's word will supply again: the word took no checkpoint, and issued after the one that the course
replays from (R181, R347). -/
def State.reissued (s : State) (p : Part) : Bool := p.shadow && p.course.any fun i => decide ((s.course i).ckptAt ≤ p.issued)

/-- A copy some of whose parts will be issued again (R181, R347): they are taken out, and it waits for them with its slot, in its
collective or for its course's word; the engine goes on with the other parts. Their charges are credited (R337). A copy that has
finished stays so: its word finds it done, with the slot and the report it has had (log 129). -/
def State.stopCopy (s : State) (k : Nat) (j : Job) (again : Part → Bool) : State :=
  let gone := j.parts.filter again
  if gone.isEmpty then s
  else
    let kept := j.parts.filter fun p => !again p
    let team := if j.kind == .cpy then j.team.filter fun t => (s.team t).alive else none
    let chs := if j.finished then []
      else if j.kind == .cpy then (j.parts.zip j.charges).filterMap fun q => if again q.1 then some q.2 else none
      else j.charges
    let moved := ((gone.filter fun p => p.done && p.failed.isNone).map (·.outLen)).foldl (· + ·) 0
    let s := s.modJob k fun j =>
      if j.finished then { j with reissue := team.isNone }
      else { j with parts := kept, gathering := true, reissue := team.isNone, bytes := j.bytes - moved,
                    charges := chs.foldl (fun l c => l.erase c) j.charges }
    let s := match team with
      | none => s
      | some t =>
        let mine : Nat × List Nat := (k, kept.filterMap fun (p : Part) => p.course)
        s.modTeam t fun (tm : Team) =>
          { tm with gathering := (tm.gathering.filter fun (g : Nat × List Nat) => decide (g.1 < k)) ++ [mine]
                      ++ tm.gathering.filter fun (g : Nat × List Nat) => decide (k < g.1) }
    s.credit j.ctx chs

/-- The copies into an unpublished shadow that a course's replay will issue again (R181). -/
def State.undoCopies (s : State) (i : Nat) : State :=
  (List.range s.jobs.length).foldl (fun s k =>
    match s.jobs[k]? with
    | some j => s.stopCopy k j fun p => p.course == some i && s.reissued p
    | none => s) s

/-- A course returned to its checkpoint (R184): held stores dropped, but for those from before it, registers and scalar state
restored, copies its replay will issue again undone (R181); its logical clock stays (R241), and the charges of a granted word are
credited. A run of RFERR rollbacks ends with it (R358). -/
def State.restore (s : State) (i : Nat) : State :=
  let s := (s.creditGranted i).undoCopies i
  s.modCourse i fun c =>
    let owes (l : Nat) : Bool := c.owed.any fun h => h.1 / 64 == l
    { c with core := c.ckpt, shadow := [], tileCopies := [], heldG := c.owed, heldS := [], heldHint := c.heldHint.filter fun h => owes h.1,
             heldLeaf := c.heldLeaf.filter fun h => owes h.1, unsynced := [], swait := none, lwait := none,
             swas := none, lwas := none, sfault := none, parked := none, inFlight := false, replies := [], remoteFault := none, remoteFlags := 0,
             remoteActs := false, timedOut := false, rollbacks := 0,
             phase := if c.phase == .waiting then .running else c.phase }

/-- A translation fault (R108): its walk has read its entries (R110), the course rolls back, its record is written with REPLAY, and
the fault waits for the host's RETRY or KILL. -/
def State.replayXltf (s : State) (i : Nat) (f : FaultInfo) : State :=
  let s := (s.walkNote (s.course i).who f.addr).restore i
  let s := s.writeRecord i f true 2 0
  (s.modCourse i fun c => { c with trapped := some { info := f, source := 1 } }).postFault (s.coursePost i f 1)

/-- An access to a loan that moves (R392): the course rolls back and waits for the end of the move, where it has not ended yet, as
for an entry marked during it. -/
def State.replayMove (s : State) (i : Nat) (f : FaultInfo) : State :=
  let s := s.restore i
  let s := s.writeRecord i f true 2 0
  if !s.loans.any (·.state == 2) then s else
  s.modCourse i fun c =>
    { c with swait := some { kind := .move, internal := false, since := s.clock },
             lwait := some { kind := .move, internal := false, since := s.clock } }

/-- A consumed register-file error (R359): clean, the course rolls back and replays at once, but for the eighth time in a row
(R358); otherwise the course stops as for a trap, with a checkpoint and its record, and the team is killed with RFERR whatever
POLICY holds (R352, R353). -/
def State.takeRferr (s : State) (i : Nat) (f : FaultInfo) (clean : Bool) : State :=
  let c := s.course i
  if clean && c.rollbacks < 7 then
    let s := s.restore i
    let s := s.writeRecord i f true (s.course i).phase.code 0
    s.modCourse i fun d => { d with rollbacks := c.rollbacks + 1 }
  else
    let s := (s.creditGranted i).checkpoint i
    let s := s.writeRecord i f false (s.course i).phase.code 0
    s.killCourse i cRFERR (some (i, f))

/-! The advance of the streams. -/

/-- The scalar stream goes on at the next word, with a change of the course's state. -/
def State.scalarNext (s : State) (f : Core → Core) : State :=
  s.modCore fun c => { f c with pc := (f c).pc + 4 }

/-- A wait begun at a time, or gone on with: the wait of a word that a wake-up or a re-poll has tested again lasts from its first
beginning, and ends when that one would have (R223, R234, R394, log 81). -/
def Wait.begin (w : Wait) (old : Option Wait) (now : Nat) : Wait :=
  match old.filter fun o => o.kind == w.kind with
  | some o => { w with armed := now, since := o.since, limit := o.limit }
  | none => { w with armed := now, since := now }

/-- The scalar word is left unissued: the stream waits (R63, R68). -/
def State.scalarWait (s : State) (w : Wait) : State :=
  s.modMe fun c => { c with swait := some (w.begin c.swas s.clock), swas := none }

/-- A scalar word of the current course faults. -/
def State.scalarTrap (s : State) (f : FaultInfo) : State :=
  s.scalarFault s.cur { f with scalar := true, pc := s.me.core.pc }

/-- A lane word is left unissued: the lane stream waits. -/
def State.laneWait (s : State) (w : Wait) : State :=
  s.modMe fun c => { c with lwait := some (w.begin c.lwas s.clock), lwas := none }

/-- A lane word of the current course completes with a change of the course's state (R64): a wait of the scalar stream sees the
return-queue entries it has pushed (R63, R82). -/
def State.laneDone (s : State) (f : Core → Core) : State :=
  (s.creditGranted s.cur).modMe fun c =>
    let core := f c.core.dropWord
    let done := c.swait.any core.laneEnds
    { c with core := core, swait := if done then none else c.swait, swas := if done then c.swait else c.swas,
             phase := if done && c.phase == .waiting then .running else c.phase }

/-- The fault of a lane word of the current course. -/
def State.laneFault (s : State) (f : FaultInfo) : State :=
  s.takeTrap s.cur { f with scalar := false, pc := s.me.core.lanePc }

/-- Why a word does not go on: it waits, faults, or rolls the course back. -/
inductive Stop where
  | wait (w : Wait)
  | trap (f : FaultInfo)
  | xltf (f : FaultInfo)
  | moving (f : FaultInfo)
  | rferr (f : FaultInfo) (clean : Bool)
deriving DecidableEq, Repr

/-- The stop a failed use gives a word (R95, R108, R389, R392, R414). -/
def UseErr.stop (e : UseErr) (addr : Int) (mask : Mask) : Stop :=
  let a := (addr % 2 ^ 57).toNat
  match e with
  | .cap f => .trap { cause := f.cause, detail := f.detail, mask := mask, addr := a }
  | .page (.xltf r) => .xltf { cause := cXLTF, detail := r, mask := mask, addr := a }
  | .page .moving => .moving { cause := cXLTF, detail := 8, mask := mask, addr := a }
  | .page .linkf => .trap { cause := cLINKF, mask := mask }
  | .page .memerr => .trap { cause := cMEMERR, mask := mask, addr := a }

/-- What keeps bytes of a team's stash that a condition on slot and address picks from being written back: the first such byte's
address and error (R204). -/
def State.stashErr (s : State) (t : Nat) (p : Nat → Nat → Bool) : Option (Nat × XErr) :=
  let tm := s.team t
  let w : Who := { ctx := tm.ctx, team := some t }
  tm.stash.findSome? fun q => q.2.dirty.findSome? fun off =>
    let va := q.2.va + (off - q.2.scr)
    if !p q.1 va then none
    else match s.translate w va true with | .error x => some (va, x) | .ok _ => none

/-- What stops a course's word whose write-back has left such bytes of its team's stash: the wait for the end of a loan's move, or the
fault of a store to them (R108, R204, R392). -/
def State.stashStop (s : State) (i : Nat) (p : Nat → Nat → Bool) : Option Stop :=
  ((s.course i).team.bind fun t => s.stashErr t p).map fun e =>
    match e.2 with
    | .moving => .wait { kind := .writes, internal := false }
    | x => (UseErr.page x).stop e.1 0

/-- Stash bytes of a team wait for the end of a loan's move (R392). -/
def State.stashMoves (s : State) (t : Nat) : Bool :=
  let tm := s.team t
  tm.stash.any fun q => q.2.dirty.any fun off =>
    match s.translate { ctx := tm.ctx, team := some t } (q.2.va + (off - q.2.scr)) true with
    | .error .moving => true
    | .ok _ | .error _ => false

/-- The same for addresses alone. -/
def State.stashLeft (s : State) (i : Nat) (p : Nat → Bool) : Option Stop := s.stashStop i fun _ va => p va

/-- A store of the course that could not be sent to host memory has still to be reported (R414). -/
def Course.barredStore (c : Course) : Bool := c.remoteBad.any (·.cause == cMEMERR)

/-- What a release at a scope whose writes are under way (releasePrep) still waits for: acknowledgements of remote stores at system
scope, held bytes and stash bytes whose loan moves, writes held for the host's response, engine writes (R246, R392, R431); or the
fault of a remote write that was dropped or may not have been performed (R385), or of a stash byte whose page the write-back cannot
use (R95, R108, R204). -/
def State.releaseWait (s : State) (i scope : Nat) : Option Stop :=
  let sent := (s.course i).sent
  if scope == 4 && s.unacked i true then some (.wait { kind := .remote })
  else if scope == 4 && sent.any (·.outcome == .dropped) then some (.trap { cause := cLINKF })
  else if scope == 4 && sent.any (·.outcome == .indet) then some (.trap { cause := cINDET })
  else if s.moveHeld i then some (.wait { kind := .writes, internal := false })
  else if (s.course i).barredStore then some (.wait { kind := .writes })
  else if let some x := if scope < 2 then none else s.stashLeft i fun _ => true then some x
  else if !s.heldWrites.isEmpty || s.engineWrites i then some (.wait { kind := .writes })
  else none

/-- A release begins: its writes are under way, and what it still waits for (R246). -/
def State.releaseEnter (s : State) (i scope : Nat) : State × Option Stop :=
  let p := s.releasePrep i scope
  (p, p.releaseWait i scope)

/-- A scalar word of the current course stops; a rollback waits until an issued lane word has completed (R182, R380). -/
def State.scalarStop (s : State) (x : Stop) : State :=
  let roll := match x with | .xltf _ | .moving _ | .rferr _ _ => true | .wait _ | .trap _ => false
  if s.me.inFlight && roll then s.scalarWait { kind := .lanes } else
  let loc (f : FaultInfo) : FaultInfo := { f with scalar := true, pc := s.me.core.pc }
  match x with
  | .wait w => s.scalarWait w
  | .trap f => s.scalarTrap f
  | .xltf f => s.replayXltf s.cur (loc f)
  | .moving f => s.replayMove s.cur (loc f)
  | .rferr f clean => s.takeRferr s.cur (loc f) clean

/-- A lane word of the current course stops; one that waits behind the gate holds no charge (R344). -/
def State.stop (s : State) (x : Stop) : State :=
  let loc (f : FaultInfo) : FaultInfo := { f with scalar := false, pc := s.me.core.lanePc }
  match x with
  | .wait w => if w.kind == .gate then s.laneWait w else (s.creditGranted s.cur).laneWait w
  | .trap f => s.laneFault f
  | .xltf f => s.replayXltf s.cur (loc f)
  | .moving f => s.replayMove s.cur (loc f)
  | .rferr f clean => s.takeRferr s.cur (loc f) clean

/-- The outcome of every meaning. -/
abbrev Out := Host.Outcome State Fault Refusal

/-- A lane word passes the issue gate with its charges, or stops there (R344). A word the gate has already granted after a
stall goes on. -/
def State.gateStop (s : State) (chs : List Charge) (binds : Bool := false) : Option Stop :=
  let c := s.me
  if c.granted.isSome then none
  else match s.gate c.ctx c.place chs binds with
  | .pass => none
  | .stall => some (.wait { kind := .gate, charges := chs, binds := binds })
  | .vbnd => some (.trap { cause := cVBND })
  | .vbig => some (.trap { cause := cVBIG })

/-- A wait in which a course is Waiting (R27, R92): of a lane word on a monitor, a spool, a barrier, a ring, the return queue, a
tier event or a matrix context (R312), and of either stream for the host's service. A word in execution that still needs an answer,
a feed entry, an engine or the end of engine writes is none: R27 and R234 name no such wait. -/
def WaitKind.rests (k : WaitKind) : Bool :=
  match k with
  | .word | .barrier | .spool | .ring | .push | .join | .tbar | .lseq | .event | .service | .post | .move | .context => true
  | .lsync | .lanes | .returnQueue | .feed | .gate | .engine | .writes | .graft | .remote => false

/-- A wait of the scalar stream in which a course is Waiting: XWAIT, XRQ, LSYNC, and the host's service (R27). -/
def WaitKind.scalarRests (k : WaitKind) : Bool :=
  k == .word || k == .returnQueue || k == .lsync || k == .service || k == .post || k == .move

/-- What a stream waits for: its wait, and in a Waiting course one that has ended and whose word is still to be tested again
(R27, R223). -/
def Course.waits (c : Course) (wait was : Option Wait) : Option Wait :=
  wait.orElse fun _ => if c.phase == .waiting then was else none

/-- A course whose scalar stream waits in XWAIT, XRQ or LSYNC (or has ended) while every pending lane word waits (R27, R92). -/
def Course.allWait (c : Course) : Bool :=
  let sw := c.waits c.swait c.swas
  let lw := c.waits c.lwait c.lwas
  (c.core.ended || sw.any (·.kind.scalarRests)) && (c.core.pending == 0 || lw.any (·.kind.rests)) && (sw.isSome || lw.isSome)

/-- A course that has just issued or tried a word of a stream: Running, or Waiting (R27); a wait the word went on with is over. -/
def Course.settled (scalar : Bool) (c : Course) : Course :=
  let c : Course := if scalar then { c with swas := none } else { c with lwas := none }
  match c.phase with
  | .placed | .running | .waiting => { c with phase := if c.allWait then .waiting else .running }
  | .swapped | .vacated | .retired => c

/-- Another course at the end of a step: a Running one that waits is Waiting. One in another state stays as it is until it issues
a word or is woken (R27). -/
def Course.idled (c : Course) : Course :=
  match c.phase with
  | .running => { c with phase := if c.allWait then .waiting else .running }
  | .placed | .waiting | .swapped | .vacated | .retired => c

/-- A course settled after a word of a stream. -/
def State.settle (s : State) (i : Nat) (scalar : Bool) : State := s.modCourse i (Course.settled scalar)

end Sys2Proof.Machine
end

