-- ==== Sys2Proof/Machine/Operands.lean ====
section
/-! DEFINITION. Operands of lane words: the guard, the operand codes, queue pops and their marks, consumed poison, register
writes under LOOK windows, and the frame of every lane word (R44 to R47, R51 to R53, R86, R155, R156). -/

namespace Sys2Proof.Machine

/-! Guards and units. -/

/-- The guard of a word (R156). -/
def Core.guard (c : Core) (ng : Bool) : Mask := if ng then c.live else c.preds.headD 0 &&& c.live

/-- The temporal groups with an active thread, as a mask of pass-0 threads (R47). -/
def groupsOf (m : Mask) : Mask := (m ||| m >>> 64 ||| m >>> 128 ||| m >>> 192) &&& BitVec.ofNat 256 (2 ^ 64 - 1)

/-- Every thread of the groups of a mask of pass-0 threads. -/
def spread (g : Mask) : Mask := g ||| g <<< 64 ||| g <<< 128 ||| g <<< 192

/-- The threads whose source elements a word consumes: the active threads, or the pass-0 threads with U = 1 (R155). -/
def units (u : Bool) (m : Mask) : Mask := if u then groupsOf m else m

/-- The threads of a mask in ascending order. -/
def threadsOf (m : Mask) : List Nat := (List.range 256).filter fun t => m.getLsbD t

/-- The lowest thread of a mask. -/
def lowest (m : Mask) : Nat := ((List.range 256).find? fun t => m.getLsbD t).getD 0

/-! Vectors of per-thread words. -/

/-- The first n elements of a list, absent ones 0. -/
def padTo : Nat → List Word → List Word
  | 0, _ => []
  | n + 1, [] => 0 :: padTo n []
  | n + 1, v :: vs => v :: padTo n vs

/-- Elements t to t + n - 1 of a list changed where a mask has the thread: the bits bm of the new value replace those of
the old one. -/
def mergeVec (sel : Mask) (bm : Word) : Nat → Nat → List Word → List Word → List Word
  | 0, _, _, _ => []
  | n + 1, t, old, new =>
    (if sel.getLsbD t then (old.headD 0 &&& ~~~bm) ||| (new.headD 0 &&& bm) else old.headD 0)
      :: mergeVec sel bm n (t + 1) old.tail new.tail

/-- A v register as it stands. -/
def Core.vreg (c : Core) (n : Nat) : VReg := c.vregs.getD n {}

/-- A g register as it stands. -/
def Core.greg (c : Core) (n : Nat) : GReg := c.gregs.getD n {}

/-- What a word reads from a register code: while a LOOK window on it is open, the value it held as a result of every word before
the looking one, whatever the window's words have written (R53); otherwise the register as it stands. -/
def Core.regAt (c : Core) (code : BitVec 8) : VReg :=
  match c.looks.find? fun l => l.reg == code && !l.own with
  | some l => l.old
  | none =>
    if Legal.isG code then
      let g := c.greg (code.toNat - 0xD0)
      { vals := g.vals, rf := g.rf.setWidth 256 }
    else c.vreg code.toNat

/-- The per-thread values of a source code (R44, R45, R47, R50): rec is the release record, entry the popped queue entry. -/
def Core.source (c : Core) (rec : RelRec) (entry : List Word) (ty : Nat) (imm : BitVec 16) (code : BitVec 8) : List Word :=
  let n := code.toNat
  if n < 0xC0 then padTo 256 (c.regAt code).vals
  else if n < 0xD0 then padTo 256 entry
  else if n < 0xE0 then
    let g := padTo 64 (c.regAt code).vals
    g ++ g ++ g ++ g
  else if n < 0xF0 then List.replicate 256 (if n == 0xE0 then 0 else rec.xs.getD (n - 0xE0) 0)
  else if n == 0xF0 then List.replicate 256 (Num.expandImm ty imm)
  else if n == 0xF2 then (List.range 256).map fun t => BitVec.ofNat 32 t
  else if n == 0xF3 then (List.range 256).map fun t => BitVec.ofNat 32 (t % 64)
  else if n == 0xF4 then (List.range 256).map fun t => BitVec.ofNat 32 (t / 64)
  else if n == 0xF5 then (List.range 256).map fun t => BitVec.ofNat 32 (c.cli.getD t t)
  else List.replicate 256 0

/-! Register writes. -/

/-- A register record with the elements of a mask written: their poison is cleared (R155). -/
def VReg.write (r : VReg) (n : Nat) (sel : Mask) (bm : Word) (vals : List Word) : VReg :=
  { vals := mergeVec sel bm n 0 r.vals vals, rf := r.rf &&& ~~~sel, me := r.me &&& ~~~sel }

/-- A v register's record replaced. -/
def Core.setV (c : Core) (n : Nat) (r : VReg) : Core :=
  { c with vregs := (c.vregs ++ List.replicate (192 - c.vregs.length) ({} : VReg)).set n r }

/-- A g register's record replaced. -/
def Core.setG (c : Core) (n : Nat) (r : GReg) : Core :=
  { c with gregs := (c.gregs ++ List.replicate (16 - c.gregs.length) ({} : GReg)).set n r }

/-- The threads of a mask write bits bm of a v register. -/
def Core.writeV (c : Core) (code : BitVec 8) (sel : Mask) (vals : List Word) (bm : Word := BitVec.allOnes 32) : Core :=
  c.setV code.toNat ((c.vreg code.toNat).write 256 sel bm vals)

/-- The groups of a mask of pass-0 threads write a g register (R47). -/
def Core.writeG (c : Core) (code : BitVec 8) (sel : Mask) (vals : List Word) (bm : Word := BitVec.allOnes 32) : Core :=
  let g := c.greg (code.toNat - 0xD0)
  c.setG (code.toNat - 0xD0) { vals := mergeVec sel bm 64 0 g.vals vals, rf := g.rf &&& ~~~(sel.setWidth 64) }

/-- A destination written: with U = 1 a g register, or a v register of all four threads of each group (R47). Where only bits bm
are written, each thread keeps the other bits of its own element (R126, log 82). -/
def Core.writeD (c : Core) (u : Bool) (code : BitVec 8) (sel : Mask) (vals : List Word)
    (bm : Word := BitVec.allOnes 32) : Core :=
  if Legal.isG code then c.writeG code sel vals bm
  else if u then
    let v := padTo 64 vals
    c.writeV code (spread sel) (v ++ v ++ v ++ v) bm
  else c.writeV code sel vals bm

/-- The elements of a v register poisoned by a memory error (R200). -/
def Core.poisonV (c : Core) (code : BitVec 8) (m : Mask) : Core :=
  let r := c.vreg code.toNat
  c.setV code.toNat { r with me := r.me ||| m }

/-- A LOOK window opened on a register with its contents before the word, before its first try where it is tried again (R53). -/
def Core.openLook (c : Core) (before : Core) (look : Nat) (code : BitVec 8) : Core :=
  if look == 0 then c
  else
    let g := before.greg (code.toNat - 0xD0)
    let now : VReg := if Legal.isG code then { vals := g.vals, rf := g.rf.setWidth 256 } else before.vreg code.toNat
    let old := ((before.looks.find? fun l => l.reg == code && l.own).map (·.old)).getD now
    { c with looks := c.looks ++ [{ left := look, reg := code, old := old }] }

/-- A word's destination written, with its LOOK window opened (R53). -/
def Core.result (c before : Core) (look : Nat) (u : Bool) (code : BitVec 8) (sel : Mask) (vals : List Word)
    (bm : Word := BitVec.allOnes 32) : Core :=
  (c.writeD u code sel vals bm).openLook before look code

/-- The shadow key of a destination code (R183). -/
def keyOf (code : BitVec 8) : ShadowKey := if Legal.isG code then .g (code.toNat - 0xD0) else .v code.toNat

/-! Issue. -/

/-- A word at issue: the course, its release record, the popped entry, the threads that perform nothing because their
popped elements are marked, and the fault the word raises for them after the others have performed it (R86). -/
structure Env where
  me : Course
  rel : RelRec
  entry : List Word := []
  queue : Option Nat := none
  marked : Mask := 0
  after : Option FaultInfo := none
deriving DecidableEq, Repr

/-- The threads that perform a word with a given NG. -/
def Env.guard (e : Env) (ng : Bool) : Mask := e.me.core.guard ng &&& ~~~e.marked

/-- The values of a source. -/
def Env.src (e : Env) (ty : Nat) (imm : BitVec 16) (code : BitVec 8) : List Word :=
  e.me.core.source e.rel e.entry ty imm code

/-- The value of a source at one thread. -/
def Env.at (e : Env) (code : BitVec 8) (t : Nat) : Word := (e.src 0 0 code).getD t 0

/-- The captured capability of an index (R45). -/
def Env.cap (e : Env) (n : Nat) : Cap := e.rel.caps.getD n 0

/-- The captured x register of an x code, 0 for any other code (R45). -/
def Env.x (e : Env) (code : BitVec 8) : Word :=
  if Legal.isX code then (if code == 0xE0 then 0 else e.rel.xs.getD (code.toNat - 0xE0) 0) else 0

/-- The fault of the marks active threads popped, by R86's order; none without marks. -/
def QEntry.fault (q : QEntry) (active : Mask) : Option (Bool × FaultInfo) :=
  let all := active &&& (q.bounds ||| q.align ||| q.mem ||| q.link ||| q.xlt)
  let addr (m : Mask) : Nat := ((q.base + q.step * (lowest (active &&& m) : Nat)) % 2 ^ 57).toNat
  if all == 0 then none
  else if active &&& q.bounds != 0 then some (false, { cause := cCAPF, detail := 4, mask := all, addr := addr q.bounds })
  else if active &&& q.align != 0 then some (false, { cause := cALIGN, mask := all, addr := addr q.align })
  else if active &&& q.mem != 0 then some (false, { cause := cMEMERR, mask := all, addr := addr q.mem })
  else if active &&& q.link != 0 then some (false, { cause := cLINKF, mask := all })
  else
    some (true, { cause := cXLTF, detail := (q.reasons.lookup (lowest (active &&& q.xlt))).getD 1, mask := all,
                  addr := addr q.xlt })

/-- Poison of a register code among some threads: by a register-file error and by a memory error (R155). -/
def Core.poison (c : Core) (code : BitVec 8) (sel : Mask) : Mask × Mask :=
  if Legal.isG code then (((c.regAt code).rf ||| (c.regAt code).rf <<< 64 ||| (c.regAt code).rf <<< 128
    ||| (c.regAt code).rf <<< 192) &&& sel, 0)
  else if code.toNat < 0xC0 then ((c.regAt code).rf &&& sel, (c.regAt code).me &&& sel)
  else (0, 0)

/-- A consumed register-file error is clean: the register has a shadow copy whose element is not poisoned (R359). -/
def Course.cleanRf (c : Course) (code : BitVec 8) (sel : Mask) : Bool :=
  c.shadow.contains (keyOf code) && (c.ckpt.poison code sel).1 == 0

/-- The common start of a lane word (R46, R86, R155). qguard is the guard of the word or slot that names a queue; reads lists
the source codes with the threads that consume them, and grouped those that a word or slot with U = 1 reads, of which each group of
the threads consumes the pass-0 element (log 107). Where several faults hold at once the word takes the first of: QEMPTY, an XLTF of
the popped entry, RFERR, MEMERR of a consumed element, and last the faults of the popped entry's marks (DESIGN CHOICE, log 132). -/
def State.issue (s : State) (qguard : Mask) (reads : List (BitVec 8 × Mask)) (grouped : List (BitVec 8 × Mask) := []) :
    Except Stop Env :=
  let c := s.me
  let rec0 : RelRec := c.core.relq.headD { first := 0, count := 0, xs := [], caps := [] }
  let popped : Except Stop Env :=
    match (reads ++ grouped).find? fun r => Legal.isQ r.1 with
    | none => .ok { me := c, rel := rec0 }
    | some r =>
      let q := r.1.toNat - 0xC0
      match (c.core.queues.getD q []).head? with
      | none =>
        if (c.core.feeds.getD q {}).active.isSome then .error (.wait { kind := .feed })
        else .error (.trap { cause := cQEMPTY })
      | some entry =>
        match entry.fault qguard with
        | none => .ok { me := c, rel := rec0, entry := entry.vals, queue := some q }
        | some (true, f) =>
          if f.detail == 0 then .error (.moving { f with detail := 8 }) else .error (.xltf f)
        | some (false, f) => .ok { me := c, rel := rec0, entry := entry.vals, queue := some q, marked := f.mask, after := some f }
  match popped with
  | .error x => .error x
  | .ok e =>
    let ps := reads.map (fun r => (r.1, c.core.poison r.1 (r.2 &&& ~~~e.marked)))
      ++ grouped.map fun r => (r.1, c.core.poison r.1 (groupsOf (r.2 &&& ~~~e.marked)))
    let rf := ps.foldl (fun m p => m ||| p.2.1) 0
    let me := ps.foldl (fun m p => m ||| p.2.2) 0
    if rf != 0 then
      .error (.rferr { cause := cRFERR, mask := rf } (ps.all fun p => p.2.1 == 0 || c.cleanRf p.1 p.2.1))
    else if me != 0 then .error (.trap { cause := cMEMERR, mask := me })
    else .ok e

/-- The common end of a lane word: the first writes enter the shadow, the popped entry leaves its queue, the word's effect
is written and it completes; where popped marks or failed threads ask for it, it faults instead of completing (R86,
R105). -/
def State.finish (s : State) (e : Env) (keys : List ShadowKey) (fault : Option FaultInfo) (f : Core → Core) : State :=
  let s := if keys.isEmpty then s else s.shadowWrites s.cur keys
  let s := s.modCore fun c =>
    match e.queue with
    | none => c
    | some q => { c with queues := c.queues.modify q List.tail }
  match fault.orElse fun _ => e.after with
  | none => s.laneDone f
  | some x => (s.modCore fun c => c.tried f).laneFault x

/-! The frame of an arithmetic word (R136). -/

/-- B with the broadcast of SEL and EHI applied (R137). -/
def bcast (w : Single) (b : Word) : Word :=
  if w.sel.toNat < 8 then b
  else Num.splat w.ty.toNat b (w.sel.toNat - 8 + (if w.mod.getLsbD 15 then 8 else 0))

/-- The old destination and the three sources of each unit passed to an operation, for the units of a mask: results and
flags. -/
def mapUnits (sel : Mask) (f : Word → Word → Word → Word → Word × Num.Flags) :
    Nat → List Word → List Word → List Word → List Word → List Word × Num.Flags
  | _, _, [], _, _ => ([], 0)
  | t, ds, a :: as, bs, cs =>
    let r := mapUnits sel f (t + 1) ds.tail as bs.tail cs.tail
    if sel.getLsbD t then
      let x := f (ds.headD 0) a (bs.headD 0) (cs.headD 0)
      (x.1 :: r.1, x.2 ||| r.2)
    else (0 :: r.1, r.2)

/-- The sources of a word: for A, B and C whether it is read and in what type an immediate is expanded; whether D is read
too. -/
structure Sources where
  a : Option Nat := none
  b : Option Nat := none
  c : Option Nat := none
  d : Bool := false
deriving DecidableEq, Repr

/-- The first n sources in the word's own type: an immediate is expanded in it in every position, C of IDP4 and FDP2 among them
(R44, R50, log 83). -/
def sources (w : Single) (n : Nat) : Sources :=
  let ty := w.ty.toNat
  { a := if 0 < n then some ty else none, b := if 1 < n then some ty else none, c := if 2 < n then some ty else none }

/-- One per-thread word of the integer, float, special-function or conversion class (R136): f gives each unit's result and
flags from the old D and A, B, C; bits bm of D are written; look says whether LOOK applies. -/
def State.mapWord (s : State) (w : Single) (r : Sources) (f : Word → Word → Word → Word → Word × Num.Flags)
    (look : Bool := false) (bm : Word := BitVec.allOnes 32) : State :=
  let g := s.me.core.guard w.ng
  let codes := (if r.a.isSome then [w.a] else []) ++ (if r.b.isSome then [w.b] else []) ++ (if r.c.isSome then [w.c] else [])
    ++ (if r.d then [w.d] else [])
  let reads := codes.map fun x => (x, g)
  match s.issue g (if w.u then [] else reads) (if w.u then reads else []) with
  | .error x => s.stop x
  | .ok e =>
    let sel := units w.u (e.guard w.ng)
    let n := if w.u then 64 else 256
    let v (code : BitVec 8) (ty : Option Nat) : List Word :=
      match ty with | some ty => (e.src ty w.imm code).take n | none => []
    let va := if r.a.isSome then v w.a r.a else List.replicate n 0
    let out := mapUnits sel f 0 (if r.d then v w.d (some 0) else []) va (v w.b r.b) (v w.c r.c)
    s.finish e [keyOf w.d] none fun c =>
      let c := c.result e.me.core (if look then w.look.toNat else 0) w.u w.d sel out.1 bm
      { c with fpflags := c.fpflags ||| out.2 }

/-- One word of the integer, float or special-function class with n sources, B broadcast by SEL (R136, R137). -/
def State.arith (s : State) (w : Single) (n : Nat) (f : Word → Word → Word → Word × Num.Flags)
    (look : Bool := false) : State :=
  s.mapWord w (sources w n) (fun _ a b c => f a (bcast w b) c) look

/-- One slot of a pair word on sources already read: the core with its result written (R56). -/
def Core.slotWrite (c : Core) (e : Env) (w : Slot) (ty : Nat) (f : Word → Word → Word → Word × Num.Flags) : Core :=
  let sel := units w.u (e.guard w.ng)
  let n := if w.u then 64 else 256
  let v (code : BitVec 8) := (e.src ty 0 code).take n
  let r := mapUnits sel (fun _ => f) 0 [] (v w.a) (v w.b) (v w.c)
  let c := c.writeD w.u w.d sel r.1
  { c with fpflags := c.fpflags ||| r.2 }

end Sys2Proof.Machine
end

