-- ==== Sys2Proof/Machine/Sfu.lean ====
section
/-! DEFINITION. The special-function unit: each function from its exact value (R151, R152), computed in fixed point with
640 fraction bits and a sticky bit. -/

namespace Sys2Proof.Sfu
open Sys2Proof.Num

/-- Fraction bits of the fixed-point work. -/
def K : Nat := 640

/-- π in units of 2^-640, rounded down. -/
def piFix : Nat := 0x3243f6a8885a308d313198a2e03707344a4093822299f31d0082efa98ec4e6c89452821e638d01377be5466cf34e90c6cc0ac29b7c97c50dd3f84d5b5b54709179216d5d98979fb1bd1310ba698dfb5ac

/-- ln 2 in units of 2^-640, rounded down. -/
def ln2Fix : Nat := 0xb17217f7d1cf79abc9e3b39803f2f6af40f343267298b62d8a0d175b8baafa2be7b876206debac98559552fb4afa1b10ed2eae35c138214427573b291169b8253e96ca16224ae8c51acbda11317c387e

/-- Bit-by-bit square root: the largest r with r*r ≤ n, r built from bit k - 1 down. -/
def isqrtGo (n : Nat) : Nat → Nat → Nat
  | 0, r => r
  | k + 1, r => let r' := r + 2 ^ k; isqrtGo n k (if r' * r' ≤ n then r' else r)

/-- The integer square root. -/
def isqrt (n : Nat) : Nat := isqrtGo n (Nat.log2 n / 2 + 1) 0

/-- Σ y^k/k! from term k on, in fixed point. -/
def expGo (y : Nat) : Nat → Nat → Nat → Nat → Nat
  | 0, _, _, acc => acc
  | fuel + 1, k, t, acc => if t == 0 then acc else expGo y fuel (k + 1) (t * y / 2 ^ K / (k + 1)) (acc + t)

/-- e^y for 0 ≤ y < 1 in units of 2^-640. -/
def expFix (y : Nat) : Nat := expGo y 200 0 (2 ^ K) 0

/-- The alternating series of sine from term t with index k. -/
def sinGo (y2 : Nat) : Nat → Nat → Nat → Int → Int
  | 0, _, _, acc => acc
  | fuel + 1, k, t, acc =>
    if t == 0 then acc
    else sinGo y2 fuel (k + 2) (t * y2 / 2 ^ K / ((k + 1) * (k + 2))) (if k % 4 == 1 then acc + t else acc - t)

/-- sin y for 0 < y ≤ π/2 in units of 2^-640. -/
def sinFix (y : Nat) : Nat := (sinGo (y * y / 2 ^ K) 120 1 y 0).toNat

/-- The series of atanh from term t with odd index k. -/
def atanhGo (z2 : Nat) : Nat → Nat → Nat → Nat → Nat
  | 0, _, _, acc => acc
  | fuel + 1, k, t, acc => if t == 0 then acc else atanhGo z2 fuel (k + 2) (t * z2 / 2 ^ K) (acc + t / k)

/-- log2 f for a fraction num/den from 1 to 2, in units of 2^-640. -/
def log2Fix (num den : Nat) : Nat :=
  let z := (num - den) * 2 ^ K / (num + den)
  2 * atanhGo (z * z / 2 ^ K) 300 1 z 0 * 2 ^ K / ln2Fix

/-- An irrational result with magnitude bounds m and m + 1 in units of 2^-640, toward zero. -/
def inexact (ty : Nat) (neg : Bool) (m : Nat) : Res := roundSticky ty .rz false neg m (-(K : Int))

/-- The overflow of a function rounded toward zero (R151). -/
def overRes (ty : Nat) (sat neg : Bool) : Res := ⟨(if sat then maxPat ty + signBit ty neg else infPat ty neg), OF ||| NX⟩

/-- A NaN input (R152). -/
def nanIn (ty : Nat) (s : Bool) : Res := ⟨canonNaN ty, if s then NV else 0⟩

/-- An invalid operand (R152). -/
def invalid (ty : Nat) : Res := ⟨canonNaN ty, NV⟩

/-- The value one with a sign. -/
def one (ty : Nat) (neg : Bool) : Res := roundTo ty .rz false neg 1 0

/-- RCP (R151, R152). -/
def rcp (ty : Nat) (rm : Rm) (sat : Bool) (a : Nat) : Res :=
  match fval ty a with
  | .nan s => nanIn ty s
  | .inf neg => ⟨zeroPat ty neg, 0⟩
  | .fin neg m e =>
    if m == 0 then ⟨infPat ty neg, DZ⟩
    else
      let k := Nat.log2 m + 64
      let q := 2 ^ k / m
      let e' : Int := -(k : Int) - e
      if 2 ^ k % m == 0 then roundTo ty rm sat neg q e' else roundSticky ty rm sat neg q e'

/-- The finite operand with an even exponent, widened by 2j bits. -/
def evenExp (m : Nat) (e : Int) : Nat × Int := if e % 2 == 0 then (m, e) else (2 * m, e - 1)

/-- SQRT (R151, R152). -/
def sqrt (ty : Nat) (rm : Rm) (a : Nat) : Res :=
  match fval ty a with
  | .nan s => nanIn ty s
  | .inf neg => if neg then invalid ty else ⟨infPat ty false, 0⟩
  | .fin neg m e =>
    if m == 0 then ⟨zeroPat ty neg, 0⟩
    else if neg then invalid ty
    else
      let (m', e') := evenExp m e
      let n := m' * 2 ^ 128
      let r := isqrt n
      let ex := e' / 2 - 64
      if r * r == n then roundTo ty rm false false r ex else roundSticky ty rm false false r ex

/-- RSQ (R151, R152). -/
def rsq (ty : Nat) (sat : Bool) (a : Nat) : Res :=
  match fval ty a with
  | .nan s => nanIn ty s
  | .inf neg => if neg then invalid ty else ⟨zeroPat ty false, 0⟩
  | .fin neg m e =>
    if m == 0 then ⟨infPat ty neg, DZ⟩
    else if neg then invalid ty
    else
      let (m', e') := evenExp m e
      let r := isqrt (2 ^ 256 / m')
      let ex : Int := -128 - e' / 2
      let res := if r * r * m' == 2 ^ 256 then roundTo ty .rz false false r ex else roundSticky ty .rz false false r ex
      if res.fl &&& OF != 0 then overRes ty sat false else res

/-- EXP2 (R151, R152). -/
def exp2 (ty : Nat) (sat : Bool) (a : Nat) : Res :=
  match fval ty a with
  | .nan s => nanIn ty s
  | .inf neg => if neg then ⟨zeroPat ty false, 0⟩ else ⟨infPat ty false, 0⟩
  | .fin neg m e =>
    if m == 0 then one ty false
    else
      let big : Bool := 12 ≤ (Nat.log2 m : Int) + e
      if big then (if neg then ⟨0, UF ||| NX⟩ else overRes ty sat false)
      else
        let den := 2 ^ (-e).toNat
        let num := m * 2 ^ e.toNat
        let n : Int := if neg then -(((num + den - 1) / den : Nat) : Int) else ((num / den : Nat) : Int)
        let f : Int := (if neg then -(num : Int) else num) - n * den
        let r := if f == 0 then roundTo ty .rz false false 1 n
          else roundSticky ty .rz false false (expFix (f.toNat * ln2Fix / den)) (n - K)
        if r.fl &&& OF != 0 then overRes ty sat false else r

/-- LOG2 (R151, R152). -/
def log2 (ty : Nat) (a : Nat) : Res :=
  match fval ty a with
  | .nan s => nanIn ty s
  | .inf neg => if neg then invalid ty else ⟨infPat ty false, 0⟩
  | .fin neg m e =>
    if m == 0 then ⟨infPat ty true, DZ⟩
    else if neg then invalid ty
    else
      let L := Nat.log2 m
      let n : Int := e + L
      if m == 2 ^ L then roundTo ty .rz false (n < 0) n.natAbs 0
      else
        let l := log2Fix m (2 ^ L)
        if 0 ≤ n then inexact ty false (n.toNat * 2 ^ K + l) else inexact ty true (n.natAbs * 2 ^ K - l - 1)

/-- sin(π num/den) for 0 < num/den ≤ 1/2, with a sign. -/
def sinPi (ty : Nat) (neg : Bool) (num den : Nat) : Res :=
  if 2 * num == den then one ty neg else inexact ty neg (sinFix (num * piFix / den))

/-- SINP (R151, R152). -/
def sinp (ty : Nat) (a : Nat) : Res :=
  match fval ty a with
  | .nan s => nanIn ty s
  | .inf _ => invalid ty
  | .fin neg m e =>
    if m == 0 || 0 ≤ e then ⟨zeroPat ty neg, 0⟩
    else
      let den := 2 ^ (-e).toNat
      let r := m % (2 * den)
      let r1 := r % den
      let s := neg != (den ≤ r : Bool)
      if r1 == 0 then ⟨zeroPat ty neg, 0⟩
      else sinPi ty s (if 2 * r1 ≤ den then r1 else den - r1) den

/-- COSP (R151, R152). -/
def cosp (ty : Nat) (a : Nat) : Res :=
  match fval ty a with
  | .nan s => nanIn ty s
  | .inf _ => invalid ty
  | .fin _ m e =>
    if m == 0 then one ty false
    else
      let den := 2 * 2 ^ (-e).toNat
      let r := 2 * (m * 2 ^ e.toNat) % (2 * den)
      let r1 := if den < r then 2 * den - r else r
      if r1 == 0 then one ty false
      else if r1 == den then one ty true
      else if 2 * r1 == den then ⟨zeroPat ty false, 0⟩
      else if 2 * r1 < den then sinPi ty false (den / 2 - r1) den
      else sinPi ty true (r1 - den / 2) den

/-- e^(y/256) squared eight times: e^y for 0 ≤ y < 256. -/
def sqPow : Nat → Nat → Nat
  | 0, x => x
  | k + 1, x => sqPow k (x * x / 2 ^ K)

/-- TANH (R151, R152). -/
def tanh (ty : Nat) (a : Nat) : Res :=
  match fval ty a with
  | .nan s => nanIn ty s
  | .inf neg => one ty neg
  | .fin neg m e =>
    if m == 0 then ⟨zeroPat ty neg, 0⟩
    else if 7 ≤ (Nat.log2 m : Int) + e then inexact ty neg (2 ^ K - 1)
    else
      let y := if e < 0 then 2 * m * 2 ^ K / 2 ^ (-e).toNat else 2 * m * 2 ^ e.toNat * 2 ^ K
      let E := sqPow 8 (expFix (y / 256))
      let r := (E - 2 ^ K) * 2 ^ K / (E + 2 ^ K)
      let exact := if e < 0 then m * 2 ^ K / 2 ^ (-e).toNat else m * 2 ^ e.toNat * 2 ^ K
      inexact ty neg (if exact ≤ r then exact - 1 else r)

end Sys2Proof.Sfu
end

