-- ==== Sys2Proof/Machine/LaneFloat.lean ====
section
/-! DEFINITION. The lane float and special-function classes (R145 to R152). -/

namespace Sys2Proof.Machine

open Sys2Proof.Num

/-- An element operation applied to every element of TYPE, flags collected. -/
def elementwise (ty : Nat) (f : Nat → Nat → Nat → Res) : Word → Word → Word → Word × Flags := fun a b c =>
  packRes (Legal.width ty) ((List.range (Legal.count ty)).map fun i =>
    f (elem (Legal.width ty) a i) (elem (Legal.width ty) b i) (elem (Legal.width ty) c i))

/-- FADD. -/
def opFadd (ty : Nat) (rnd : BitVec 2) (sat : Bool) : Word → Word → Word → Word × Flags :=
  elementwise ty fun a b _ => Num.fadd ty (rmOf rnd) sat a b

/-- FSUB. -/
def opFsub (ty : Nat) (rnd : BitVec 2) (sat : Bool) : Word → Word → Word → Word × Flags :=
  elementwise ty fun a b _ => Num.fsub ty (rmOf rnd) sat a b

/-- FMUL. -/
def opFmul (ty : Nat) (rnd : BitVec 2) (sat : Bool) : Word → Word → Word → Word × Flags :=
  elementwise ty fun a b _ => Num.fmul ty (rmOf rnd) sat a b

/-- FMA: neg holds NEG[0] for the product and NEG[1] for c (R145). -/
def opFma (ty : Nat) (rnd : BitVec 2) (sat : Bool) (neg : BitVec 2) : Word → Word → Word → Word × Flags :=
  elementwise ty fun a b c => Num.fma ty (rmOf rnd) sat (neg.getLsbD 0) (neg.getLsbD 1) a b c

/-- FMIN and FMAX. -/
def opFminmax (ty : Nat) (isMax nan : Bool) : Word → Word → Word → Word × Flags :=
  elementwise ty fun a b _ => Num.fminmax ty isMax nan a b

/-- FABS. -/
def opFabs (ty : Nat) : Word → Word → Word → Word × Flags := elementwise ty fun a _ _ => Num.fabs ty a

/-- FNEG. -/
def opFneg (ty : Nat) : Word → Word → Word → Word × Flags := elementwise ty fun a _ _ => Num.fneg ty a

/-- FADD. -/
def execFadd (w : Single) (s : State) : Out := .next (s.arith w 2 (opFadd w.ty.toNat w.rnd w.sat))

/-- FSUB. -/
def execFsub (w : Single) (s : State) : Out := .next (s.arith w 2 (opFsub w.ty.toNat w.rnd w.sat))

/-- FMUL. -/
def execFmul (w : Single) (s : State) : Out := .next (s.arith w 2 (opFmul w.ty.toNat w.rnd w.sat))

/-- FMA. -/
def execFma (w : Single) (s : State) : Out := .next (s.arith w 3 (opFma w.ty.toNat w.rnd w.sat (w.mod.setWidth 2)))

/-- FMIN. -/
def execFmin (w : Single) (s : State) : Out := .next (s.arith w 2 (opFminmax w.ty.toNat false (w.mod.getLsbD 0)))

/-- FMAX. -/
def execFmax (w : Single) (s : State) : Out := .next (s.arith w 2 (opFminmax w.ty.toNat true (w.mod.getLsbD 0)))

/-- FABS. -/
def execFabs (w : Single) (s : State) : Out := .next (s.arith w 1 (opFabs w.ty.toNat))

/-- FNEG. -/
def execFneg (w : Single) (s : State) : Out := .next (s.arith w 1 (opFneg w.ty.toNat))

/-- FCPYS. -/
def execFcpys (w : Single) (s : State) : Out :=
  .next (s.arith w 2 (elementwise w.ty.toNat fun a b _ => Num.fcpys w.ty.toNat a b))

/-- FRND: QUIET is MOD[0]. -/
def execFrnd (w : Single) (s : State) : Out :=
  .next (s.arith w 1 (elementwise w.ty.toNat fun a _ _ => Num.frnd w.ty.toNat (rmOf w.rnd) (w.mod.getLsbD 0) a))

/-- FCLASS. -/
def execFclass (w : Single) (s : State) : Out :=
  .next (s.arith w 1 (elementwise w.ty.toNat fun a _ _ => Num.fclass w.ty.toNat a))

/-- FDP2. -/
def execFdp2 (w : Single) (s : State) : Out :=
  .next (s.arith w 3 fun a b c => Num.fdp2 w.ty.toNat (rmOf w.rnd) w.sat a b c)

/-- RCP. -/
def execRcp (w : Single) (s : State) : Out :=
  .next (s.arith w 1 (elementwise w.ty.toNat fun a _ _ => Sfu.rcp w.ty.toNat (rmOf w.rnd) w.sat a) true)

/-- RSQ. -/
def execRsq (w : Single) (s : State) : Out :=
  .next (s.arith w 1 (elementwise w.ty.toNat fun a _ _ => Sfu.rsq w.ty.toNat w.sat a) true)

/-- SQRT. -/
def execSqrt (w : Single) (s : State) : Out :=
  .next (s.arith w 1 (elementwise w.ty.toNat fun a _ _ => Sfu.sqrt w.ty.toNat (rmOf w.rnd) a) true)

/-- EXP2. -/
def execExp2 (w : Single) (s : State) : Out :=
  .next (s.arith w 1 (elementwise w.ty.toNat fun a _ _ => Sfu.exp2 w.ty.toNat w.sat a) true)

/-- LOG2. -/
def execLog2 (w : Single) (s : State) : Out :=
  .next (s.arith w 1 (elementwise w.ty.toNat fun a _ _ => Sfu.log2 w.ty.toNat a) true)

/-- SINP. -/
def execSinp (w : Single) (s : State) : Out :=
  .next (s.arith w 1 (elementwise w.ty.toNat fun a _ _ => Sfu.sinp w.ty.toNat a) true)

/-- COSP. -/
def execCosp (w : Single) (s : State) : Out :=
  .next (s.arith w 1 (elementwise w.ty.toNat fun a _ _ => Sfu.cosp w.ty.toNat a) true)

/-- TANH. -/
def execTanh (w : Single) (s : State) : Out :=
  .next (s.arith w 1 (elementwise w.ty.toNat fun a _ _ => Sfu.tanh w.ty.toNat a) true)

end Sys2Proof.Machine
end

