-- ==== Sys2Proof/Machine/LanePred.lean ====
section
/-! DEFINITION. Predicates, votes and permutes (R156 to R172). -/

namespace Sys2Proof.Machine

/-! The predicate stack (R158 to R162). -/

/-- The active threads of a mask whose A and B meet a condition, with the flags of the comparison (R158). -/
def compareUnits (sel : Mask) (ty cnd : Nat) (a b : List Word) : Mask × Num.Flags :=
  let r := mapUnits sel (fun _ x y _ => ((if (cond ty cnd x y).1 then 1 else 0), (cond ty cnd x y).2)) 0 [] a b []
  (BitVec.ofNat 256 (r.1.foldr (fun v acc => v.toNat + 2 * acc) 0), r.2)

/-- PUSH. -/
def execPush (w : Single) (s : State) : Out :=
  let k := s.me.core
  let g := k.guard w.ng
  .next (if 16 ≤ k.preds.length then s.stop (.trap { cause := cPSOV })
    else match s.issue g [(w.a, g), (w.b, g)] with
    | .error x => s.stop x
    | .ok e =>
      let ty := w.ty.toNat
      let r := compareUnits (e.guard w.ng) ty (w.mod.toNat % 16) (e.src ty w.imm w.a) (e.src ty w.imm w.b)
      s.finish e [] none fun c => { c with preds := r.1 :: c.preds, fpflags := c.fpflags ||| r.2 })

/-- The mask held in eight captured x registers from an x code on (R159). -/
def maskOfX (rel : RelRec) (code : BitVec 8) : Mask :=
  BitVec.ofNat 256 ((List.range 8).foldr (fun i acc =>
    (if code.toNat - 0xE0 + i == 0 then 0 else (rel.xs.getD (code.toNat - 0xE0 + i) 0).toNat) + 2 ^ 32 * acc) 0)

/-- PUSHV. -/
def execPushv (w : Single) (s : State) : Out :=
  let k := s.me.core
  .next (if 16 ≤ k.preds.length then s.stop (.trap { cause := cPSOV })
    else match s.issue 0 [] with
    | .error x => s.stop x
    | .ok e =>
      s.finish e [] none fun c => { c with preds := (e.guard w.ng &&& maskOfX e.rel w.a) :: c.preds })

/-- A word with no operands whose effect is a change of the course's core. -/
def State.laneSimple (s : State) (f : Core → Core) : State :=
  match s.issue 0 [] with
  | .error x => s.stop x
  | .ok e => s.finish e [] none f

/-- PINV. -/
def execPinv (_w : Single) (s : State) : Out :=
  .next (match s.me.core.preds with
    | top :: below :: rest =>
      s.laneSimple fun c => { c with preds := (below &&& ~~~top &&& c.live) :: below :: rest }
    | _ => s.stop (.trap { cause := cPSUN }))

/-- POP. -/
def execPop (_w : Single) (s : State) : Out :=
  .next (match s.me.core.preds with
    | _ :: below :: rest => s.laneSimple fun c => { c with preds := below :: rest }
    | _ => s.stop (.trap { cause := cPSUN }))

/-- The word PSAV writes for a thread (R161): entry j, from the base, in bit j; the depth above. -/
def stackWord (preds : List Mask) (t : Nat) : Word :=
  BitVec.ofNat 32 (preds.reverse.foldr (fun m acc => flagNat (m.getLsbD t) + 2 * acc) 0 + 2 ^ 16 * preds.length)

/-- PSAV: every thread slot is written, whatever the guard. -/
def execPsav (w : Single) (s : State) : Out :=
  .next (match s.issue 0 [] with
    | .error x => s.stop x
    | .ok e =>
      let vals := (List.range 256).map (stackWord e.me.core.preds)
      s.finish e [keyOf w.d] none fun c => c.writeV w.d (BitVec.allOnes 256) vals)

/-- PRST. -/
def execPrst (w : Single) (s : State) : Out :=
  .next (match s.issue (s.me.core.guard w.ng) [(w.a, BitVec.allOnes 256)] with
    | .error x => s.stop x
    | .ok e =>
      let a := e.src 0 0 w.a
      let n := (a.headD 0).toNat / 2 ^ 16 % 32
      if n == 0 then s.stop (.trap { cause := cPSUN })
      else if 16 < n then s.stop (.trap { cause := cPSOV })
      else
        let entry (j : Nat) : Mask := BitVec.ofNat 256 (a.foldr (fun v acc => flagNat (v.getLsbD j) + 2 * acc) 0)
        s.finish e [] none fun c => { c with preds := ((List.range n).map fun j => entry j &&& c.live).reverse })

/-- Threads end: their bits leave the live mask and every stack entry (R162). -/
def Core.endThreads (c : Core) (m : Mask) : Core :=
  { c with live := c.live &&& ~~~m, preds := c.preds.map fun p => p &&& ~~~m }

/-- EXIT. -/
def execExit (w : Single) (s : State) : Out :=
  let g := s.me.core.guard w.ng
  .next (s.laneSimple fun c => c.endThreads g)

/-- NOPL. -/
def execNopl (_w : Single) (s : State) : Out := .next (s.laneSimple id)

/-! The return queue (R82, R164, R165). -/

/-- A word that pushes entries completes: it waits while the queue has no room; after SEXIT its entries are discarded
instead (R82). -/
def State.pushRet (s : State) (e : Env) (entries : List Word) (f : Core → Core) : State :=
  let k := s.me.core
  if k.retq.length + entries.length ≤ 32 then s.finish e [] none fun c => { f c with retq := (f c).retq ++ entries }
  else if k.ended then s.finish e [] none f
  else s.stop (.wait { kind := .push })

/-- The entries of a ballot (R164). -/
def ballot (c : Core) (active votes : Mask) : List Word :=
  let ids := ((threadsOf active).filter fun t => votes.getLsbD t).map fun t => c.cli.getD t t
  (List.range 8).map fun k => BitVec.ofNat 32 ((List.range 32).foldr (fun i acc => flagNat (ids.contains (32 * k + i)) + 2 * acc) 0)

/-- VOTE. -/
def execVote (w : Single) (s : State) : Out :=
  let g := s.me.core.guard w.ng
  .next (match s.issue g [(w.a, g), (w.b, g)] with
    | .error x => s.stop x
    | .ok e =>
      let ty := w.ty.toNat
      let act := e.guard w.ng
      let r := compareUnits act ty (w.mod.toNat % 16) (e.src ty w.imm w.a) (e.src ty w.imm w.b)
      let entries := match w.mod.toNat / 16 % 4 with
        | 0 => ballot e.me.core act r.1
        | 1 => [if r.1 != 0 then 1 else 0]
        | 2 => [if r.1 == act then 1 else 0]
        | _ => [BitVec.ofNat 32 (threadsOf r.1).length]
      s.pushRet e entries fun c => { c with fpflags := c.fpflags ||| r.2 })

/-- The value RQP pushes (R165). -/
def rqValue (red : Nat) (vals : List Word) : Word :=
  match red with
  | 0 => vals.headD 0
  | 1 => vals.foldl (fun m v => if m.toNat < v.toNat then v else m) 0
  | 2 => vals.foldl (fun m v => if v.toNat < m.toNat then v else m) 0xFFFFFFFF
  | _ => vals.foldl (· + ·) 0

/-- RQP. -/
def execRqp (w : Single) (s : State) : Out :=
  let g := s.me.core.guard w.ng
  .next (match s.issue g [(w.d, g)] with
    | .error x => s.stop x
    | .ok e =>
      let d := e.src 0 0 w.d
      s.pushRet e [rqValue (w.mod.toNat % 4) ((threadsOf (e.guard w.ng)).map fun t => d.getD t 0)] id)

/-! Permutes (R167 to R170). -/

/-- What each active thread of a mask receives: the source thread's value where that is active, else its own fill (R167). -/
def permute (act : Mask) (from' : Nat → Option Nat) (a c : List Word) : List Word :=
  (List.range 256).map fun t =>
    if !act.getLsbD t then 0
    else match from' t with
      | some i => if act.getLsbD i then a.getD i 0 else c.getD t 0
      | none => c.getD t 0

/-- The threads that take the fill, and the threads that supply a value (R187). -/
def permuteReads (act : Mask) (from' : Nat → Option Nat) : Mask × Mask :=
  let ts := threadsOf act
  let given := ts.filterMap fun t => (from' t).bind fun i => if act.getLsbD i then some (t, i) else none
  (maskOf 256 fun t => act.getLsbD t && !given.any (·.1 == t), maskOf 256 fun i => given.any (·.2 == i))

/-- The entry the word pops, of the queue that one of some source codes names. -/
def Core.nextEntry (c : Core) (codes : List (BitVec 8)) : Option QEntry :=
  (codes.find? Legal.isQ).bind fun q => (c.queues.getD (q.toNat - 0xC0) []).head?

/-- A permute word. extra lists a further source, read by every active thread. Which elements of A and C are consumed follows from
the values the word pops and the threads that perform it (R86, R187). -/
def State.permuteWord (s : State) (w : Single) (extra : List (BitVec 8)) (from' : Env → Nat → Option Nat) : State :=
  let g := s.me.core.guard w.ng
  let entry := s.me.core.nextEntry (w.a :: w.c :: extra)
  let marked : Mask := match entry.bind (·.fault g) with | some (_, f) => f.mask | none => 0
  let probe : Env := { me := s.me, rel := s.me.core.relq.headD { first := 0, count := 0, xs := [], caps := [] },
                       entry := (entry.map (·.vals)).getD [] }
  let rd := permuteReads (g &&& ~~~marked) (from' probe)
  match s.issue g ([(w.a, rd.2), (w.c, rd.1)] ++ extra.map fun c => (c, g)) with
  | .error x => s.stop x
  | .ok e =>
    let act := e.guard w.ng
    let vals := permute act (from' e) (e.src 0 0 w.a) (e.src 0 0 w.c)
    s.finish e [keyOf w.d] none fun c => c.writeV w.d act vals

/-- The lane a SHFL pattern names, of 64 (R168). -/
def shflLane (pat j l : Nat) : Int :=
  let w : Nat := 64 / 2 ^ j
  match pat with
  | 0 => (l : Int) - 1
  | 1 => (l : Int) + 1
  | 2 => (l : Int) - 2
  | 3 => (l : Int) + 2
  | 4 => (l : Int) - w
  | 5 => (l : Int) + w
  | _ => (l ^^^ w : Nat)

/-- Thread t's source in its pass for an exact lane number; none outside the pass. -/
def passSource (t : Nat) (lane : Int) : Option Nat :=
  if 0 ≤ lane ∧ lane < 64 then some (t / 64 * 64 + lane.toNat) else none

/-- SHFL. -/
def execShfl (w : Single) (s : State) : Out :=
  .next (s.permuteWord w [] fun _ t =>
    passSource t (shflLane (w.mod.toNat % 16) (w.mod.toNat / 16 % 8) (t % 64)))

/-- SHFLI. -/
def execShfli (w : Single) (s : State) : Out :=
  .next (s.permuteWord w [w.b] fun e t => passSource t ((e.at w.b t).toInt + w.imm.toInt))

/-- DSWP. -/
def execDswp (w : Single) (s : State) : Out :=
  let k := w.imm.toNat % 4
  .next (s.permuteWord w [] fun _ t =>
    let p := t / 64
    let q := match w.mod.toNat % 4 with | 0 => p ^^^ k | 1 => (p + k) % 4 | _ => k
    if q < 4 then some (t % 64 + 64 * q) else none)

/-! Reductions and scans (R171, R172). -/

/-- The combination OP selects (R171). -/
def combine (ty op : Nat) (rm : Num.Rm) (nan : Bool) (x y : Word) : Word × Num.Flags :=
  let res (r : Num.Res) : Word × Num.Flags := (BitVec.ofNat 32 r.bits, r.fl)
  match op with
  | 0 => if ty == 2 then res (Num.fadd 2 rm false x.toNat y.toNat) else (x + y, 0)
  | 1 =>
    if ty == 2 then res (Num.fminmax 2 false nan x.toNat y.toNat)
    else (if (if ty == 0 then x.sle y else x.ule y) then x else y, 0)
  | 2 =>
    if ty == 2 then res (Num.fminmax 2 true nan x.toNat y.toNat)
    else (if (if ty == 0 then x.sle y else x.ule y) then y else x, 0)
  | 3 => (x &&& y, 0)
  | 4 => (x ||| y, 0)
  | _ => (x ^^^ y, 0)

/-- The combination where a lane may hold no value. -/
def combineOpt (f : Word → Word → Word × Num.Flags) (x y : Option (Word × Num.Flags)) : Option (Word × Num.Flags) :=
  match x, y with
  | none, v => v
  | v, none => v
  | some a, some b => some ((f a.1 b.1).1, a.2 ||| b.2 ||| (f a.1 b.1).2)

/-- The fixed tree of REDL: each round folds the upper half of the values onto the lower half. -/
def redTree (f : Word → Word → Word × Num.Flags) : Nat → List (Option (Word × Num.Flags)) → Option (Word × Num.Flags)
  | 0, l => l.headD none
  | n + 1, l => redTree f n (List.zipWith (combineOpt f) (l.take (2 ^ n)) (l.drop (2 ^ n)))

/-- The values of the lanes of a pass: none for an inactive lane. -/
def passVals (act : Mask) (a : List Word) (p : Nat) : List (Option (Word × Num.Flags)) :=
  (List.range 64).map fun l => if act.getLsbD (64 * p + l) then some (a.getD (64 * p + l) 0, 0) else none

/-- REDL. -/
def execRedl (w : Single) (s : State) : Out :=
  let g := s.me.core.guard w.ng
  let f := combine w.ty.toNat (w.mod.toNat % 8) (Num.rmOf w.rnd) (w.mod.getLsbD 4)
  .next (match s.issue g [(w.a, g)] with
    | .error x => s.stop x
    | .ok e =>
      let act := e.guard w.ng
      let a := e.src 0 0 w.a
      let rs := (List.range 4).map fun p => (redTree f 6 (passVals act a p)).getD (0, 0)
      let vals := rs.flatMap fun r => List.replicate 64 r.1
      let fl := rs.foldl (fun fl r => fl ||| r.2) 0
      s.finish e [keyOf w.d] none fun c =>
        let c := c.writeV w.d act vals
        { c with fpflags := c.fpflags ||| fl })

/-- The scan of a pass: for each lane the inclusive and the exclusive combination, with all flags. -/
def scanPass (f : Word → Word → Word × Num.Flags) :
    Option (Word × Num.Flags) → List (Option (Word × Num.Flags)) → List (Option Word × Option Word) × Num.Flags
  | acc, [] => ([], (acc.map (·.2)).getD 0)
  | acc, v :: vs =>
    let next := match v with | none => acc | some _ => combineOpt f acc v
    let r := scanPass f next vs
    ((next.map (·.1), acc.map (·.1)) :: r.1, r.2)

/-- The values but the last one held: an exclusive scan never combines it. -/
def dropLast (l : List (Option (Word × Num.Flags))) : List (Option (Word × Num.Flags)) :=
  let n := ((List.range l.length).filter fun i => (l.getD i none).isSome).getLast?
  l.zipIdx.map fun x => if some x.2 == n then none else x.1

/-- SCANL. It consumes C, which it names, whether it scans inclusively or not (R155, R157). -/
def execScanl (w : Single) (s : State) : Out :=
  let g := s.me.core.guard w.ng
  let excl := w.mod.getLsbD 3
  let f := combine w.ty.toNat (w.mod.toNat % 8) (Num.rmOf w.rnd) (w.mod.getLsbD 4)
  .next (match s.issue g [(w.a, g), (w.c, g)] with
    | .error x => s.stop x
    | .ok e =>
      let act := e.guard w.ng
      let a := e.src 0 0 w.a
      let c := e.src 0 0 w.c
      let rs := (List.range 4).map fun p => scanPass f none (if excl then dropLast (passVals act a p) else passVals act a p)
      let outs := rs.flatMap (·.1)
      let vals := List.zipWith (fun (o : Option Word × Option Word) (fill : Word) =>
        if excl then o.2.getD fill else o.1.getD 0) outs c
      let fl := rs.foldl (fun fl r => fl ||| r.2) 0
      s.finish e [keyOf w.d] none fun k =>
        let k := k.writeV w.d act vals
        { k with fpflags := k.fpflags ||| fl })

end Sys2Proof.Machine
end

