-- ==== Sys2Proof/Machine/LaneTeam.lean ====
section
/-! DEFINITION. Teams and grafting: JOIN, LEAVE, TMEMB, GRAFT (R173 to R180) and the team barrier (R232). -/

namespace Sys2Proof.Machine

/-- A course-wide word completes with a status for its active threads (R157). -/
def State.finishStatus (s : State) (e : Env) (ng : Bool) (d : BitVec 8) (look : Nat) (status : Word) : State :=
  let sel := s.me.core.guard ng &&& ~~~e.marked
  s.finish e [keyOf d] none fun c => c.result e.me.core look false d sel (List.replicate 256 status)

/-- The word completes and a checkpoint follows (R181). -/
def State.finishCkpt (s : State) (e : Env) (ng : Bool) (d : BitVec 8) (look : Nat) (status : Word) : State :=
  (s.finishStatus e ng d look status).checkpoint s.cur

/-- The team of a key on the core of a course, for its context: teams made by JOIN only (R173). -/
def State.teamByKey (s : State) (c : Course) (key : Nat) : Option Nat :=
  (List.range s.teams.length).find? fun t =>
    let tm := s.team t
    tm.alive && !tm.isDefault && tm.place == c.place && tm.ctx == c.ctx && tm.key == key

/-- The teams of a core. -/
def State.teamsAt (s : State) (place : Nat) : List Team := s.teams.filter fun t => t.alive && t.place == place && (s.context t.ctx).mode != .vacated

/-- The lowest free team slot of a core (R250 SLOT). -/
def State.freeSlot (s : State) (place : Nat) : Nat :=
  ((List.range 16).find? fun n => !(s.teamsAt place).any fun t => t.slot == n).getD 15

/-- The scratch window of a new team of a launch on a core: its LOC granules where one of the launch's slots is free, else
nothing (R191). -/
def State.windowSize (s : State) (place launch : Nat) : Nat :=
  let n := ((s.launch? launch).map (·.loc)).getD 0
  let total := ((s.splits.find? fun p => p.place == place).bind fun p => p.slots.lookup launch).getD 0
  let used := ((s.teamsAt place).filter fun t => t.launch == launch && t.size != 0).length
  if used < total then n * 32768 else 0

/-- The new team JOIN creates. -/
def State.createTeam (s : State) (c : Course) (key : Nat) : State :=
  { s with teams := s.teams ++ [{ key := key, isDefault := false, place := c.place, ctx := c.ctx, launch := c.launch,
                                  slot := s.freeSlot c.place, size := s.windowSize c.place c.launch }] }

/-- The last member of a team leaves it, while stash bytes of it wait for the end of a loan's move (R204, R392). -/
def State.leaveWaits (s : State) (i : Nat) : Bool :=
  (s.course i).team.any fun t => s.members t == [i] && s.stashMoves t

/-- The wait of a word that would dissolve such a team. -/
def moveWait : Stop := .wait { kind := .writes, internal := false }

/-- JOIN (R174): it waits behind a barrier or a gathering collective of the team it enters (R176, R292); leaving is a
team-scope release, entering an acquire from the team (R173). -/
def execJoin (w : Single) (s : State) : Out :=
  let c := s.me
  let i := s.cur
  let key := w.imm.toNat
  .next (match s.issue 0 [] with
    | .error x => s.stop x
    | .ok e =>
      let same := match c.team with | some t => (s.team t).key == key && !(s.team t).isDefault | none => false
      if same then s.finishCkpt e w.ng w.d 0 2
      else match s.teamByKey c key with
      | some t =>
        if !(s.team t).arrived.isEmpty || !(s.team t).gathering.isEmpty then s.stop (.wait { kind := .join })
        else if s.leaveWaits i then s.stop moveWait
        else match s.releaseEnter i 1 with
        | (s, some x) => s.stop x
        | (s, none) =>
          let clk := s.teamClock t (s.members t)
          let s := (s.releaseClock i).leaveTeam i
          let s := (s.modCourse i fun c => { c with team := some t }).acquire i clk
          s.finishCkpt e w.ng w.d 0 0
      | none =>
        if 16 ≤ (s.teamsAt c.place).length then s.finishCkpt e w.ng w.d 0 3
        else if s.leaveWaits i then s.stop moveWait
        else match s.releaseEnter i 1 with
        | (s, some x) => s.stop x
        | (s, none) =>
          let s := ((s.releaseClock i).leaveTeam i).createTeam c key
          let s := (s.modCourse i fun c => { c with team := some (s.teams.length - 1) }).acquire i 0
          s.finishCkpt e w.ng w.d 0 1)

/-- LEAVE (R175). -/
def execLeave (w : Single) (s : State) : Out :=
  .next (match s.issue 0 [] with
    | .error x => s.stop x
    | .ok e =>
      match s.me.team with
      | none => s.finishCkpt e w.ng w.d 0 1
      | some _ =>
        if s.leaveWaits s.cur then s.stop moveWait
        else match s.releaseEnter s.cur 1 with
        | (s, some x) => s.stop x
        | (s, none) => ((s.releaseClock s.cur).leaveTeam s.cur).finishCkpt e w.ng w.d 0 0)

/-- What TMEMB gives (R177). Members of different launches may have the same %course: each one's rank counts the strictly lower
ones (log 88). -/
def State.membership (s : State) (c : Course) (what : Nat) : Word :=
  match c.team with
  | none => match what with | 0 => 1 | 1 => 0 | _ => 0xFFFFFFFF
  | some t =>
    let ms := s.members t
    match what with
    | 0 => BitVec.ofNat 32 ms.length
    | 1 => BitVec.ofNat 32 (ms.filter fun i => (s.course i).index < c.index).length
    | _ => BitVec.ofNat 32 (s.team t).key

/-- TMEMB. -/
def execTmemb (w : Single) (s : State) : Out :=
  .next (match s.issue 0 [] with
    | .error x => s.stop x
    | .ok e => s.finishStatus e w.ng w.d 0 (s.membership s.me (w.mod.toNat % 4)))

/-! GRAFT (R178 to R180). -/

/-- The courses of a team parked at a GRAFT at a lane-word index. -/
def State.parkedAt (s : State) (t pc : Nat) : List Nat :=
  (s.members t).filter fun i =>
    i != s.cur && (s.course i).parked.isSome && (s.course i).phase == .running && (s.course i).core.lanePc == pc

/-- The earliest parked of some courses. -/
def State.earliestParked (s : State) (l : List Nat) : Option Nat :=
  let since (i : Nat) : Nat := (((s.course i).lwait).map (·.since)).getD 0
  l.foldl (fun b i => match b with | none => some i | some j => if since i < since j then some i else some j) none

/-- A condition of R179 holds. -/
def graftNofit (r d : Course) : Bool :=
  decide (256 < (threadsOf r.core.live).length + (threadsOf d.core.live).length) || r.regs != d.regs
    || r.core.preds.length != 1 || d.core.preds.length != 1 || r.mctx.isSome || d.mctx.isSome
    || decide (1 < d.core.pending) || d.core.queues.any (!·.isEmpty) || d.core.feeds.any (·.active.isSome)
    || !d.core.retq.isEmpty || !(d.core.ended || d.swait.any fun w => w.kind == .lsync || w.kind == .returnQueue)

/-- A mask with the bits of moved threads: the destination gets the source's bit. -/
def moveBits (moves : List (Nat × Nat)) (src dst : Mask) : Mask :=
  maskOf 256 fun t => match moves.find? fun m => m.2 == t with | some m => src.getLsbD m.1 | none => dst.getLsbD t

/-- A v register with the elements of moved threads copied in. -/
def moveReg (moves : List (Nat × Nat)) (src dst : VReg) : VReg :=
  { vals := (List.range 256).map fun t =>
      match moves.find? fun m => m.2 == t with | some m => src.vals.getD m.1 0 | none => dst.vals.getD t 0,
    rf := moveBits moves src.rf dst.rf, me := moveBits moves src.me dst.me }

/-- The receiver's core after the donor's live threads have moved in (R180). -/
def graftCore (regs : Nat) (r d : Core) : Core :=
  let free := (List.range 256).filter fun t => !r.live.getLsbD t
  let moves := (threadsOf d.live).zip free
  let live := r.live ||| maskOf 256 fun t => moves.any (·.2 == t)
  let ids := threadsOf live
  { r with
    vregs := (List.range regs).map fun n => moveReg moves (d.vreg n) (r.vreg n),
    fpflags := r.fpflags ||| d.fpflags,
    faultMask := moveBits moves d.faultMask r.faultMask,
    live := live, preds := [live],
    cli := (List.range 256).map fun t => if live.getLsbD t then (ids.takeWhile (· < t)).length else r.cli.getD t t }

/-- A successful graft, after the donor's team-scope release (R173): the receiver takes the donor's threads and both take their
checkpoint; the donor retires (R180). -/
def State.migrate (s : State) (r d : Nat) : State :=
  let s := ((s.releaseClock d).checkpoint d).checkpoint r
  let core := graftCore (s.course r).regs (s.course r).core (s.course d).core
  let s := (s.modCourse r fun c => { c with core := core }).checkpoint r
  (s.leaveTeam d).retire d

/-- GRAFT: a status left by the partner or the park timeout ends it; else it pairs with the earliest-parked course of the
team at the same index, once the donor's release is performed, or parks, or ends alone. Of two courses with the same %course the
one that arrives later receives (log 89). -/
def execGraft (w : Single) (s : State) : Out :=
  let c := s.me
  let i := s.cur
  let unpark (s : State) (p st : Nat) : State :=
    s.modCourse p fun c => { c with parked := none, lwait := none, graftStatus := some st }
  .next (match s.issue 0 [] with
    | .error x => s.stop x
    | .ok e =>
      match c.graftStatus with
      | some st =>
        (s.modMe fun c => { c with graftStatus := none }).finishCkpt e w.ng w.d 0 (BitVec.ofNat 32 st)
      | none =>
        let ps := match c.team with | some t => s.parkedAt t c.core.lanePc | none => []
        match s.earliestParked ps with
        | some p =>
          let r := if (s.course p).index < c.index then p else i
          let d := if r == i then p else i
          if graftNofit (s.course r) (s.course d) then (unpark s p 2).finishCkpt e w.ng w.d 0 2
          -- the donor's flags are complete before they go with its threads (R124, log 95)
          else if !(s.course d).wordFlags.isEmpty then s.stop (.wait { kind := .remote })
          else match s.releaseEnter d 1 with
          | (s, some x) => s.stop x
          | (s, none) => if r == i then (s.migrate i p).finishCkpt e w.ng w.d 0 0 else unpark (s.migrate p i) p 0
        | none =>
          if w.imm == 0 then s.finishCkpt e w.ng w.d 0 1
          else (s.stop (.wait { kind := .graft })).modMe fun c => { c with parked := some (s.clock + w.imm.toNat * 64) })

/-- TBAR (R232): the arrival is a team-scope release and precedes its checkpoint; the course leaves when the barrier has
completed. -/
def execTbar (_w : Single) (s : State) : Out :=
  let c := s.me
  let i := s.cur
  .next (match s.issue 0 [] with
    | .error x => s.stop x
    | .ok e =>
      match c.team with
      | none => (s.finish e [] none id).checkpoint i
      | some t =>
        if c.core.atBarrier then
          if (s.team t).arrived.contains i then s.stop (.wait { kind := .tbar })
          else s.finish e [] none fun c => { c with atBarrier := false }
        else match s.releaseEnter i 1 with
        | (s, some x) => s.stop x
        | (s, none) =>
          let s := (s.releaseClock i).modTeam t fun tm => { tm with arrived := tm.arrived ++ [i] }
          let s := (s.modCore fun c => { c with atBarrier := true }).checkpoint i
          (s.stop (.wait { kind := .tbar })).barrierCheck t)

end Sys2Proof.Machine
end

