-- ==== Sys2Proof/Machine/LaneMem.lean ====
section
/-! DEFINITION. Lane loads and stores, the stash, prefetch and line locks (R104, R105, R193, R198 to R208). -/

namespace Sys2Proof.Machine

/-! Global accesses of the active threads (R104, R105). -/

/-- One thread's access: its address and why it fails, none for one that performs. -/
structure Acc where
  t : Nat
  addr : Int
  err : Option UseErr := none
deriving DecidableEq, Repr

/-- SCALE as a factor (R104). -/
def scaleOf (n : Nat) : Nat := 2 ^ (n % 8)

/-- The accesses of the active threads of a word: EA(t) of each, checked for n bytes aligned to al, write or read. -/
def State.globalAccs (s : State) (c : Course) (act : Mask) (cap : Cap) (perm : Nat) (off : List Word) (scale : Nat)
    (imm : Int) (n al : Nat) (write : Bool) : List Acc :=
  (threadsOf act).map fun t =>
    let ea : Int := (capBase cap : Int) + (off.getD t 0).toNat * scale + imm
    { t := t, addr := ea, err := s.useErr c.who cap 0 perm ea n al write }

/-- The threads of some accesses. -/
def accMask (l : List Acc) : Mask := maskOf 256 fun t => l.any fun a => a.t == t

/-- The access whose failed check has the lowest number, the lowest thread first. -/
def worstAcc (l : List Acc) : Option (Acc × CapFail) :=
  l.foldl (fun best a =>
    match a.err with
    | some (.cap f) => (match best with | some (b, g) => if f.check < g.check then some (a, f) else some (b, g) | none => some (a, f))
    | _ => best) none

/-- What the failures of a word's accesses give it: a fault raised after the other threads have performed it, or a stop
before any has (R105, R108). -/
def accVerdict (l : List Acc) : Except Stop (Option FaultInfo) :=
  let bad := l.filter (·.err.isSome)
  let mask := accMask bad
  let va (a : Int) : Nat := (a % 2 ^ 57).toNat
  match worstAcc bad with
  | some (a, f) => .ok (some { cause := f.cause, detail := f.detail, mask := mask, addr := va a.addr })
  | none =>
    match bad.find? fun a => a.err == some (.page .linkf) || a.err == some (.page .memerr) with
    | some a =>
      .ok (some (if a.err == some (.page .linkf) then { cause := cLINKF, mask := mask }
        else { cause := cMEMERR, mask := mask, addr := va a.addr }))
    | none =>
      match bad with
      | [] => .ok none
      | a :: _ => match a.err with
        | some e => .error (e.stop a.addr mask)
        | none => .ok none

/-- The accesses that perform. -/
def goodAccs (l : List Acc) : List Acc := l.filter (·.err.isNone)

/-! Element values (R199). -/

/-- The 32-bit registers a loaded element gives: a narrow element is extended into one register. -/
def loadRegs (ty : Nat) (bytes : List Byte) : List Word :=
  match Legal.width ty with
  | 32 => (List.range (bytes.length / 4)).map fun j => bytesWord ((bytes.drop (4 * j)).take 4)
  | n => [BitVec.ofInt 32 (Num.sval (Legal.isSigned ty) n (leNat bytes))]

/-- The bytes a store places: the low element bytes of each data register. -/
def storeBytes (z : Nat) (vals : List Word) : List Byte := leBytes z (vals.foldr (fun v acc => v.toNat + 2 ^ 32 * acc) 0)

/-- The element bytes of a memory word (R199). -/
def accSize (w : Single) : Nat := Legal.width w.ty.toNat / 8 * 2 ^ (w.mod.toNat / 32 % 4)

/-- The registers of a memory word. -/
def accRegs (w : Single) : Nat := 2 ^ (w.mod.toNat / 32 % 4)

/-- Register code D + j. -/
def plusCode (d : BitVec 8) (j : Nat) : BitVec 8 := d + BitVec.ofNat 8 j

/-- The per-thread vector of a list of thread values. -/
def threadVec (l : List (Nat × Word)) : List Word := (List.range 256).map fun t => (l.lookup t).getD 0

/-- W registers from D written with each thread's loaded registers, elements with a memory error poisoned; LOOK windows
opened on each. -/
def Core.writeLoads (c before : Core) (look : Nat) (d : BitVec 8) (W : Nat) (sel : Mask) (vals : List (Nat × List Word))
    (bad : Nat → Mask) : Core :=
  (List.range W).foldl (fun c j =>
    let code := plusCode d j
    (c.result before look false code sel (threadVec (vals.map fun v => (v.1, v.2.getD j 0)))).poisonV code (bad j)) c

/-- The data of a store: the registers from D, or the one value of another source code. -/
def Env.storeData (e : Env) (w : Single) (t : Nat) : List Word :=
  (List.range (accRegs w)).map fun j => (e.src w.ty.toNat 0 (plusCode w.d j)).getD t 0

/-- The source codes a store reads as data. -/
def storeReads (w : Single) : List (BitVec 8) := (List.range (accRegs w)).map fun j => plusCode w.d j

/-- The permission of a memory word: M with an order at system scope (R199). -/
def ordPerm (w : Single) (base : Nat) : Nat := if w.mod.getLsbD 7 && w.scope == 4 then base ||| pM else base

/-- LD (R199). -/
def execLd (w : Single) (s : State) : Out :=
  let c := s.me
  let g := c.core.guard w.ng
  let z := accSize w
  .next (match s.issue g [(w.a, g)] with
    | .error x => s.stop x
    | .ok e =>
      let accs := s.globalAccs c (e.guard w.ng) (e.cap w.sel.toNat) (ordPerm w pR) (e.src 1 0 w.a)
        (scaleOf w.mod.toNat) w.imm.toInt z z false
      match accVerdict accs with
      | .error x => s.stop x
      | .ok fault =>
        let ok := goodAccs accs
        let vals := ok.map fun a => (a.t, loadRegs w.ty.toNat ((s.loadVA c a.addr.toNat z).toOption.getD []))
        let bad (j : Nat) : Mask := maskOf 256 fun t => ok.any fun a => a.t == t && s.badLoad c (a.addr.toNat + 4 * j) (min z 4)
        let s' := ok.foldl (fun s a => s.noteLoad s.cur a.addr.toNat z (w.mod.toNat / 8 % 4)) s
        let s' := if w.mod.getLsbD 7 then s'.acquire s'.cur 0 else s'
        let s' := s'.finish e ((List.range (accRegs w)).map fun j => keyOf (plusCode w.d j)) fault fun k =>
          k.writeLoads e.me.core w.look.toNat w.d (accRegs w) (accMask ok) vals bad
        if w.mod.getLsbD 7 && fault.isNone && e.after.isNone then s'.checkpoint s'.cur else s')

/-- ST (R199): a release before the store with ORD, and a checkpoint after it. -/
def execSt (w : Single) (s : State) : Out :=
  let c := s.me
  let g := c.core.guard w.ng
  let z := accSize w
  let ord := w.mod.getLsbD 7
  .next (match s.issue g ((w.a, g) :: (storeReads w).map fun r => (r, g)) with
    | .error x => s.stop x
    | .ok e =>
      let accs := s.globalAccs c (e.guard w.ng) (e.cap w.sel.toNat) (ordPerm w pW) (e.src 1 0 w.a)
        (scaleOf w.mod.toNat) w.imm.toInt z z true
      match accVerdict accs with
      | .error x => s.stop x
      | .ok fault =>
        match if ord then s.releaseEnter s.cur w.scope.toNat else (s, none) with
        | (s, some x) => s.stop x
        | (s, none) =>
          let s := if ord then s.releaseClock s.cur else s
          let cells := (goodAccs accs).flatMap fun a => cellsAt a.addr.toNat (storeBytes z (e.storeData w a.t))
          let s := (s.holdCells s.cur false cells (w.mod.toNat / 8 % 4) true).finish e [] fault id
          if ord && fault.isNone && e.after.isNone then s.checkpoint s.cur else s)

/-! Scratch accesses (R191 to R193, R203). -/

/-- A range of the window has no released line and lies in the window. -/
def Team.inWindow (tm : Team) (a : Int) (n : Nat) : Bool :=
  decide (0 ≤ a) && decide (a + n ≤ tm.size) && !tm.released.any fun l => decide (a.toNat / 64 ≤ l) && decide (l ≤ (a.toNat + n - 1) / 64)

/-- A word of the window is readable by a course: written, with a byte held by the course itself, or in a mapped range that
is filled on access (R192, R193, R203). -/
def Team.readable (tm : Team) (held : Memory) (a : Nat) : Bool :=
  tm.wordWritten a || (List.range 4).any (fun k => (heldGet held (a / 4 * 4 + k)).isSome)
    || match tm.stashAt a with | some (_, x) => x.mode != 2 | none => false

/-- A scratch access is a violation (R193). -/
def Team.violates (tm : Team) (held : Memory) (a : Int) (n : Nat) (write : Bool) : Bool :=
  !tm.inWindow a n
    || if write then (List.range n).any fun i => match tm.stashAt (a.toNat + i) with | some (_, x) => x.mode == 1 | none => false
       else (List.range ((a.toNat + n + 3) / 4 - a.toNat / 4)).any fun i => !tm.readable held (4 * (a.toNat / 4 + i))

/-- The window of a course; one in no team has none (R191). -/
def State.window (s : State) (c : Course) : Team :=
  match c.team with | some t => s.team t | none => { alive := false, size := 0 }

/-- A stash line to be fetched: the slot, its scratch line, its global address. -/
structure Fill where
  slot : Nat
  line : Nat
  va : Nat
deriving DecidableEq, Repr

/-- The selector of a publishable page gives a mapped line other home lines now than those its copy was read from: an access at this
clock uses those (R251). -/
def State.selectorMoved (s : State) (w : Who) (va : Nat) (f : Filled) : Bool :=
  match s.translate w va, s.locsOf w va 64 false with
  | .ok x, .ok ps => x.leaf.getLsbD 11 && (ps.map fun p => p.2.1 / 64) != f.homes.map (·.line)
  | _, _ => false

/-- A filled line at a global address may still be used: the lease of every home line's copy covers the course's clock, none is out of
date for longer than R240 allows, and no publish selector has moved away from them (R203, R243, R251). -/
def State.mayUse (s : State) (c : Course) (va : Nat) (f : Filled) : Bool :=
  ((pieces va 64).zip f.homes).all (fun q => c.validity q.1.1 ≤ q.2.lease && s.fresh q.2.line q.2.wts) && !s.selectorMoved c.who va f

/-- The stash lines that scratch accesses of a course must fetch first: mapped, not wo, and not filled with a copy that may still
be used (R203, R243). -/
def State.fills (s : State) (c : Course) (addrs : List Nat) : List Fill :=
  let tm := s.window c
  (addrs.filterMap fun a =>
    match tm.stashAt a with
    | none => none
    | some (n, x) =>
      let va := x.va + (a / 64 * 64 - x.scr)
      if x.mode == 2 || x.filled.any (fun f => f.off == a / 64 && s.mayUse c va f) then none
      else some { slot := n, line := a / 64, va := va : Fill }).eraseDups

/-- What a fetch keeps of the home lines it reads: those of the L1 copies it takes, else those of the homes after the load (R203,
R243). -/
def State.homesOf (s : State) (c : Course) (ps : List (Nat × Nat × Nat)) (after : State) : List HomeCopy :=
  ps.map fun p =>
    match s.l1Use c p.1 p.2.1 with
    | some l => { line := l.line, wts := l.wts, lease := l.lease }
    | none => let x := after.stampOf (p.2.1 / 64); { line := p.2.1 / 64, wts := x.1, lease := x.2 }

/-- A stash line fetched: a plain load of the whole global line under the leases of the copies it takes; dirty bytes keep the team's
values, and an uncorrectable byte stays one in the window (R200, R203, R243). -/
def State.fillLine (s : State) (i : Nat) (f : Fill) : State :=
  let c := s.course i
  match c.team, s.locsOf c.who f.va 64 false, s.loadVA c f.va 64 with
  | some t, .ok ps, .ok bytes =>
    let poison := (List.range 64).filter fun k => s.badLoad c (f.va + k) 1
    let after := s.noteLoad i f.va 64
    let homes := s.homesOf c ps after
    after.modTeam t fun tm =>
      let keep : List Nat := match tm.stash.lookup f.slot with | some x => x.dirty | none => []
      let cells := (cellsAt (64 * f.line) bytes).filter fun cell => !keep.contains cell.1
      { tm with
        scratch := cells.foldl (fun m cell => m.set cell.1 cell.2) tm.scratch,
        bad := (poison.map (64 * f.line + ·)).filter (fun a => !keep.contains a)
          ++ tm.bad.filter fun a => keep.contains a || a / 64 != f.line,
        written := (tm.mark f.line (BitVec.allOnes 64)).written,
        stash := tm.stash.map fun x =>
          if x.1 == f.slot then
            (x.1, { x.2 with filled := { off := f.line, homes := homes }
                               :: x.2.filled.filter fun y => y.off != f.line })
          else x }
  | _, _, _ => s

/-- The fetches that a page stops. -/
def State.fillsLost (s : State) (c : Course) (l : List Fill) : List Fill :=
  l.filter fun f => (s.rangeErr c.who f.va 64 false).isSome

/-- The first fetch that a page stops. -/
def State.fillErr (s : State) (c : Course) (l : List Fill) (mask : Mask) : Option Stop :=
  l.findSome? fun f => (s.rangeErr c.who f.va 64 false).map fun x => (UseErr.page x).stop f.va mask

/-- The mapped lines of a range of the current course's window fetched, or the page that stops one (R203). -/
def State.fillRange (s : State) (off n : Nat) (mask : Mask) : Except Stop State :=
  let fs := s.fills s.me ((pieces off n).map (·.1))
  match s.fillErr s.me fs mask with
  | some x => .error x
  | none => .ok (fs.foldl (fun s f => s.fillLine s.cur f) s)

/-- The accesses of the active threads to the window, split into the misaligned, the violating and the performing ones. -/
structure ScratchSplit where
  misaligned : List Acc
  violating : List Acc
  good : List Acc
deriving DecidableEq, Repr

/-- The split of scratch accesses at given addresses (R193, R199). -/
def State.splitScratch (s : State) (c : Course) (accs : List Acc) (n : Nat) (write : Bool) : ScratchSplit :=
  let tm := s.window c
  let mis := accs.filter fun a => a.addr % (n : Int) != 0
  let al := accs.filter fun a => a.addr % (n : Int) == 0
  { misaligned := mis, violating := al.filter fun a => tm.violates c.heldS a.addr n write,
    good := al.filter fun a => !tm.violates c.heldS a.addr n write }

/-- SA(t) of the active threads. -/
def scratchAccs (act : Mask) (off : List Word) (scale : Nat) (imm : Int) : List Acc :=
  (threadsOf act).map fun t => { t := t, addr := ((off.getD t 0).toNat * scale : Nat) + imm }

/-- The ALIGN fault of misaligned scratch accesses (R193, R105): a window offset is no tenant virtual address, so ADDR is 0
(R354). -/
def alignFault (l : List Acc) : Option FaultInfo :=
  match l with
  | [] => none
  | _ :: _ => some { cause := cALIGN, mask := accMask l }

/-- The accesses to the window after its lines are fetched: those that perform, and the ALIGN of the misaligned ones. A page that
stops a fetch stops the word, unless a misaligned thread traps it: the threads of that line then perform nothing and count among
the failing ones (R105). -/
def State.fillScratch (s : State) (sp : ScratchSplit) : Except Stop (State × List Acc × Option FaultInfo) :=
  let fs := s.fills s.me (sp.good.map fun a => a.addr.toNat)
  let gone := s.fillsLost s.me fs
  let lost := sp.good.filter fun a => gone.any fun f => f.line == a.addr.toNat / 64
  match sp.misaligned, s.fillErr s.me fs (accMask lost) with
  | [], some x => .error x
  | _, _ =>
    .ok ((fs.filter fun f => !gone.contains f).foldl (fun s f => s.fillLine s.cur f) s,
      sp.good.filter fun a => !lost.contains a, alignFault (sp.misaligned ++ if sp.misaligned.isEmpty then [] else lost))

/-- Threads that committed a violation are switched off and marked (R193). -/
def Core.scratchFault (c : Core) (m : Mask) : Core := { c.endThreads m with faultMask := c.faultMask ||| m }

/-- A byte of a window that nothing has placed there: a free value (R192, log 25). -/
def State.strayByte (s : State) (off : Nat) : Byte := (Config.openWord (s.free * 2 ^ 64 + off)).setWidth 8

/-- The bytes a course reads from its window (R199). -/
def State.scratchRead (s : State) (c : Course) (a n : Nat) : List Byte :=
  let tm := s.window c
  (List.range n).map fun i => (heldGet c.heldS (a + i)).getD
    (if tm.byteWritten (a + i) then tm.scratch.get (a + i) else s.strayByte (a + i))

/-- LDS (R199). -/
def execLds (w : Single) (s : State) : Out :=
  let c := s.me
  let g := c.core.guard w.ng
  let z := accSize w
  .next (match s.issue g [(w.a, g)] with
    | .error x => s.stop x
    | .ok e =>
      let sp := s.splitScratch c (scratchAccs (e.guard w.ng) (e.src 1 0 w.a) (scaleOf w.mod.toNat) w.imm.toInt) z false
      match s.fillScratch sp with
      | .error x => s.stop x
      | .ok (s, good, fault) =>
        let vals := good.map fun a => (a.t, loadRegs w.ty.toNat (s.scratchRead c a.addr.toNat z))
        let tm := s.window c
        let bad (j : Nat) : Mask := maskOf 256 fun t => good.any fun a =>
          a.t == t && (List.range (min z 4)).any fun i =>
            (heldGet c.heldS (a.addr.toNat + 4 * j + i)).isNone && tm.bad.contains (a.addr.toNat + 4 * j + i)
        s.finish e ((List.range (accRegs w)).map fun j => keyOf (plusCode w.d j)) fault fun k =>
          (k.writeLoads e.me.core w.look.toNat w.d (accRegs w) (accMask good) vals bad).scratchFault
            (accMask sp.violating))

/-- STS (R199). -/
def execSts (w : Single) (s : State) : Out :=
  let c := s.me
  let g := c.core.guard w.ng
  let z := accSize w
  .next (match s.issue g ((w.a, g) :: (storeReads w).map fun r => (r, g)) with
    | .error x => s.stop x
    | .ok e =>
      let sp := s.splitScratch c (scratchAccs (e.guard w.ng) (e.src 1 0 w.a) (scaleOf w.mod.toNat) w.imm.toInt) z true
      match s.fillScratch sp with
      | .error x => s.stop x
      | .ok (s, good, fault) =>
        let cells := good.flatMap fun a => cellsAt a.addr.toNat (storeBytes z (e.storeData w a.t))
        (s.holdCells s.cur true cells).finish e [] fault fun k => k.scratchFault (accMask sp.violating))

/-! The stash (R201 to R205). -/

/-- The scratch range of a slot emptied: its words are unwritten, unfilled and no longer released (R202). -/
def Team.clearRange (tm : Team) (scr len : Nat) : Team :=
  { tm with
    scratch := tm.scratch.filter fun c => !(scr ≤ c.1 && c.1 < scr + len),
    bad := tm.bad.filter fun a => !(scr ≤ a && a < scr + len),
    written := tm.written.filter fun l => !(scr ≤ 64 * l.1 && 64 * l.1 < scr + len),
    released := tm.released.filter fun l => !(scr ≤ 64 * l && 64 * l < scr + len) }

/-- SMAP (R202). -/
def execSmap (w : Single) (s : State) : Out :=
  let c := s.me
  let slot := w.imm.toNat % 16
  let mode := w.mod.toNat % 4
  .next (match s.issue 0 [] with
    | .error x => s.stop x
    | .ok e =>
      let act := e.guard w.ng
      let so := (e.x w.a).toNat
      let go := (e.x w.b).toNat
      let len := (e.x w.c).toNat
      let cap := e.cap w.sel.toNat
      let va : Int := (capBase cap : Int) + go
      if so % 64 != 0 || go % 64 != 0 || len % 64 != 0 || len == 0 then s.stop (.trap { cause := cALIGN, mask := act })
      else match s.useErr c.who cap 0 (if mode == 1 then pR else pR ||| pW) va len 1 (mode != 1) with
      | some x => s.stop (x.stop va act)
      | none =>
        let tm := s.window c
        if tm.size < so + len then s.finishStatus e w.ng w.d w.look.toNat 3
        else if (tm.stash.lookup slot).isSome then s.finishStatus e w.ng w.d w.look.toNat 2
        else if tm.stash.any fun x => so < x.2.scr + x.2.len && x.2.scr < so + len then s.finishStatus e w.ng w.d w.look.toNat 1
        else
          let s := s.commitS s.cur fun a => so ≤ a && a < so + len
          let s := match c.team with
            | some t => s.modTeam t fun tm =>
                let tm := tm.clearRange so len
                { tm with stash := (slot, { scr := so, va := va.toNat, len := len, mode := mode }) :: tm.stash }
            | none => s
          s.finishStatus e w.ng w.d w.look.toNat 0)

/-- The page that stops the write-back of the dirty bytes a condition picks, if any. -/
def State.flushErr (s : State) (t : Nat) (p : Nat → Nat → Bool) (mask : Mask) : Option Stop :=
  (s.stashErr t p).map fun e => (UseErr.page e.2).stop e.1 mask

/-- SUNMAP (R205): it completes once the write-backs are performed. The course's own held stores to the range are committed first
(log 90). -/
def execSunmap (w : Single) (s : State) : Out :=
  let c := s.me
  let slot := w.imm.toNat % 16
  .next (match s.issue 0 [] with
    | .error x => s.stop x
    | .ok e =>
      match c.team, (s.window c).stash.lookup slot with
      | some t, some x =>
        let s := s.commitS s.cur fun a => x.scr ≤ a && a < x.scr + x.len
        match s.flushErr t (fun n _ => n == slot) (e.guard w.ng) with
        | some y => s.stop y
        | none =>
          let r := s.stashFlush t (fun n _ => n == slot) c.lclock (some s.cur)
          let s := r.1.modCourse r.1.cur fun c => { c with wmax := max c.wmax r.2, lclock := max c.lclock r.2 }
          if !s.heldWrites.isEmpty then s.stop (.wait { kind := .writes }) else
          let s := s.modTeam t fun tm =>
            let tm := { tm with stash := tm.stash.filter fun q => q.1 != slot }
            let lines := ((List.range (x.len / 64)).map fun k => x.scr / 64 + k).filter fun l => !tm.released.contains l
            if w.mod.getLsbD 0 then { tm with released := tm.released ++ lines } else tm
          s.finishCkpt e w.ng w.d w.look.toNat 0
      | _, _ => s.finishCkpt e w.ng w.d w.look.toNat 1)

/-- SFLUSH (R205), which commits the course's held scratch stores first (log 90). -/
def execSflush (w : Single) (s : State) : Out :=
  let c := s.me
  let pick (n : Nat) (_ : Nat) : Bool := w.mod.getLsbD 0 || n == w.imm.toNat % 16
  .next (match s.issue 0 [] with
    | .error x => s.stop x
    | .ok e =>
      match c.team with
      | none => (s.finish e [] none id).checkpoint s.cur
      | some t =>
        let s := s.commitS s.cur fun _ => true
        match s.flushErr t pick (e.guard w.ng) with
        | some y => s.stop y
        | none =>
          let r := s.stashFlush t pick c.lclock (some s.cur)
          let s := r.1.modCourse r.1.cur fun c => { c with wmax := max c.wmax r.2, lclock := max c.lclock r.2 }
          if !s.heldWrites.isEmpty then s.stop (.wait { kind := .writes }) else
          (s.finish e [] none id).checkpoint s.cur)

/-! PREF, LLOCK, LUNLK (R207, R208). -/

/-- A line requested into the caches: LOBS stays, since no value is returned. -/
def State.prefetch (s : State) (i va hint : Nat) : State :=
  let lobs := (s.course i).core.lobs
  (s.noteLoad i (va / 64 * 64) 64 hint).modCourse i fun c => { c with core := { c.core with lobs := lobs } }

/-- The start of a PREF, which faults for none of the reasons of State.issue: a queue operand is popped, an empty queue without a
feed supplies no thread, and threads with marked or poisoned offsets are ignored (R46, R207). -/
def State.issueHint (s : State) (g : Mask) (code : BitVec 8) : Except Stop Env :=
  let c := s.me
  let rel : RelRec := c.core.relq.headD { first := 0, count := 0, xs := [], caps := [] }
  if Legal.isQ code then
    let q := code.toNat - 0xC0
    match (c.core.queues.getD q []).head? with
    | none =>
      if (c.core.feeds.getD q {}).active.isSome then .error (.wait { kind := .feed })
      else .ok { me := c, rel := rel, marked := BitVec.allOnes 256 }
    | some x =>
      .ok { me := c, rel := rel, entry := x.vals, queue := some q, marked := x.bounds ||| x.align ||| x.xlt ||| x.mem ||| x.link }
  else
    let p := c.core.poison code g
    .ok { me := c, rel := rel, marked := p.1 ||| p.2 }

/-- PREF: a thread whose address fails any check is ignored. The check is that of a 4-byte access, the size of its TYPE 0
(log 91). -/
def execPref (w : Single) (s : State) : Out :=
  let c := s.me
  .next (match s.issueHint (c.core.guard w.ng) w.a with
    | .error x => s.stop x
    | .ok e =>
      let accs := goodAccs (s.globalAccs c (e.guard w.ng) (e.cap w.sel.toNat) pR (e.src 1 0 w.a) (scaleOf w.mod.toNat)
        w.imm.toInt 4 4 false)
      (accs.foldl (fun s a => s.prefetch s.cur a.addr.toNat (w.mod.toNat / 8 % 4)) s).finish e [] none id)

/-- One line of an LLOCK: the state and the status of its first naming thread. -/
def State.lockLine (s : State) (t line va : Nat) (c : Course) : State × Word :=
  let tm := s.team t
  if tm.locks.contains line then (s, 1)
  else if 256 ≤ tm.locks.length || 8 ≤ ((s.l2SetOf line (l2SliceOf line va)).filter fun e => s.pinned e.line).length then (s, 2)
  else
    let leaf := match s.leafFor c.who va with | .ok (e, _) => e | .error _ => 0
    let s' := (s.l2Access c.ctx va line leaf 0 false).tlbNote c.who va
    if s'.l2.any fun e => e.line == line then (s'.modTeam t fun tm => { tm with locks := line :: tm.locks }, 0) else (s, 2)

/-- One line of an LUNLK. -/
def State.unlockLine (s : State) (t line : Nat) : State × Word :=
  if (s.team t).locks.contains line then (s.modTeam t fun tm => { tm with locks := tm.locks.erase line }, 0) else (s, 1)

/-- LLOCK and LUNLK: each line of an active thread once, in thread order; the first naming thread gets the line's status,
the others 1 (R208). A course in no team holds no locks: the status is a free value (log 13). -/
def State.lockWord (s : State) (w : Single) (f : State → Nat → Nat → Nat → State × Word) : State :=
  let c := s.me
  let g := c.core.guard w.ng
  match s.issue g [(w.a, g)] with
  | .error x => s.stop x
  | .ok e =>
    let off := e.src 1 0 w.a
    let cap := e.cap w.sel.toNat
    let accs : List Acc := (threadsOf (e.guard w.ng)).map fun t =>
      let ea : Int := ((capBase cap : Int) + (off.getD t 0).toNat * scaleOf w.mod.toNat + w.imm.toInt) / 64 * 64
      { t := t, addr := ea, err := s.useErr c.who cap 0 pR ea 64 1 false }
    match accVerdict accs with
    | .error x => s.stop x
    | .ok fault =>
      let r := (goodAccs accs).foldl (fun (r : State × List Nat × List (Nat × Word)) a =>
        let line := match r.1.translate c.who a.addr.toNat with | .ok x => x.loc / 64 | .error _ => 0
        match c.team with
        | none => (r.1, r.2.1, (a.t, Config.openWord (r.1.free * 256 + a.t)) :: r.2.2)
        | some t =>
          if r.2.1.contains line then (r.1, r.2.1, (a.t, 1) :: r.2.2)
          else
            let x := f r.1 t line a.addr.toNat
            (x.1, line :: r.2.1, (a.t, x.2) :: r.2.2)) (s, [], [])
      r.1.finish e [keyOf w.d] fault fun k =>
        k.result e.me.core w.look.toNat false w.d (accMask (goodAccs accs)) (threadVec r.2.2)

/-- LLOCK. -/
def execLlock (w : Single) (s : State) : Out := .next (s.lockWord w fun s t line va => s.lockLine t line va s.me)

/-- LUNLK. -/
def execLunlk (w : Single) (s : State) : Out := .next (s.lockWord w fun s t line _ => s.unlockLine t line)

end Sys2Proof.Machine
end

