-- ==== Sys2Proof/Machine/LaneSync.lean ====
section
/-! DEFINITION. Atomics, condition waits and barrier objects (R215 to R229). -/

namespace Sys2Proof.Machine

/-! Where an atomic is performed, and its cost (R215, R216, R220). -/

/-- A cluster unit takes a hold on a line, or uses the one it has: the waiters of the line are woken when the hold moves,
and the 257th line pushes out the hold whose last atomic lies furthest back (R216, R223; which one is a DESIGN CHOICE, log 130). -/
def State.takeHold (s : State) (cluster line : Nat) : State :=
  if s.holds.any fun h => h.line == line && h.cluster == cluster then
    { s with holds := s.holds.map fun h => if h.line == line then { h with used := s.clock } else h }
  else
    let rest := s.holds.filter fun h => h.line != line
    let mine := rest.filter fun h => h.cluster == cluster
    let out := mine.foldl (fun (b : Option HoldLine) h => match b with | none => some h | some x => if h.used < x.used then some h else some x) none
    let rest := if 256 ≤ mine.length then rest.filter fun h => some h != out else rest
    let s := { s with holds := { line := line, cluster := cluster, used := s.clock } :: rest }
    let s := s.wakeLine line
    if 256 ≤ mine.length then match out with | some h => s.wakeLine h.line | none => s else s

/-- Some byte of a range lies in borrowed memory, on another device. -/
def State.onOther (s : State) (w : Who) (va : Nat) : Bool :=
  match s.leafFor w va with | .ok (e, _) => e.toNat / 256 % 4 == 1 | .error _ => false

/-- The charge of a class 4 operation, class 6 on another device (R336). -/
def State.class4 (s : State) (c : Course) (va : Nat) : List Charge :=
  [rqCharge c.place (if s.onOther c.who va then 3000 else 400)]

/-- The charge of an atomic by its scope (R220). -/
def State.atomCharge (s : State) (c : Course) (scope : Nat) (vas : List Nat) : List Charge :=
  if scope ≤ 1 then []
  else if scope == 4 || vas.any (s.onOther c.who) then [rqCharge c.place 3000]
  else [rqCharge c.place 400]

/-! Atomics (R217 to R221). -/

/-- The update of an atomic (R218), with its flags. -/
def atomOp (op ty : Nat) (old b : Word) : Word × Num.Flags :=
  let res (r : Num.Res) : Word × Num.Flags := (BitVec.ofNat 32 r.bits, r.fl)
  match op with
  | 0 => if ty == 2 then res (Num.fadd 2 .rne false old.toNat b.toNat) else (old + b, 0)
  | 1 =>
    if ty == 2 then res (Num.fminmax 2 false false old.toNat b.toNat)
    else (if (if ty == 0 then old.sle b else old.ule b) then old else b, 0)
  | 2 =>
    if ty == 2 then res (Num.fminmax 2 true false old.toNat b.toNat)
    else (if (if ty == 0 then old.sle b else old.ule b) then b else old, 0)
  | 3 => (old &&& b, 0)
  | 4 => (old ||| b, 0)
  | 5 => (old ^^^ b, 0)
  | 6 => (b, 0)
  | 7 => (if b.ule old then 0 else old + 1, 0)
  | _ => (if old == 0 || b.ult old then b else old - 1, 0)

/-- One thread's step of an atomic word on a global word: the state, the old value, the write time before it, the flags. A line of
the team's open cloned buffer that is not yet written reads as the front (R251). A line whose control block is cached takes no hold
(R265). -/
def State.atomGlobal (s : State) (va : Nat) (hold : Bool) (f : Word → Word × Num.Flags) :
    State × Word × Nat × Num.Flags :=
  let c := s.me
  match s.translate c.who va true with
  | .error _ => (s, 0, 0, 0)
  | .ok x =>
    let seen := (s.translate c.who va).toOption.getD x
    let old := bytesWord (s.locRead seen.loc 4)
    let t := (s.stampOf (seen.loc / 64)).1
    let s := if hold && !s.spools.any fun d => d.line == x.loc / 64 then s.takeHold (clusterOf c.place) (x.loc / 64) else s
    let r := f old
    match s.writeVA c.who va (wordBytes r.1) with
    | .error _ => (s, old, t, 0)
    | .ok (s, w) =>
      (s.modMe fun c => { c with lclock := max c.lclock w, wmax := max c.wmax w }, old, t, r.2)

/-- One thread's step of an atomic word in the window. What it reads carries the largest clock of the window's writers (R237,
log 92). -/
def State.atomScratch (s : State) (a : Nat) (f : Word → Word × Num.Flags) : State × Word × Nat × Num.Flags :=
  let c := s.me
  let old := bytesWord (s.scratchRead c a 4)
  let r := f old
  let s' := match c.team with
    | some t => s.putWindow t c.lclock (cellsAt a (wordBytes r.1))
    | none => s
  (s', old, (s.window c).clock, r.2)

/-- The performing threads of an atomic word, in ascending order: the state, the old values, the latest write time read and
the flags (R219). -/
def State.atomThreads (s : State) (accs : List Acc) (one : State → Acc → State × Word × Nat × Num.Flags) :
    State × List (Nat × Word) × Nat × Num.Flags :=
  accs.foldl (fun r a =>
    let x := one r.1 a
    (x.1, (a.t, x.2.1) :: r.2.1, max r.2.2.1 x.2.2.1, r.2.2.2 ||| x.2.2.2)) (s, [], 0, 0)

/-- A word of the window holds an uncorrectable byte that the course does not hold itself (R155, R221). -/
def State.badWord (s : State) (c : Course) (a : Nat) : Bool :=
  (List.range 4).any fun i => (heldGet c.heldS (a + i)).isNone && (s.window c).bad.contains (a + i)

/-- The fault of a scratch word with uncorrectable threads beside its misaligned ones: ALIGN comes first (R105, R221). -/
def memFault (align : Option FaultInfo) (bad : List Acc) : Option FaultInfo :=
  if bad.isEmpty then align
  else match align with
    | some f => some { f with mask := f.mask ||| accMask bad }
    | none => some { cause := cMEMERR, mask := accMask bad }

/-- What the links make of a thread's atomic (R383, R384). -/
def State.lostAt (s : State) (c : Course) (a : Acc) : Option (Nat × Bool) :=
  match s.translate c.who a.addr.toNat true with | .ok x => s.loanLoss (x.loc / 64) | .error _ => none

/-- The packets of some accesses to a lender's lines (R383). -/
def State.loanPackets (s : State) (c : Course) (accs : List Acc) : State := s.loanStores c.who s.cur (accs.map fun a => a.addr.toNat)

/-- The fault of an atomic word with a result some of whose threads were lost on their way to a lender: LINKF where one was dropped,
else INDET; a fault of R105 comes first (R105, R385). -/
def linkFault (fault : Option FaultInfo) (lost : List (Acc × Nat)) : Option FaultInfo :=
  let mask := accMask (lost.map (·.1))
  if lost.isEmpty then fault
  else match fault with
    | some f => some { f with mask := f.mask ||| mask }
    | none => some { cause := if lost.any fun x => x.2 == cLINKF then cLINKF else cINDET, mask := mask }

/-- An atomic word: reads lists its operand codes, upd gives each thread's update, dst whether D receives the old value
(R219, R220). -/
def State.atomWord (s : State) (w : Single) (operands : List (BitVec 8)) (dst : Bool)
    (upd : Env → Nat → Word → Word × Num.Flags) : State :=
  let c := s.me
  let g := c.core.guard w.ng
  let scr := w.mod.getLsbD 7
  let scope := w.scope.toNat
  let acq := w.mod.getLsbD 8
  let rel := w.mod.getLsbD 9
  match s.issue g ((w.a :: operands).map fun r => (r, g)) with
  | .error x => s.stop x
  | .ok e =>
    let act := e.guard w.ng
    let off := e.src 1 0 w.a
    let scale := scaleOf (w.mod.toNat / 16)
    let done (r : State × List (Nat × Word) × Nat × Num.Flags) (good : List Acc) (viol : Mask)
        (fault : Option FaultInfo) : State :=
      let s := if acq && !good.isEmpty then r.1.acquire r.1.cur r.2.2.1 else r.1
      let s := s.finish e (if dst then [keyOf w.d] else []) fault fun k =>
        let k := if dst then k.result e.me.core w.look.toNat false w.d (accMask good) (threadVec r.2.1) else k
        ({ k with fpflags := k.fpflags ||| r.2.2.2 }).scratchFault viol
      if fault.isSome || e.after.isSome then s else s.checkpoint s.cur
    if scr then
      let sp := s.splitScratch c (scratchAccs act off scale w.imm.toInt) 4 true
      let un := sp.good.filter fun a => (s.window c).violates c.heldS a.addr 4 false
      match s.fillScratch { sp with good := sp.good.filter fun a => !un.contains a } with
      | .error x => s.stop x
      | .ok (s, good, fault) =>
        let bad := good.filter fun a => s.badWord c a.addr.toNat
        let fault := memFault fault bad
        let good := good.filter fun a => !bad.contains a
        match if rel then s.releaseEnter s.cur scope else (s, none) with
        | (s, some x) => s.stop x
        | (s, none) =>
          let s := if rel then s.releaseClock s.cur else s.commitS s.cur fun a => good.any fun b => b.addr.toNat / 64 == a / 64
          done (s.atomThreads good fun s a => s.atomScratch a.addr.toNat (upd e a.t)) good
            (accMask (sp.violating ++ un)) fault
    else
      let accs0 := s.globalAccs c act (e.cap w.sel.toNat) (if scope == 4 then pA ||| pM else pA) off scale w.imm.toInt 4 4 true
      let accs := accs0.map fun a =>
        if a.err.isNone && s.badLoad c a.addr.toNat 4 then { a with err := some (.page .memerr) } else a
      match accVerdict accs with
      | .error x => s.stop x
      | .ok fault =>
        let good := goodAccs accs
        let vas := good.map fun a => a.addr.toNat
        match if rel then s.releaseEnter s.cur scope else (s, none) with
        | (s, some x) => s.stop x
        | (s, none) =>
          match s.gateStop (s.atomCharge c scope vas) with
          | some x => s.stop x
          | none =>
            let s := if rel then s.releaseClock s.cur else s.commitG s.cur fun a => vas.any fun v => v / 64 == a / 64
            let lost := good.filterMap fun a => (s.lostAt c a).map fun x => (a, x.1)
            let reach := good.filter fun a => (s.lostAt c a).all (·.2)
            let got := good.filter fun a => (s.lostAt c a).isNone
            done ((s.loanPackets c good).atomThreads reach fun s a => s.atomGlobal a.addr.toNat (scope == 2) (upd e a.t)) got 0
              (if dst then linkFault fault lost else fault)

/-- ATOM. -/
def execAtom (w : Single) (s : State) : Out :=
  .next (s.atomWord w [w.b] true fun e t old => atomOp (w.mod.toNat % 16) w.ty.toNat old ((e.src w.ty.toNat 0 w.b).getD t 0))

/-- ATOMC: the comparison is bitwise. -/
def execAtomc (w : Single) (s : State) : Out :=
  .next (s.atomWord w [w.b, w.c] true fun e t old =>
    (if old == (e.src w.ty.toNat 0 w.b).getD t 0 then (e.src w.ty.toNat 0 w.c).getD t 0 else old, 0))

/-- RED. -/
def execRed (w : Single) (s : State) : Out :=
  .next (s.atomWord w [w.b] false fun e t old => atomOp (w.mod.toNat % 16) w.ty.toNat old ((e.src w.ty.toNat 0 w.b).getD t 0))

/-! WAITC (R222). -/

/-- WAITC: the address and comparand of the lowest active thread; the test does not see the course's held stores. -/
def execWaitc (w : Single) (s : State) : Out :=
  let c := s.me
  let g := c.core.guard w.ng
  let one : Mask := if g == 0 then 0 else BitVec.ofNat 256 (2 ^ lowest g)
  .next (match s.issue g [(w.a, one), (w.b, one)] with
    | .error x => s.stop x
    | .ok e =>
      let act := e.guard w.ng
      if act == 0 then s.finish e [] none id
      else
        let t0 := lowest act
        let cap := e.cap w.sel.toNat
        let ea : Int := (capBase cap : Int) + (e.at w.a t0).toNat * scaleOf (w.mod.toNat / 8) + w.imm.toInt
        let m : Mask := BitVec.ofNat 256 (2 ^ t0)
        match s.useErr c.who cap 0 pA ea 4 4 false with
        | some x => s.stop (x.stop ea m)
        | none =>
          match s.homeRead c.who ea.toNat 4 with
          | .error x => s.stop ((UseErr.page x).stop ea m)
          | .ok (b, wts, s1) =>
            let v := bytesWord b
            if s.badVA c.who ea.toNat 4 then s.stop (.trap { cause := cMEMERR, mask := m, addr := ea.toNat })
            else if waitCond (w.mod.toNat % 8) v (e.at w.b t0) then
              let s1 := if w.mod.getLsbD 7 then s1.acquire s.cur wts
                else s1.modMe fun k => { k with core := { k.core with lobs := max k.core.lobs wts } }
              let s2 := s1.finish e [keyOf w.d] none fun k =>
                k.result e.me.core w.look.toNat false w.d act (List.replicate 256 v)
              if w.mod.getLsbD 7 && e.after.isNone then s2.checkpoint s.cur else s2
            else
              s1.stop (.wait { kind := .word, line := s.watchLine c.who ea.toNat,
                               internal := !(w.mod.getLsbD 6 || s.extPage c.who ea.toNat) }))

/-! Barrier objects (R224 to R229). -/

/-- The status word of a barrier instruction (R226). -/
def barStatus (nrel gen code : Nat) : Word := BitVec.ofNat 32 (min nrel 0xFFFF * 2 ^ 16 + gen % 256 * 2 ^ 8 + code)

/-- The courses that wait on the object at a location. -/
def State.objWaiters (s : State) (loc : Nat) : List Nat :=
  (List.range s.courses.length).filter fun i =>
    (s.course i).alive && (s.course i).lwait.any fun w => w.kind == .barrier && w.obj == some loc

/-- The object of a barrier word: checked, its address, location and bytes. -/
structure BarAt where
  va : Nat
  loc : Nat
  old : List Byte
  wts : Nat
deriving DecidableEq, Repr

/-- The object a barrier word names (R225), with the bits that stand there for the course: a line of its team's open cloned buffer
that is not yet written reads as the front (R251). -/
def State.barAt (s : State) (c : Course) (e : Env) (w : Single) : Except Stop BarAt :=
  let cap := e.cap w.sel.toNat
  let va : Int := (capBase cap : Int) + w.imm.toInt
  let m := e.guard w.ng
  match s.useErr c.who cap 3 pA va 16 16 true with
  | some x => .error (x.stop va m)
  | none =>
    match s.translate c.who va.toNat true with
    | .error x => .error ((UseErr.page x).stop va m)
    | .ok x =>
      if s.badVA c.who va.toNat 16 then .error (.trap { cause := cMEMERR, mask := m, addr := va.toNat })
      else
        let seen := (s.translate c.who va.toNat).toOption.getD x
        .ok { va := va.toNat, loc := x.loc, old := s.locRead seen.loc 16, wts := (s.stampOf (seen.loc / 64)).1 }

/-- The object written by the course at its serialisation point; its waiters test again, unless an arrival is dropped (R230). For an
object in a loan that is a write-bearing packet, which may be lost on its way (R383, R384, log 33). -/
def State.barPut (s : State) (i va : Nat) (o : BarObj) (wake : Bool := true) : State :=
  let s := s.loanStores (s.course i).who i [va]
  if s.lostStore (s.course i).who va then s
  else match s.writeVA (s.course i).who va (barBytes o) wake with
  | .error _ => s
  | .ok (s, t) => s.modCourse i fun c => { c with lclock := max c.lclock t, wmax := max c.wmax t }

/-- The word that has written an object ends: as it would, or where the links lose its packet or the answer with LINKF or INDET and
without its status (R385, log 33). -/
def State.barEnd (s : State) (e : Env) (w : Single) (b : BarAt) (told : State → State) : State :=
  match s.loanLoss (b.loc / 64) with
  | none => told s
  | some (cause, _) => s.finish e [] (some { cause := cause, mask := e.guard w.ng }) id

/-- The thread a barrier word reads its values from (R225). -/
def valueThread (act : Mask) : Nat := if act == 0 then 0 else lowest act

/-- BINIT and BINV (R227): a release, then one step on the object as that leaves it; mk gives the new object from the old one
with GEN, ARRIVED and STALE already moved on. -/
def State.reinit (s : State) (w : Single) (reads : List (BitVec 8)) (scope : BarObj → Nat)
    (mk : Env → BarObj → BarObj) : State :=
  let c := s.me
  let g := c.core.guard w.ng
  let one : Mask := BitVec.ofNat 256 (2 ^ valueThread g)
  match s.issue g (reads.map fun r => (r, one)) with
  | .error x => s.stop x
  | .ok e =>
    match s.barAt c e w with
    | .error x => s.stop x
    | .ok b =>
      match s.releaseEnter s.cur (scope (barOf b.old)) with
      | (s, some x) => s.stop x
      | (s, none) =>
        match s.gateStop (s.class4 c b.va), s.barAt c e w with
        | some x, _ => s.stop x
        | none, .error x => s.stop x
        | none, .ok b =>
          let o := barOf b.old
          let ws := s.objWaiters b.loc
          let cut := (o.isOpen && o.arrived != 0) || !ws.isEmpty
          let o' := mk e { o with gen := (o.gen + 1) % 256, lastbrk := cut, arrived := 0, stale := 0 }
          ((s.releaseClock s.cur).barPut s.cur b.va o').barEnd e w b fun s =>
            let s := s.finishStatus e w.ng w.d w.look.toNat (barStatus ws.length o'.gen 0)
            if e.after.isSome then s else s.checkpoint s.cur

/-- BINIT. -/
def execBinit (w : Single) (s : State) : Out :=
  .next (s.reinit w [w.a] (fun _ => w.scope.toNat) fun e o =>
    let n := (e.at w.a (valueThread (e.guard w.ng))).toNat
    { o with expect := n, state := if n == 0 then 0 else 1, scope := w.scope.toNat, ext := w.mod.getLsbD 0 })

/-- BINV. -/
def execBinv (w : Single) (s : State) : Out := .next (s.reinit w [] (fun o => o.scope) fun _ o => { o with state := 0 })

/-- An object takes arrivals and waits (R224): open with a non-zero count. -/
def BarObj.valid (o : BarObj) : Bool := o.isOpen && o.expect != 0

/-- The wait for a generation (R229), by BWAIT or after a BARV's arrival: it returns with a status, or waits. -/
def State.barrierWait (s : State) (w : Single) (e : Env) (b : BarAt) (g : Nat) : State :=
  let i := s.cur
  let s := s.noteHome s.me.who b.va 16
  let o := barOf b.old
  let back (s : State) (code : Nat) : State :=
    let s := s.modCore fun k => { k with arrivedGen := none }
    let s := s.finishStatus e w.ng w.d w.look.toNat (barStatus 0 g code)
    if e.after.isSome then s else s.checkpoint i
  if o.gen == g then
    if !o.valid then back s 3
    else s.stop (.wait { kind := .barrier, line := s.watchLine s.me.who b.va, obj := some b.loc,
                         internal := !(o.ext || o.scope == 4) })
  else if o.gen == (g + 1) % 256 && o.lastbrk then back s 1
  else back (s.acquire i b.wts) 0

/-- The enrolments of a team whose generation has not ended: these count toward the 8, and one object's generation once (R228; DESIGN
CHOICE, log 110). -/
def State.liveEnrols (s : State) (t : Nat) : List Enrol :=
  (s.team t).enrols.filter fun e =>
    match s.readVA { ctx := e.ctx } e.va 16 with | .ok l => (barOf l).gen == e.gen | .error _ => true

/-- BARV (R228): the release comes first where the arrival counts, and the arrival acts on the object as that leaves it. A course in
no team enrols nothing (DESIGN CHOICE, log 111); one that does not arrive tells the object's present GEN and takes a checkpoint
(R226; DESIGN CHOICE, log 112). -/
def execBarv (w : Single) (s : State) : Out :=
  let c := s.me
  let i := s.cur
  let g := c.core.guard w.ng
  let one : Mask := BitVec.ofNat 256 (2 ^ valueThread g)
  let tag := w.mod.getLsbD 2
  .next (match s.issue g ((w.a, one) :: if tag then [(w.b, one)] else []) with
    | .error x => s.stop x
    | .ok e =>
      match s.barAt c e w with
      | .error x => s.stop x
      | .ok b =>
        match c.core.arrivedGen with
        | some gen => s.barrierWait w e b gen
        | none =>
          let o := barOf b.old
          let t := valueThread (e.guard w.ng)
          let n := if w.a == 0xF1 then 1 else (e.at w.a t).toNat
          let enrol := w.mod.getLsbD 1
          let full := match c.team with
            | some t =>
              let l := s.liveEnrols t
              8 ≤ l.length && !l.any fun x => x.ctx == c.ctx && x.va == b.va && x.gen == o.gen
            | none => false
          let close (s : State) (code : Nat) : State :=
            let s := s.finishStatus e w.ng w.d w.look.toNat (barStatus 0 o.gen code)
            if e.after.isSome then s else s.checkpoint i
          let dropped : Option Nat :=
            if !o.valid then some 3 else if tag && (e.at w.b t).toNat % 256 != o.gen then some 2 else none
          let stands := dropped.isSome || (enrol && full)
          match if stands then (s, none) else s.releaseEnter i o.scope with
          | (s, some x) => s.stop x
          | (s, none) =>
            match s.gateStop (s.class4 c b.va), dropped with
            | some x, _ => s.stop x
            | none, some code => (s.barPut i b.va { o with stale := o.stale + 1 } (wake := false)).barEnd e w b (close · code)
            | none, none =>
              if enrol && full then close s 3
              else match s.barAt c e w with
              | .error x => s.stop x
              | .ok b' =>
                let s := s.releaseClock i
                let s := match enrol && !s.lostStore c.who b.va, c.team with
                  | true, some t =>
                    let l := s.liveEnrols t
                    let me : Enrol := { ctx := c.ctx, va := b.va, gen := o.gen }
                    s.modTeam t fun tm => { tm with enrols := if l.contains me then l else me :: l }
                  | _, _ => s
                let o' := barOf b'.old
                let code := if o'.expect < o'.arrived + n then 4 else 0
                (s.barPut i b.va (o'.arrive n o.gen)).barEnd e w b fun s =>
                  if w.mod.getLsbD 0 then
                    let s := (s.modCore fun k => { k with arrivedGen := some o.gen }).checkpoint i
                    match s.barAt (s.course i) e w with
                    | .error x => s.stop x
                    | .ok b => s.barrierWait w e b o.gen
                  else close s code)

/-- BWAIT. -/
def execBwait (w : Single) (s : State) : Out :=
  let c := s.me
  let g := c.core.guard w.ng
  let one : Mask := BitVec.ofNat 256 (2 ^ valueThread g)
  .next (match s.issue g [(w.a, one)] with
    | .error x => s.stop x
    | .ok e =>
      match s.barAt c e w with
      | .error x => s.stop x
      | .ok b => s.barrierWait w e b ((e.at w.a (valueThread (e.guard w.ng))).toNat / 256 % 256))

end Sys2Proof.Machine
end

