-- ==== Sys2Proof/Machine/LaneSpool.lean ====
section
/-! DEFINITION. The spool instructions (R261 to R279, R438). -/

namespace Sys2Proof.Machine

/-! The control block (R261 to R263). -/

/-- A spool control block. -/
structure SpoolBlk where
  magic : Nat
  esize : Nat
  caplog : Nat
  check : Byte
  head : Nat
  tail : Nat
  free : Nat
  scope : Nat
  ext : Bool
  poison : Bool
  slots : Cap
deriving DecidableEq, Repr

/-- A block from its 64 bytes. -/
def spoolOf (l : List Byte) : SpoolBlk :=
  let n := leNat l
  { magic := n % 2 ^ 16, esize := n / 2 ^ 16 % 8, caplog := n / 2 ^ 19 % 32, check := l.getD 3 0, head := n / 2 ^ 32 % 2 ^ 32,
    tail := n / 2 ^ 64 % 2 ^ 32, free := n / 2 ^ 96 % 2 ^ 32, scope := n / 2 ^ 128 % 8, ext := bit n 131, poison := bit n 132,
    slots := BitVec.ofNat 128 (n / 2 ^ 256) }

/-- CHECK over the static fields of a block's bytes (R262). -/
def spoolCheck (l : List Byte) : Byte :=
  ((l.drop 32).take 16).foldl (· ^^^ ·)
    (0xA5 ^^^ l.getD 0 0 ^^^ l.getD 1 0 ^^^ l.getD 2 0 ^^^ (l.getD 16 0 &&& 0x0F))

/-- The bytes SPINIT writes (R261, R269). -/
def spoolInitBytes (esize caplog scope : Nat) (ext : Bool) (slots : Cap) : List Byte :=
  let n := 0x5B01 + 2 ^ 16 * esize + 2 ^ 19 * caplog + 2 ^ 96 * 2 ^ caplog + 2 ^ 128 * scope + 2 ^ 131 * flagNat ext
    + 2 ^ 256 * slots.toNat
  let l := leBytes 64 n
  leBytes 64 (n + 2 ^ 24 * (spoolCheck l).toNat)

/-- The elements in a block. -/
def SpoolBlk.count (b : SpoolBlk) : Nat := b.tail - b.head

/-- Check 8 of R263 fails: the slot array's capability. -/
def State.slotsBad (s : State) (tenant : Nat) (b : SpoolBlk) : Bool :=
  let es := 4 * 2 ^ b.esize
  capLen b.slots == 0 || (s.validate tenant b.slots).isSome || capKind b.slots != 0
    || capPerm b.slots &&& (pR ||| pW) != pR ||| pW || decide (capLen b.slots < 2 ^ b.caplog * es)
    || capBase b.slots % es != 0

/-- The check of R263 that a block's own fields fail: 9 where it is poisoned, else the lowest. -/
def spoolForm (l : List Byte) : Option Nat :=
  let b := spoolOf l
  if b.poison then some 9
  else if b.magic ≠ 0x5B01 then some 1
  else if b.check ≠ spoolCheck l then some 2
  else if 4 < b.esize then some 3
  else if 24 < b.caplog ∨ b.scope = 0 ∨ 4 < b.scope then some 4
  else if b.tail < b.head then some 5
  else if 2 ^ b.caplog < b.count then some 6
  else if b.free ≠ 2 ^ b.caplog - b.count then some 7
  else none

/-- The check of R263 a block fails for a tenant: 9 where it is poisoned, else the lowest. -/
def State.spoolBad (s : State) (tenant : Nat) (l : List Byte) : Option Nat :=
  (spoolForm l).orElse fun _ => if s.slotsBad tenant (spoolOf l) then some 8 else none

/-- The block of a spool word: its address, its location, its bytes and the write time of its line. -/
structure SpoolAt where
  va : Nat
  loc : Nat
  bytes : List Byte
  wts : Nat
  mask : Mask
deriving DecidableEq, Repr

/-- The block's address and location, checked at issue (R268). Its bytes are taken as the memory holds them: R278 gives no fault
for uncorrectable ones; a page outside the host's windows has R414's MEMERR (log 93). -/
def State.spoolAt (s : State) (e : Env) (w : Single) : Except Stop SpoolAt :=
  let c := s.me
  let cap := e.cap w.sel.toNat
  let va : Int := (capBase cap : Int) + w.imm.toInt
  let m := e.guard w.ng
  match s.useErr c.who cap 1 pA va 64 64 true with
  | some x => .error (x.stop va m)
  | none =>
    match s.translate c.who va.toNat true with
    | .error x => .error ((UseErr.page x).stop va m)
    | .ok x => .ok { va := va.toNat, loc := x.loc, bytes := s.locRead x.loc 64, wts := (s.stampOf (x.loc / 64)).1, mask := m }

/-- The block is cached under the tag of a tenant (R265). -/
def State.spoolCached (s : State) (tenant loc : Nat) : Bool :=
  s.spools.any fun d => d.line == loc / 64 && d.tenant == tenant

/-- The block's descriptor cached for a tenant and a context, as the most recent of its slice; the 33rd pushes out the least
recent, and a cluster unit's hold on the line ends (R265). -/
def State.spoolCache (s : State) (tenant ctx loc : Nat) : State :=
  let line := loc / 64
  let now := s.spools.foldl (fun m d => max m (d.stamp + 1)) 1
  let users := match s.spools.find? fun d => d.line == line with | some d => d.users | none => []
  let users := if users.contains ctx then users else ctx :: users
  let rest := s.spools.filter fun d => d.line != line
  let mine := rest.filter fun d => homeSlice d.line == homeSlice line
  let old := mine.foldl (fun (b : Option SpoolDesc) d =>
    match b with | none => some d | some x => if d.stamp < x.stamp then some d else b) none
  let rest := if 32 ≤ mine.length then rest.filter fun d => some d != old else rest
  let s' := { s with spools := { line := line, tenant := tenant, stamp := now, users := users } :: rest }
  if s.holds.any fun h => h.line == line then { s' with holds := s.holds.filter fun h => h.line != line }.wakeLine line else s'

/-- The home sets POISON in a block it could not load: every course blocked on it is woken (R263, R264). -/
def State.spoolPoison (s : State) (b : SpoolAt) : State :=
  if (spoolOf b.bytes).poison then s
  else (s.writeLine 0 (b.loc / 64) [(b.loc + 16, b.bytes.getD 16 0 ||| 0x10)]).1

/-- The courses blocked on the spool at a location. -/
def State.spoolWaiters (s : State) (loc : Nat) : List Nat :=
  (List.range s.courses.length).filter fun i =>
    (s.course i).alive && (s.course i).lwait.any fun w => w.kind == .spool && w.obj == some loc

/-- The fault of a block the home could not load, naming the active threads (R354). -/
def spoolFault (e : Env) (w : Single) (detail : Nat) : Stop :=
  .trap { cause := cSPCOR, detail := detail, mask := e.guard w.ng }

/-- Blocks of another device cost class 6 (R279). -/
def State.spoolCharge (s : State) (c : Course) (va : Nat) : Charge :=
  rqCharge c.place (if s.onOther c.who va then 3000 else 500)

/-- The word is sent to the home: it is charged, unless a stalled word has been, and the home's answer will credit it
(R438). -/
def State.spoolAsk (s : State) (ch : Charge) : State :=
  (s.keepCharges s.cur [ch]).post .spoolTestReply { num := s.cur, num2 := ch.ns }

/-- A word that changes its block is sent: to a block of another device it is a write-bearing packet, with a number and an outcome
(R276, R383, R384). -/
def State.spoolSend (s : State) (ch : Charge) (b : SpoolAt) : State := (s.spoolAsk ch).loanSent s.cur b.va (b.loc / 64)

/-- The operation passes the gate and reaches its home, or stops (R276, R344, R385): whether it is lost on its way back. asks: it
changes nothing there. -/
def State.spoolReach (s : State) (e : Env) (w : Single) (b : SpoolAt) (asks : Bool := false) : State ⊕ Bool :=
  let ch := s.spoolCharge s.me b.va
  match s.gateStop [ch], s.loanLoss (b.loc / 64) with
  | some x, _ => .inl (s.stop x)
  | none, some (cause, false) =>
    .inl ((if asks then s.spoolAsk ch else s.spoolSend ch b).stop (.trap { cause := cause, mask := e.guard w.ng }))
  | none, some (_, true) => .inr true
  | none, none => .inr false

/-- A word that its home has performed ends with its checkpoint; one whose answer is lost raises INDET and writes no destination
(R385). -/
def State.spoolEnd (s : State) (e : Env) (w : Single) (lost : Bool) (keys : List ShadowKey) (f : Core → Core) : State :=
  if lost then s.finish e [] (some { cause := cINDET, mask := e.guard w.ng }) id
  else (s.finish e keys none f).checkpoint s.cur

/-- A word with a status ends. -/
def State.spoolStatus (s : State) (e : Env) (w : Single) (lost : Bool) (status : Word) : State :=
  s.spoolEnd e w lost [keyOf w.d] fun c =>
    c.result e.me.core w.look.toNat false w.d (s.me.core.guard w.ng &&& ~~~e.marked) (List.replicate 256 status)

/-- A word at its home with the block loaded and sound, and whether its answer will be lost; or its stop (R263, R268). -/
def State.spoolOpen (s : State) (e : Env) (w : Single) : State ⊕ (State × SpoolAt × Bool) :=
  match s.spoolAt e w with
  | .error x => .inl (s.stop x)
  | .ok b =>
    match s.spoolReach e w b with
    | .inl s => .inl s
    | .inr lost =>
      let tenant := (s.context s.me.ctx).tenant
      match if s.spoolCached tenant b.loc then none else s.spoolBad tenant b.bytes with
      | some d => .inl (((s.spoolSend (s.spoolCharge s.me b.va) b).spoolPoison b).stop (spoolFault e w d))
      | none => .inr (s.spoolCache tenant s.me.ctx b.loc, b, lost)

/-- Bytes of the block written at its home, its descriptor kept; the line's monitor wakes (R266, R272). -/
def State.spoolWrite (s : State) (i : Nat) (b : SpoolAt) (off : Nat) (bytes : List Byte) : State :=
  let line := b.loc / 64
  let desc := s.spools.filter fun d => d.line == line
  match s.writeVA (s.course i).who (b.va + off) bytes with
  | .error _ => s
  | .ok (s, t) =>
    let s := s.modCourse i fun c => { c with lclock := max c.lclock t, wmax := max c.wmax t }
    { s with spools := desc ++ s.spools.filter fun d => d.line != line }

/-- New counters of a block (R266). -/
def State.spoolPut (s : State) (i : Nat) (b : SpoolAt) (head tail free : Nat) : State :=
  s.spoolWrite i b 4 (leBytes 4 head ++ leBytes 4 tail ++ leBytes 4 free)

/-- The address of the slot of a counter value (R261). -/
def SpoolBlk.slotVA (b : SpoolBlk) (i : Nat) : Nat := capBase b.slots + i % 2 ^ b.caplog * (4 * 2 ^ b.esize)

/-- What stops the access to some slots through the block's SLOTS capability, if anything: M lacking for a page off the device, or the
page itself (R95, R276, R372). -/
def State.slotErr (s : State) (c : Course) (b : SpoolBlk) (first m : Nat) (write : Bool) (mask : Mask) : Option Stop :=
  (List.range m).findSome? fun k =>
    let va := b.slotVA (first + k)
    (s.useErr c.who b.slots 0 (if write then pW else pR) va (4 * 2 ^ b.esize) (4 * 2 ^ b.esize) write).map fun x => x.stop va mask

/-! SPINIT (R269). -/

/-- SPINIT. -/
def execSpinit (w : Single) (s : State) : Out :=
  let c := s.me
  let i := s.cur
  let esz := w.mod.toNat % 8
  let cl := w.mod.toNat / 8 % 32
  let es := 4 * 2 ^ esz
  .next (match s.issue 0 [] with
    | .error x => s.stop x
    | .ok e =>
      match s.spoolAt e w with
      | .error x => s.stop x
      | .ok b =>
        let slots := e.cap (w.sel.toNat + 1)
        match s.useErr c.who slots 0 (pR ||| pW) (capBase slots) (2 ^ cl * es) es true with
        | some x => s.stop (x.stop (capBase slots) (e.guard w.ng))
        | none =>
          match s.releaseEnter i w.scope.toNat with
          | (s, some x) => s.stop x
          | (s, none) =>
            match s.spoolReach e w b, s.spoolAt e w with
            | .inl s, _ => s
            | .inr _, .error x => s.stop x
            | .inr lost, .ok b =>
              let tenant := (s.context c.ctx).tenant
              let old := if s.spoolCached tenant b.loc || (s.spoolBad tenant b.bytes).isNone
                then (spoolOf b.bytes).count else 0
              let woken := (s.spoolWaiters b.loc).length
              let s := (s.spoolSend (s.spoolCharge c b.va) b).spoolWrite i b 0
                (spoolInitBytes esz cl w.scope.toNat (w.mod.getLsbD 8) slots)
              ((s.spoolCache tenant c.ctx b.loc).releaseClock i).spoolStatus e w lost
                (BitVec.ofNat 32 (min woken 0xFFFF * 2 ^ 16 + min old 0xFFFF)))

/-! ENQ, DEQ, ENQT, DEQT (R270 to R272). -/

/-- The word blocks on the monitor of the block line (R272). -/
def State.spoolBlock (s : State) (b : SpoolAt) (blk : SpoolBlk) : State :=
  s.stop (.wait { kind := .spool, line := s.watchLine s.me.who b.va, obj := some b.loc, internal := !blk.ext })

/-- A block after m more elements have entered (R266). -/
def SpoolBlk.enqueued (b : SpoolBlk) (m : Nat) : SpoolBlk :=
  let back := if 2 ^ 32 ≤ b.tail + m then 2 ^ 31 else 0
  { b with head := b.head - back, tail := b.tail + m - back, free := b.free - m }

/-- Elements of the first threads put into the slots from TAIL on, and the counters moved on (R266, R270). -/
def State.spoolFill (s : State) (b : SpoolAt) (blk : SpoolBlk) (elems : List (List Byte)) : State :=
  let i := s.cur
  let m := elems.length
  let s := elems.zipIdx.foldl (fun s el =>
    match s.writeVA (s.course i).who (blk.slotVA (blk.tail + el.2)) el.1 with
    | .error _ => s
    | .ok (s, t) => s.modCourse i fun c => { c with lclock := max c.lclock t, wmax := max c.wmax t }) s
  let n := blk.enqueued m
  s.spoolPut i b n.head n.tail n.free

/-- The word at its home, tested: its block loaded and sound, ESZ and the count checked, room or elements there, the slots' pages
usable. Answers the block, the number of elements that move, and whether the answer will be lost; or the word's stop (R263, R268,
R270 to R272, R276). -/
def State.spoolTest (s : State) (e : Env) (w : Single) (enq part : Bool) : State ⊕ (State × SpoolAt × Nat × Bool) :=
  match s.spoolOpen e w with
  | .inl s => .inl s
  | .inr (s1, b, lost) =>
    let blk := spoolOf b.bytes
    let n := (threadsOf (e.guard w.ng)).length
    let sent := s1.spoolSend (s.spoolCharge s.me b.va) b
    let room := if enq then blk.free else blk.count
    let m := if part then min n room else n
    if w.mod.toNat % 8 ≠ blk.esize ∨ (¬part ∧ 2 ^ blk.caplog < n) then
      .inl (sent.stop (.trap { cause := cCAPF, detail := 8, mask := b.mask, addr := b.va }))
    else if (if part then w.mod.getLsbD 3 && m == 0 && n != 0 else decide (room < n)) then .inl (sent.spoolBlock b blk)
    else match s1.slotErr s.me blk (if enq then blk.tail else blk.head) m enq b.mask with
    | some x => .inl (sent.stop x)
    | none => .inr (s1, b, m, lost)

/-- The common frame of the four: enq whether elements enter, part whether the word takes what fits (R271). The release of an ENQ
comes once the test holds, and the test is made again after it, for its stores may have reached the block (R270). An ENQ that pops a
partly marked entry faults and enqueues nothing (R278). -/
def State.spoolMove (s : State) (w : Single) (enq part : Bool) : State :=
  let c := s.me
  let i := s.cur
  let g := c.core.guard w.ng
  let W := 2 ^ (w.mod.toNat % 8)
  let regs := (List.range W).map fun j => plusCode w.d j
  if part && 16 ≤ c.core.preds.length then s.stop (.trap { cause := cPSOV })
  else match s.issue g (if enq then regs.map fun r => (r, g) else []) with
  | .error x => s.stop x
  | .ok e =>
    if e.after.isSome then s.finish e [] none id
    else match s.spoolTest e w enq part with
    | .inl s => s
    | .inr found =>
    match if enq then found.1.releaseEnter i (spoolOf found.2.1.bytes).scope else (found.1, none) with
    | (s, some x) => s.stop x
    | (s, none) =>
    match if enq then s.spoolTest e w enq part else .inr found with
    | .inl s => s
    | .inr (s1, b, m, lost) =>
      let blk := spoolOf b.bytes
      let ch := s1.spoolCharge c b.va
      let moved := (threadsOf (e.guard w.ng)).take m
      let mask : Mask := maskOf 256 fun t => moved.contains t
      let push (k : Core) : Core := if part then { k with preds := mask :: k.preds } else k
      if enq then
        let elems := moved.map fun t => regs.flatMap fun r => wordBytes ((e.src 0 0 r).getD t 0)
        (((s1.spoolSend ch b).releaseClock i).spoolFill b blk elems).spoolEnd e w lost [] push
      else
        let rd (k : Nat) : List Byte := (s1.readVA c.who (blk.slotVA (blk.head + k)) (4 * W)).toOption.getD []
        let vals := moved.zipIdx.map fun (t, k) => (t, loadRegs 0 (rd k))
        let err (j : Nat) : Mask := maskOf 256 fun t => moved.zipIdx.any fun (u, k) =>
          u == t && s1.badVA c.who (blk.slotVA (blk.head + k) + 4 * j) 4
        let s2 := (List.range m).foldl (fun s k => s.noteHome c.who (blk.slotVA (blk.head + k)) (4 * W)) s1
        let s := (s2.spoolSend ch b).spoolPut i b (blk.head + m) blk.tail (blk.free + m)
        (s.acquire i b.wts).spoolEnd e w lost (regs.map keyOf) fun k =>
          push (k.writeLoads e.me.core w.look.toNat w.d W mask vals err)

/-- ENQ. -/
def execEnq (w : Single) (s : State) : Out := .next (s.spoolMove w true false)

/-- DEQ. -/
def execDeq (w : Single) (s : State) : Out := .next (s.spoolMove w false false)

/-- ENQT. -/
def execEnqt (w : Single) (s : State) : Out := .next (s.spoolMove w true true)

/-- DEQT. -/
def execDeqt (w : Single) (s : State) : Out := .next (s.spoolMove w false true)

/-! SPQRY, SPFLS (R274, R275). -/

/-- The value SPQRY gives (R274). -/
def spoolField (b : SpoolBlk) (blocked what : Nat) : Word :=
  BitVec.ofNat 32 (match what with
    | 0 => b.count
    | 1 => b.free
    | 2 => b.head
    | 3 => b.tail
    | _ => min blocked 0xFFFF * 2 ^ 16 + b.caplog * 2 ^ 8 + b.esize * 2 ^ 5 + b.scope * 4 + flagNat b.ext * 2 + flagNat b.poison)

/-- SPQRY: a read of the block at its home (R242, R274). -/
def execSpqry (w : Single) (s : State) : Out :=
  let c := s.me
  let what := w.mod.toNat % 8
  .next (match s.issue 0 [] with
    | .error x => s.stop x
    | .ok e =>
      match s.spoolAt e w with
      | .error x => s.stop x
      | .ok b =>
        match s.spoolReach e w b true with
        | .inl s => s
        | .inr lost =>
          let ch := s.spoolCharge c b.va
          let tenant := (s.context c.ctx).tenant
          let blocked := (s.spoolWaiters b.loc).length
          let s := s.noteHome c.who b.va 64
          match if s.spoolCached tenant b.loc then none else s.spoolBad tenant b.bytes with
          | none =>
            let s := (s.spoolAsk ch).spoolCache tenant c.ctx b.loc
            s.spoolStatus e w lost (spoolField (spoolOf b.bytes) blocked what)
          | some d =>
            let s := (s.spoolAsk ch).spoolPoison b
            if what < 4 then s.stop (spoolFault e w d)
            else s.spoolStatus e w lost (spoolField { spoolOf b.bytes with poison := true } blocked what))

/-- SPFLS: the line holds the descriptor's state already; the descriptor is dropped. -/
def execSpfls (w : Single) (s : State) : Out :=
  let c := s.me
  .next (match s.issue 0 [] with
    | .error x => s.stop x
    | .ok e =>
      match s.spoolAt e w with
      | .error x => s.stop x
      | .ok b =>
        match s.spoolReach e w b with
        | .inl s => s
        | .inr lost =>
          let s := s.spoolSend (s.spoolCharge c b.va) b
          if (spoolOf b.bytes).poison then s.stop (spoolFault e w 9)
          else if s.spools.any fun d => d.line == b.loc / 64 then
            -- every spool operation other than SPQRY writes the line and wakes its waiters (R272)
            ({ s with spools := s.spools.filter fun d => d.line != b.loc / 64 }.wakeLine (b.loc / 64)).spoolStatus e w lost 0
          else s.spoolStatus e w lost 1)

/-- SPOOL_TEST_REPLY: the home's report reaches the core and the charge is credited (R438). subj: num the course, num2 the
charge in ns. -/
def execSpoolTestReply (s : State) : Out :=
  let c := s.course s.subj.num
  .next (s.credit c.ctx [rqCharge c.place s.subj.num2])

end Sys2Proof.Machine
end

