-- ==== Sys2Proof/Machine/LaneOrder.lean ====
section
/-! DEFINITION. The ordering instructions: fences, releases and acquires, over regions too, and publishable buffers
(R245 to R253). -/

namespace Sys2Proof.Machine

/-! FENCE, ACQ, REL (R246 to R248). -/

/-- The largest lease end of a copy that may serve a load of the course: in its L1, among the remote lines its tenant's loads have
brought into the L2, and in its team's stash (R243, R248, R376). -/
def State.maxLease (s : State) (c : Course) : Nat :=
  let tenant := (s.context c.ctx).tenant
  let m := s.l1.foldl (fun m l => if l.place == c.place then max m l.lease else m) 0
  let m := s.remote.foldl (fun m r => if r.tenant == tenant then max m r.lease else m) m
  (s.window c).stash.foldl (fun m q => q.2.filled.foldl (fun m f => f.homes.foldl (fun m h => max m h.lease) m) m) m

/-- A release at a scope, then an effect, then the checkpoint of R181. -/
def State.releaseWord (s : State) (scope : Nat) (f : State → State) : State :=
  match s.issue 0 [] with
  | .error x => s.stop x
  | .ok e =>
    match s.releaseEnter s.cur scope with
    | (s, some x) => s.stop x
    | (s, none) => ((f (s.releaseClock s.cur)).finish e [] none id).checkpoint s.cur

/-- FENCE: the clock passes every lease end, so that later loads are served at their homes. -/
def execFence (w : Single) (s : State) : Out :=
  .next (s.releaseWord w.scope.toNat fun s =>
    let s := s.acquire s.cur 0
    s.modMe fun c => { c with lclock := max c.lclock (s.maxLease c + 1) })

/-- ACQ. -/
def execAcq (_w : Single) (s : State) : Out :=
  .next (match s.issue 0 [] with
    | .error x => s.stop x
    | .ok e => ((s.acquire s.cur 0).finish e [] none id).checkpoint s.cur)

/-- REL. -/
def execRel (w : Single) (s : State) : Out := .next (s.releaseWord w.scope.toNat id)

/-! ACQR, RELR (R249). -/

/-- The regions a word names: base and length; a null capability names none. -/
def regionsOf (e : Env) (w : Single) : List (Nat × Nat) :=
  (((List.range (w.mod.toNat % 4 + 1)).map fun j => e.cap (w.sel.toNat + j)).filter fun c => capLen c != 0).map fun c =>
    (capBase c, capLen c)

/-- Some non-null named capability has a KIND other than 0. -/
def regionKindBad (e : Env) (w : Single) : Bool :=
  (List.range (w.mod.toNat % 4 + 1)).any fun j =>
    capLen (e.cap (w.sel.toNat + j)) != 0 && capKind (e.cap (w.sel.toNat + j)) != 0

/-- An address lies in some region. -/
def inRegions (rs : List (Nat × Nat)) (a : Nat) : Bool := rs.any fun r => r.1 ≤ a && a < r.1 + r.2

/-- n bytes from an address meet some region. -/
def meetsRegions (rs : List (Nat × Nat)) (a n : Nat) : Bool := rs.any fun r => decide (a < r.1 + r.2) && decide (r.1 < a + n)

/-- Acquire over regions: a region clock of LOBS for each, newest first; a displaced one is merged into the clock. -/
def State.acquireRegions (s : State) (i : Nat) (rs : List (Nat × Nat)) : State :=
  s.modCourse i fun c =>
    let all := (rs.map fun r => { base := r.1, len := r.2, time := c.core.lobs : Region }).reverse ++ c.core.regions
    { c with lclock := (all.drop 4).foldl (fun m r => max m r.time) c.lclock,
             core := { c.core with lobs := 0, regions := all.take 4 } }

/-- ACQR. -/
def execAcqr (w : Single) (s : State) : Out :=
  .next (match s.issue 0 [] with
    | .error x => s.stop x
    | .ok e =>
      if regionKindBad e w then s.stop (.trap { cause := cCAPF, detail := 2, mask := e.guard w.ng })
      else ((s.acquireRegions s.cur (regionsOf e w)).finish e [] none id).checkpoint s.cur)

/-- A part of a copy writes into some region. -/
def Part.meets (rs : List (Nat × Nat)) (p : Part) : Bool :=
  match p.dst with | .global _ va => meetsRegions rs va p.outLen | .scratch _ _ => false

/-- What a release over regions waits for: the writes inside them alone, held bytes and stash bytes whose loan moves among them
(R246, R249, R392). -/
def State.regionWait (s : State) (i scope : Nat) (rs : List (Nat × Nat)) : Option Stop :=
  let remote := s.outstanding.any fun o =>
    o.course == i && o.writes && o.packet.accs.any fun a => meetsRegions rs a.addr a.size
  let engine := s.jobs.any fun j => !j.finished && j.parts.any fun p => p.course == some i && !p.done && p.meets rs
  let sent := (s.course i).sent.filter fun p => p.ranges.any fun r => meetsRegions rs r.1 r.2
  if scope == 4 && remote then some (.wait { kind := .remote })
  else if scope == 4 && sent.any (·.outcome == .dropped) then some (.trap { cause := cLINKF })
  else if scope == 4 && sent.any (·.outcome == .indet) then some (.trap { cause := cINDET })
  else if s.moveHeld i (inRegions rs) then some (.wait { kind := .writes, internal := false })
  else if (s.course i).remoteBad.any (fun b => b.cause == cMEMERR && meetsRegions rs (b.addr / 64 * 64) 64) then
    some (.wait { kind := .writes })
  else if let some x := if scope < 2 then none else s.stashLeft i (inRegions rs) then some x
  else if engine || s.heldWrites.any (fun w => s.heldFor.any fun h =>
      h.line == w.1 / 64 && h.ctx == (s.course i).ctx && meetsRegions rs h.va 64) then some (.wait { kind := .writes })
  else none

/-- The global address of a scratch byte of a stash range, for the ranges mapped into some regions (R201, R249). -/
def Team.stashIn (t : Team) (rs : List (Nat × Nat)) (off : Nat) : Bool :=
  (t.stashAt off).any fun q => inRegions rs (q.2.va + (off - q.2.scr))

/-- The writes a release over regions makes: the held stores inside them, those to stash lines mapped there among them, and at
cluster scope or wider the dirty stash bytes. -/
def State.regionPrep (s : State) (i scope : Nat) (rs : List (Nat × Nat)) : State :=
  let s := s.commitG i (inRegions rs)
  match (s.course i).team with
  | none => s
  | some t =>
    let s := s.commitS i ((s.team t).stashIn rs)
    if scope < 2 then s else (s.stashFlush t (fun _ va => inRegions rs va) (s.course i).lclock (some i)).1

/-- A release over regions begins: its writes are under way, and what it still waits for. -/
def State.regionEnter (s : State) (i scope : Nat) (rs : List (Nat × Nat)) : State × Option Stop :=
  let p := s.regionPrep i scope rs
  (p, p.regionWait i scope rs)

/-- Its clock passes the write times of the engine writes inside the regions; those of its other writes have raised it. -/
def State.regionClock (s : State) (i : Nat) (rs : List (Nat × Nat)) : State :=
  s.modCourse i fun c => { c with lclock := max c.lclock (s.engineWts i fun p => p.meets rs) }

/-- RELR. -/
def execRelr (w : Single) (s : State) : Out :=
  .next (match s.issue 0 [] with
    | .error x => s.stop x
    | .ok e =>
      if regionKindBad e w then s.stop (.trap { cause := cCAPF, detail := 2, mask := e.guard w.ng })
      else match s.regionEnter s.cur w.scope.toNat (regionsOf e w) with
      | (s, some x) => s.stop x
      | (s, none) => ((s.regionClock s.cur (regionsOf e w)).finish e [] none id).checkpoint s.cur)

/-! SHDW, PUBL (R250 to R253). -/

/-- The buffer a word names: its capability's base, its entry, none where they are no buffer, and the write time of the entry
of a publishable page. -/
structure BufAt where
  va : Nat
  buf : Option (Nat × Pub)
  wts : Option Nat
deriving DecidableEq, Repr

/-- The capability and the entry of SHDW and PUBL checked (R252). -/
def State.bufAt (s : State) (e : Env) (w : Single) : Except Stop BufAt :=
  let c := s.me
  let cap := e.cap w.sel.toNat
  let va := capBase cap
  let m := e.guard w.ng
  match capCheck cap 0 (pP ||| pW) va 1 64 with
  | some f => .error ((UseErr.cap f).stop va m)
  | none =>
    if capPerm cap &&& pM == 0 && s.leavesDevice c.who va 1 then .error ((UseErr.cap ⟨3, 3, 3⟩).stop va m)
    else match s.leafFor c.who va with
    | .error r => .error ((UseErr.page (.xltf r)).stop va m)
    | .ok (leaf, _) =>
      let i := leaf.toNat / 2 ^ 56
      let p := (s.context c.ctx).pubEntry i
      .ok { va := va, buf := if leaf.getLsbD 11 && p.vlen != 0 && p.vbase == va && p.vlen == capLen cap then some (i, p) else none,
            wts := if leaf.getLsbD 11 then some p.wts else none }

/-- An entry of the current context's publish table written at its home, at write time T, which passes every lease a reader
of the selector may hold (R242, R251, log 5). -/
def State.setPub (s : State) (i : Nat) (f : Nat → Pub → Pub) : State :=
  let c := s.me
  let seen := s.courses.foldl (fun m d => if d.ctx == c.ctx then d.core.regions.foldl (fun m r => max m r.time) (max m d.lclock) else m) 0
  let p := (s.context c.ctx).pubEntry i
  let T := max c.lclock (max p.wts (seen + (Config.leaseRaw (s.free * 2 ^ 128 + i)).toNat + 1) + 1)
  let s := s.modCtx c.ctx fun x => { x with pub := (i, f T { p with wts := T }) :: x.pub.filter fun q => q.1 != i }
  s.modMe fun c => { c with lclock := max c.lclock T, wmax := max c.wmax T }

/-- The clocks of a context's courses and of its copies pass the flips of a buffer that is opened again: its older front is written
from now on, and nobody may see it any more. The rise is one that R241 allows at any time (DESIGN CHOICE, log 131). -/
def State.passFlips (s : State) (ctx : Nat) (p : Pub) : State :=
  let t := p.flips.foldl max 0
  { s with courses := s.courses.map fun c => if c.ctx == ctx then { c with lclock := max c.lclock t } else c,
           jobs := s.jobs.map fun j =>
             if j.ctx == ctx then { j with parts := j.parts.map fun q => { q with clk := max q.clk t } } else j }

/-- SHDW: a course in no team has no team to own the buffer: the status is a free value and the buffer stays closed
(log 13). -/
def execShdw (w : Single) (s : State) : Out :=
  let c := s.me
  .next (match s.issue 0 [] with
    | .error x => s.stop x
    | .ok e =>
      match s.bufAt e w with
      | .error x => s.stop x
      | .ok b =>
        match s.gateStop (s.class4 c b.va) with
        | some x => s.stop x
        | none =>
          -- the entry's write time is acquired whatever the status; a page that is not publishable has no entry
          let s := match b.wts with | some t => s.acquire s.cur t | none => s
          match b.buf with
          | none => s.finishCkpt e w.ng w.d 0 3
          | some (i, p) =>
            if p.isOpen then s.finishCkpt e w.ng w.d 0 (if c.team == some p.team then 2 else 1)
            else match c.team with
            | none => s.finishCkpt e w.ng w.d 0 (Config.openWord s.free)
            | some t =>
              let s := (s.passFlips c.ctx p).setPub i fun _ p =>
                { p with isOpen := true, clone := w.mod.getLsbD 0, owner := placeReg c.place % 256, slot := (s.team t).slot, team := t,
                         lines := [], flips := [] }
              s.finishCkpt e w.ng w.d 0 0)

/-- Engine writes into a buffer that courses of a team have issued (R253). -/
def State.bufferWrites (s : State) (t : Nat) (p : Pub) : Bool :=
  s.jobs.any fun j => !j.finished && j.parts.any fun q =>
    !q.done && (j.team == some t || q.course.any fun i => (s.course i).team == some t) && q.meets [(p.vbase, p.vlen)]

/-- The copies of a line of an open buffer, front and back. -/
def State.bufferLine (s : State) (c : Course) (p : Pub) (va : Nat) : Option (Nat × Nat) :=
  match s.leafFor c.who va with | .ok (e, log) => s.pubCopies p va e log | .error _ => none

/-- What keeps a line of a cloned buffer from being copied to its back: an absent page, a loan that moves (R108, R253, R392). -/
def State.cloneErr (s : State) (c : Course) (p : Pub) : Option (Nat × XErr) :=
  (List.range (p.vlen / 64)).findSome? fun k =>
    let va := p.vbase + 64 * k
    if p.lines.contains (va / 64) then none
    else match s.leafFor c.who va with
    | .error r => some (va, .xltf r)
    | .ok (e, log) => [false, true].findSome? fun b =>
        match s.placeAt e (va % 2 ^ log + if b then 2 ^ log else 0) 64 with | .error x => some (va, x) | .ok _ => none

/-- The back lines of a cloned buffer not written since the open, copied from the front by the course (R253); the monitors of its team
on them follow. -/
def State.completeClone (s : State) (i : Nat) (p : Pub) : State :=
  (List.range (p.vlen / 64)).foldl (fun s k =>
    let va := p.vbase + 64 * k
    if p.lines.contains (va / 64) then s
    else match s.bufferLine (s.course i) p va with
    | none => s
    | some (front, back) =>
      let leaf := match s.leafFor (s.course i).who va with | .ok (e, _) => e | .error _ => 0
      let s := ((s.l2Access (s.course i).ctx va (front / 64) leaf 0 false).l2Access (s.course i).ctx va (back / 64) leaf 0 true).readLine
        (front / 64) (s.course i).lclock
      let s := s.moveWatch p.team (front / 64) (back / 64)
      let (s, t) := s.writeLocs (s.course i).lclock (cellsAt back (s.locRead front 64))
      s.modCourse i fun c => { c with lclock := max c.lclock t, wmax := max c.wmax t }) s

/-- The largest write time of the back lines written since the open: the flip is no earlier, so that no copy of an older version
of them outlives it (R243, R253). -/
def State.backWts (s : State) (c : Course) (p : Pub) : Nat :=
  p.lines.foldl (fun m l =>
    match s.bufferLine c p (64 * l) with | some (_, back) => max m (s.stampOf (back / 64)).1 | none => m) 0

/-- The buffer's back copy published or dropped: the flip is the write of its entry (R253). Where it is dropped, its team's waits on a
line test again: they watched the copy that the team accesses no more (log 131). -/
def State.flip (s : State) (i : Nat) (drop : Bool) : State :=
  let p := (s.context s.me.ctx).pubEntry i
  let s := if !drop && p.clone then s.completeClone s.cur p else s
  let s := if drop then s else s.modMe fun c => { c with lclock := max c.lclock (s.backWts c p) }
  let s := s.setPub i fun T p =>
    { p with isOpen := false, clone := false, lines := [], selb := if drop then p.selb else !p.selb,
             flips := if drop then p.flips else T :: p.flips }
  if drop then s.wakeIf fun _ c w => c.team == some p.team && w.line.isSome else s

/-- PUBL: a buffer that the team has not open takes no release; a line that cannot be copied stops the word before the flip. -/
def execPubl (w : Single) (s : State) : Out :=
  let c := s.me
  let drop := w.mod.getLsbD 0
  .next (match s.issue 0 [] with
    | .error x => s.stop x
    | .ok e =>
      match s.bufAt e w with
      | .error x => s.stop x
      | .ok b =>
        let mine := b.buf.filter fun q => q.2.isOpen && c.team == some q.2.team
        match if mine.isSome then s.releaseEnter s.cur w.scope.toNat else (s, none) with
        | (s, some x) => s.stop x
        | (s, none) =>
          if mine.any fun q => s.bufferWrites q.2.team q.2 then s.stop (.wait { kind := .writes })
          else match s.gateStop (s.class4 c b.va) with
          | some x => s.stop x
          | none =>
            match mine with
            | none => s.finishCkpt e w.ng w.d 0 (if b.buf.isNone then 3 else 1)
            | some (i, p) =>
              match if !drop && p.clone then s.cloneErr (s.course s.cur) p else none with
              | some (va, x) => s.stop ((UseErr.page x).stop va (e.guard w.ng))
              | none => ((s.releaseClock s.cur).flip i drop).finishCkpt e w.ng w.d 0 (if drop then 2 else 0))

end Sys2Proof.Machine
end

