-- ==== Sys2Proof/Machine/ScalarAlu.lean ====
section
/-! DEFINITION. The scalar arithmetic words: the SR group and the immediate operations (R73, R74). -/

namespace Sys2Proof.Machine

/-- x[n] of the current course. -/
def State.x (s : State) (n : BitVec 5) : Word := s.me.core.x n.toNat

/-- A scalar word whose effect is x[d] := v. -/
def State.scalarSet (s : State) (d : BitVec 5) (v : Word) : Out := .next (s.scalarNext fun c => c.setX d.toNat v)

/-- A truth value as a word. -/
def boolWord (b : Bool) : Word := if b then 1 else 0

/-- ADD. -/
def execAdd (d a b : BitVec 5) (s : State) : Out := s.scalarSet d (s.x a + s.x b)

/-- SUB. -/
def execSub (d a b : BitVec 5) (s : State) : Out := s.scalarSet d (s.x a - s.x b)

/-- AND. -/
def execAnd (d a b : BitVec 5) (s : State) : Out := s.scalarSet d (s.x a &&& s.x b)

/-- OR. -/
def execOr (d a b : BitVec 5) (s : State) : Out := s.scalarSet d (s.x a ||| s.x b)

/-- XOR. -/
def execXor (d a b : BitVec 5) (s : State) : Out := s.scalarSet d (s.x a ^^^ s.x b)

/-- SHL by x[b][4:0]. -/
def execShl (d a b : BitVec 5) (s : State) : Out := s.scalarSet d (s.x a <<< ((s.x b).toNat % 32))

/-- SHR by x[b][4:0]. -/
def execShr (d a b : BitVec 5) (s : State) : Out := s.scalarSet d (s.x a >>> ((s.x b).toNat % 32))

/-- SRA by x[b][4:0]. -/
def execSra (d a b : BitVec 5) (s : State) : Out := s.scalarSet d ((s.x a).sshiftRight ((s.x b).toNat % 32))

/-- MUL, low word. -/
def execMul (d a b : BitVec 5) (s : State) : Out := s.scalarSet d (s.x a * s.x b)

/-- MULH, high word of the signed product. -/
def execMulh (d a b : BitVec 5) (s : State) : Out := s.scalarSet d (BitVec.ofInt 32 ((s.x a).toInt * (s.x b).toInt / 2 ^ 32))

/-- MULHN, high word of the unsigned product. -/
def execMulhn (d a b : BitVec 5) (s : State) : Out := s.scalarSet d (BitVec.ofNat 32 ((s.x a).toNat * (s.x b).toNat / 2 ^ 32))

/-- DIVN. -/
def execDivn (d a b : BitVec 5) (s : State) : Out := s.scalarSet d (if s.x b = 0 then 0xFFFFFFFF else s.x a / s.x b)

/-- REMN. -/
def execRemn (d a b : BitVec 5) (s : State) : Out := s.scalarSet d (if s.x b = 0 then s.x a else s.x a % s.x b)

/-- MIN. -/
def execMin (d a b : BitVec 5) (s : State) : Out := s.scalarSet d (if (s.x a).slt (s.x b) then s.x a else s.x b)

/-- MAX. -/
def execMax (d a b : BitVec 5) (s : State) : Out := s.scalarSet d (if (s.x a).slt (s.x b) then s.x b else s.x a)

/-- MINN. -/
def execMinn (d a b : BitVec 5) (s : State) : Out := s.scalarSet d (if (s.x a).ult (s.x b) then s.x a else s.x b)

/-- MAXN. -/
def execMaxn (d a b : BitVec 5) (s : State) : Out := s.scalarSet d (if (s.x a).ult (s.x b) then s.x b else s.x a)

/-- SLT. -/
def execSlt (d a b : BitVec 5) (s : State) : Out := s.scalarSet d (boolWord ((s.x a).slt (s.x b)))

/-- SLTN. -/
def execSltn (d a b : BitVec 5) (s : State) : Out := s.scalarSet d (boolWord ((s.x a).ult (s.x b)))

/-- SEQ. -/
def execSeq (d a b : BitVec 5) (s : State) : Out := s.scalarSet d (boolWord (s.x a == s.x b))

/-- CLZ, 32 for zero. -/
def execClz (d a : BitVec 5) (s : State) : Out := s.scalarSet d (BitVec.ofNat 32 (Num.eClz 32 (s.x a).toNat))

/-- POPC. -/
def execPopc (d a : BitVec 5) (s : State) : Out := s.scalarSet d (BitVec.ofNat 32 (Num.ePopc 32 (s.x a).toNat))

/-- ADDI. -/
def execAddi (d a : BitVec 5) (imm : BitVec 16) (s : State) : Out := s.scalarSet d (s.x a + imm.signExtend 32)

/-- ANDI. -/
def execAndi (d a : BitVec 5) (imm : BitVec 16) (s : State) : Out := s.scalarSet d (s.x a &&& imm.setWidth 32)

/-- ORI. -/
def execOri (d a : BitVec 5) (imm : BitVec 16) (s : State) : Out := s.scalarSet d (s.x a ||| imm.setWidth 32)

/-- XORI. -/
def execXori (d a : BitVec 5) (imm : BitVec 16) (s : State) : Out := s.scalarSet d (s.x a ^^^ imm.setWidth 32)

/-- SHLI. -/
def execShli (d a : BitVec 5) (sh : BitVec 5) (s : State) : Out := s.scalarSet d (s.x a <<< sh.toNat)

/-- SHRI. -/
def execShri (d a : BitVec 5) (sh : BitVec 5) (s : State) : Out := s.scalarSet d (s.x a >>> sh.toNat)

/-- SRAI. -/
def execSrai (d a : BitVec 5) (sh : BitVec 5) (s : State) : Out := s.scalarSet d ((s.x a).sshiftRight sh.toNat)

/-- SLTI. -/
def execSlti (d a : BitVec 5) (imm : BitVec 16) (s : State) : Out := s.scalarSet d (boolWord ((s.x a).slt (imm.signExtend 32)))

/-- SLTNI. -/
def execSltni (d a : BitVec 5) (imm : BitVec 16) (s : State) : Out := s.scalarSet d (boolWord ((s.x a).ult (imm.setWidth 32)))

/-- LUI. -/
def execLui (d : BitVec 5) (imm : BitVec 16) (s : State) : Out := s.scalarSet d (imm.setWidth 32 <<< 16)

/-- MULI. -/
def execMuli (d a : BitVec 5) (imm : BitVec 16) (s : State) : Out := s.scalarSet d (s.x a * imm.signExtend 32)

end Sys2Proof.Machine
end

