-- ==== Sys2Proof/Machine/ScalarCtl.lean ====
section
/-! DEFINITION. The scalar words that steer the streams: branches and jumps, LRUN, LJMP, LSYNC, XRQ, the feeds, special
registers, STRAP, SEXIT, XWAIT and NOP (R75 to R92). -/

namespace Sys2Proof.Machine

/-! Control transfer (R34, R75 to R78). -/

/-- The scalar stream goes to a target with a change of the course's state; a target outside the code section is a CAPF of
this word, which then has no effect (R34, log 12). -/
def State.scalarJump (s : State) (target : Int) (f : Core → Core) : State :=
  let c := s.me
  if target < 0 ∨ (capLen c.scode : Int) < target + 4 then
    s.scalarTrap { cause := cCAPF, detail := 4, addr := ((capBase c.scode + target) % 2 ^ 57).toNat }
  else s.modCore fun c => { f c with pc := target.toNat }

/-- The target of a branch offset in words (R35, R75). -/
def State.branchTarget (s : State) (off : Int) : Int := (s.me.core.pc : Int) + 4 + 4 * off

/-- A conditional branch. -/
def State.scalarBranch (s : State) (taken : Bool) (off : BitVec 16) : Out :=
  .next (if taken then s.scalarJump (s.branchTarget off.toInt) id else s.scalarNext id)

/-- JR: the target is read before the link is written. -/
def execJr (d a : BitVec 5) (s : State) : Out :=
  let t := (s.x a).toNat
  let link := BitVec.ofNat 32 (s.me.core.pc + 4)
  .next (if t % 4 ≠ 0 then s.scalarTrap { cause := cALIGN, addr := (capBase s.me.scode + t) % 2 ^ 57 }
    else s.scalarJump t fun c => c.setX d.toNat link)

/-- LOOP. -/
def execLoop (a : BitVec 5) (off : BitVec 16) (s : State) : Out :=
  let n := s.x a - 1
  .next (if n ≠ 0 then s.scalarJump (s.branchTarget off.toInt) fun c => c.setX a.toNat n
    else s.scalarNext fun c => c.setX a.toNat n)

/-- BEQ. -/
def execBeq (a b : BitVec 5) (off : BitVec 16) (s : State) : Out := s.scalarBranch (s.x a == s.x b) off

/-- BNE. -/
def execBne (a b : BitVec 5) (off : BitVec 16) (s : State) : Out := s.scalarBranch (s.x a != s.x b) off

/-- BLT. -/
def execBlt (a b : BitVec 5) (off : BitVec 16) (s : State) : Out := s.scalarBranch ((s.x a).slt (s.x b)) off

/-- BGE. -/
def execBge (a b : BitVec 5) (off : BitVec 16) (s : State) : Out := s.scalarBranch (!(s.x a).slt (s.x b)) off

/-- BLTN. -/
def execBltn (a b : BitVec 5) (off : BitVec 16) (s : State) : Out := s.scalarBranch ((s.x a).ult (s.x b)) off

/-- BGEN. -/
def execBgen (a b : BitVec 5) (off : BitVec 16) (s : State) : Out := s.scalarBranch (!(s.x a).ult (s.x b)) off

/-- J. -/
def execJ (off : BitVec 26) (s : State) : Out := .next (s.scalarJump (s.branchTarget off.toInt) id)

/-- JAL: x31 is the offset of the word after the JAL. -/
def execJal (off : BitVec 26) (s : State) : Out :=
  let link := BitVec.ofNat 32 (s.me.core.pc + 4)
  .next (s.scalarJump (s.branchTarget off.toInt) fun c => c.setX 31 link)

/-- NOP. -/
def execNop (s : State) : Out := .next (s.scalarNext id)

/-! Driving the lane stream (R79 to R82). -/

/-- The lane words of a course's section. -/
def Course.laneWords (c : Course) : Nat := capLen c.lcode / 12

/-- LRUN. -/
def execLrun (a : BitVec 5) (imm : BitVec 16) (s : State) : Out :=
  let c := s.me
  let k := c.core
  let count := (s.x a + imm.setWidth 32).toNat
  .next (
    if 4096 < count then s.scalarTrap { cause := cILLS, detail := 4 }
    else if count = 0 then s.scalarNext id
    else if c.laneWords < k.rp + count then
      s.scalarTrap { cause := cCAPF, detail := 4, addr := (capBase c.lcode + 12 * c.laneWords) % 2 ^ 57 }
    else if k.relq.length = 16 ∨ 4096 < k.pending + count then s.scalarWait { kind := .lanes }
    else s.scalarNext fun k =>
      { k with relq := k.relq ++ [{ first := k.rp, count := count, xs := (List.range 16).map k.x,
                                    caps := (List.range 16).map k.cap }],
               pending := k.pending + count, rp := k.rp + count })

/-- LJMP: a target beyond the last lane word is a CAPF of the LJMP (R34, R80). -/
def execLjmp (a : BitVec 5) (imm : BitVec 16) (s : State) : Out :=
  let t := (s.x a + imm.setWidth 32).toNat
  .next (if s.me.laneWords ≤ t then
      s.scalarTrap { cause := cCAPF, detail := 4, addr := (capBase s.me.lcode + 12 * t) % 2 ^ 57 }
    else s.scalarNext fun k => { k with rp := t })

/-- LSYNC: the scalar-side accesses after it see every store of the lane words before it, and an SRD their flags, which those of
completed words with packets out are still awaited for (R65, R70, log 95). -/
def execLsync (s : State) : Out :=
  .next (if s.me.core.pending = 0 ∧ s.me.wordFlags = [] then (s.scalarNext id).modMe fun c => { c with unsynced := [] }
    else s.scalarWait { kind := .lsync })

/-- A course whose push into the return queue waits tests it again (R82). -/
def Course.retryPush (c : Course) : Course := c.endWaits fun w => w.kind == .push

/-- XRQ: a push that waits for room tests again. -/
def execXrq (d : BitVec 5) (s : State) : Out :=
  let k := s.me.core
  .next (match k.retq with
    | v :: rest =>
      (s.scalarNext fun k => { k with retq := rest }.setX d.toNat v).modMe Course.retryPush
    | [] => if k.pending = 0 then s.scalarTrap { cause := cQEMPTY } else s.scalarWait { kind := .returnQueue })

/-! Feeds (R83 to R88). -/

/-- QFEED. -/
def execQfeed (q ca : BitVec 4) (b : BitVec 5) (s : State) : Out :=
  let c := s.me
  let k := c.core
  let r (i : Nat) := k.x (b.toNat + i)
  let cap := k.cap ca.toNat
  let f := k.feeds.getD q.toNat {}
  let desc : FeedDesc := { cap := cap, start := r 0, tstr := r 1, count0 := r 2, str0 := r 3, count1 := r 4, str1 := r 5,
                           flags := r 6 }
  .next (
    if 25 < b.toNat ∨ c.nq ≤ q.toNat ∨ 2 ^ 24 < (r 2).toNat ∨ 2 ^ 24 < (r 4).toNat ∨ (r 6).toNat % 4 = 3 ∨ 64 ≤ (r 6).toNat then
      s.scalarTrap { cause := cILLS, detail := 4 }
    else if capLen cap = 0 then s.scalarTrap { cause := cCAPF, detail := 1 }
    else if capKind cap ≠ 0 then s.scalarTrap { cause := cCAPF, detail := 2 }
    else if capPerm cap &&& pR = 0 then s.scalarTrap { cause := cCAPF, detail := 3 }
    else if f.active.isSome ∧ f.waiting.isSome then s.scalarWait { kind := .feed }
    else s.scalarNext fun k =>
      -- a feed of no entries ends at once
      let g : Feed := if f.active.isSome then { f with waiting := some desc }
        else if desc.entries == 0 then f else { f with active := some desc }
      { k with feeds := (k.feeds ++ List.replicate (16 - k.feeds.length) ({} : Feed)).set q.toNat g })

/-- QHALT: it waits until every word released before it has issued; a lane word that waits for an entry of the queue then
finds it empty with no feed. -/
def execQhalt (q : BitVec 4) (s : State) : Out :=
  let c := s.me
  .next (
    if c.core.pending = 0 ∨ (c.inFlight ∧ c.core.pending = 1) then
      s.scalarNext fun k => { k with feeds := k.feeds.modify q.toNat fun _ => {}, queues := k.queues.modify q.toNat fun _ => [] }
    else s.scalarWait { kind := .lanes })

/-- An entry holds a marked element (R88). -/
def QEntry.isMarked (e : QEntry) : Bool := e.bounds ||| e.align ||| e.xlt ||| e.mem ||| e.link != 0

/-- QSTAT. -/
def execQstat (d : BitVec 5) (q : BitVec 4) (s : State) : Out :=
  let k := s.me.core
  let f := k.feeds.getD q.toNat {}
  let es := k.queues.getD q.toNat []
  let left := match f.active with | some a => a.count0.toNat * a.count1.toNat - a.next | none => 0
  s.scalarSet d (BitVec.ofNat 32 (min left (2 ^ 24 - 1) * 256 + flagNat (es.any QEntry.isMarked) * 32
    + flagNat f.waiting.isSome * 16 + flagNat f.active.isSome * 8 + es.length))

/-! Special registers (R69 to R72, R89). -/

/-- The %vcost of a class (R336). -/
def vcost (k : Nat) : Nat :=
  match k with | 2 => 64 | 3 => 16 | 4 => 400 | 5 => 500 | 6 => 3000 | 7 => 120 | _ => 0

/-- %tick of a context (R69, R411): a core cycle is 5/7 ns. -/
def State.tickIndex (s : State) (x : Context) : Word :=
  if x.tickp = 0 ∨ 5 * s.clock < 7 * x.ticko then 0xFFFFFFFF
  else BitVec.ofNat 32 ((5 * s.clock - 7 * x.ticko) / (7 * x.tickp))

/-- The value of a special register of a course (R69). Of a lane-state register it is always the value after every lane word
completed so far, %fpflags with their flags among them: R70 allows the effect of any of the words released since the last LSYNC
to be missing (log 85). -/
def State.special (s : State) (i n : Nat) : Word :=
  let c := s.course i
  let k := c.core
  let x := s.context c.ctx
  let nat (v : Nat) : Word := BitVec.ofNat 32 v
  if 0x010 ≤ n ∧ n < 0x018 then nat (k.live.toNat / 2 ^ (32 * (n - 0x010)))
  else if 0x018 ≤ n ∧ n < 0x020 then nat (k.faultMask.toNat / 2 ^ (32 * (n - 0x018)))
  else if 0x040 ≤ n ∧ n < 0x050 then nat (vcost (n - 0x040))
  else match n with
    | 0x000 => nat Config.lanes
    | 0x001 => nat Config.passes
    | 0x002 => nat c.index
    | 0x003 => match c.team with | some t => nat (s.team t).key | none => 0xFFFFFFFF
    | 0x004 => nat (x.tenant % 2 ^ 16)
    | 0x005 => nat c.ctx
    | 0x006 => nat (placeReg c.place)
    | 0x007 => nat k.preds.length
    | 0x008 => nat ((List.range 256).filter fun t => k.live.getLsbD t).length
    | 0x009 => nat c.nq
    | 0x00A => nat k.retq.length
    | 0x00B => nat k.pending
    | 0x00C => nat k.rp
    | 0x020 => k.fpflags.setWidth 32
    | 0x030 => nat x.vbnd
    | 0x031 => nat (s.vest c.ctx)
    | 0x032 => nat x.vmeas
    | 0x033 => nat (flagNat x.vmode)
    | 0x050 => if ((s.launch? c.launch).map (·.tick)).getD false then nat x.tickp else 0
    | 0x051 => s.tickIndex x
    | 0x052 => nat s.clock
    | 0x053 => k.clockHold
    | 0x054 => nat c.lclock
    | 0x055 => k.lclockHold
    | _ => 0

/-- The latch a read of %clock or %lclock makes (R72). -/
def State.latch (s : State) (n : Nat) (k : Core) (lclock : Nat) : Core :=
  if n = 0x052 then { k with clockHold := BitVec.ofNat 32 (s.clock / 2 ^ 32) }
  else if n = 0x054 then { k with lclockHold := BitVec.ofNat 32 (lclock / 2 ^ 32) }
  else k

/-- SRD. -/
def execSrd (d : BitVec 5) (num : BitVec 16) (s : State) : Out :=
  let v := s.special s.cur num.toNat
  .next (s.scalarNext fun k => (s.latch num.toNat k s.me.lclock).setX d.toNat v)

/-- SWR: %fpflags is replaced, bits of %faultmask that are 1 are cleared. -/
def execSwr (a : BitVec 5) (num : BitVec 16) (s : State) : Out :=
  let v := s.x a
  .next (s.scalarNext fun k =>
    if num.toNat = 0x020 then { k with fpflags := v.setWidth 5 }
    else { k with faultMask := k.faultMask &&& ~~~(BitVec.ofNat 256 (v.toNat * 2 ^ (32 * (num.toNat - 0x018)))) })

/-! Trap, exit, wait (R90 to R92). -/

/-- STRAP: it waits for the lane stream and raises TRAPI, whose taking is the checkpoint (R353). -/
def execStrap (code : BitVec 16) (s : State) : Out :=
  .next (if s.me.core.pending = 0 then s.scalarTrap { cause := cTRAPI, code := code.toNat }
    else s.scalarWait { kind := .lanes })

/-- SEXIT: a checkpoint, which waits for an issued lane word (R182), and the scalar stream has ended; the course retires by
COURSE_RETIRE. With no live thread it does so at once, and its released words no longer issue (R27, R91). A push that waits for
room is tested again and discards its entries (R82). -/
def execSexit (s : State) : Out :=
  .next (if s.me.inFlight then s.scalarWait { kind := .lanes }
    else ((s.scalarNext fun k =>
        if k.live == 0 then { k with ended := true, relq := [], pending := 0 } else { k with ended := true }).modMe
          Course.retryPush).checkpoint s.cur)

/-- XWAIT: the word is read at its home, without the course's held stores; the value it returns counts for LOBS (R241). -/
def execXwait (d : BitVec 5) (ca : BitVec 4) (imm : BitVec 16) (s : State) : Out :=
  let c := s.me
  let cap := c.core.cap ca.toNat
  let va := capBase cap
  .next (
    match s.useErr c.who cap 0 pA va 4 4 false with
    | some e => s.scalarStop (e.stop va 0)
    | none =>
      match s.homeRead c.who va 4 with
      | .error e => s.scalarStop (UseErr.stop (.page e) va 0)
      | .ok (b, wts, s1) =>
        let w := bytesWord b
        if s.badVA c.who va 4 then s.scalarTrap { cause := cMEMERR, addr := va }
        else if imm.getLsbD 3 && c.inFlight then s.scalarWait { kind := .lanes }
        else if waitCond (imm.toNat % 8) w (s.x d) then
          let s2 := s1.scalarNext fun k => { k.setX d.toNat w with lobs := max k.lobs wts }
          if imm.getLsbD 3 then (s2.acquire s.cur wts).checkpoint s.cur else s2
        else
          s1.scalarWait { kind := .word, line := s.watchLine c.who va, internal := !(imm.getLsbD 7 || s.extPage c.who va) })

end Sys2Proof.Machine
end

