-- ==== Sys2Proof/Machine/LaneSys.lean ====
section
/-! DEFINITION. The system class: TRAP, BRK, CKPT, VQRY, SRDL (R360 to R364). -/

namespace Sys2Proof.Machine

/-- A trap of the word for its active threads, with IMM as its code; nothing with an empty guard (R361). -/
def State.trapWord (s : State) (w : Single) (cause : Nat) : State :=
  match s.issue 0 [] with
  | .error x => s.stop x
  | .ok e =>
    let act := e.guard w.ng
    if act == 0 then s.finish e [] none id
    else s.stop (.trap { cause := cause, mask := act, code := w.imm.toNat })

/-- TRAP. -/
def execTrap (w : Single) (s : State) : Out := .next (s.trapWord w cTRAPI)

/-- BRK: no effect while the context's debug enable is clear. -/
def execBrk (w : Single) (s : State) : Out :=
  .next (if (s.context s.me.ctx).debug then s.trapWord w cBRKI
    else match s.issue 0 [] with
    | .error x => s.stop x
    | .ok e => s.finish e [] none id)

/-- CKPT. -/
def execCkpt (_w : Single) (s : State) : Out :=
  .next (match s.issue 0 [] with
    | .error x => s.stop x
    | .ok e => (s.finish e [] none id).checkpoint s.cur)

/-- The cost of an item (R363). -/
def itemCost (cls n : Nat) : Nat :=
  match cls with
  | 2 => 64 + (n + 15) / 16
  | 3 => 16 + (5 * n + 6) / 7
  | _ => vcost cls

/-- The charge of an item issued by a course (R336, R363): classes 0, 1 and 8 to 15 charge nothing. -/
def itemCharge (c : Course) (cls n : Nat) : List Charge :=
  let k := clusterOf c.place
  match cls with
  | 2 => [{ cluster := k, acct := 0, ns := itemCost 2 n }]
  | 3 => [{ cluster := k, acct := arAcct c.place, ns := itemCost 3 n }]
  | 4 | 5 | 6 => [rqCharge c.place (itemCost cls n)]
  | 7 => [{ cluster := k, acct := 17, ns := itemCost 7 n }]
  | _ => []

/-- The largest k below 2^n from a base on that satisfies a condition the smaller ones satisfy. -/
def largest (p : Nat → Bool) : Nat → Nat → Nat
  | 0, b => b
  | n + 1, b => if p (b + 2 ^ n) then largest p n (b + 2 ^ n) else largest p n b

/-- VQRY's result for one thread (R363). -/
def State.query (s : State) (c : Course) (cls what n : Nat) : Word :=
  let est (n : Nat) : Nat := s.eNew c.ctx (itemCharge c cls n) []
  let fits (n : Nat) : Bool := est n ≤ (s.context c.ctx).vbnd
  let none' : Word := 0xFFFFFFFF
  match what with
  | 0 => BitVec.ofNat 32 (itemCost cls n)
  | 1 => BitVec.ofNat 32 (min (est n) (2 ^ 32 - 1))
  | _ =>
    match cls with
    | 2 => if !fits 0 then none' else BitVec.ofNat 32 (16 * largest (fun k => k ≤ 2 ^ 24 && fits (16 * k)) 25 0)
    | 3 => if !fits 0 then none' else BitVec.ofNat 32 (largest (fun k => k ≤ 255 && fits k) 8 0)
    | 4 | 5 | 6 | 7 => if fits 0 then 1 else 0
    | _ => none'

/-- VQRY. -/
def execVqry (w : Single) (s : State) : Out :=
  let c := s.me
  let g := c.core.guard w.ng
  .next (match s.issue g [(w.a, g)] with
    | .error x => s.stop x
    | .ok e =>
      let a := e.src 1 0 w.a
      let vals := (threadsOf (e.guard w.ng)).map fun t =>
        (t, s.query c (w.mod.toNat % 16) (w.mod.toNat / 16 % 4) (a.getD t 0).toNat)
      s.finish e [keyOf w.d] none fun k => k.result e.me.core 0 false w.d (e.guard w.ng) (threadVec vals))

/-- SRDL: every earlier lane word has completed when a lane word issues. -/
def execSrdl (w : Single) (s : State) : Out :=
  .next (match s.issue 0 [] with
    | .error x => s.stop x
    | .ok e => s.finishStatus e w.ng w.d 0 (s.special s.cur w.imm.toNat))

end Sys2Proof.Machine
end

