-- ==== Sys2Proof/Machine/LaneRemote.lean ====
section
/-! DEFINITION. The remote and lease class (R372 to R394): packets to named nodes and their outcomes, tier queries and
waits. Accesses this device performs for itself go through the memory; a packet's answer comes with REMOTE_ACK. -/

namespace Sys2Proof.Machine

/-! Targets (R373, R374). -/

/-- The node value that names this device. -/
def selfNode : Nat := 0xFFFFFF

/-- A node operand names this device or a node of the routing table (R373). -/
def State.nodeOk (s : State) (n : Nat) : Bool := n == selfNode || (decide (n < 2 ^ 21) && s.routes.contains n)

/-- The access of one thread of a remote word: the issuing device's checks 1 to 5 with M, the node, and for this device's
own memory the pages (R373, R374). -/
def State.remoteAcc (s : State) (c : Course) (cap : Cap) (perm : Nat) (ea : Int) (z t node : Nat) (write : Bool) : Acc :=
  let err := match capCheck cap 0 (perm ||| pM) ea z z with
    | some f => some (.cap f)
    | none =>
      if !s.nodeOk node then some (.cap ⟨3, 11, 6⟩)
      else if node == selfNode then (s.rangeErr c.who ea.toNat z write).map UseErr.page
      else none
  { t := t, addr := ea, err := err }

/-- The accesses of the active threads (R104, R379). -/
def State.remoteAccs (s : State) (c : Course) (act : Mask) (cap : Cap) (perm : Nat) (off : List Word) (scale : Nat) (imm : Int)
    (z : Nat) (node : Nat → Nat) (write : Bool) : List Acc :=
  (threadsOf act).map fun t =>
    s.remoteAcc c cap perm ((capBase cap : Int) + (off.getD t 0).toNat * scale + imm) z t (node t) write

/-! Packets (R375, R383). -/

/-- The port a packet goes out over: one that is up, another than its last one where there is one (R383, R432). -/
def State.pickPort (s : State) (last : Option Nat) : Option Nat :=
  let up := (List.range 32).filter fun p => !s.portsDown.getLsbD p
  let others := up.filter fun p => some p != last
  let l := if others.isEmpty then up else others
  l[Config.portChoice s.free % l.length]?

/-- One request packet sent to a target: it takes the target's next number, awaits its acknowledgement and, where it bears a
write, is kept until LSEQ reads its outcome. -/
def State.sendPacket (s : State) (i word : Nat) (node : Nat) (op : RemoteOp) (accs : List RemoteAcc) (writes result multi : Bool)
    (keep : Bool := false) (hint : Nat := 0) (merged : List (Nat × Nat) := []) : State :=
  let c := s.course i
  let key := if writes then node else node + 2 ^ 24
  let n := (s.seqnos.lookup key).getD 0
  let pkt : RemotePkt := { source := s.node, target := node, seqno := n, tenant := (s.context c.ctx).tenant, clock := c.lclock,
                           op := op, accs := accs }
  let o : Outstanding := { node := node, seqno := n, course := i, packet := pkt, writes := writes, result := result,
                           multi := multi, keep := keep, hint := hint, merged := merged, word := word, pc := c.core.lanePc,
                           port := s.pickPort none, sentAt := s.clock, firstSent := s.clock }
  let s := { s with seqnos := (key, (n + 1) % 2 ^ 32) :: s.seqnos.filter fun q => q.1 != key,
                    outstanding := s.outstanding ++ [o] }
  if writes then s.modCourse i fun c => { c with sent := c.sent ++ [{ node := node, seqno := n, ranges := accs.map fun a => (a.addr, a.size) }] } else s

/-- The groups of a word's accesses by node and line, in ascending order of their lowest threads (R375). -/
def groupAccs (node : Nat → Nat) (accs : List Acc) : List (Nat × List Acc) :=
  ((accs.map fun a => (node a.t, a.addr.toNat / 64)).eraseDups).map fun k =>
    (k.1, accs.filter fun a => node a.t == k.1 && a.addr.toNat / 64 == k.2)

/-- The word waits for acknowledgements: a target would hold more than 2^16 packets of this device (R383). -/
def State.packetsFull (s : State) (groups : List (Nat × List Acc)) : Bool :=
  groups.any fun g => 2 ^ 16 < (s.outstanding.filter fun o => o.node == g.1).length
    + (groups.filter fun h => h.1 == g.1).length

/-- The charge of the class (R395). -/
def remoteCharge (c : Course) : List Charge := [rqCharge c.place 3000]

/-- The popped entry leaves its queue. -/
def State.popQueue (s : State) (e : Env) : State :=
  match e.queue with
  | none => s
  | some q => s.modCore fun c => { c with queues := c.queues.modify q List.tail }

/-- An access as a packet carries it. -/
def accOf (a : Acc) (z : Nat) (data : List Byte) (cmp : Word) : RemoteAcc :=
  { thread := a.t, addr := a.addr.toNat, size := z, data := data, cmp := cmp }

/-- The packets of a word sent, its charge kept while they are out. merged names the threads whose contributions went into another
one's (R382). -/
def State.sendGroups (s : State) (op : RemoteOp) (groups : List (Nat × List Acc)) (z : Nat) (data : Nat → List Byte)
    (cmp : Nat → Word) (writes result : Bool) (keep : Bool := false) (hint : Nat := 0) (merged : List (Nat × Nat) := []) : State :=
  if groups.isEmpty then s
  else
    let s := s.keepCharges s.cur (remoteCharge s.me)
    groups.foldl (fun s g =>
      s.sendPacket s.cur s.free g.1 op (g.2.map fun a => accOf a z (data a.t) (cmp a.t)) writes result false keep hint
        (merged.filter fun m => g.2.any fun a => a.t == m.2)) s

/-- The flags a word without a result has raised here: they enter %fpflags with the word, or with those that its packets bring back,
which an LSYNC waits for (R70, R124, log 95). -/
def State.holdFlags (s : State) (away : List (Nat × List Acc)) (f : Num.Flags) : State :=
  if away.isEmpty then s.modCore fun k => { k with fpflags := k.fpflags ||| f }
  else s.modMe fun c => { c with wordFlags := (s.free, f) :: c.wordFlags }

/-! Cached copies of other devices' lines (R14, R376). -/

/-- The number under which the L2 holds a line of another device named by its node and its tenant virtual address. -/
def remoteLine (node va : Nat) : Nat := 2 ^ 114 + node * 2 ^ 51 + va / 64

/-- The slice at which it is placed: n := VA[51:6] XOR node (R14). -/
def remoteSlice (node va : Nat) : Nat := sliceOf (va / 64 % 2 ^ 46 ^^^ node)

/-- A write of the current course to a node's bytes of a range has not been acknowledged (R239). -/
def State.writesOut (s : State) (node va z : Nat) : Bool :=
  s.outstanding.any fun o => o.course == s.cur && o.writes && o.node == node
    && o.packet.accs.any fun a => decide (a.addr < va + z) && decide (va < a.addr + a.size)

/-- A copy the current course c may use: the L2 still holds its line, its lease covers the validity clock, no write of the course's
own to its bytes is under way, and it is no older than the bound of R240 for another device; which copies are used is a free choice
(R239, R243, R376, log 94). -/
def State.remoteCopy (s : State) (c : Course) (node va z : Nat) : Option RemoteCopy :=
  s.remote.find? fun r =>
    r.tenant == (s.context c.ctx).tenant && r.node == node && r.va == va && r.bytes.length == z
      && decide (c.validity va ≤ r.lease) && decide (s.clock ≤ r.filled + cyclesOfUs 1000)
      && s.l2.any (fun e => e.line == remoteLine node va) && !s.writesOut node va z && s.pick (remoteLine node va)

/-- A reader has seen the lines of a packet at a write time: older copies of them are used no more, and none is made of an older
reply that comes later (R239). -/
def State.forgetRemote (s : State) (o : Outstanding) (r : RemoteReply) : State :=
  let mine (x : RemoteCopy) : Bool := x.tenant == o.packet.tenant && x.node == o.node && decide (x.wts < r.wts)
    && o.packet.accs.any fun a => a.addr / 64 == x.va / 64
  let seen := ((o.packet.accs.map fun a => a.addr / 64).eraseDups).map fun l =>
    ({ tenant := o.packet.tenant, node := o.node, va := 64 * l, bytes := [], wts := r.wts, lease := 0, filled := 0 } : RemoteCopy)
  { s with remote := seen ++ s.remote.filter fun x => !mine x && !seen.contains x }

/-- The line of an address has been read from a node with a later write time (R239). -/
def State.readLater (s : State) (tenant node va wts : Nat) : Bool :=
  s.remote.any fun x => x.tenant == tenant && x.node == node && x.va / 64 == va / 64 && decide (wts < x.wts)

/-- The bytes a read packet has brought are cached, in place of older copies of them, with the attributes of the target's page and
the HINT of the word (R197, R376); a reply that is older than what has been read of the line since is not (R239). The copy's age
counts from when its packet was first sent, before which its read was not performed (R240). -/
def State.keepRemote (s : State) (o : Outstanding) (r : RemoteReply) : State :=
  if !o.keep then s
  else o.packet.accs.foldl (fun s a =>
    match r.values.lookup a.thread with
    | none => s
    | some b =>
      let t := o.packet.tenant
      if s.readLater t o.node a.addr r.wts then s else
      let s := s.l2Touch (remoteLine o.node a.addr)
        { slice := remoteSlice o.node a.addr, tenant := t, evp := if o.hint == 3 then 3 else if r.cl == 2 then 0 else r.evp,
          recent := r.cl != 2 }
      { s with remote := { tenant := t, node := o.node, va := a.addr, bytes := b, wts := r.wts, lease := r.lease, filled := o.firstSent }
                 :: s.remote.filter fun x => x.bytes.isEmpty || !(x.tenant == t && x.node == o.node && x.va == a.addr) }) s

/-! Words that return results: RLD, RATOM (R379, R380). -/

/-- The address of the lowest-numbered thread among some failures (R354). -/
def failAddr (bad : List RemoteFail) : Nat :=
  (bad.foldl (fun (m : Nat × Nat) b => let t := b.threads.headD 0; if t < m.1 then (t, b.addr) else m) (256, 0)).2

/-- The fault of a remote word whose results are in: that of the threads that failed at issue, then details 12, LINKF and
INDET of the others (R105, R374, R385). -/
def remoteVerdict (first : Option FaultInfo) (bad : List RemoteFail) : Option FaultInfo :=
  let mask := maskOf 256 fun t => bad.any fun b => b.threads.contains t
  match first with
  | some f => some { f with mask := f.mask ||| mask }
  | none =>
    match bad.find? (·.cause == cCAPF) with
    | some b => some { cause := cCAPF, detail := b.detail, mask := mask, addr := failAddr (bad.filter (·.cause == cCAPF)) }
    | none =>
      if bad.any (·.cause == cLINKF) then some { cause := cLINKF, mask := mask }
      else if bad.any (·.cause == cINDET) then some { cause := cINDET, mask := mask }
      else none

/-- The word in flight of the current course completes: every result has returned (R380). regs gives a thread's registers
from its bytes; d is the first register, none where the word writes none; ld whether it is a load. -/
def State.completeRemote (s : State) (d : Option (BitVec 8)) (W look : Nat) (regs : List Byte → List Word) (ld acq : Bool) :
    State :=
  let c := s.me
  let e : Env := { me := c, rel := c.core.relq.headD { first := 0, count := 0, xs := [], caps := [] } }
  let mine := c.remoteBad.filter fun b => b.word == c.remoteWord
  let fault := remoteVerdict c.remoteFault mine
  let vals := c.replies.map fun r => (r.1, regs r.2)
  let sel := maskOf 256 fun t => vals.any fun v => v.1 == t
  let s := s.modMe fun k => { k with inFlight := false, replies := [], remoteFault := none, remotePoison := 0, remoteFlags := 0,
                                     remoteActs := false, remoteBad := k.remoteBad.filter fun b => b.word != c.remoteWord }
  let s := if acq then s.acquire s.cur c.remoteWts
    else if ld then s.modCore fun k => { k with lobs := max k.lobs c.remoteWts } else s
  let keys := match d with | some d => (List.range W).map fun j => keyOf (plusCode d j) | none => []
  let s := s.finish e keys fault fun k =>
    let k := { k with fpflags := k.fpflags ||| c.remoteFlags }
    match d with
    | some d => k.writeLoads c.core look d W sel vals fun _ => c.remotePoison &&& sel
    | none => k
  if fault.isSome then s else s.checkpoint s.cur

/-- No packet of the course's word in flight is out. -/
def State.resultsIn (s : State) (i : Nat) : Bool := !s.outstanding.any fun o => o.course == i && o.result

/-- A wait of the scalar stream for the lane stream to move tests again: a lane word has issued (R63, R87). -/
def Course.laneIssued (c : Course) : Course :=
  let ends := c.swait.any (·.kind == .lanes)
  { c with swait := if ends then none else c.swait, swas := if ends then c.swait else c.swas }

/-- Results gathered so far kept with the course, and the word in flight: it has issued, which a QHALT may wait for (R87); complete
finishes it when all are in. flags are those raised here, acts whether the word acts at its targets. -/
def State.awaitRemote (s : State) (e : Env) (fault : Option FaultInfo) (vals : List (Nat × List Byte)) (wts : Nat)
    (poison : Mask) (complete : State → State) (flags : Num.Flags := 0) (acts : Bool := false) : State :=
  let s := (s.popQueue e).modMe fun c =>
    let c := c.laneIssued
    { c with inFlight := true, replies := vals, remoteWts := wts, remoteWord := s.free, remotePoison := poison,
             remoteFlags := flags, remoteActs := acts, remoteFault := fault.orElse fun _ => e.after }
  if s.resultsIn s.cur then complete s else s.laneWait { kind := .remote, internal := true }

/-- RLD's completion. -/
def State.completeRld (s : State) (w : Single) : State :=
  s.completeRemote (some w.d) (accRegs w) w.look.toNat (loadRegs w.ty.toNat) true (w.mod.getLsbD 7)

/-- RLD. -/
def execRld (w : Single) (s : State) : Out :=
  let c := s.me
  let g := c.core.guard w.ng
  let z := accSize w
  .next (if c.inFlight then
      if s.resultsIn s.cur then s.completeRld w else s.laneWait { kind := .remote }
    else match s.issue g [(w.a, g), (w.b, g)] with
    | .error x => s.stop x
    | .ok e =>
      let node (t : Nat) : Nat := (e.at w.b t).toNat
      let accs := s.remoteAccs c (e.guard w.ng) (e.cap w.sel.toNat) pR (e.src 1 0 w.a) (scaleOf w.mod.toNat) w.imm.toInt z node
        false
      match accVerdict accs with
      | .error x => s.stop x
      | .ok fault =>
        let good := goodAccs accs
        let kept := good.filterMap fun a =>
          if node a.t == selfNode then none else (s.remoteCopy c (node a.t) a.addr.toNat z).map fun r => (a.t, r)
        let away := good.filter fun a => node a.t != selfNode && !kept.any fun k => k.1 == a.t
        let groups := groupAccs node away
        if s.packetsFull groups then s.stop (.wait { kind := .remote })
        else match s.gateStop (remoteCharge c) with
        | some x => s.stop x
        | none =>
          let mine := good.filter fun a => node a.t == selfNode
          let s := s.commitG s.cur fun a => mine.any fun b => b.addr.toNat / 64 == a / 64
          let r := mine.foldl (fun (r : State × List (Nat × List Byte) × Nat) a =>
            match r.1.homeRead c.who a.addr.toNat z with
            | .ok (b, t, s) => (s, (a.t, b) :: r.2.1, max r.2.2 t)
            | .error _ => r) (s, kept.map (fun k => (k.1, k.2.bytes)), kept.foldl (fun m k => max m k.2.wts) 0)
          let poison := maskOf 256 fun t => mine.any fun a => a.t == t && s.badVA c.who a.addr.toNat z
          let hint := w.mod.toNat / 8 % 4
          let s := r.1.sendGroups .read groups z (fun _ => []) (fun _ => 0) false true (hint != 1 && hint != 2) hint
          s.awaitRemote e fault r.2.1 r.2.2 poison fun s => s.completeRld w)

/-- The update of RATOM: the operations of R218, and cas (R378, R379). -/
def remoteAtom (op ty : Nat) (old b cmp : Word) : Word × Num.Flags :=
  if op == 9 then (if old == cmp then b else old, 0) else atomOp op ty old b

/-- RATOM's completion. -/
def State.completeRatom (s : State) (w : Single) : State :=
  s.completeRemote (some w.d) 1 w.look.toNat (fun b => [bytesWord b]) false (w.mod.getLsbD 8)

/-- RATOM. -/
def execRatom (w : Single) (s : State) : Out :=
  let c := s.me
  let g := c.core.guard w.ng
  let op := w.mod.toNat % 16
  let ty := w.ty.toNat
  let result := w.d != 0xF1
  let rel := w.mod.getLsbD 9
  .next (if c.inFlight then
      if s.resultsIn s.cur then s.completeRatom w else s.laneWait { kind := .remote }
    else match s.issue g ((w.a, g) :: (w.b, g) :: (w.c, g) :: if op == 9 then [(w.d, g)] else []) with
    | .error x => s.stop x
    | .ok e =>
      let node (t : Nat) : Nat := (e.at w.b t).toNat
      let val (t : Nat) : Word := (e.src ty 0 w.c).getD t 0
      let cmp (t : Nat) : Word := if op == 9 then e.at w.d t else 0
      let accs0 := s.remoteAccs c (e.guard w.ng) (e.cap w.sel.toNat) pA (e.src 1 0 w.a) (scaleOf (w.mod.toNat / 16)) w.imm.toInt 4
        node true
      let accs := accs0.map fun a =>
        if a.err.isNone && node a.t == selfNode && s.badVA c.who a.addr.toNat 4 then { a with err := some (.page .memerr) } else a
      match accVerdict accs with
      | .error x => s.stop x
      | .ok fault =>
        let good := goodAccs accs
        let groups := groupAccs node (good.filter fun a => node a.t != selfNode)
        if s.packetsFull groups then s.stop (.wait { kind := .remote })
        else match if rel then s.releaseEnter s.cur 4 else (s, none) with
        | (s, some x) => s.stop x
        | (s, none) =>
          match s.gateStop (remoteCharge c) with
          | some x => s.stop x
          | none =>
            let mine := good.filter fun a => node a.t == selfNode
            let s := if rel then s.releaseClock s.cur
              else s.commitG s.cur fun a => good.any fun b => b.addr.toNat / 64 == a / 64
            let lost := mine.filterMap fun a => (s.lostAt c a).map fun x => (a, x.1)
            let reach := mine.filter fun a => (s.lostAt c a).all (·.2)
            let r := (s.loanPackets c mine).atomThreads reach fun s a => s.atomGlobal a.addr.toNat false fun old =>
              remoteAtom op ty old (val a.t) (cmp a.t)
            let got := r.2.1.filter fun v => !lost.any fun x => x.1.t == v.1
            let s := r.1.sendGroups (.atom (BitVec.ofNat 4 op) w.ty) groups 4 (fun t => wordBytes (val t)) cmp true result
            if result then
              s.awaitRemote e (linkFault fault lost) (got.map fun v => (v.1, wordBytes v.2)) r.2.2.1 0 (fun s => s.completeRatom w) r.2.2.2 true
            else
              let s := s.holdFlags groups r.2.2.2
              let s := if w.mod.getLsbD 8 then s.acquire s.cur r.2.2.1 else s
              let s := s.finish e [] fault id
              if fault.isSome || e.after.isSome then s else s.checkpoint s.cur)

/-! Words without results: RST, MCAST, RSPR (R379 to R382). -/

/-- Bytes written by a remote word that names this device; on a loan page they may be lost on their way to the lender (R372, R384). -/
def State.selfStore (s : State) (va : Nat) (bytes : List Byte) : State :=
  if s.lostStore s.me.who va then s
  else match s.writeVA s.me.who va bytes with
  | .error _ => s
  | .ok (s, t) => s.modMe fun c => { c with lclock := max c.lclock t, wmax := max c.wmax t }

/-- The stores of a remote word that names this device; those to loan pages are write-bearing packets (R373, R383). -/
def State.selfStores (s : State) (accs : List Acc) (data : Nat → List Byte) : State :=
  accs.foldl (fun s a => s.selfStore a.addr.toNat (data a.t)) (s.loanPackets s.me accs)

/-- RST. -/
def execRst (w : Single) (s : State) : Out :=
  let c := s.me
  let g := c.core.guard w.ng
  let z := accSize w
  let rel := w.mod.getLsbD 7
  .next (match s.issue g ((w.a, g) :: (w.b, g) :: (storeReads w).map fun r => (r, g)) with
    | .error x => s.stop x
    | .ok e =>
      let node (t : Nat) : Nat := (e.at w.b t).toNat
      let accs := s.remoteAccs c (e.guard w.ng) (e.cap w.sel.toNat) pW (e.src 1 0 w.a) (scaleOf w.mod.toNat) w.imm.toInt z node
        true
      match accVerdict accs with
      | .error x => s.stop x
      | .ok fault =>
        let good := goodAccs accs
        let groups := groupAccs node (good.filter fun a => node a.t != selfNode)
        let data (t : Nat) : List Byte := storeBytes z (e.storeData w t)
        if s.packetsFull groups then s.stop (.wait { kind := .remote })
        else match if rel then s.releaseEnter s.cur 4 else (s, none) with
        | (s, some x) => s.stop x
        | (s, none) =>
          match s.gateStop (remoteCharge c) with
          | some x => s.stop x
          | none =>
            let s := if rel then s.releaseClock s.cur
              else s.commitG s.cur fun b => good.any fun a => a.addr.toNat ≤ b && b < a.addr.toNat + z
            let s := s.selfStores (good.filter fun a => node a.t == selfNode) data
            let s := s.sendGroups .write groups z data (fun _ => 0) true false
            let s := s.finish e [] fault id
            if fault.isSome || e.after.isSome then s else s.checkpoint s.cur)

/-- The accesses of an MCAST: the capability is checked for every thread, and the pages of this device where it is one of the
nodes; a node's own check is apart (R105, R374, R381). -/
def State.castAccs (s : State) (c : Course) (act : Mask) (cap : Cap) (off : List Word) (scale : Nat) (imm : Int) (z : Nat)
    (nodes : List Nat) : List Acc :=
  (s.remoteAccs c act cap pW off scale imm z (fun _ => if nodes.contains selfNode then selfNode else nodes.headD 0) true).map fun a =>
    match a.err with
    | some (.cap f) => if f.check == 6 then { a with err := none } else a
    | _ => a

/-- The packets of an MCAST sent, one per node and line. -/
def State.sendCast (s : State) (groups : List (Nat × List Acc)) (z : Nat) (data : Nat → List Byte) : State :=
  if groups.isEmpty then s
  else groups.foldl (fun s g => s.sendPacket s.cur s.free g.1 .write (g.2.map fun a => accOf a z (data a.t) 0) true false true)
    (s.keepCharges s.cur (remoteCharge s.me))

/-- The fault of a node that an MCAST cannot name: one of its failed targets (R373, R381). -/
def State.castFail (s : State) (bad : List Nat) (good : List Acc) : RemoteFail :=
  { word := s.free, node := bad.foldl min (bad.headD 0), threads := good.map (·.t), cause := cCAPF, detail := 11,
    addr := (good.map fun a => a.addr.toNat).headD 0, multi := true, pc := s.me.core.lanePc }

/-- MCAST: one packet per node and line; a bad count stops the word before anything is sent; threads that fail a check perform
nothing, and a node that cannot be named is a failed target, raised with the others' failures once every target has answered
(R105, R381). -/
def execMcast (w : Single) (s : State) : Out :=
  let c := s.me
  let g := c.core.guard w.ng
  let z := accSize w
  let rel := w.mod.getLsbD 7
  .next (match s.issue g ((w.a, g) :: (storeReads w).map fun r => (r, g)) with
    | .error x => s.stop x
    | .ok e =>
      let act := e.guard w.ng
      let nm := (e.x (w.b + 1)).toNat
      let nodes := (List.range nm).map fun k => (e.x w.b + BitVec.ofNat 32 k * e.x (w.b + 2)).toNat
      if nm == 0 || 32 < nm then s.stop (.trap { cause := cCAPF, detail := 4, mask := act })
      else
        let accs := s.castAccs c act (e.cap w.sel.toNat) (e.src 1 0 w.a) (scaleOf w.mod.toNat) w.imm.toInt z nodes
        match accVerdict accs with
        | .error x => s.stop x
        | .ok fault =>
          let good := goodAccs accs
          let named := nodes.filter s.nodeOk
          let bad := if good.isEmpty then [] else nodes.filter fun n => !s.nodeOk n
          let groups := (named.filter fun n => n != selfNode).flatMap fun n => groupAccs (fun _ => n) good
          let data (t : Nat) : List Byte := storeBytes z (e.storeData w t)
          if s.packetsFull groups then s.stop (.wait { kind := .remote })
          else match if rel then s.releaseEnter s.cur 4 else (s, none) with
          | (s, some x) => s.stop x
          | (s, none) =>
            match s.gateStop (remoteCharge c) with
            | some x => s.stop x
            | none =>
              let f := s.castFail bad good
              let late := !bad.isEmpty && fault.isNone && !groups.isEmpty
              let fault := fault.orElse fun _ =>
                if bad.isEmpty || late then none
                else some { cause := cCAPF, detail := 11, mask := accMask good, addr := f.node }
              let s := if rel then s.releaseClock s.cur
                else s.commitG s.cur fun b => good.any fun a => a.addr.toNat ≤ b && b < a.addr.toNat + z
              let s := if nodes.contains selfNode then s.selfStores good data else s
              let s := s.sendCast groups z data
              let s := if late then s.modMe fun c => { c with remoteBad := c.remoteBad ++ [f] } else s
              let s := s.finish e [] fault id
              if fault.isSome || e.after.isSome then s else s.checkpoint s.cur)

/-- Some binary tree of additions of the values of a list, and the flags of them (R124, R382): which one is a free choice
(log 7). -/
def mergeTree (ty seed : Nat) : Nat → List Word → Word × Num.Flags
  | 0, l => (l.headD 0, 0)
  | _, [] => (0, 0)
  | _, [v] => (v, 0)
  | fuel + 1, l =>
    let i := (Config.openWord (2 * seed)).toNat % l.length
    let rest := l.eraseIdx i
    let j := (Config.openWord (2 * seed + 1)).toNat % rest.length
    let x := atomOp 0 ty (l.getD i 0) (rest.getD j 0)
    let r := mergeTree ty (seed + 1) fuel (x.1 :: rest.eraseIdx j)
    (r.1, x.2 ||| r.2)

/-- The contributions to one element of memory merged into it: the write time and the flags (R382). -/
def State.mergeAt (s : State) (w : Who) (ty va : Nat) (vals : List Word) : State × Nat × Num.Flags :=
  match s.readVA w va 4 with
  | .error _ => (s, 0, 0)
  | .ok b =>
    let r := mergeTree ty (s.free * 2 ^ 128 + va * 2 ^ 10) vals.length (bytesWord b :: vals)
    match s.writeVA w va (wordBytes r.1) with
    | .error _ => (s, 0, 0)
    | .ok (s, t) => (s, t, r.2)

/-- The contributions of the current course to one element of this device's memory, and the flags they raise (R242, R382); on a loan
page they may be lost on their way to the lender (R384). -/
def State.mergeInto (s : State) (ty va : Nat) (vals : List Word) : State × Num.Flags :=
  if s.lostStore s.me.who va then (s, 0) else
  let r := s.mergeAt s.me.who ty va vals
  (r.1.modMe fun c => { c with lclock := max c.lclock r.2.1, wmax := max c.wmax r.2.1 }, r.2.2)

/-- Contributions of a word that the coalescer merges: those with one address at one node (R382). The access is that of the lowest
thread; with it the threads, the merged value and the flags. -/
structure Merge where
  acc : Acc
  threads : List Nat
  value : Word
  flags : Num.Flags
deriving DecidableEq, Repr

/-- The pairs of a word merged, before they are sent (R382). -/
def State.mergePairs (s : State) (ty : Nat) (node : Nat → Nat) (val : Nat → Word) (accs : List Acc) : List Merge :=
  ((accs.map fun a => (node a.t, a.addr.toNat)).eraseDups).filterMap fun k =>
    match accs.filter fun a => node a.t == k.1 && a.addr.toNat == k.2 with
    | [] => none
    | a :: rest =>
      let ts := (a :: rest).map (·.t)
      let r := mergeTree ty (s.free * 2 ^ 128 + 2 ^ 100 + k.1 * 2 ^ 70 + k.2 * 2 ^ 10) ts.length (ts.map val)
      some { acc := a, threads := ts, value := r.1, flags := r.2 }

/-- RSPR: the value stands in the D field (R378, log 14). -/
def execRspr (w : Single) (s : State) : Out :=
  let c := s.me
  let g := c.core.guard w.ng
  let ty := w.ty.toNat
  .next (match s.issue g [(w.a, g), (w.b, g), (w.d, g)] with
    | .error x => s.stop x
    | .ok e =>
      let node (t : Nat) : Nat := (e.at w.b t).toNat
      let val (t : Nat) : Word := (e.src ty 0 w.d).getD t 0
      let accs := s.remoteAccs c (e.guard w.ng) (e.cap w.sel.toNat) (pW ||| pA) (e.src 1 0 w.a) 4 w.imm.toInt 4 node true
      match accVerdict accs with
      | .error x => s.stop x
      | .ok fault =>
        let good := goodAccs accs
        let pairs := s.mergePairs ty node val (good.filter fun a => node a.t != selfNode)
        let groups := groupAccs node (pairs.map (·.acc))
        if s.packetsFull groups then s.stop (.wait { kind := .remote })
        else match s.gateStop (remoteCharge c) with
        | some x => s.stop x
        | none =>
          let mine := good.filter fun a => node a.t == selfNode
          let s := s.commitG s.cur fun a => good.any fun b => b.addr.toNat / 64 == a / 64
          let r := ((mine.map fun a => a.addr.toNat).eraseDups).foldl (fun (r : State × Num.Flags) va =>
            let x := r.1.mergeInto ty va ((mine.filter fun a => a.addr.toNat == va).map fun a => val a.t)
            (x.1, r.2 ||| x.2)) (s.loanPackets c mine, pairs.foldl (fun f p => f ||| p.flags) 0)
          let data (t : Nat) : List Byte := wordBytes (((pairs.find? fun p => p.acc.t == t).map (·.value)).getD 0)
          let s := r.1.sendGroups (.merge w.ty) groups 4 data (fun _ => 0) true false
            (merged := pairs.flatMap fun p => (p.threads.drop 1).map fun t => (t, p.acc.t))
          let s := (s.holdFlags groups r.2).finish e [] fault id
          if fault.isSome || e.after.isSome then s else s.checkpoint s.cur)

/-! LSEQ (R386). -/

/-- The outcome LSEQ returns for some packets: none while one has no outcome. -/
def lseqOutcome (l : List Sent) : Option Word :=
  if l.any (·.outcome == .unknown) then none
  else if l.any (·.outcome == .indet) then some 2
  else if l.any (·.outcome == .dropped) then some 1
  else some 0

/-- LSEQ. -/
def execLseq (w : Single) (s : State) : Out :=
  let c := s.me
  let g := c.core.guard w.ng
  let one : Mask := BitVec.ofNat 256 (2 ^ valueThread g)
  .next (match s.issue g [(w.b, one)] with
    | .error x => s.stop x
    | .ok e =>
      let n := (e.at w.b (valueThread (e.guard w.ng))).toNat
      if !s.nodeOk n then s.stop (.trap { cause := cCAPF, detail := 11, mask := e.guard w.ng })
      else match lseqOutcome (c.sent.filter fun p => p.node == n) with
      | none => s.stop (.wait { kind := .lseq, internal := false })
      | some v =>
        match s.gateStop (remoteCharge c) with
        | some x => s.stop x
        | none =>
          (s.modMe fun c => { c with sent := c.sent.filter fun p => p.node != n }).finishCkpt e w.ng w.d w.look.toNat v)

/-! TIERQ, EVWAIT (R393, R394). -/

/-- The tier word of an address (R393). -/
def State.tierWord (s : State) (w : Who) (va : Nat) : Word :=
  match s.leafFor w va with
  | .error _ => 3
  | .ok (e, _) =>
    let tier := e.toNat / 256 % 4
    let loan := entryPA e / 2 ^ 40
    if tier == 1 then BitVec.ofNat 32 (loan * 2 ^ 8 + flagNat ((s.loan loan).state == 2) * 4 + 1) else BitVec.ofNat 32 tier

/-- TIERQ: checks 1, 2 and 4 alone, and no access. -/
def execTierq (w : Single) (s : State) : Out :=
  let c := s.me
  let g := c.core.guard w.ng
  .next (match s.issue g (if w.mod.getLsbD 3 then [] else [(w.a, g)]) with
    | .error x => s.stop x
    | .ok e =>
      let act := e.guard w.ng
      match s.gateStop (remoteCharge c) with
      | some x => s.stop x
      | none =>
        if w.mod.getLsbD 3 then s.finishCkpt e w.ng w.d w.look.toNat (s.context c.ctx).demotions
        else
          let cap := e.cap w.sel.toNat
          let off := e.src 1 0 w.a
          let accs : List Acc := (threadsOf act).map fun t =>
            let ea : Int := (capBase cap : Int) + (off.getD t 0).toNat * scaleOf w.mod.toNat + w.imm.toInt
            { t := t, addr := ea, err := (capCheck cap 0 0 ea 1 1).map UseErr.cap }
          match accVerdict accs with
          | .error x => s.stop x
          | .ok fault =>
            let good := goodAccs accs
            let vals := good.map fun a => (a.t, s.tierWord c.who a.addr.toNat)
            let s := s.finish e [keyOf w.d] fault fun k =>
              k.result e.me.core w.look.toNat false w.d (accMask good) (threadVec vals)
            if fault.isSome || e.after.isSome then s else s.checkpoint s.cur)

/-- EVWAIT: a changed counter is read with an acquire that covers the leaf rewrites (R394). -/
def execEvwait (w : Single) (s : State) : Out :=
  let c := s.me
  let g := c.core.guard w.ng
  let one : Mask := BitVec.ofNat 256 (2 ^ valueThread g)
  .next (match s.issue g [(w.b, one)] with
    | .error x => s.stop x
    | .ok e =>
      let v := e.at w.b (valueThread (e.guard w.ng))
      let n := (s.context c.ctx).demotions
      if n == v && !c.timedOut then
        s.stop (.wait { kind := .event, internal := false,
                        limit := if w.imm == 0 then none else some (s.clock + cyclesOfUs w.imm.toNat) })
      else match s.gateStop (remoteCharge c) with
      | some x => s.stop x
      | none =>
        let s := s.modMe fun c => { c with timedOut := false }
        (if n != v then s.acquire s.cur (s.context c.ctx).demotedAt else s).finishCkpt e w.ng w.d w.look.toNat n)

end Sys2Proof.Machine
end

