-- ==== Sys2Proof/Machine/Tile.lean ====
section
/-! DEFINITION. Plane tiles and the arithmetic of the matrix array (R307 to R322), on bytes and patterns alone. -/

namespace Sys2Proof.Machine.Tiles

open Sys2Proof.Num

/-! Layout (R307 to R309). -/

/-- Bits of the exponent field of an element type. -/
def expField (ty : Nat) : Nat := match ty with | 5 | 7 => 4 | 3 | 4 | 6 => 8 | _ => 0

/-- Elements of a tile: 32 rows or columns of 128, or of 64 kept ones. -/
def elemCount (sparse : Bool) : Nat := if sparse then 2048 else 4096

/-- Bytes of one plane. -/
def planeBytes (sparse : Bool) : Nat := elemCount sparse / 8

/-- Bytes of a tile (R307). -/
def tileBytes (ty : Nat) (sparse : Bool) : Nat := (Legal.planes ty + expField ty) * planeBytes sparse

/-- What a tile stores of an element: its planes as a number, the first plane the most significant bit, and the exponent
field (R309). -/
def fieldsOf (ty p : Nat) : Nat × Nat :=
  if ty == 7 then
    let P := p % 128
    let S := p / 128 % 2
    if P == 0 then (S * 64, 7)
    else
      let n := Nat.log2 P
      (S * 64 + P % 2 ^ n * 2 ^ (6 - n), 6 - n)
  else if ty < 7 then
    let fb := fracBits ty
    (p / 2 ^ (fwidth ty - 1) % 2 * 2 ^ fb + p % 2 ^ fb, p / 2 ^ fb % 2 ^ expBits ty)
  else (p % 2 ^ Legal.width ty, 0)

/-- The first k pieces of n elements of a list. -/
def splitEvery {α : Type} (n : Nat) : Nat → List α → List (List α)
  | 0, _ => []
  | k + 1, l => l.take n :: splitEvery n k (l.drop n)

/-- The bits of a byte, bit 0 first. -/
def bitsOf (b : Byte) : List Nat := (List.range 8).map fun k => b.toNat / 2 ^ k % 2

/-- A number from its bits, bit 0 first. -/
def ofBits (l : List Nat) : Nat := l.foldr (fun b acc => b + 2 * acc) 0

/-- The bytes of a tile from its elements' patterns in index order (R308). -/
def packTile (ty : Nat) (sparse : Bool) (pats : List Nat) : List Byte :=
  let fs := pats.map (fieldsOf ty)
  let p := Legal.planes ty
  let plane (j : Nat) : List Byte :=
    (splitEvery 8 (planeBytes sparse) (fs.map fun f => f.1 / 2 ^ (p - 1 - j) % 2)).map fun l => BitVec.ofNat 8 (ofBits l)
  let exps : List Byte := match expField ty with
    | 8 => fs.map fun f => BitVec.ofNat 8 f.2
    | 4 => (splitEvery 2 (elemCount sparse / 2) (fs.map (·.2))).map fun l =>
        BitVec.ofNat 8 (l.getD 0 0 % 16 + 16 * (l.getD 1 0 % 16))
    | _ => []
  (List.range p).flatMap plane ++ exps

/-- The stored fields of the elements of a tile's bytes, in index order. -/
def tileFields (ty : Nat) (sparse : Bool) (bytes : List Byte) : List (Nat × Nat) :=
  let p := Legal.planes ty
  let st := (splitEvery (planeBytes sparse) p bytes).foldl
    (fun acc pl => List.zipWith (fun a b => 2 * a + b) acc (pl.flatMap bitsOf)) (List.replicate (elemCount sparse) 0)
  let rest := bytes.drop (planeBytes sparse * p)
  let ex : List Nat := match expField ty with
    | 8 => rest.map (·.toNat)
    | 4 => rest.flatMap fun b => [b.toNat % 16, b.toNat / 16]
    | _ => List.replicate (elemCount sparse) 0
  st.zip ex

/-- The elements a byte of a tile holds bits of, the first and their number, where an operation of precision pb reads the byte
(R308, R310). A byte of a plane from pb on counts as not used by the products (R331), although an element's class is decided from it
(DESIGN CHOICE, log 133). -/
def elemsOfByte (ty : Nat) (sparse : Bool) (pb off : Nat) : Option (Nat × Nat) :=
  let pl := planeBytes sparse
  let p := Legal.planes ty
  if off < pl * p then (if off / pl < pb then some (off % pl * 8, 8) else none)
  else if expField ty == 4 then some ((off - pl * p) * 2, 2) else some (off - pl * p, 1)

/-- The bytes of a tile that hold bits of element i (R308). -/
def bytesOfElem (ty : Nat) (sparse : Bool) (i : Nat) : List Nat :=
  let pl := planeBytes sparse
  let p := Legal.planes ty
  ((List.range p).map fun j => pl * j + i / 8)
    ++ match expField ty with | 8 => [pl * p + i] | 4 => [pl * p + i / 2] | _ => []

/-- The elements in a tile's index order that byte b of its source holds bits of (R290). -/
def elemsOfSource (ty lay b : Nat) : List Nat :=
  let w := Legal.width ty
  let es := if w == 16 then [b / 2] else (List.range (8 / w)).map fun k => 8 / w * b + k
  if lay == 1 then es.map fun l => 128 * (l % 32) + l / 32 else es

/-- The 16-bit elements of packed bytes. -/
def halves : List Byte → List Nat
  | a :: b :: l => (a.toNat + 256 * b.toNat) :: halves l
  | _ => []

/-- The elements of packed bytes: element L at bits L times the width. -/
def elemsOf (ty : Nat) (bytes : List Byte) : List Nat :=
  let w := Legal.width ty
  if w == 16 then halves bytes
  else bytes.flatMap fun b => (List.range (8 / w)).map fun k => b.toNat / 2 ^ (w * k) % 2 ^ w

/-- The elements of a source in a tile's index order: LAY 1 is 128 rows of K by 32 columns (R290, R324). -/
def layOrder (lay : Nat) (es : List Nat) : List Nat :=
  if lay == 1 then
    let rows := splitEvery 32 128 es
    (List.range 32).flatMap fun c => rows.map fun r => r.getD c 0
  else es

/-- A tile packed from its source elements as contiguous bytes (R290, R324). -/
def packBytes (ty lay : Nat) (src : List Byte) : List Byte :=
  packTile ty (lay == 2) (layOrder lay ((elemsOf ty src).take (elemCount (lay == 2))))

/-! Values under a precision (R310). -/

/-- Planes cut off a significand of p planes. -/
def cutBits (p pb : Nat) : Nat := p - min pb p

/-- A number with its low bits zeroed. -/
def cutLow (m k : Nat) : Nat := m / 2 ^ k * 2 ^ k

/-- The value of a float element: its class as stored, its significand truncated. An exponent field no element of the type
has, which only a store of bytes can make, gives a free value (log 24). -/
def floatVal (ty pb : Nat) (f : Nat × Nat) : FVal :=
  let fb := fracBits ty
  let pat := f.1 / 2 ^ fb % 2 * 2 ^ (fwidth ty - 1) + f.2 * 2 ^ fb + f.1 % 2 ^ fb
  if 2 ^ expBits ty ≤ f.2 then
    match Config.strayTile ty f.1 f.2 with
    | (0, _, _, _) => .nan false
    | (1, n, _, _) => .inf n
    | (_, n, m, e) => .fin n m e
  else
  match fval ty pat with
  | .fin n m e => .fin n (cutLow m (cutBits (fb + 1) pb)) e
  | .nan s => .nan s
  | .inf n => .inf n

/-- A dm8 element: none for NaR, else sign, 64 imp + 9 F6, and decade (a magnitude of 0 for zero). -/
def dmVal (pb : Nat) (f : Nat × Nat) : Option (Bool × Nat × Int) :=
  let neg := f.1 / 64 % 2 == 1
  let k := f.2
  if 8 ≤ k then
    match Config.strayTile 7 f.1 f.2 with
    | (0, _, _, _) => none
    | (_, n, m, e) => some (n, m, e)
  else if k == 7 then (if neg then none else some (false, 0, 0))
  else
    let d : Int := if k % 2 == 0 then k / 2 else -((k + 1) / 2 : Nat)
    some (neg, 64 + 9 * cutLow (f.1 % 64) (cutBits 7 pb), d)

/-- An integer element's value. -/
def intVal (ty pb : Nat) (f : Nat × Nat) : Int :=
  let w := Legal.width ty
  sval (Legal.isSigned ty) w (cutLow f.1 (cutBits w pb))

/-! Chunks (R315, R317, R318). -/

/-- A chunk of float products reduced to one f32 (R315). -/
def chunkFloat (rz : Bool) (ps : List (FVal × FVal)) : Nat :=
  let prods := ps.map fun p => mulVal p.1 p.2
  if prods.any (·.isNone) then 0x7FC00000 else
  let vs := prods.filterMap id
  if vs.any FVal.isNan then 0x7FC00000 else
  let infs := vs.filter fun v => match v with | .inf _ => true | .nan _ | .fin _ _ _ => false
  if infs.any (·.neg) && infs.any (!·.neg) then 0x7FC00000
  else if !infs.isEmpty then infPat 2 (infs.any (·.neg))
  else
    let ts := vs.map finTerm
    let nz := ts.filter fun t => t.2.1 != 0
    match nz with
    | [] => if ts.all (·.1) then 0x80000000 else 0
    | t :: rest =>
      let lead (t : Bool × Nat × Int) : Int := Nat.log2 t.2.1 + t.2.2
      let u := rest.foldl (fun m t => max m (lead t)) (lead t) - 80
      let q (t : Bool × Nat × Int) : Nat × Bool :=
        if u ≤ t.2.2 then (t.2.1 * 2 ^ (t.2.2 - u).toNat, false)
        else (t.2.1 / 2 ^ (u - t.2.2).toNat, t.2.1 % 2 ^ (u - t.2.2).toNat != 0)
      let S : Int := nz.foldl (fun s t => if t.1 then s - (q t).1 else s + (q t).1) 0
      let sticky := nz.any fun t => (q t).2
      let S2 : Int := 2 * S + if sticky then (if S < 0 then -1 else 1) else 0
      (roundTo 2 (if rz then .rz else .rne) false (decide (S2 < 0)) S2.natAbs (u - 1)).bits

/-- A chunk of dm8 products reduced to one f32 (R317). -/
def chunkDm (rz : Bool) (ps : List (Option (Bool × Nat × Int) × Option (Bool × Nat × Int))) : Nat :=
  if ps.any fun p => p.1.isNone || p.2.isNone then 0x7FC00000 else
  let ts := ps.filterMap fun p =>
    match p.1, p.2 with
    | some a, some b => if a.2.1 == 0 || b.2.1 == 0 then none else some (a.1 != b.1, a.2.1 * b.2.1, a.2.2 + b.2.2)
    | _, _ => none
  match ts with
  | [] => 0
  | t :: rest =>
    let dmin := rest.foldl (fun m t => min m t.2.2) t.2.2
    let S : Int := ts.foldl (fun s t =>
      let v : Int := t.2.1 * 10 ^ (t.2.2 - dmin).toNat
      if t.1 then s - v else s + v) 0
    if S == 0 then 0
    else
      let num := S.natAbs * 10 ^ dmin.toNat
      let den := 4096 * 10 ^ (-dmin).toNat
      (roundRat 2 (if rz then .rz else .rne) false (decide (S < 0)) num den).bits

/-! Tile operations (R321 to R323). -/

/-- The position along K of kept element m of row r under position indices (R322). -/
def keptPos (index : List Nat) (r m : Nat) : Nat := 4 * (m / 2) + index.getD (64 * r + m) 0 % 4

/-- The products of row r with a column of B: all of K, or the kept positions (R321, R322). -/
def rowPairs {α : Type} (index : Option (List Nat)) (r : Nat) (d : α) (row col : List α) : List (α × α) :=
  match index with
  | none => row.zip col
  | some ix => row.zipIdx.map fun (x, m) => (x, col.getD (keptPos ix r m) d)

/-- The accumulator tile after an operation on the values of A and of the B tiles: each element takes its four chunks in
turn (R315, R321, R323). -/
def tileFold {α : Type} (index : Option (List Nat)) (d : α) (add : Word → List (α × α) → Word) (a : List α) (bs : List (List α))
    (z : List Word) : List Word :=
  let n := if index.isSome then 64 else 128
  let cols := bs.map (splitEvery 128 32)
  (splitEvery n 32 a).zipIdx.flatMap fun (row, r) =>
    (cols.getD (if bs.length == 4 then r / 8 else 0) []).zipIdx.map fun (col, c) =>
      (splitEvery (n / 4) 4 (rowPairs index r d row col)).foldl add (z.getD (32 * r + c) 0)

/-- The accumulator tile after an operation: A's bytes, the B tiles' bytes (four for a grouped operation), the old tile. -/
def tileResult (ta tb pb : Nat) (rz : Bool) (index : Option (List Nat)) (a : List Byte) (bs : List (List Byte))
    (z : List Word) : List Word :=
  let fa := tileFields ta index.isSome a
  let fbs := bs.map (tileFields tb false)
  if ta < 7 then
    tileFold index (.fin false 0 0) (fun z ps => BitVec.ofNat 32 (fadd 2 .rne false z.toNat (chunkFloat rz ps)).bits)
      (fa.map (floatVal ta pb)) (fbs.map fun l => l.map (floatVal tb pb)) z
  else if ta == 7 then
    tileFold index none (fun z ps => BitVec.ofNat 32 (fadd 2 .rne false z.toNat (chunkDm rz ps)).bits)
      (fa.map (dmVal pb)) (fbs.map fun l => l.map (dmVal pb)) z
  else
    tileFold index 0 (fun z ps => ps.foldl (fun z p => z + BitVec.ofInt 32 (p.1 * p.2)) z)
      (fa.map (intVal ta pb)) (fbs.map fun l => l.map (intVal tb pb)) z

/-- Row r multiplies some of the n elements along K from position k on: every one of a dense row, the kept positions of a sparse
one (R321, R322). -/
def usesPos (index : Option (List Nat)) (r k n : Nat) : Bool :=
  match index with
  | none => true
  | some ix => (List.range 64).any fun m => decide (k ≤ keptPos ix r m) && decide (keptPos ix r m < k + n)

/-- The outputs poisoned by uncorrectable operand bytes: those whose products used such a byte (R331). -/
def tileBad (ta tb pb : Nat) (index : Option (List Nat)) (aBad : List Nat) (bBad : List (List Nat)) : List Nat :=
  let rows := (aBad.filterMap (elemsOfByte ta index.isSome pb)).map fun x => x.1 / (elemCount index.isSome / 32)
  let cols := bBad.map fun l => l.filterMap (elemsOfByte tb false pb)
  (List.range 1024).filter fun i =>
    let r := i / 32
    rows.contains r
      || (cols.getD (if bBad.length == 4 then r / 8 else 0) []).any fun x => x.1 / 128 == i % 32 && usesPos index r (x.1 % 128) x.2

end Sys2Proof.Machine.Tiles
end

