-- ==== Sys2Proof/Machine/LaneMatrix.lean ====
section
/-! DEFINITION. Engine words in a course, and the matrix instructions with the array's two events (R283, R307 to R331). -/

namespace Sys2Proof.Machine

/-! The frame of an engine word (R258, R283). -/

/-- The common start of an engine word: its V and g sources are read at the lowest active thread. -/
def State.engIssue (s : State) (codes : List (BitVec 8)) : Except Stop Env :=
  let g := s.me.core.guard false
  let one : Mask := BitVec.ofNat 256 (2 ^ valueThread g)
  s.issue g ((codes.filter fun c => c != 0xF1).map fun c => (c, one))

/-- The value an engine word reads from a source. -/
def Env.one (e : Env) (code : BitVec 8) : Word := e.at code (valueThread (e.guard false))

/-- Register i of an x group. -/
def Env.grp (e : Env) (code : BitVec 8) (i : Nat) : Word := e.x (code + BitVec.ofNat 8 i)

/-- An engine word that writes a status is accepted: it goes to the active threads' D, and a checkpoint follows (R181, R283). -/
def State.engFinish (s : State) (e : Env) (w : Eng) (v : Word) (ckpt : Bool := true) : State :=
  let s := s.finish e (if w.d == 0xF1 then [] else [keyOf w.d]) none fun k =>
    if w.d == 0xF1 then k else k.result e.me.core w.look.toNat false w.d (e.guard false) (List.replicate 256 v)
  if ckpt && e.after.isNone then s.checkpoint s.cur else s

/-- A matrix word is accepted: it writes no register, so D and LOOK are ignored, and a checkpoint follows (R181, R320). -/
def State.matFinish (s : State) (e : Env) : State :=
  let s := s.finish e [] none id
  if e.after.isNone then s.checkpoint s.cur else s

/-- A scratch violation of every active thread, and nothing performed (R311). -/
def State.engViolation (s : State) (e : Env) : State := s.finish e [] none fun k => k.scratchFault (e.guard false)

/-! The window as engines see it. -/

/-- A byte of a team's window read by an engine: a mapped byte that has not been filled comes from its global address, and a
byte nothing has placed there is a free value (R192, R203, log 25). -/
def State.windowByte (s : State) (t off : Nat) : Byte :=
  let tm := s.team t
  match tm.stashAt off with
  | some (_, x) =>
    if x.mode == 2 || x.dirty.contains off || x.filled.any (fun f => f.off == off / 64) then tm.scratch.get off
    else match s.readVA { ctx := tm.ctx, team := some t } (x.va + (off - x.scr)) 1 with
      | .ok b => b.headD 0
      | .error _ => tm.scratch.get off
  | none =>
    if tm.byteWritten off then tm.scratch.get off else s.strayByte off

/-- The bytes of a range of a window. -/
def State.windowRead (s : State) (t off n : Nat) : List Byte :=
  let tm := s.team t
  if tm.stash.isEmpty then
    let masks := (List.range ((off + n + 63) / 64 - off / 64)).map fun k => tm.lineMask (off / 64 + k)
    (tm.scratch.read off n).zipIdx.map fun (b, i) =>
      if (masks.getD ((off + i) / 64 - off / 64) 0).getLsbD ((off + i) % 64) then b else s.strayByte (off + i)
  else (List.range n).map fun i => s.windowByte t (off + i)

/-- The uncorrectable bytes of a range of a window, by offset in the range. -/
def State.windowBad (s : State) (t off n : Nat) : List Nat := (List.range n).filter fun i => (s.team t).bad.contains (off + i)

/-! Matrix contexts (R312). -/

/-- The word cannot bind: both contexts of the core are bound by others, or granted to their words (R312, R346). -/
def State.noContext (s : State) : Bool :=
  let c := s.me
  c.mctx.isNone && 2 ≤ s.boundCtx c.place - if c.grantBinds && c.phase != .vacated then 1 else 0

/-- A matrix context bound: z0 to z3 are +0. -/
def State.bindCtx (s : State) : State :=
  s.modMe fun c => { c with mctx := some (c.mctx.getD { tiles := List.replicate 4 ({} : Tile) }) }

/-- The wait for an engine. -/
def engineWait : Stop := .wait { kind := .engine }

/-- The wait for a matrix context (R312). -/
def contextWait : Stop := .wait { kind := .context }

/-- A tile of the current course has tile operations that have not ended (R313). -/
def State.tileBusy (s : State) (i mask : Nat) : Bool := s.tileOps.any fun o => o.course == i && mask / 2 ^ o.z % 2 == 1

/-- Accumulator tile z of a course. -/
def Course.tile (c : Course) (z : Nat) : Tile := ((c.mctx.getD {}).tiles).getD z {}

/-- Accumulator tile z of a course replaced. -/
def State.setTile (s : State) (i z : Nat) (t : Tile) : State :=
  s.modCourse i fun c => { c with mctx := c.mctx.map fun m => { m with tiles := m.tiles.set z t } }

/-! MMA, MMAS, MMG (R319 to R323). -/

/-- The gauge charge of a tile operation of c array cycles (R330). -/
def tileCost (c : Nat) : Nat := 16 + (5 * c + 6) / 7

/-- That charge on a core's array account. -/
def tileCharge (place ns : Nat) : Charge := { cluster := clusterOf place, acct := arAcct place, ns := ns }

/-- The mapped lines of several ranges of the current course's window fetched, or the page that stops one (R203). -/
def State.fillRanges (s : State) (rs : List (Nat × Nat)) (mask : Mask) : Except Stop State :=
  rs.foldlM (fun s r => s.fillRange r.1 r.2 mask) s

/-- The tile ranges an operation reads: offset and bytes. -/
def TileOp.ranges (o : TileOp) : List (Nat × Nat) :=
  (o.aoff, Tiles.tileBytes o.ta o.index.isSome) :: o.boffs.map fun b => (b, Tiles.tileBytes o.tb false)

/-- An operation with the operand bytes as they stand at its word, and the uncorrectable ones (R314, R331). -/
def State.caught (s : State) (o : TileOp) : TileOp :=
  let rd (r : Nat × Nat) : List Byte := s.windowRead o.team r.1 r.2
  let bd (r : Nat × Nat) : List Nat := s.windowBad o.team r.1 r.2
  let a := o.ranges.headD (0, 0)
  let bs := o.ranges.drop 1
  { o with aCap := rd a, bCaps := bs.map rd, aBad := bd a, bBad := bs.map bd }

/-- A tile operation's word: reads lists its sources, mk forms the operation, cycles its array cycles. -/
def State.tileWord (s0 : State) (_w : Eng) (reads : List (BitVec 8 × Mask)) (cycles : Nat) (mk : Env → TileOp) : State :=
  let s := s0.commit s0.cur
  let c := s.me
  match s.issue (c.core.guard false) (reads.filter fun r => r.1 != 0xF1) with
  | .error x => s.stop x
  | .ok e =>
    let op := mk e
    let act := e.guard false
    if s.noContext then s.stop contextWait
    else if 16 ≤ (s.tileOps.filter fun o => o.course == s.cur).length then s.stop engineWait
    else match op.ranges.find? fun r => r.1 % 512 != 0 with
    | some _ => s.stop (.trap { cause := cALIGN, mask := act })
    | none =>
      if op.ranges.any fun r => (s.window c).violates c.heldS r.1 r.2 false then s.engViolation e
      else
        let chs := [tileCharge c.place (tileCost cycles)]
        match s.fillRanges op.ranges act, s.gateStop chs c.mctx.isNone with
        | .error x, _ | .ok _, some x => s.stop x
        | .ok s, none =>
          let op := { s.caught op with charge := tileCost cycles }
          let s := (s.bindCtx).keepCharges s.cur chs
          let s := { s with tileOps := s.tileOps ++ [op] }
          s.matFinish e

/-- The x offset of a source: 0 for 0xF1. -/
def Env.xoff (e : Env) (code : BitVec 8) : Nat := (e.x code).toNat

/-- The common fields of a tile operation's word (R320). -/
def State.tileOf (s : State) (e : Env) (w : Eng) (boffs : List Nat) (index : Option (List Nat)) : TileOp :=
  let c := s.me
  { course := s.cur, ctx := c.ctx, team := c.team.getD 0, place := c.place, z := w.ex.toNat / 4 % 4, ta := w.imm.toNat / 4096,
    tb := w.imm.toNat / 256 % 16, pb := w.ex.toNat / 16 % 16, rz := w.ex.getLsbD 1,
    aoff := w.ex.toNat / 2 ^ 20 * 512 + e.xoff w.s1, boffs := boffs, index := index }

/-- The B offset of MMA and MMAS. -/
def boffOf (w : Eng) : Nat := w.ex.toNat / 256 % 4096 * 512

/-- MMA. -/
def execMma (w : Eng) (s : State) : Out :=
  .next (s.tileWord w [] (w.ex.toNat / 16 % 16) fun e => s.tileOf e w [boffOf w + e.xoff w.s2] none)

/-- The threads that supply MMAS its indices (R322). -/
def indexThreads (hi : Bool) : Mask := maskOf 256 fun t => t % 64 / 32 == (if hi then 1 else 0)

/-- The 2,048 position indices of MMAS. -/
def indexList (hi : Bool) (v : List Word) : List Nat :=
  (threadsOf (indexThreads hi)).flatMap fun t => (List.range 16).map fun i => (v.getD t 0).toNat / 4 ^ i % 4

/-- MMAS. -/
def execMmas (w : Eng) (s : State) : Out :=
  let hi := w.imm.getLsbD 4
  .next (s.tileWord w [(w.s2, indexThreads hi)] ((w.ex.toNat / 16 % 16 + 1) / 2) fun e =>
    s.tileOf e w [boffOf w] (some (indexList hi (e.src 0 0 w.s2))))

/-- MMG: the B offsets stand in four g registers. -/
def execMmg (w : Eng) (s : State) : Out :=
  let one : Mask := BitVec.ofNat 256 (2 ^ valueThread (s.me.core.guard false))
  let g (q : Nat) : BitVec 8 := w.s2 + BitVec.ofNat 8 q
  .next (s.tileWord w ((List.range 4).map fun q => (g q, one)) (w.ex.toNat / 16 % 16) fun e =>
    s.tileOf e w ((List.range 4).map fun q => (e.one (g q)).toNat) none)

/-! PLN (R324). -/

/-- PLN: every thread slot of the registers is read, whatever the guard. -/
def execPln (w : Eng) (s0 : State) : Out :=
  let s := s0.commit s0.cur
  let c := s.me
  let ty := w.imm.toNat / 4096
  let lay := w.ex.toNat % 4
  let regs := (List.range (Legal.plnRegs ty lay)).map fun k => plusCode w.s1 k
  .next (match s.issue (c.core.guard false) (regs.map fun r => (r, BitVec.allOnes 256)) with
    | .error x => s.stop x
    | .ok e =>
      let off : Nat := w.ex.toNat / 2 ^ 20 * 512 + e.xoff w.s2
      let n := Tiles.tileBytes ty (lay == 2)
      if off % 512 != 0 then s.stop (.trap { cause := cALIGN, mask := e.guard false })
      else if (s.window c).violates c.heldS off n true then s.engViolation e
      else
        match s.fillRange off n (e.guard false) with
        | .error x => s.stop x
        | .ok s =>
          let bytes := regs.flatMap fun r => (e.src 0 0 r).flatMap wordBytes
          let s := match c.team with
            | some t => s.putWindow t c.lclock (cellsAt off (Tiles.packBytes ty lay bytes))
            | none => s
          s.matFinish e)

/-! MLDA, MSTA (R325). -/

/-- The words of a tile from its bytes. -/
def wordsOf (bytes : List Byte) : List Word :=
  let a := bytes.toArray
  (List.range (bytes.length / 4)).map fun k => bytesWord ((List.range 4).map fun i => a.getD (4 * k + i) 0)

/-- MLDA. -/
def execMlda (w : Eng) (s0 : State) : Out :=
  let s := s0.commit s0.cur
  let c := s.me
  let i := s.cur
  let z := w.ex.toNat / 4 % 4
  .next (match s.engIssue [] with
    | .error x => s.stop x
    | .ok e =>
      let act := e.guard false
      let off : Int := (e.xoff w.s1 : Int) + w.imm.toInt
      if s.noContext then s.stop contextWait
      else if s.tileBusy i (2 ^ z) then s.stop engineWait
      else if w.ex.getLsbD 31 then
        if off % 4 != 0 then s.stop (.trap { cause := cALIGN, mask := act })
        else if (s.window c).violates c.heldS off 4096 false then s.engViolation e
        else
          match s.fillRange off.toNat 4096 act, s.gateStop [] c.mctx.isNone with
          | .error x, _ | .ok _, some x => s.stop x
          | .ok s, none =>
            let bad := (List.range 1024).filter fun k =>
              (List.range 4).any fun j => (s.window c).bad.contains (off.toNat + 4 * k + j)
            let t : Tile := { vals := wordsOf (s.scratchRead c off.toNat 4096), bad := bad }
            ((s.bindCtx.shadowWrites i [.z z]).setTile i z t).matFinish e
      else
        let cap := e.cap w.ea.toNat
        let ea : Int := (capBase cap : Int) + off
        match s.useErr c.who cap 0 pR ea 4096 4 false, s.gateStop [] c.mctx.isNone with
        | some x, _ => s.stop (x.stop ea act)
        | none, some x => s.stop x
        | none, none =>
          let va := ea.toNat
          let bad := (List.range 1024).filter fun k => s.badLoad c (va + 4 * k) 4
          let t : Tile := { vals := wordsOf ((s.loadVA c va 4096).toOption.getD []), bad := bad }
          (((s.noteLoad i va 4096).bindCtx.shadowWrites i [.z z]).setTile i z t).matFinish e)

/-- A consumed poisoned accumulator element is clean: the tile has a shadow copy whose element is not poisoned (R359). -/
def Course.cleanTile (c : Course) (z : Nat) : Bool :=
  match c.tileCopies.lookup z with
  | some old => (c.tile z).bad.all fun i => !old.bad.contains i
  | none => false

/-- MSTA. A clean error of the tile rolls back, and the replay meets it again until the eighth time, since the tile stays (R358, R359,
log 31). -/
def execMsta (w : Eng) (s0 : State) : Out :=
  let s := s0.commit s0.cur
  let c := s.me
  let i := s.cur
  let z := w.ex.toNat / 4 % 4
  .next (match s.engIssue [] with
    | .error x => s.stop x
    | .ok e =>
      let act := e.guard false
      let off : Int := (e.xoff w.s1 : Int) + w.imm.toInt
      let t := c.tile z
      let bytes := (padTo 1024 t.vals).flatMap wordBytes
      if s.noContext then s.stop contextWait
      else if s.tileBusy i (2 ^ z) then s.stop engineWait
      else if w.ex.getLsbD 31 then
        if off % 4 != 0 then s.stop (.trap { cause := cALIGN, mask := act })
        else if (s.window c).violates c.heldS off 4096 true then s.engViolation e
        else if !t.bad.isEmpty then s.stop (.rferr { cause := cRFERR, mask := act } (c.cleanTile z))
        else match s.fillRange off.toNat 4096 act, s.gateStop [] c.mctx.isNone with
        | .error x, _ | .ok _, some x => s.stop x
        | .ok s, none => (s.bindCtx.holdCells i true (cellsAt off.toNat bytes)).matFinish e
      else
        let cap := e.cap w.ea.toNat
        let ea : Int := (capBase cap : Int) + off
        match s.useErr c.who cap 0 pW ea 4096 4 true with
        | some x => s.stop (x.stop ea act)
        | none =>
          if !t.bad.isEmpty then s.stop (.rferr { cause := cRFERR, mask := act } (c.cleanTile z))
          else match s.gateStop [] c.mctx.isNone with
          | some x => s.stop x
          | none => (s.bindCtx.holdCells i false (cellsAt ea.toNat bytes) 0 true).matFinish e)

/-! MZRO, MREL, MWAIT (R326). -/

/-- MZRO. -/
def execMzro (w : Eng) (s0 : State) : Out :=
  let s := s0.commit s0.cur
  let i := s.cur
  let zs := (List.range 4).filter fun z => w.ex.getLsbD z
  .next (match s.engIssue [] with
    | .error x => s.stop x
    | .ok e =>
      if s.noContext then s.stop contextWait
      else if s.tileBusy i w.ex.toNat then s.stop engineWait
      else match s.gateStop [] s.me.mctx.isNone with
      | some x => s.stop x
      | none => (zs.foldl (fun s z => s.setTile i z {}) (s.bindCtx.shadowWrites i (zs.map .z))).matFinish e)

/-- The words that wait for a matrix context or an engine of a core test again. -/
def State.wakeEngine (s : State) (place : Nat) : State :=
  s.wakeIf fun _ c w => (w.kind == .engine || w.kind == .context) && c.place == place

/-- MREL. -/
def execMrel (_w : Eng) (s0 : State) : Out :=
  let s := s0.commit s0.cur
  .next (match s.engIssue [] with
    | .error x => s.stop x
    | .ok e =>
      if s.tileBusy s.cur 15 then s.stop engineWait
      else ((s.modMe fun c => { c with mctx := none }).wakeEngine s.me.place).matFinish e)

/-- MWAIT. -/
def execMwait (w : Eng) (s0 : State) : Out :=
  let s := s0.commit s0.cur
  .next (match s.engIssue [] with
    | .error x => s.stop x
    | .ok e => if s.tileBusy s.cur w.ex.toNat then s.stop engineWait else s.matFinish e)

/-- The split of a core changed. -/
def State.modSplit (s : State) (place : Nat) (f : Split → Split) : State :=
  { s with splits := s.splits.map fun p => if p.place == place then f p else p }

/-! The array: starting and ending tile operations (R313, R314, R327, R328, R334). -/

/-- Tmax (R327). -/
def tmax (budget : Nat) : Nat := min 48 ((budget - 800) / 30)

/-- The tokens each ring carries: the firmware's value, less those heat has taken off, and no more than Tmax (R327, R435). -/
def State.ringTokens (s : State) : Nat := min (s.tokens - s.throttle) (tmax s.hpbudget)

/-- A core holds a token. -/
def State.coreToken (s : State) (place : Nat) : Bool := s.splits.any fun p => p.place == place && p.token

/-- The gang of a course: its launch and its number in it (R404). -/
def State.gangOf (s : State) (i : Nat) : Nat × Nat :=
  let c := s.course i
  let n := match s.launch? c.launch with | some l => l.cpt * l.gang | none => 1
  (c.launch, c.index / max n 1)

/-- The cores a gang occupies: those of its courses, a retired one among them while operations of its context are left (R91). -/
def State.gangCores (s : State) (g : Nat × Nat) : List Nat :=
  (((List.range s.courses.length).filter fun i => ((s.course i).alive || (s.course i).mctx.isSome) && s.gangOf i == g).map fun i =>
    (s.course i).place).eraseDups

/-- The token cap of a gang (R328). -/
def State.gangCap (s : State) (g : Nat × Nat) : Nat :=
  match s.launch? g.1 with
  | some l => if l.power == 0 then (s.gangCores g).length else l.power
  | none => 0

/-- A core may take a token: one is free on its panel's ring, and every gang with a context bound on it holds fewer than its
cap (R328). -/
def State.mayTake (s : State) (place : Nat) : Bool :=
  let out := (s.splits.filter fun p => p.token && p.place / 48 == place / 48).length
  let gangs := (((List.range s.courses.length).filter fun i =>
    (s.course i).place == place && (s.course i).phase != .vacated && (s.course i).mctx.isSome).map s.gangOf).eraseDups
  decide (out < s.ringTokens)
    && gangs.all fun g => decide (((s.gangCores g).filter s.coreToken).length < s.gangCap g)

/-- Tile operation k is its tile's next and ready, and its context's engines run (R313, R347). -/
def State.tileReady (s : State) (k : Nat) : Bool :=
  match s.tileOps[k]? with
  | none => false
  | some o => o.ready && !o.started && s.engineRuns o.ctx (clusterOf o.place) && !(s.tileOps.take k).any fun p => p.course == o.course && p.z == o.z

/-- Tile operation k can start: it is ready, its core holds or may take a token, and the array's turn is its context's or
the other context of the core has nothing ready (R26, R313, R328). -/
def State.tileStarts (s : State) (k : Nat) : Bool :=
  match s.tileOps[k]? with
  | none => false
  | some o =>
    let last := ((s.splits.find? fun p => p.place == o.place).map (·.lastTile)).getD 0
    let other := (List.range s.tileOps.length).any fun j =>
      match s.tileOps[j]? with
      | some p => p.place == o.place && p.course != o.course && s.tileReady j
      | none => false
    s.tileReady k && !s.tileOps.any (fun p => p.place == o.place && p.started && (s.context p.ctx).mode != .vacated)
      && (s.coreToken o.place || s.mayTake o.place) && (o.course + 1 != last || !other)

/-- Tile operation k changed. -/
def State.modTileOp (s : State) (k : Nat) (f : TileOp → TileOp) : State := { s with tileOps := s.tileOps.modify k f }

/-- Tile operation k has ended: it leaves the queue and its charge is credited; the context of a course that has retired is
freed with its last operation; a follow-on tells its copy (R91, R296, R326, R330). -/
def State.tileGone (s : State) (k : Nat) (ok : Bool) : State :=
  match s.tileOps[k]? with
  | none => s
  | some o =>
    let s := { s with tileOps := s.tileOps.eraseIdx k }
    let s := s.credit o.ctx [tileCharge o.place o.charge]
    let s := match o.job with
      | some j => s.modJob j fun job => { job with follow := if ok then 2 else 3 }
      | none => s
    let s := if (s.course o.course).phase == .retired && !s.tileOps.any (fun p => p.course == o.course) then
      s.modCourse o.course fun c => { c with mctx := none } else s
    (s.wakeEngine o.place).coreCheck o.place

/-- Bytes of a team's window from an offset, of which the first n may have been written since they were caught: each is the
old or the new one (R314). -/
def State.raced (s : State) (t off n : Nat) (cap : List Byte) : List Byte :=
  cap.zipIdx.map fun (v, i) =>
    if i < n && s.pick (off + i) then (if (s.team t).alive then s.windowByte t (off + i) else v) else v

/-- The uncorrectable bytes of such a range: each is that of the value taken (R314, R331). -/
def State.racedBad (s : State) (t off n len : Nat) (bad : List Nat) : List Nat :=
  (List.range len).filter fun i =>
    if i < n && s.pick (off + i) && (s.team t).alive then (s.team t).bad.contains (off + i) else bad.contains i

/-- The bytes of an operand range that the array takes at the start: a follow-on's as they stand, another operation's each as
it stood at the word or as it stands (R296, R314). -/
def State.startBytes (s : State) (o : TileOp) (r : Nat × Nat) (cap : List Byte) : List Byte :=
  if o.job.isSome then s.windowRead o.team r.1 r.2 else s.raced o.team r.1 r.2 cap

/-- The mapped lines of a range that an engine reads for a course are fetched, where their pages can be used (R203). -/
def State.engineFill (s : State) (i t off n : Nat) : State :=
  let c := s.course i
  if c.team != some t then s
  else
    let fs := s.fills c ((pieces off n).map (·.1))
    (fs.filter fun f => !(s.fillsLost c fs).contains f).foldl (fun s f => s.fillLine i f) s

/-- TILE_OP_START (subj: num the operation): the array takes it with a token and reads its operands; a follow-on's ranges are
checked now, and one that fails performs nothing (R313, R328, R334). -/
def execTileOpStart (s : State) : Out :=
  let k := s.subj.num
  .next (match s.tileOps[k]? with
    | none => s
    | some o =>
      let tm := s.team o.team
      if !s.tileStarts k then s
      else if o.job.isSome && o.ranges.any fun r => tm.violates [] r.1 r.2 false then s.tileGone k false
      else
        let s := if o.job.isSome then o.ranges.foldl (fun s r => s.engineFill o.course o.team r.1 r.2) s else s
        let bd (r : Nat × Nat) (bad : List Nat) : List Nat :=
          if o.job.isSome then s.windowBad o.team r.1 r.2 else s.racedBad o.team r.1 r.2 r.2 bad
        let a := o.ranges.headD (0, 0)
        let bs := o.ranges.drop 1
        let s' := s.modTileOp k fun o =>
          { o with started := true, aCap := s.startBytes o a o.aCap,
                   bCaps := bs.zipIdx.map fun (r, i) => s.startBytes o r (o.bCaps.getD i []), aBad := bd a o.aBad,
                   bBad := bs.zipIdx.map fun (r, i) => bd r (o.bBad.getD i []) }
        s'.modSplit o.place fun p => { p with token := true, burst := p.burst + 1, lastTile := o.course + 1 })

/-- A B tile as the array read it, plane by plane: each byte that has been written since the start is the old or the new one
(R314); the exponent array was read at the start. -/
def State.racedTile (s : State) (o : TileOp) (b : Nat × Nat) (cap : List Byte) : List Byte :=
  s.raced o.team b.1 (Legal.planes o.tb * 512) cap

/-- A tile the array writes enters the register shadow of its course (R183); where it does not fit, a checkpoint comes first,
unless a word of the course is still in flight (R181). -/
def State.shadowTile (s : State) (i z : Nat) : State :=
  let c := s.course i
  if !c.alive || c.phase == .vacated || c.phase == .swapped || c.shadow.contains (.z z) then s
  else
    let s := if c.inFlight then s.modCourse i fun c => { c with shadow := .z z :: c.shadow } else s.shadowWrites i [.z z]
    s.modCourse i fun k => { k with tileCopies := (z, c.tile z) :: k.tileCopies }

/-- TILE_OP_END (subj: num the operation): its results are written into the tile in one step, and the core returns its token
after the 64th operation of a burst (R313, R321, R328). -/
def execTileOpEnd (s : State) : Out :=
  let k := s.subj.num
  .next (match s.tileOps[k]? with
    | none => s
    | some o =>
      if !o.started || !s.engineRuns o.ctx (clusterOf o.place) then s
      else
        let c := s.course o.course
        let old := c.tile o.z
        let bs := ((o.ranges.drop 1).zip o.bCaps).map fun (b, cap) => s.racedTile o b cap
        let vals := Tiles.tileResult o.ta o.tb o.pb o.rz o.index o.aCap bs old.vals
        let bads := ((o.ranges.drop 1).zip o.bBad).map fun (b, l) => s.racedBad o.team b.1 (Legal.planes o.tb * 512) b.2 l
        let bad := Tiles.tileBad o.ta o.tb o.pb o.index o.aBad bads
        let s := (s.shadowTile o.course o.z).setTile o.course o.z { vals := vals, bad := old.bad ++ bad.filter fun i => !old.bad.contains i }
        let s := s.modSplit o.place fun p => if 64 ≤ p.burst then { p with token := false, burst := 0 } else p
        s.tileGone k true)

/-- A core that holds a token and whose array has no operation that runs or is ready. -/
def State.tokenIdle (s : State) (place : Nat) : Bool :=
  s.coreToken place && !(List.range s.tileOps.length).any fun k =>
    match s.tileOps[k]? with
    | some o => o.place == place && (o.started || s.tileReady k)
    | none => false

/-- TOKEN_IDLE_RETURN (subj: num the core): a core whose array has had no ready operation for 32 cycles returns its token
(R328). -/
def execTokenIdleReturn (s : State) : Out :=
  .next (if s.tokenIdle s.subj.num then s.modSplit s.subj.num fun p => { p with token := false, burst := 0 } else s)

end Sys2Proof.Machine
end

