-- ==== Sys2Proof/Machine/LaneCopy.lean ====
section
/-! DEFINITION. Completion rings, copies and the copy engine (R284 to R297). -/

namespace Sys2Proof.Machine

/-! Rings as a course's words use them (R286, R288, R289). -/

/-- A ring capability checked: KIND 5, a permission, its header line (R289). -/
def State.ringErr (s : State) (cap : Cap) (perm : Nat) (act : Mask) : Option Stop :=
  (s.useErr s.me.who cap 5 perm (capBase cap) 64 64 false).map fun x => x.stop (capBase cap) act

/-- The fault of an inconsistent header (R286). -/
def ringFault (cap : Cap) (act : Mask) : Stop := .trap { cause := cCAPF, detail := 9, mask := act, addr := capBase cap }

/-- A slot of a ring checked as part of the ring's range: its page, and M where it lies on another device (R95). -/
def State.slotCheck (s : State) (cap : Cap) (perm k : Nat) (h : RingHdr) (act : Mask) : Option Stop :=
  (s.useErr s.me.who cap 5 perm (slotVA cap h k) 32 1 false).map fun x => x.stop (slotVA cap h k) act

/-- The wait on a ring's header line (R288, R289). -/
def State.ringWait (s : State) (cap : Cap) : Stop :=
  .wait { kind := .ring, line := s.watchLine s.me.who (capBase cap) }

/-- The write time of a ring's header line. -/
def State.ringTime (s : State) (cap : Cap) : Nat :=
  match s.translate s.me.who (capBase cap) with | .ok x => (s.stampOf (x.loc / 64)).1 | .error _ => 0

/-- A ring word with a charge of class 4: its ring checked, its effect at the header's home after a release; a new header's
reserved bits are written 0 (R286, R289, R306). -/
def State.ringWord (s : State) (w : Eng) (reads : List (BitVec 8)) (scope : RingHdr → Nat) (fresh : Bool)
    (f : Env → RingHdr → RingHdr × Nat) : State :=
  let c := s.me
  match s.engIssue reads with
  | .error x => s.stop x
  | .ok e =>
    let cap := e.cap w.ea.toNat
    let act := e.guard false
    match s.ringErr cap (pA ||| pW) act with
    | some x => s.stop x
    | none =>
      match s.ringHdr c.ctx cap c.team with
      | .error x => s.stop ((UseErr.page x).stop (capBase cap) act)
      | .ok h =>
        if !fresh && !h.ok cap then s.stop (ringFault cap act)
        else match s.releaseEnter s.cur (scope h) with
        | (s, some x) => s.stop x
        | (s, none) =>
          match s.gateStop (s.class4 c (capBase cap)), s.ringHdr c.ctx cap c.team with
          | some x, _ => s.stop x
          | none, .error x => s.stop ((UseErr.page x).stop (capBase cap) act)
          | none, .ok h =>
            let s := s.releaseClock s.cur
            let r := f e h
            let (s, t) := s.pokeAt { ctx := c.ctx, team := c.team, clk := s.me.lclock } (capBase cap)
              (ringBytes r.1 ++ if fresh then List.replicate 46 0 else [])
            (s.modMe fun k => { k with lclock := max k.lclock t, wmax := max k.wmax t }).engFinish e w (BitVec.ofNat 32 r.2)

/-- CRINIT: capacity and scope of the new header are the word's, also where the capability is too short for that capacity (R289;
DESIGN CHOICE, log 114). -/
def execCrinit (w : Eng) (s : State) : Out :=
  .next (s.ringWord w [] (fun _ => w.ex.toNat % 8) true fun e h =>
    ({ stale := 0, rp := 0, wp := 0, alloc := 0, gen := (h.gen + 1) % 256, scope := w.ex.toNat % 8, caplog := w.imm.toNat % 32,
       magic := 0x5C05 },
      if h.ok (e.cap w.ea.toNat) then min (sub32 h.alloc h.wp) 0xFFFF else 0))

/-- RSLOT. -/
def execRslot (w : Eng) (s : State) : Out :=
  .next (s.ringWord w [w.s1] (fun h => h.scope) false fun e h =>
    let m := min (e.one w.s1).toNat (sub32 h.wp h.rp)
    ({ h with rp := (h.rp + m) % 2 ^ 32 }, m))

/-- AWAIT. -/
def execAwait (w : Eng) (s : State) : Out :=
  let c := s.me
  .next (match s.engIssue [w.s1] with
    | .error x => s.stop x
    | .ok e =>
      let cap := e.cap w.ea.toNat
      let act := e.guard false
      let k := (e.one w.s1).toNat
      match s.ringErr cap (pA ||| pR) act with
      | some x => s.stop x
      | none =>
        match s.ringHdr c.ctx cap c.team with
        | .error x => s.stop ((UseErr.page x).stop (capBase cap) act)
        | .ok h =>
          if !h.ok cap then s.stop (ringFault cap act)
          else
            let s1 := s.noteHome c.who (capBase cap) 64
            if sub32 k h.rp < sub32 h.wp h.rp then
              match s.slotCheck cap (pA ||| pR) k h act, s.readWord c.who (slotVA cap h k) with
              | some x, _ => s.stop x
              | none, .error x => s.stop ((UseErr.page x).stop (slotVA cap h k) act)
              | none, .ok v => ((s1.noteHome c.who (slotVA cap h k) 4).acquire s.cur (s.ringTime cap)).engFinish e w v
            else if sub32 h.alloc h.rp ≤ sub32 k h.rp then s1.engFinish e w 0xFF
            else s1.stop (s.ringWait cap))

/-! The ranges of a copy (R285, R290). -/

/-- RCAP of EX. -/
def exRing (w : Eng) : Nat := w.ex.toNat / 2 ^ 28

/-- BCAP of EX. -/
def exBar (w : Eng) : Nat := w.ex.toNat / 2 ^ 23 % 16

/-- PACK of EX: the element type and the layout (R285). -/
def exPack (w : Eng) : Option (Nat × Nat) :=
  if w.ex.getLsbD 18 then some (w.ex.toNat / 2 ^ 13 % 16, flagNat (w.ex.getLsbD 17)) else none

/-- Bytes of one source tile (R290). -/
def sourceTile (ty : Nat) : Nat := 4096 * Legal.width ty / 8

/-- Bytes a copy of n bytes writes. -/
def packedLen (pack : Option (Nat × Nat)) (n : Nat) : Nat :=
  match pack with
  | none => n
  | some (ty, _) => n / sourceTile ty * Tiles.tileBytes ty false

/-- One end in the team's window: inside it, and a multiple of 4 (R290). -/
def State.scratchEnd (s : State) (off n : Nat) (act : Mask) : Except Stop End :=
  if (s.window s.me).size < off + n then .error (.trap { cause := cCAPF, detail := 4, mask := act })
  else if off % 4 != 0 || n % 4 != 0 then .error (.trap { cause := cALIGN, mask := act })
  else .ok (.scratch (s.me.team.getD 0) off)

/-- One end in global memory: checks 1 to 4 and M; the pages are the engine's to find (R290, R291). -/
def State.globalEnd (s : State) (cap : Cap) (perm off n : Nat) (act : Mask) : Except Stop End :=
  let va := capBase cap + off
  match capCheck cap 0 perm va n 1 with
  | some f => .error ((UseErr.cap f).stop va act)
  | none =>
    if capPerm cap &&& pM == 0 && s.leavesDevice s.me.who va n then .error ((UseErr.cap ⟨3, 3, 3⟩).stop va act)
    else .ok (.global s.me.ctx va)

/-- LEN, SOFF and the source of a copy, checked (R290). -/
def State.copySource (s : State) (e : Env) (w : Eng) : Except Stop (Nat × End) := do
  let act := e.guard false
  let n := (e.grp w.s1 0).toNat
  if 2 ^ 28 < n then throw (.trap { cause := cCAPF, detail := 4, mask := act })
  match exPack w with
  | some (ty, _) => if n % sourceTile ty != 0 then throw (.trap { cause := cALIGN, mask := act })
  | none => pure ()
  let src ← if w.ex.getLsbD 21 then s.scratchEnd (e.grp w.s1 1).toNat n act
    else s.globalEnd (e.cap w.ea.toNat) pR (e.grp w.s1 1).toNat n act
  pure (n, src)

/-- The slice of a copy to one destination, checked (R290). -/
def State.copyPart (s : State) (e : Env) (w : Eng) (scr : Bool) : Except Stop Part := do
  let act := e.guard false
  let (n, src) ← s.copySource e w
  let out := packedLen (exPack w) n
  let doff := (e.grp w.s1 2).toNat
  let dst ← if scr then s.scratchEnd doff out act else s.globalEnd (e.cap w.eb.toNat) pW doff out act
  pure { src := src, dst := dst, len := n, outLen := out, pack := exPack w, clk := s.me.lclock, course := some s.cur, issued := s.free,
         srcCap := if w.ex.getLsbD 21 then 0 else e.cap w.ea.toNat, dstCap := if scr then 0 else e.cap w.eb.toNat }

/-- The barrier a copy arrives at, with the generation now (R225, R230). -/
def State.copyBar (s : State) (e : Env) (w : Eng) : Except Stop (Option BarRef) :=
  if !w.ex.getLsbD 22 then .ok none
  else
    let cap := e.cap (exBar w)
    let va := capBase cap
    let act := e.guard false
    match s.useErr s.me.who cap 3 pA va 16 16 true with
    | some x => .error (x.stop va act)
    | none =>
      match s.readVA s.me.who va 16 with
      | .error x => .error ((UseErr.page x).stop va act)
      | .ok l => .ok (some { ctx := s.me.ctx, va := va, gen := (barOf l).gen, cap := cap, team := s.me.team })

/-- The read of the barrier's home that gave its generation (R242). -/
def State.noteBar (s : State) (bar : Option BarRef) : State :=
  match bar with | some b => s.noteHome s.me.who b.va 16 | none => s

/-- The ring a word reports to, checked and with room: its slot allocated, and the course's clock past its writes (R242, R288). -/
def State.copyRing (s : State) (e : Env) (w : Eng) : Except Stop (State × Option RingRef) :=
  if !w.ex.getLsbD 27 then .ok (s, none)
  else
    let cap := e.cap (exRing w)
    let act := e.guard false
    match s.ringErr cap pA act with
    | some x => .error x
    | none =>
      match s.ringHdr s.me.ctx cap s.me.team with
      | .error x => .error ((UseErr.page x).stop (capBase cap) act)
      | .ok h =>
        if !h.ok cap then .error (ringFault cap act)
        else match s.ringAlloc s.me.ctx s.me.lclock cap h s.me.team, s.slotCheck cap pA h.alloc h act with
        | none, _ => .error (s.ringWait cap)
        | some _, some x => .error x
        | some (s, r, t), none => .ok (s.modMe fun k => { k with lclock := max k.lclock t, wmax := max k.wmax t }, some r)

/-- The D of a word that may report. -/
def slotWord (r : Option RingRef) : Word := match r with | some r => BitVec.ofNat 32 r.slot | none => 0xFFFFFFFF

/-- Descriptors in a cluster's copy engine (R290). -/
def State.engineLoad (s : State) (cluster : Nat) : Nat :=
  s.jobs.foldl (fun n j => if j.cluster == cluster && !j.finished then n + j.descs else n) 0

/-- The charge of a copy in the CE account of its cluster, marked where it writes an unpublished shadow alone (R292, R306,
R338). -/
def copyCharge (c : Course) (first : Bool) (n : Nat) (shadow : Bool := false) : List Charge :=
  [{ cluster := clusterOf c.place, acct := 0, ns := (if first then 64 else 0) + (n + 15) / 16, shadow := shadow }]

/-- The charges of a word as its work holds them: those the gate granted to the stalled word, where it stalled (R337, R344). -/
def Course.held (c : Course) (chs : List Charge) : List Charge := c.granted.getD chs

/-- The destination lies wholly in a back copy the course's team has open (R181). -/
def State.inShadow (s : State) (c : Course) (d : End) (n : Nat) : Bool :=
  match d with
  | .scratch _ _ => false
  | .global ctx va => (s.context ctx).pub.any fun p =>
      p.2.isOpen && c.team == some p.2.team && p.2.vbase ≤ va && va + n ≤ p.2.vbase + p.2.vlen

/-- A new job at the end of the list; answers its number. -/
def State.newJob (s : State) (j : Job) : State × Nat := ({ s with jobs := s.jobs ++ [j] }, s.jobs.length)

/-- A copy of the course that DISCARD has stopped and that its word takes up again, with its slot and its barrier: the oldest of
the kind (R347). -/
def State.stopped (s : State) (kind : JobKind) : Option Nat :=
  s.jobs.findIdx? fun j => j.reissue && j.course == some s.cur && j.kind == kind

/-- The barrier and the ring slot of a copy: those it already has where its word takes it up again. -/
def State.copyReport (s : State) (e : Env) (w : Eng) (again : Option Nat) :
    Except Stop (State × Option RingRef × Option BarRef) :=
  match again.bind fun k => s.jobs[k]? with
  | some j => .ok (s, j.ring, j.bar)
  | none => do
    let bar ← s.copyBar e w
    let (s, ring) ← s.copyRing e w
    pure (s.noteBar bar, ring, bar)

/-! CPY (R292). -/

/-- The team's collective that the course's CPY belongs to: the oldest it has not contributed to. -/
def State.collective (s : State) : Option Nat :=
  match s.me.team with
  | none => none
  | some t => ((s.team t).gathering.find? fun g => !g.2.contains s.cur).map (·.1)

/-- The course's CPY counts as its contribution to the team's collective j (R292). -/
def State.contribute (s : State) (j : Nat) : State :=
  match s.me.team with
  | none => s
  | some t =>
    let i := s.cur
    (s.modTeam t fun (tm : Team) =>
      let more := tm.gathering.map fun (g : Nat × List Nat) => if g.1 == j then (j, i :: g.2) else g
      { tm with gathering := more }).gatherCheck t

/-- A copy that its word takes up again had finished before the word was rolled back: nothing is moved or charged a second time, and
the word completes with its slot (R181; log 129). -/
def State.takeUp (s : State) (e : Env) (w : Eng) (j : Job) (k : Nat) : State :=
  ((s.modJob k fun j => { j with reissue := false }).contribute k).engFinish e w (slotWord j.ring) false

/-- CPY. -/
def execCpy (w : Eng) (s0 : State) : Out :=
  let s := s0.commit s0.cur
  let c := s.me
  let i := s.cur
  .next (match s.engIssue [] with
    | .error x => s.stop x
    | .ok e =>
      let mine := s.collective.orElse fun _ => s.stopped .cpy
      match mine.bind fun k => (s.jobs[k]?).map fun j => (k, j) with
      | some (k, j) =>
        if j.finished then s.takeUp e w j k
        else match s.copyPart e w (w.ex.getLsbD 20) with
        | .error x => s.stop x
        | .ok p =>
          let shadow := s.inShadow c p.dst p.outLen
          let chs := copyCharge c j.parts.isEmpty p.len shadow
          if 256 ≤ s.engineLoad (clusterOf c.place) then s.stop engineWait
          else match s.gateStop chs with
          | some x => s.stop x
          | none =>
            let s := (s.keepCharges i chs).modJob k fun job =>
              { job with parts := job.parts ++ [{ p with shadow := shadow }], charges := job.charges ++ c.held chs, reissue := false,
                         gathering := job.gathering && !job.reissue, inShadow := job.inShadow && shadow }
            (s.contribute k).engFinish e w (slotWord j.ring) (!shadow)
      | none =>
        match s.copyPart e w (w.ex.getLsbD 20), s.copyBar e w with
        | .error x, _ | .ok _, .error x => s.stop x
        | .ok p, .ok bar =>
          let shadow := s.inShadow c p.dst p.outLen
          let chs := copyCharge c true p.len shadow
          if 256 ≤ s.engineLoad (clusterOf c.place) then s.stop engineWait
          else match s.copyRing e w, s.gateStop chs with
          | .error x, _ | .ok _, some x => s.stop x
          | .ok (s, ring), none =>
            let s := (s.noteBar bar).keepCharges i chs
            let (s, j) := s.newJob { kind := .cpy, ctx := c.ctx, course := some i, team := c.team, cluster := clusterOf c.place,
                                     parts := [{ p with shadow := shadow }], gathering := c.team.isSome, ring := ring, bar := bar,
                                     clock := c.lclock, charges := c.held chs, inShadow := shadow }
            let s := match c.team with
              | some t => (s.modTeam t fun tm => { tm with gathering := tm.gathering ++ [(j, [i])] }).gatherCheck t
              | none => s
            s.engFinish e w (slotWord ring) (!shadow))

/-! CPYM, CPYR (R293 to R295). -/

/-- One member of a multicast from the 32 bytes of its entry: failed at once where the entry fails, where its bytes leave this
device without M, or where its destination on this device fails (R95, R293). -/
def State.memberPart (s : State) (c : Course) (refusing : Bool) (src : End) (srcCap : Cap) (n out doff : Nat)
    (pack : Option (Nat × Nat)) (entry : List Byte) : Part :=
  let v := leNat entry
  let cap : Cap := BitVec.ofNat 128 (v % 2 ^ 128)
  let node := v / 2 ^ 128 % 2 ^ 24
  let gate := v / 2 ^ 160 % 2 ^ 32
  let self := node == selfNode
  let va := capBase cap + doff
  let away := !self || s.leavesDevice c.who va out || (refusing && s.leavesDevice c.who (capBase cap + gate) 4)
  let bad := (away && capPerm cap &&& pM == 0) || v / 2 ^ 152 % 2 ^ 8 != 0 || v / 2 ^ 192 != 0 || gate % 4 != 0 || (!refusing && gate != 0) || !s.nodeOk node
    || (self && ((s.validate (s.context c.ctx).tenant cap).isSome || (capCheck cap 0 pW (va : Nat) out 1).isSome
      || (refusing && (capCheck cap 0 pW (capBase cap + gate : Nat) 4 4).isSome)))
  { src := src, dst := .global c.ctx va, len := n, outLen := out, pack := pack, clk := c.lclock, course := some s.cur, issued := s.free,
    srcCap := srcCap, dstCap := cap, node := if self then none else some node, gate := if refusing then some (capBase cap + gate) else none,
    done := bad, failed := if bad then some cCAPF else none }

/-- CPYM and CPYR. -/
def State.multicast (s0 : State) (w : Eng) (refusing : Bool) : State :=
  let s := s0.commit s0.cur
  let c := s.me
  let i := s.cur
  match s.engIssue [] with
  | .error x => s.stop x
  | .ok e =>
    let act := e.guard false
    let nm := (e.grp w.s2 0).toNat
    let list := e.cap w.eb.toNat
    if refusing && !(s.context c.ctx).priv then s.stop (.trap { cause := cCAPF, detail := 10, mask := act })
    else if nm == 0 || 32 < nm then s.stop (.trap { cause := cCAPF, detail := 4, mask := act })
    else
      let kind : JobKind := if refusing then .cpyr else .cpym
      let again := s.stopped kind
      match again.bind fun k => (s.jobs[k]?).filter fun j => j.finished with
      | some j => s.takeUp e w j (again.getD 0)
      | none =>
      match s.copySource e w, (if again.isSome then .ok none else s.copyBar e w),
        s.useErr c.who list 0 pR (capBase list) (32 * nm) 32 false with
      | .error x, _, _ | .ok _, .error x, _ => s.stop x
      | .ok _, .ok _, some x => s.stop (x.stop (capBase list) act)
      | .ok (n, src), .ok _, none =>
      if 256 ≤ s.engineLoad (clusterOf c.place) then s.stop engineWait
      else
        let entries := (s.readVA c.who (capBase list) (32 * nm)).toOption.getD []
        let parts := (List.range nm).map fun k =>
          s.memberPart c refusing src (if w.ex.getLsbD 21 then 0 else e.cap w.ea.toNat) n (packedLen (exPack w) n) (e.grp w.s1 2).toNat (exPack w)
            ((entries.drop (32 * k)).take 32)
        let shadow := parts.all fun p => p.node.isNone && s.inShadow c p.dst p.outLen
        let parts := parts.map fun p => { p with shadow := shadow }
        let chs := copyCharge c true (n * nm) shadow ++ if parts.any (·.node.isSome) then [rqCharge c.place 3000] else []
        match s.copyReport e w again, s.gateStop chs with
        | .error x, _ | .ok _, some x => s.stop x
        | .ok (s, ring, bar), none =>
            let s := (s.noteHome c.who (capBase list) (32 * nm)).keepCharges i chs
            let detail := if parts.any (·.failed.isSome) then cCAPF else 0
            let job : Job := { kind := kind, ctx := c.ctx, course := some i, team := c.team, cluster := clusterOf c.place,
                               parts := parts, ring := ring, bar := bar, clock := c.lclock, charges := c.held chs,
                               detail := detail, inShadow := shadow }
            let s := match again with | some k => s.modJob k fun _ => job | none => (s.newJob job).1
            s.engFinish e w (slotWord ring) (!shadow)

/-- CPYM. -/
def execCpym (w : Eng) (s : State) : Out := .next (s.multicast w false)

/-- CPYR. -/
def execCpyr (w : Eng) (s : State) : Out := .next (s.multicast w true)

/-! CPYF (R296). -/

/-- CPYF. -/
def execCpyf (w : Eng) (s0 : State) : Out :=
  let s := s0.commit s0.cur
  let c := s.me
  let i := s.cur
  .next (match s.engIssue [] with
    | .error x => s.stop x
    | .ok e =>
      let act := e.guard false
      let mmg := w.ex.getLsbD 12
      let offs := (List.range (if mmg then 5 else 2)).map fun k => (e.grp w.s2 k).toNat
      let op : TileOp := { course := i, ctx := c.ctx, team := c.team.getD 0, place := c.place, z := w.ex.toNat / 2 ^ 10 % 4,
                           ta := w.imm.toNat / 4096, tb := w.imm.toNat / 256 % 16, pb := w.ex.toNat / 64 % 16, rz := false,
                           aoff := offs.headD 0, boffs := offs.drop 1, index := none, job := some s.jobs.length, ready := false,
                           charge := tileCost (w.ex.toNat / 64 % 16) }
      match s.copyPart e w true, s.copyBar e w with
      | .error x, _ | .ok _, .error x => s.stop x
      | .ok p, .ok bar =>
        match op.ranges.find? fun r => r.1 % 512 != 0 with
        | some _ => s.stop (.trap { cause := cALIGN, mask := act })
        | none =>
          if op.ranges.any fun r => decide ((s.window c).size < r.1 + r.2) then s.engViolation e
          else if s.noContext then s.stop contextWait
          else if 256 ≤ s.engineLoad (clusterOf c.place) || 16 ≤ (s.tileOps.filter fun o => o.course == i).length then s.stop engineWait
          else
            let ce := copyCharge c true p.len
            let chs := ce ++ [tileCharge c.place op.charge]
            match s.copyRing e w, s.gateStop chs c.mctx.isNone with
            | .error x, _ | .ok _, some x => s.stop x
            | .ok (s, ring), none =>
                let s := (s.noteBar bar).bindCtx.keepCharges i chs
                let s := { s with tileOps := s.tileOps ++ [op] }
                let (s, _) := s.newJob { kind := .cpyf, ctx := c.ctx, course := some i, team := c.team, cluster := clusterOf c.place,
                                         parts := [p], ring := ring, bar := bar, clock := c.lclock, charges := ce, follow := 1 }
                s.engFinish e w (slotWord ring))

/-! Reports (R287, R288). -/

/-- The bit of part k where a condition holds. -/
def partBits (l : List Part) (p : Part → Bool) : Nat := l.zipIdx.foldl (fun n x => if p x.1 then n + 2 ^ x.2 else n) 0

/-- STATUS, OP, COUNT, PERF, FAIL and REFUSE of a finished job. -/
def Job.report (j : Job) : Nat × Nat × Nat × Nat × Nat × Nat :=
  let bad := j.parts.filter (·.failed.isSome)
  let refused := j.parts.filter (·.refused)
  let ok := j.parts.length - bad.length - refused.length
  let some' (n : Nat) : Nat := if n == 0 then 0 else 1
  match j.kind with
  | .cpy | .ply =>
    (if bad.isEmpty then (if j.short then 3 else 1) else if ok == 0 then 5 else 2, 0, ok, some' ok, some' bad.length, 0)
  | .cpym | .cpyr =>
    (if bad.isEmpty then (if refused.isEmpty then 1 else 4) else if ok == 0 then 5 else 2, if j.kind == .cpyr then 2 else 1,
      j.parts.length, partBits j.parts (fun p => p.failed.isNone && !p.refused), partBits j.parts (·.failed.isSome),
      partBits j.parts (·.refused))
  | .cpyf =>
    if !bad.isEmpty then (5, 3, 1, 0, 3, 0) else if j.follow == 3 then (2, 3, 1, 1, 2, 0) else (1, 3, 1, 3, 0, 0)
  | .adpf => if bad.isEmpty then (1, 4, 1, 1, 0, 0) else (5, 4, 0, 0, 1, 0)

/-- Words 0 to 5 of a slot record (R287). -/
def recordWords (status op count bytes perf fail refuse tag : Nat) : List Nat :=
  [status + 2 ^ 8 * op + 2 ^ 16 * (count % 2 ^ 16), min bytes (2 ^ 32 - 1), perf, fail, refuse, tag % 2 ^ 32]

/-- A finished job: its charges are credited, its record is written, WP moves, it arrives at its barrier; the words and
releases that wait for engines test again (R288, R291, R306). -/
def State.finishJob (s : State) (k : Nat) : State :=
  match s.jobs[k]? with
  | none => s
  | some j =>
    let s := s.modJob k fun j => { j with finished := true }
    let s := s.credit j.ctx j.charges
    let s := s.modCtx j.ctx fun x => { x with copied := x.copied + j.bytes }
    let (st, op, count, perf, fail, refuse) := j.report
    let detail := if j.follow == 3 && j.detail == 0 then cSCRF else j.detail
    let s := match j.ring with
      | some r => s.ringComplete j.clock r (recordWords st op count j.bytes perf fail refuse j.tag) (detail % 256)
      | none => s
    let s := match j.bar with | some b => s.tagArrive j.clock b | none => s
    let s := match j.ply with
      | some (run, sub) =>
        s.subEnded run sub j.clock 0 j.bytes (if j.parts.any (·.failed.isSome) then some (max detail 1) else none)
      | none => s
    s.wakeIf fun _ c w => w.kind == .writes || (w.kind == .engine && clusterOf c.place == j.cluster)

/-- A job whose parts have all been resolved finishes once every write of it is performed; a failed copy takes its follow-on with
it (R258, R291, R294, R296). -/
def State.jobCheck (s : State) (k : Nat) : State :=
  match s.jobs[k]? with
  | none => s
  | some j =>
    if j.finished || j.gathering || !j.parts.all (·.done) || !s.heldWrites.isEmpty || !s.engineRuns j.ctx j.cluster then s
    else if j.follow == 1 then
      if j.parts.any (·.failed.isSome) then
        match (List.range s.tileOps.length).find? fun n => ((s.tileOps[n]?).bind (·.job)) == some k with
        | some n => (s.tileGone n false).finishJob k
        | none => s.finishJob k
      else s
    else s.finishJob k

/-! Moving bytes (R291). -/

/-- What moving a part meets: a page to wait for, a loan that moves, or a failure with its cause. -/
inductive MoveErr where
  | page (reason va : Nat)
  | moving
  | fail (cause : Nat)
deriving DecidableEq, Repr

/-- The error a translation gives a copy. -/
def moveErr (va : Nat) (x : XErr) : MoveErr :=
  match x with | .xltf r => .page r va | .moving => .moving | .linkf => .fail cLINKF | .memerr => .fail cMEMERR

/-- The agent that moves a part. -/
def Job.who (j : Job) (p : Part) : Who := { ctx := j.ctx, team := j.team, clk := p.clk, regions := j.regions }

/-- A range's first unusable page: its reason and address. -/
def State.firstBad (s : State) (w : Who) (va n : Nat) (write : Bool) : Option MoveErr :=
  if n == 0 then none
  else (pieces va n).findSome? fun p =>
    match s.translate w p.1 write with | .error x => some (moveErr p.1 x) | .ok _ => none

/-- The global lines of the mapped scratch lines that a part of a copy reads: the first page of them that stops it (R203, R291). -/
def State.mappedBad (s : State) (w : Who) (p : Part) (off : Nat) : Option MoveErr :=
  match p.course with
  | none => none
  | some i => (s.fills (s.course i) ((pieces off p.len).map (·.1))).findSome? fun f => s.firstBad w f.va 64 false

/-- The source bytes of a part and the offsets of its uncorrectable ones, read as plain loads of the front copy of an open buffer
(R242, R251, R291). -/
def State.partSource (s : State) (w : Who) (p : Part) : Except MoveErr (State × List Byte × List Nat) :=
  match p.src with
  | .scratch t off =>
    match s.mappedBad w p off with
    | some x => .error x
    | none =>
      let s := match p.course with | some i => s.engineFill i t off p.len | none => s
      .ok (s, s.windowRead t off p.len, s.windowBad t off p.len)
  | .global _ va =>
    let w := { w with team := none }
    match s.firstBad w va p.len false, s.homeRead w va p.len with
    | some x, _ => .error x
    | none, .error x => .error (moveErr va x)
    | none, .ok (b, _, s') => .ok (s', b, (List.range p.len).filter fun i => s.badVA w (va + i) 1)

/-- The bytes a part writes: packed into plane tiles where it packs; an uncorrectable source byte poisons the bytes of its
element (R291). -/
def Part.output (p : Part) (src : List Byte) (bad : List Nat) : List Byte × List Nat :=
  match p.pack with
  | none => (src, bad)
  | some (ty, lay) =>
    let n := sourceTile ty
    let m := Tiles.tileBytes ty false
    ((List.range (p.len / n)).flatMap fun k => Tiles.packBytes ty lay ((src.drop (n * k)).take n),
      (bad.flatMap fun i => (Tiles.elemsOfSource ty lay (i % n)).flatMap fun x =>
        (Tiles.bytesOfElem ty false x).map fun b => m * (i / n) + b).eraseDups)

/-- A line of a team's window that a copy may not write: released, or mapped read-only (R291). -/
def Team.noCopy (tm : Team) (a : Nat) : Bool :=
  tm.released.contains (a / 64) || match tm.stashAt a with | some (_, x) => x.mode == 1 | none => false

/-- Bytes marked uncorrectable at their locations. -/
def State.markBad (s : State) (w : Who) (va : Nat) (offs : List Nat) : State :=
  let locs := offs.filterMap fun i => match s.translate w (va + i) with | .ok x => some x.loc | .error _ => none
  { s with badMem := locs ++ s.badMem.filter fun a => !locs.contains a }

/-- A part's bytes written at its destination: the state, the bytes written, the largest write time, and a failure. -/
def State.partWrite (s : State) (w : Who) (p : Part) (out : List Byte) (bad : List Nat) :
    Except MoveErr (State × Nat × Nat × Option Nat) :=
  let fault := if bad.isEmpty then none else some cMEMERR
  match p.dst with
  | .scratch t off =>
    let tm := s.team t
    let cells := (cellsAt off out).filter fun c => !tm.noCopy c.1
    let s := (s.putWindow t w.clk cells).modTeam t fun tm => { tm with bad := ((bad.map (off + ·)).filter fun a => !tm.noCopy a) ++ tm.bad }
    .ok (s, cells.length, 0, if cells.length < out.length then some cSCRF else fault)
  | .global _ va =>
    match s.firstBad w va out.length true with
    | some x => .error x
    | none =>
      if out.isEmpty then .ok (s, 0, 0, fault)
      else match s.writeVA w va out with
      | .error x => .error (moveErr va x)
      | .ok (s, t) => .ok (s.markBad w va bad, out.length, t, fault)

/-- Part n of job k resolved. -/
def State.partDone (s : State) (k n bytes t : Nat) (failed : Option Nat) (refused : Bool) : State :=
  s.modJob k fun j =>
    { j with parts := j.parts.modify n fun p => { p with done := true, failed := failed, refused := refused, wts := max p.wts t },
             bytes := j.bytes + bytes, clock := max j.clock t,
             detail := if j.detail == 0 then failed.getD 0 else j.detail }

/-- The engine may move a job's bytes: it is not finished, its context's engines run, and no page of it is being served. -/
def State.mayMove (s : State) (k : Nat) (j : Job) : Bool :=
  !j.finished && j.waiting.isNone && s.engineRuns j.ctx j.cluster && !s.posts.any fun p => p.job == some k

/-- A page that leaves the device without M in the capability of its end, found when the engine reaches it (R95, R291). -/
def State.partLeaves (s : State) (w : Who) (p : Part) : Bool :=
  let leaves (e : End) (cap : Cap) (n : Nat) : Bool :=
    match e with | .scratch _ _ => false | .global _ va => capPerm cap &&& pM == 0 && s.leavesDevice w va n
  leaves p.src p.srcCap p.len || leaves p.dst p.dstCap p.outLen

/-- What a part of a copy meets: a loan that moves, which it waits for; a failure; a page, which is posted for the context's host
and waited for (R291, R392). -/
def State.partStop (s : State) (k n : Nat) (j : Job) (p : Part) (x : MoveErr) : State :=
  match x with
  | .moving => s
  | .fail cause => s.partDone k n 0 0 (some cause) false
  | .page r va => s.postFault { ctx := j.ctx, cause := cXLTF, detail := r, source := 2, answer := true, job := some k, part := n,
                                about := p.course, addr := va, place := 8 * j.cluster,
                                key := match j.team with | some t => (s.team t).key | none => 0xFF }

/-- The gate of a refusing member tested, before anything is sent to it: open, it is set to 1, which is a write of the copy (R258,
R295). Answers whether the member refuses. -/
def State.partGate (s : State) (k n : Nat) (w : Who) (p : Part) : Except MoveErr (State × Bool) :=
  match if p.gated then none else p.gate with
  | none => .ok (s, false)
  | some g =>
    match s.firstBad w g 4 true with
    | some x => .error x
    | none =>
      if (s.readWord w g).toOption.getD 0 != 0 then .ok (s.noteHome w g 4, true)
      else
        let r := s.pokeAt w g (leBytes 4 1)
        .ok (r.1.modJob k fun j =>
          { j with parts := j.parts.modify n fun p => { p with gated := true, wts := max p.wts r.2 }, clock := max j.clock r.2 }, false)

/-- The bytes of part n of job k are written: a gated member's gate is set to 2 once they are performed, also where the host held one
of their lines, and the part has performed (R295, R431). -/
def State.partLand (s : State) (k n : Nat) (j : Job) (p : Part) (bytes t : Nat) : State :=
  let w := j.who p
  let t := max p.wts t
  let kept := s.modJob k fun j =>
    { j with parts := j.parts.modify n fun p => { p with landing := some bytes, wts := t }, clock := max j.clock t }
  match p.gate with
  | none => s.partDone k n bytes t none false
  | some g =>
    if !s.heldWrites.isEmpty then kept
    else match s.firstBad w g 4 true with
    | some x => kept.partStop k n j p x
    | none =>
      let r := s.pokeAt { w with clk := max w.clk t } g (leBytes 4 2)
      r.1.partDone k n bytes (max t r.2) none false

/-- Part n of job k moves its bytes as one step, on this device (R291, R295). A gated member with uncorrectable source bytes receives
them, counts as failed, and its gate stays 1 (DESIGN CHOICE, log 116). -/
def State.movePart (s : State) (k n : Nat) : State :=
  match s.jobs[k]?.bind fun j => (j.parts[n]?).map fun p => (j, p) with
  | none => s
  | some (j, p) =>
    if !s.mayMove k j || p.done || p.node.isSome then s
    else match p.landing with
    | some bytes => s.partLand k n j p bytes 0
    | none =>
      let w := j.who p
      match s.partGate k n w p with
      | .error x => s.partStop k n j p x
      | .ok (s, true) => s.partDone k n 0 0 none true
      | .ok (s, false) =>
        if s.partLeaves w p then s.partDone k n 0 0 (some cCAPF) false
        else match s.partSource w p with
        | .error x => s.partStop k n j p x
        | .ok (s, src, bad) =>
          let out := p.output src bad
          match s.partWrite w p out.1 out.2 with
          | .error x => s.partStop k n j p x
          | .ok (s, bytes, t, some cause) => s.partDone k n bytes t (some cause) false
          | .ok (s, bytes, t, none) => s.partLand k n j p bytes t

/-- A part that COPY_COMPLETE moves on: on this device, and not one whose written bytes the host still holds. -/
def State.partReady (s : State) (p : Part) : Bool := !p.done && p.node.isNone && (p.landing.isNone || s.heldWrites.isEmpty)

/-- COPY_COMPLETE has something to do for a job: a part to move on this device, or all parts resolved and no follow-on awaited. -/
def State.copyDue (s : State) (k : Nat) : Bool :=
  match s.jobs[k]? with
  | none => false
  | some j =>
    s.mayMove k j && (j.parts.any s.partReady
      || (!j.gathering && j.parts.all (·.done) && s.heldWrites.isEmpty && (j.follow != 1 || j.parts.any (·.failed.isSome))))

/-- A copy's last byte has landed and its follow-on is not yet ready (R296). -/
def State.followDue (s : State) (k : Nat) : Bool :=
  match s.jobs[k]? with
  | none => false
  | some j => j.follow == 1 && j.parts.all (fun p => p.done && p.failed.isNone) && s.tileOps.any fun o => o.job == some k && !o.ready

/-- COPY_COMPLETE (subj: num the job): the next slice that has not moved moves, and the copy finishes when all have and no
further slice is awaited (R291, R292). -/
def execCopyComplete (s : State) : Out :=
  let k := s.subj.num
  .next (match s.jobs[k]? with
    | none => s
    | some j =>
      let s := match j.parts.findIdx? s.partReady with
        | some n => s.movePart k n
        | none => s
      s.jobCheck k)

/-- MULTICAST_MEMBER_DONE (subj: num the job, num2 the member, member what became of it, reply the write time it tells): a member on
another device has performed, failed or refused; one on this device moves now (R294, R295). The source of one that has performed is
read here: an absent page is posted and waited for, and an uncorrectable byte makes it FAULT with MEMERR (R258, R291). -/
def execMulticastMemberDone (s : State) : Out :=
  let k := s.subj.num
  let n := s.subj.num2
  .next (match s.jobs[k]?.bind fun j => (j.parts[n]?).map fun p => (j, p) with
    | none => s
    | some (j, p) =>
      if j.finished || p.done then s
      else if p.node.isNone then (s.movePart k n).jobCheck k
      else
        let s := match s.subj.member with
          | .performed =>
            if !s.mayMove k j then s
            else if s.partLeaves (j.who p) { p with dst := .scratch 0 0 } then s.partDone k n 0 0 (some cCAPF) false
            else match s.partSource (j.who p) p with
            | .error x => s.partStop k n j p x
            | .ok (t, _, bad) => t.partDone k n p.outLen s.subj.reply.wts (if bad.isEmpty then none else some cMEMERR) false
          | .failed cause => s.partDone k n (min p.outLen (Config.openWord s.free).toNat) 0 (some cause.toNat) false
          | .refused => if p.gate.isSome then s.partDone k n 0 0 none true else s
        s.jobCheck k)

/-- FOLLOW_ON_ISSUE (subj: num the job): the copy's last byte has landed, and the tile operation is ready (R296, R313). -/
def execFollowOnIssue (s : State) : Out :=
  let k := s.subj.num
  .next (match s.jobs[k]? with
    | none => s
    | some _ =>
      if !s.followDue k then s
      else { s with tileOps := s.tileOps.map fun o => if o.job == some k then { o with ready := true } else o })

/-! ADPF (R297). -/

/-- A range of the window is busy: a stash slot, a released line, an unfinished copy or a tile operation of the team. -/
def State.adpfBusy (s : State) (t off n : Nat) : Bool :=
  let tm := s.team t
  let meets (a m : Nat) : Bool := decide (a < off + n) && decide (off < a + m)
  tm.stash.any (fun q => meets q.2.scr q.2.len) || tm.released.any (fun l => meets (64 * l) 64)
    || s.jobs.any (fun j => !j.finished && j.parts.any fun p =>
        let at' (e : End) (m : Nat) : Bool := match e with | .scratch t' o => t' == t && meets o m | .global _ _ => false
        !p.done && (at' p.src p.len || at' p.dst p.outLen))
    || s.tileOps.any fun o => o.team == t && o.ranges.any fun r => meets r.1 r.2

/-- A dropped hint: counted, and reported where it has a slot (R288, R297). -/
def State.dropHint (s : State) (ctx clk tag : Nat) (ring : Option RingRef) : State :=
  let s := s.modCtx ctx fun x => { x with dropped := x.dropped + 1 }
  match ring with
  | some r => s.ringComplete clk r (recordWords 6 4 0 0 0 0 0 tag) 0
  | none => s

/-- ADPF: the ring rule first, then the reasons to drop, then a copy of one course. -/
def execAdpf (w : Eng) (s0 : State) : Out :=
  let s := s0.commit s0.cur
  let c := s.me
  let i := s.cur
  let tag := w.imm.toNat
  .next (match s.engIssue [] with
    | .error x => s.stop x
    | .ok e =>
      let n := (e.grp w.s1 0).toNat
      let part : Option Part :=
        match s.globalEnd (e.cap w.ea.toNat) pR (e.grp w.s1 1).toNat n 0, s.scratchEnd (e.grp w.s1 2).toNat n 0 with
        | .ok src, .ok dst =>
          let p : Part := { src := src, dst := dst, len := n, outLen := n, clk := c.lclock, course := some i, issued := s.free,
                            srcCap := e.cap w.ea.toNat }
          if 2 ^ 28 < n then none else some p
        | _, _ => none
      let chs := copyCharge c true n
      let drop := match part with
        | none => true
        | some p =>
          (match p.src with | .global _ va => (s.firstBad c.who va n false).isSome | .scratch _ _ => false)
            || (match p.dst with | .scratch t off => s.adpfBusy t off n | .global _ _ => false)
            || decide (256 ≤ s.engineLoad (clusterOf c.place)) || s.gate c.ctx c.place chs false != .pass
      match s.copyRing e w with
      | .error _ => (s.dropHint c.ctx c.lclock tag none).engFinish e w 0xFFFFFFFF
      | .ok (s, ring) =>
        match drop, part with
        | false, some p =>
          let s := s.charge c.ctx chs
          let (s, _) := s.newJob { kind := .adpf, ctx := c.ctx, course := some i, team := c.team, cluster := clusterOf c.place,
                                   parts := [p], ring := ring, tag := tag, clock := c.lclock, charges := chs }
          s.engFinish e w (slotWord ring)
        | _, _ => (s.dropHint c.ctx c.lclock tag ring).engFinish e w (slotWord ring))

end Sys2Proof.Machine
end

