-- ==== Sys2Proof/Machine/FrontEnd.lean ====
section
/-! DEFINITION. Launches: the kernel descriptor, the checks of a launch, the placement of gangs, ticks, and the completion of
a launch (R188, R189, R20, R98, R259, R403 to R411). -/

namespace Sys2Proof.Machine

/-! What the front end reads (R98, R108). -/

/-- Why the front end cannot go on: a page to be served, or a failure with its cause. -/
inductive FrontErr where
  | page (reason va : Nat)
  | fail (cause : Nat)
deriving DecidableEq, Repr

/-- Bytes of a context's memory as the front end reads them. -/
def State.frontRead (s : State) (ctx va n : Nat) : Except FrontErr (List Byte) :=
  match (pieces va n).findSome? fun p =>
    match s.translate { ctx := ctx } p.1 with | .error x => some (p.1, x) | .ok _ => none with
  | some (a, .xltf r) => .error (.page r a)
  | some (a, .moving) => .error (.page 8 a)
  | some (_, .linkf) => .error (.fail cLINKF)
  | some (_, .memerr) => .error (.fail cMEMERR)
  | none =>
    if s.badVA { ctx := ctx } va n then .error (.fail cMEMERR)
    else .ok ((s.readVA { ctx := ctx } va n).toOption.getD [])

/-- What a read of the front end leaves behind: the lease of the line and its place in the L2 (R210, R242). -/
def State.frontNote (s : State) (ctx va n : Nat) : State := s.noteHome { ctx := ctx } va n

/-- An item of the front end waits for the service of a page (R108, R356 SOURCE 2). -/
def State.frontPage (s : State) (ctx reason va : Nat) (f : FrontItem) : State :=
  s.postFault { ctx := ctx, cause := cXLTF, detail := reason, source := 2, answer := true, front := some f, addr := va }

/-- The detail with which a capability that enters the front end fails: validation, then its kind, its permissions, its length
and its alignment, and last M, without which none of its bytes may lie on another device or in host memory (R95, R97, R98, R372,
R405). -/
def State.capErr (s : State) (ctx : Nat) (c : Cap) (kind perm len al : Nat) : Option Nat :=
  match s.validate (s.context ctx).tenant c with
  | some d => some d
  | none =>
    if capLen c == 0 then some 1
    else if capKind c != kind then some 2
    else if capPerm c &&& perm != perm then some 3
    else if capLen c < len then some 4
    else if capBase c % al != 0 then some 13
    else if capPerm c &&& pM == 0 && s.leavesDevice { ctx := ctx } (capBase c) len then some 3
    else none

/-- The argument block: KIND 0 with R; one without R, a null one too, is refused with detail 3 (R20). -/
def State.argsErr (s : State) (ctx : Nat) (c : Cap) : Option Nat :=
  match s.validate (s.context ctx).tenant c with
  | some d => some d
  | none => if capKind c != 0 then some 2 else if capPerm c &&& pR == 0 then some 3 else none

/-- The record array of a launch, or null (R405). -/
def State.recsErr (s : State) (ctx : Nat) (c : Cap) (ncourse : Nat) : Option Nat :=
  if capLen c == 0 then none else s.capErr ctx c 0 (pR ||| pW) (128 * ncourse) 64

/-! The kernel descriptor (R403). -/

/-- The byte offset of the first field of a descriptor that breaks its range. -/
def descFault (n : Nat) : Option Nat :=
  let f (lo w : Nat) : Nat := n / 2 ^ lo % 2 ^ w
  let regs := f 0 8
  if regs < 8 || 192 < regs || regs % 8 != 0 then some 0
  else if f 8 5 != 0 then some 1
  else if 16 < f 13 5 then some 1
  else if f 32 32 != 0 then some 4
  else if f 64 32 != 0 then some 8
  else if f 99 5 == 0 || 16 < f 99 5 then some 12
  else if 8 < f 104 4 then some 13
  else if f 108 20 != 0 then some 13
  else if f 160 96 != 0 then some 20
  else if capLen (BitVec.ofNat 128 (f 256 128)) % 12 != 0 then some 32
  else none

/-- What a launch is asked to be: the context, the four capabilities, the argument words and the packet's fields. -/
structure LaunchReq where
  ctx : Nat
  report : Report
  desc : Cap
  args : Cap
  recs : Cap
  ncourse : Nat
  lastn : Nat
  pin : Option Nat := none
  prio : Nat := 0
  sysc : Bool := false
  tick : Bool := false
  queue : Nat
  arrival : Nat
  clock : Nat := 0
  regions : List Region := []
deriving DecidableEq, Repr

/-- Why a launch is refused: a capability by field and detail, the descriptor at a byte, an argument word, VBOUND, TICK, or a
read the front end could not make. -/
inductive LaunchErr where
  | cap (field detail : Nat)
  | desc (off : Nat)
  | arg (k : Nat)
  | vbound
  | tick
  | read (x : FrontErr)
deriving DecidableEq, Repr

/-- The first tick of a context that begins at or after this cycle (R411). -/
def State.nextTick (s : State) (x : Context) : Nat :=
  if 5 * s.clock ≤ 7 * x.ticko || x.tickp == 0 then 0
  else (5 * s.clock - 7 * x.ticko + 7 * x.tickp - 1) / (7 * x.tickp)

/-- The cycle in which a tick has begun. -/
def tickCycle (x : Context) (k : Nat) : Nat := (7 * (x.ticko + k * x.tickp) + 4) / 5

/-- A launch checked and formed (R20, R403, R405, R411). -/
def State.formLaunch (s : State) (r : LaunchReq) : Except LaunchErr Launch :=
  let x := s.context r.ctx
  match s.capErr r.ctx r.desc 4 pR 64 64, s.argsErr r.ctx r.args, s.recsErr r.ctx r.recs r.ncourse with
  | some d, _, _ => .error (.cap 0 d)
  | none, some d, _ => .error (.cap 1 d)
  | none, none, some d => .error (.cap 2 d)
  | none, none, none =>
    if r.ncourse == 0 || 2 ^ 24 < r.ncourse then .error (.arg 0)
    else if 256 < r.lastn || r.pin.any (fun k => decide (24 ≤ k)) then .error (.arg 1)
    else match s.frontRead r.ctx (capBase r.desc) 64 with
    | .error e => .error (.read e)
    | .ok b =>
      let n := leNat b
      let f (lo w : Nat) : Nat := n / 2 ^ lo % 2 ^ w
      match descFault n with
      | some off => .error (.desc off)
      | none =>
        if x.vbnd < f 128 32 then .error .vbound
        else if r.tick && x.tickp == 0 then .error .tick
        else .ok {
          ctx := r.ctx, report := r.report, scode := BitVec.ofNat 128 (f 384 128), lcode := BitVec.ofNat 128 (f 256 128),
          args := r.args, recs := r.recs, regs := f 0 8, q := f 13 5, loc := f 18 5, ckpt := f 23 5, teamsx := f 28 4,
          gang := f 96 3 + 1, cpt := f 99 5, power := f 104 4, ncourse := r.ncourse,
          lastn := if r.lastn == 0 then 256 else r.lastn, pin := r.pin, prio := r.prio, sysc := r.sysc, tick := r.tick,
          queue := r.queue, arrival := r.arrival, held := r.tick, firstTick := s.nextTick x, startClock := r.clock,
          startRegions := r.regions }

/-- Launches enter the scheduler. -/
def State.addLaunches (s : State) (ls : List Launch) : State :=
  { s with launches := s.launches ++ ls, arrivals := s.arrivals + 1 }

/-- A launch enters the scheduler at the end of its ring (R406). -/
def State.addLaunch (s : State) (l : Launch) : State := (s.addLaunches [l]).schedule l.ctx

/-- The place of a launch in the order of arrival: its packet's at the swift, or for a node's or a course's launch the moment the
front end takes it up (R406, log 44). -/
def State.arrivalOf (s : State) (r : Option Report) : Nat :=
  match r with
  | some (.packet n slot) =>
    (((s.queue? n).bind fun q => q.taken.find? fun t => t.slot == slot).map (·.arrival)).getD s.arrivals
  | some (.node _) | some (.ply _ _) | none => s.arrivals

/-- An item of the front end waits for the host's answer. -/
def State.frontWaits (s : State) (f : FrontItem) : Bool :=
  s.posted.any (fun p => p.front == some f) || s.posts.any fun p => p.front == some f

/-- A packet waits for a page: its own, or one that its ply names. -/
def State.packetWaits (s : State) (n slot : Nat) : Bool :=
  let plyOf (f : Option FrontItem) : Bool :=
    match f with
    | some (.ply k _) => (s.plies[k]?).any fun p => p.report == some (.packet n slot)
    | some (.packet _ _) | some (.node _) | none => false
  s.frontWaits (.packet n slot) || s.posted.any (fun p => plyOf p.front) || s.posts.any fun p => plyOf p.front

/-! The pool split (R188, R189). -/

/-- Granules by kind. -/
structure Need where
  reg : Nat := 0
  qbuf : Nat := 0
  loc : Nat := 0
  ckpt : Nat := 0
deriving DecidableEq, Repr

/-- The granules of n courses of a launch with some team slots (R188). -/
def Launch.need (l : Launch) (n slots : Nat) : Need :=
  { reg := n * ((l.regs + 31) / 32), qbuf := (n * l.q + 7) / 8, loc := l.loc * slots, ckpt := max l.ckpt ((n + 3) / 4) }

/-- Granules added kind by kind. -/
def Need.add (a b : Need) : Need :=
  { reg := a.reg + b.reg, qbuf := a.qbuf + b.qbuf, loc := a.loc + b.loc, ckpt := a.ckpt + b.ckpt }

/-- The numbers of resident courses of a launch on a core, a placement at a time: the courses of one default team (R188, R404). -/
def State.placements (s : State) (place i : Nat) (l : Launch) : List Nat :=
  let here := s.courses.filter fun c => c.onCore place && c.launch == i && c.phase != .swapped
  let team (c : Course) : Nat := c.index / l.cpt
  (here.map team).eraseDups.map fun t => (here.filter fun c => team c == t).length

/-- The granules of a core in use: the needs of every placement on it, and the team slots of every launch (R188, R189). -/
def State.usedAt (s : State) (p : Split) : Need :=
  p.launches.foldl (fun u i =>
    match s.launch? i with
    | none => u
    | some l => (s.placements p.place i l).foldl (fun u n => u.add (l.need n 0))
        (u.add { loc := l.loc * (p.slots.lookup i).getD 0 })) {}

/-- The split of a core. -/
def State.split? (s : State) (place : Nat) : Option Split := s.splits.find? fun p => p.place == place

/-- The team slots a placement of one team of launch i takes on a core: its own, and the e extra ones at the first (R188). -/
def State.slotsFor (s : State) (i : Nat) (l : Launch) (place : Nat) : Nat :=
  1 + match s.split? place with
  | some p => if p.launches.contains i then 0 else l.teamsx
  | none => l.teamsx

/-- A team of n courses of launch i fits the free granules of a core (R188, R189). -/
def State.fitsTeam (s : State) (place i : Nat) (n : Nat) : Bool :=
  match s.launch? i with
  | none => false
  | some l =>
    let d := l.need n (s.slotsFor i l place)
    match s.split? place with
    | none => d.reg + d.qbuf + d.loc + d.ckpt + 2 ≤ 48
    | some p =>
      let u := s.usedAt p
      u.reg + d.reg ≤ p.reg && u.qbuf + d.qbuf ≤ p.qbuf && u.loc + d.loc ≤ p.loc && u.ckpt + d.ckpt ≤ p.ckpt

/-! Gangs (R404, R406). -/

/-- The course indices of team t of a launch. -/
def Launch.team (l : Launch) (t : Nat) : List Nat :=
  (List.range l.cpt).filterMap fun k => if t * l.cpt + k < l.ncourse then some (t * l.cpt + k) else none

/-- The teams of gang g of a launch. -/
def Launch.gangTeams (l : Launch) (g : Nat) : List (List Nat) :=
  ((List.range l.gang).map fun k => l.team (g * l.gang + k)).filter fun t => !t.isEmpty

/-- The launches placed together with launch i: a ply's, or itself (R305, R406). -/
def State.group (s : State) (i : Nat) : List Nat :=
  match (s.launch? i).map Launch.report with
  | some (.ply run _) =>
    (List.range s.launches.length).filter fun j =>
      match (s.launch? j).map Launch.report with | some (.ply r _) => r == run | some (.packet _ _) | some (.node _) | none => false
  | some (.packet _ _) | some (.node _) => [i]
  | none => []

/-- The teams of the next gang of launch i, each with its launch; a ply is one gang (R406). -/
def State.nextGang (s : State) (i : Nat) : List (Nat × List Nat) :=
  (s.group i).flatMap fun j =>
    match s.launch? j with
    | none => []
    | some l =>
      match l.report with
      | .ply _ _ => ((List.range l.gangs).flatMap l.gangTeams).map fun t => (j, t)
      | .packet _ _ | .node _ => (l.gangTeams l.placed).map fun t => (j, t)

/-- A core has room for the gang of a head: not reserved for another, empty or of the same context with free granules (R406). -/
def State.eligible (s : State) (i ctx place : Nat) (teams : List (Nat × List Nat)) : Bool :=
  let here := s.courses.filter fun c => c.onCore place
  s.reservations.all (fun r => r.launch == i || !r.cores.contains place)
    && (match s.split? place with | none => true | some p => p.ctx == ctx)
    && here.all (fun c => c.ctx == ctx)
    && teams.all fun t => here.length + t.2.length ≤ 16 && (s.teamsAt place).length < 16 && s.fitsTeam place t.1 t.2.length

/-- The state bytes of teams placed on cores (R339). -/
def State.placedBytes (s : State) (teams : List (Nat × List Nat)) (cores : List Nat) : Nat :=
  (teams.zip cores).foldl (fun b t =>
    let fresh := match s.split? t.2, s.launch? t.1.1 with
      | none, some l =>
        let d := l.need t.1.2.length (s.slotsFor t.1.1 l t.2)
        32768 * (d.reg + d.qbuf + d.loc + 1)
      | _, _ => 0
    b + 16384 * t.1.2.length + fresh) 0

/-- The estimate with the new courses stays within %vbnd (R346). -/
def State.vestFits (s : State) (ctx cluster bytes : Nat) : Bool :=
  (s.estimate ctx (s.context ctx).charges [(cluster, bytes)] true 0).1 ≤ (s.context ctx).vbnd

/-- The eligible cores of a cluster for the gang of a head: those with room, while the estimate with the gang's bytes stays within
%vbnd (R406). A team without a core yet counts the bytes of its courses. -/
def State.eligibleIn (s : State) (i ctx cluster : Nat) (teams : List (Nat × List Nat)) : List Nat :=
  let e := ((List.range 8).map fun k => 8 * cluster + k).filter fun p => s.eligible i ctx p teams
  let rest := (teams.drop e.length).foldl (fun b t => b + 16384 * t.2.length) 0
  if s.vestFits ctx cluster (s.placedBytes teams (e.take teams.length) + rest) then e else []

/-- The clusters of a context's partition, those a pinned launch may use (R407). -/
def State.clustersFor (s : State) (ctx : Nat) (pin : Option Nat) : List Nat :=
  let m := ((s.partitions.find? fun p => p.num == (s.context ctx).partition).map (·.clusters)).getD 0
  (List.range 24).filter fun k => m.getLsbD k && pin.all (· == k)

/-- The cores a head's next gang is placed on: the reserved ones, which are tested again, or those of the qualifying cluster with
the fewest eligible cores (R407, R408). -/
def State.chooseCores (s : State) (i : Nat) (l : Launch) (teams : List (Nat × List Nat)) : Option (List Nat) :=
  let need := teams.length
  match s.reservations.find? fun r => r.launch == i with
  | some r =>
    let cores := (List.range 192).filter fun p => r.cores.contains p && s.eligible i l.ctx p teams
    if need ≤ cores.length && s.vestFits l.ctx r.cluster (s.placedBytes teams (cores.take need)) then some (cores.take need)
    else none
  | none =>
    let cands := (s.clustersFor l.ctx l.pin).filterMap fun k =>
      let e := s.eligibleIn i l.ctx k teams
      if need ≤ e.length then some e else none
    (cands.foldl (fun (b : Option (List Nat)) e =>
      match b with | none => some e | some x => if e.length < x.length then some e else some x) none).map (·.take need)

/-! Courses at their start (R19, R20). -/

/-- a0 of a course: the argument capability without W, A, P and X. -/
def startArgs (c : Cap) : Cap := mkCap (capKind c) (capTen c) (capLen c) (capPerm c &&& (pR ||| pD ||| pM)) (capBase c)

/-- a1 of course k: its record area, or null (R405). -/
def recordArea (recs : Cap) (k : Nat) : Cap :=
  if capLen recs == 0 then 0 else mkCap 0 (capTen recs) 128 (pR ||| pW) (capBase recs + 128 * k)

/-- The threads of course k (R404; log 142). -/
def Launch.threads (l : Launch) (k : Nat) : Nat := if k + 1 == l.ncourse then l.lastn else 256

/-- Course k of a launch as it starts (R20, R62, R156), with the clocks of the launch's acquire (R241, R299). -/
def Launch.course (l : Launch) (i k place team clock : Nat) : Course :=
  let mask : Mask := BitVec.ofNat 256 (2 ^ l.threads k - 1)
  let core : Core := {
    xs := [0, BitVec.ofNat 32 k, 0], caps := [startArgs l.args, recordArea l.recs k], regions := l.startRegions,
    feeds := List.replicate 16 {}, queues := List.replicate 16 [], preds := [mask], live := mask }
  { ctx := l.ctx, launch := i, index := k, place := place, team := some team, regs := l.regs, nq := l.q, launched := mask,
    scode := l.scode, lcode := l.lcode, recArea := recordArea l.recs k, core := core, ckpt := core, heldSince := clock,
    lclock := l.startClock }

/-- The course positions of a core that no course of a context has, lowest first; a core holds at most 16 courses (R349, R406). -/
def State.freePositions (s : State) (ctx place : Nat) : List Nat :=
  (List.range 32).filter fun n => !s.courses.any fun c => c.alive && c.ctx == ctx && c.place == place && c.pos == n

/-- A team of a launch placed on a core: the split of an empty core is set, the team slots are taken, the courses are Placed
(R20, R173, R188, R191). -/
def State.placeTeam (s : State) (i place : Nat) (idx : List Nat) : State :=
  match s.launch? i with
  | none => s
  | some l =>
    let slots := s.slotsFor i l place
    let d := l.need idx.length slots
    let splits := match s.split? place with
      | none => s.splits ++ [{ place := place, ctx := l.ctx, reg := d.reg, qbuf := d.qbuf, loc := d.loc, ckpt := d.ckpt,
                               launches := [i], slots := [(i, slots)] }]
      | some _ => s.splits.map fun (p : Split) =>
          if p.place != place then p
          else if p.launches.contains i then
            { p with slots := p.slots.map fun (q : Nat × Nat) => if q.1 == i then (i, q.2 + slots) else q }
          else { p with launches := p.launches ++ [i], slots := p.slots ++ [(i, slots)] }
    let t := s.teams.length
    let fresh := (s.split? place).isNone
    let s : State := { s with
             splits := splits,
             teams := s.teams ++ [{ place := place, ctx := l.ctx, launch := i, slot := s.freeSlot place, size := l.loc * 32768 }],
             courses := s.courses ++ (idx.zip (s.freePositions l.ctx place)).map fun (q : Nat × Nat) =>
               { l.course i q.1 place t s.clock with pos := q.2 } }
    if fresh then s.l1Trim place else s

/-! What a launch reports (R302, R305, R400). -/

/-- Why a launch cannot start: the argument block, the record array, the code sections (R98, R403). A scalar section that is not
4-byte aligned, or a lane section that is not 16-byte aligned, is a failure of field 0 with the detail of alignment, 13 (R34; what
such a launch does is a DESIGN CHOICE, log 136). -/
def State.startErr (s : State) (l : Launch) : Option (Nat × Nat) :=
  match s.capErr l.ctx l.scode 4 pX 4 4, s.capErr l.ctx l.lcode 4 pX 12 16, s.argsErr l.ctx l.args,
    s.recsErr l.ctx l.recs l.ncourse with
  | some d, _, _, _ | none, some d, _, _ => some (0, d)
  | none, none, some d, _ => some (1, d)
  | none, none, none, some d => some (2, d)
  | none, none, none, none => none

/-- The launches placed with launch i that cannot start: each with its field and detail (R98). -/
def State.groupErrs (s : State) (i : Nat) : List (Nat × Nat × Nat) :=
  (s.group i).filterMap fun j => ((s.launch? j).bind s.startErr).map fun e => (j, e)

/-- The sub-launch a launch is of its ply. -/
def Launch.sub (l : Launch) : Nat := match l.report with | .ply _ k => k | .packet _ _ | .node _ => 0

/-- A launch whose capabilities fail when it starts is rejected, its reservation with it; a ply with every sub-launch that fails
(R98, R305, R408). -/
def State.rejectLaunch (s : State) (i : Nat) (errs : List (Nat × Nat × Nat)) : State :=
  match s.launch? i, errs with
  | none, _ | _, [] => s
  | some l, (_, field, detail) :: _ =>
    let s : State := { s with reservations := s.reservations.filter fun r => !(s.group i).contains r.launch }
    match l.report with
    | .packet q slot => (s.modLaunch i fun l => { l with finished := true }).retirePacket q slot 3 (field + 2 ^ 8 * detail) 0
    | .node k => (s.modLaunch i fun l => { l with finished := true }).failNode k cCAPF
    | .ply run _ =>
      let s := (s.group i).foldl (fun s j => s.modLaunch j fun m => { m with finished := true }) s
      s.failPly run (errs.foldl (fun m e => m ||| 2 ^ ((s.launch? e.1).map Launch.sub).getD 0) 0) cCAPF detail

/-! Placement (R406 to R408). -/

/-- The copies of a ply start with its kernels, in the cluster it was handed to while that is still its partition's (R21, R305). -/
def State.startCopies (s : State) (run : Nat) : State :=
  match s.plies[run]? with
  | none => s
  | some p =>
    let mine := s.clustersFor p.ctx none
    let cluster := if mine.contains p.cluster then p.cluster else mine.headD p.cluster
    let s := p.copies.foldl (fun s c =>
      (s.newJob { kind := .ply, ctx := p.ctx, cluster := cluster, parts := [c.2], clock := p.clock, regions := p.regions,
                  ply := some (run, c.1) }).1) s
    s.modPly run fun p => { p with copies := [] }

/-- The next gang of head i placed on cores (R404). -/
def State.placeGang (s : State) (i : Nat) (l : Launch) (teams : List (Nat × List Nat)) (cores : List Nat) : State :=
  let s := (teams.zip cores).foldl (fun s t => s.placeTeam t.1.1 t.2 t.1.2) s
  let s := { s with reservations := s.reservations.filter fun r => r.launch != i }
  let s := (s.group i).foldl (fun s j => s.modLaunch j fun m =>
    let n := match m.report with | .ply _ _ => m.gangs | .packet _ _ | .node _ => m.placed + 1
    let x := s.context m.ctx
    let starts := m.held && n == m.gangs
    { m with placed := n, blockedSince := none, held := m.held && !(starts && x.tickp == 0),
             tickAt := if starts && x.tickp != 0 then some (s.nextTick x) else m.tickAt }) s
  let s := match l.report with | .ply run _ => s.startCopies run | .packet _ _ | .node _ => s
  s.schedule l.ctx

/-- A packet of the launch's ring that arrived before it and may be a launch waits for a page, or begins again after one (R406). -/
def State.overtakes (s : State) (l : Launch) : Bool :=
  match s.queue? l.queue with
  | none => false
  | some q => q.taken.any fun t =>
      decide (t.arrival < l.arrival) && t.launch && !t.retired && (!t.begun || s.packetWaits q.num t.slot)

/-- A launch of a ring that has not been fully placed and overtakes no such launch before it (R406). -/
def State.isHead (s : State) (i : Nat) : Bool :=
  let open' (l : Launch) : Bool := !l.finished && l.placed < l.gangs
  match s.launch? i with
  | none => false
  | some l => open' l && !s.overtakes l && !s.launches.zipIdx.any fun (m : Launch × Nat) =>
      m.1.queue == l.queue && open' m.1 && (decide (m.1.arrival < l.arrival) || (m.1.arrival == l.arrival && decide (m.2 < i)))

/-- A number put into a list in order of a key, smallest first. -/
def insertBy (key : Nat → Nat) (x : Nat) : List Nat → List Nat
  | [] => [x]
  | y :: ys => if key x < key y then x :: y :: ys else y :: insertBy key x ys

/-- A list of numbers sorted by a key; equal keys keep their order. -/
def sortBy (key : Nat → Nat) (l : List Nat) : List Nat := l.foldl (fun r x => insertBy key x r) []

/-- Launches in their order of arrival at the swift, equals in the order of the list (R406). -/
def State.byArrival (s : State) (l : List Nat) : List Nat :=
  sortBy (fun i => ((s.launch? i).map (·.arrival)).getD 0) l

/-- The heads of a partition in the order the scheduler considers them (R406). -/
def State.heads (s : State) (part : Nat) : List Nat :=
  let l := s.byArrival <| (List.range s.launches.length).filter fun i =>
    s.isHead i && match s.launch? i with
      | some l => (s.context l.ctx).partition == part && (s.context l.ctx).mode == .active
      | none => false
  let prio (i : Nat) : Nat := ((s.launch? i).map (·.prio)).getD 0
  let first := l.filter fun i => s.reservations.any fun r => r.launch == i
  first ++ (((List.range 8).reverse).flatMap fun p => l.filter fun i => prio i == p && !first.contains i)

/-- The cores a reservation holds, with the eligible ones of its cluster that join it; one that has lost its room, as a JOIN of its
own context may leave it, is held no longer (R18, R408, log 139). -/
def State.growReservation (s : State) (i : Nat) (l : Launch) (teams : List (Nat × List Nat)) : State :=
  { s with reservations := s.reservations.map fun r =>
      if r.launch != i then r
      else
        let kept := r.cores.filter fun p => s.eligible i l.ctx p teams
        { r with cores := kept ++ ((s.eligibleIn i l.ctx r.cluster teams).filter fun p => !kept.contains p).take
                   (teams.length - kept.length) } }

/-- A head has been blocked for its context's AGE and its partition has no reservation (R408). -/
def State.ageDue (s : State) (i : Nat) : Bool :=
  match s.launch? i with
  | none => false
  | some l =>
    let x := s.context l.ctx
    s.isHead i && x.mode == .active && l.blockedSince.any (fun t => decide (t + cyclesOfUs x.age ≤ s.clock))
      && !s.reservations.any fun r => r.partition == x.partition

/-- A head takes a reservation in the cluster with the most eligible cores (R408). -/
def State.reserveFor (s : State) (i : Nat) : State :=
  match s.launch? i with
  | none => s
  | some l =>
    let teams := s.nextGang i
    let best := (s.clustersFor l.ctx l.pin).foldl (fun (b : Option (Nat × List Nat)) k =>
      let e := s.eligibleIn i l.ctx k teams
      match b with | none => some (k, e) | some x => if x.2.length < e.length then some (k, e) else some x) none
    match best with
    | none => s
    | some (k, e) =>
      let r : Reservation := { partition := (s.context l.ctx).partition, launch := i, cluster := k, cores := e.take teams.length }
      { s with reservations := s.reservations ++ [r] }

/-- RESERVATION_AGE (subj num: the launch): it reserves in the cluster with the most eligible cores. -/
def execReservationAge (s : State) : Out :=
  let i := s.subj.num
  .next (match s.launch? i with
    | none => s
    | some l => if !s.ageDue i then s else (s.reserveFor i).schedule l.ctx)

/-- The reservations that are due among the heads of a partition are taken before its heads are considered, the one due longest first:
a core that becomes empty in the same cycle joins it (R408, R410). -/
def State.ageHeads (s : State) (heads : List Nat) : State :=
  let since (i : Nat) : Nat := match s.launch? i with
    | some l => l.blockedSince.getD 0 + cyclesOfUs (s.context l.ctx).age
    | none => 0
  match (sortBy since (heads.filter s.ageDue)).head? with
  | some i => s.reserveFor i
  | none => s

/-- The heads considered in order: the first that can be placed is, and those before it are blocked (R406). -/
def State.considerHeads : State → List Nat → State
  | s, [] => s
  | s, i :: rest =>
    match s.launch? i with
    | none => s.considerHeads rest
    | some l =>
      let errs := if l.placed == 0 then s.groupErrs i else []
      if !errs.isEmpty then (s.rejectLaunch i errs).schedule l.ctx
      else
        let teams := s.nextGang i
        let s := s.growReservation i l teams
        match s.chooseCores i l teams with
        | some cores => s.placeGang i l teams cores
        | none =>
          (s.modLaunch i fun l => { l with blockedSince := l.blockedSince.orElse fun _ => some s.clock }).considerHeads rest

/-- The heads of a partition considered (R406, R408, R410). -/
def State.placeHeads (s : State) (part : Nat) : State :=
  let s := s.ageHeads (s.heads part)
  s.considerHeads (s.heads part)

/-- GANG_PLACE (subj num: the partition): the next gang of the first head that has room is placed. -/
def execGangPlace (s : State) : Out := .next (s.placeHeads s.subj.num)

/-- The reservations of a context's heads dropped (R408). -/
def State.dropReservations (s : State) (ctx : Nat) : State :=
  { s with reservations := s.reservations.filter fun r => ((s.launch? r.launch).map (·.ctx)) != some ctx }

/-- A held launch whose tick has begun (R411). -/
def State.tickDue (s : State) (i : Nat) : Bool :=
  match s.launch? i with
  | none => false
  | some l =>
    let x := s.context l.ctx
    l.held && !l.finished && match l.tickAt with | some k => decide (tickCycle x k ≤ s.clock) | none => false

/-- TICK_START (subj num: the launch): its courses start; the ticks missed are counted. -/
def execTickStart (s : State) : Out :=
  let i := s.subj.num
  .next (if !s.tickDue i then s
    else s.modLaunch i fun l =>
      { l with held := false, missed := min (l.tickAt.getD 0 - l.firstTick) 0xFFFFFF })

/-! Completion (R259). -/

/-- The courses of a launch. -/
def State.coursesOf (s : State) (i : Nat) : List Nat :=
  (List.range s.courses.length).filter fun k => (s.course k).launch == i

/-- Every course has retired and every write is performed, those that wait for a loan's move among them, remote ones too where the
completion is at system scope (R246, R259, R392). -/
def State.launchDone (s : State) (i : Nat) : Bool :=
  match s.launch? i with
  | none => false
  | some l =>
    !l.finished && l.placed == l.gangs && l.retired == l.ncourse && s.heldWrites.isEmpty
      && (s.coursesOf i).all fun k => !s.engineWrites k && !s.moveHeld k && !(l.sysc && s.unacked k true)

/-- The clocks of a launch's courses: past every write of theirs but the engines'. -/
def State.courseClock (s : State) (i : Nat) : Nat :=
  (s.coursesOf i).foldl (fun m k => max m (max (s.course k).lclock (s.course k).wmax)) 0

/-- The write time a launch's completion covers. -/
def State.launchClock (s : State) (i : Nat) : Nat :=
  (s.coursesOf i).foldl (fun m k => max m (s.engineWts k)) (s.courseClock i)

/-- The launch reported: its packet retires, or its node or sub-launch ends (R259, R400). -/
def State.endLaunch (s : State) (i : Nat) : State :=
  match s.launch? i with
  | none => s
  | some l =>
    let clk := s.launchClock i
    let s := s.modLaunch i fun l => { l with finished := true }
    match l.report with
    | .packet q slot =>
      match l.killed with
      | some c => s.retirePacket q slot 5 c clk
      | none => s.retirePacket q slot 1 (if l.tick then l.missed else 0) clk
    | .node k => s.modNode k fun n => { n with ended := true, failed := n.failed.orElse fun _ => l.killed, clock := max n.clock clk,
                                               own := max n.own (s.courseClock i) }
    | .ply run sub => s.subEnded run sub clk (s.courseClock i) 0 l.killed

/-- LAUNCH_COMPLETE (subj num: the launch). -/
def execLaunchComplete (s : State) : Out :=
  let i := s.subj.num
  .next (if s.launchDone i then s.endLaunch i else s)

end Sys2Proof.Machine
end

