-- ==== Sys2Proof/Machine/Chart.lean ====
section
/-! DEFINITION. Charts and plies: NODE, ARM, PLY, the chart walker and the completion of nodes and plies (R298 to R305). -/

namespace Sys2Proof.Machine

/-! Plies (R304, R305). -/

/-- What a sub-launch of a ply is. -/
inductive SubWork where
  | kernel (l : Launch)
  | copy (p : Part)
deriving DecidableEq, Repr

/-- Why a sub-launch cannot start: a page to be served, or a detail. -/
inductive SubErr where
  | page (reason va : Nat)
  | fail (detail : Nat)
deriving DecidableEq, Repr

/-- The detail a refused launch gives a node or a ply. -/
def LaunchErr.sub (e : LaunchErr) : SubErr :=
  match e with
  | .cap _ d => .fail d
  | .read (.page r va) => .page r va
  | .desc _ | .arg _ | .vbound | .tick | .read (.fail _) => .fail 4

/-- Sub-launch k of a ply from its 64 bytes (R304); a copy may have any length (DESIGN CHOICE, log 115). -/
def State.subWork (s : State) (p : PlyRun) (run k prio queue : Nat) (bytes : List Byte) : Except SubErr SubWork :=
  let ctx := p.ctx
  let n := leNat bytes
  let f (lo w : Nat) : Nat := n / 2 ^ lo % 2 ^ w
  let cap (lo : Nat) : Cap := BitVec.ofNat 128 (f lo 128)
  if f 392 24 != 0 || f 457 7 != 0 || f 464 48 != 0 then .error (.fail 4)
  else if f 384 8 == 1 then
    match s.formLaunch { ctx := ctx, report := .ply run k, desc := cap 0, args := cap 128, recs := cap 256, ncourse := f 416 32,
                         lastn := f 448 9, prio := prio, sysc := p.sysc, queue := queue, arrival := s.arrivalOf p.report,
                         clock := p.clock,
                         regions := p.regions } with
    | .error e => .error e.sub
    | .ok l => match s.startErr l with | some (_, d) => .error (.fail d) | none => .ok (.kernel l)
  else if f 384 8 == 2 then
    let len := f 416 32
    let off (c : Cap) : Bool := capPerm c &&& pM == 0 && s.leavesDevice { ctx := ctx } (capBase c) len
    match s.capErr ctx (cap 0) 0 pR len 1, s.capErr ctx (cap 256) 0 pW len 1 with
    | some d, _ | none, some d => .error (.fail d)
    | none, none =>
      if capLen (cap 128) != 0 || off (cap 0) || off (cap 256) then .error (.fail 3)
      else .ok (.copy { src := .global ctx (capBase (cap 0)), dst := .global ctx (capBase (cap 256)), len := len, outLen := len,
                        clk := p.clock, srcCap := cap 0, dstCap := cap 256 })
  else .error (.fail 4)

/-- The FE charge of a ply credited: its descriptor has been read, or the ply has ended (R306, log 97). -/
def State.creditPly (s : State) (run : Nat) : State :=
  match s.plies[run]? with
  | none => s
  | some p => (s.modPly run fun p => { p with charges := [] }).credit p.ctx p.charges

/-- The front end reads a ply's descriptor and validates it; its kernels enter the scheduler as one gang, and without kernels
its copies start (R304, R305). -/
def State.startPly (s : State) (run : Nat) (cap : Cap) : State :=
  match s.plies[run]? with
  | none => s
  | some p =>
    let fail (s : State) (mask cause detail : Nat) : State := (s.failPly run mask cause detail).creditPly run
    match s.frontRead p.ctx (capBase cap) 64 with
    | .error (.page r va) => s.frontPage p.ctx r va (.ply run cap)
    | .error (.fail c) => fail s 0 c 0
    | .ok hb =>
      let h := leNat hb
      let nsub := h / 2 ^ 16 % 16
      if h % 2 ^ 16 != 0x5C0F || nsub == 0 || 8 < nsub || h / 2 ^ 23 != 0 || capLen cap < 64 + 64 * nsub then fail s 0 cCAPF 4
      else match s.frontRead p.ctx (capBase cap + 64) (64 * nsub) with
      | .error (.page r va) => s.frontPage p.ctx r va (.ply run cap)
      | .error (.fail c) => fail s 0 c 0
      | .ok sb =>
        let queue := match p.report with | some (.packet q _) => q | some (.node _) | some (.ply _ _) | none => 2 ^ 17 + s.launches.length
        let subs := (List.range nsub).map fun k =>
          s.subWork p run k (h / 2 ^ 20 % 8) queue ((sb.drop (64 * k)).take 64)
        match subs.findSome? fun r => match r with | .error (.page r va) => some (r, va) | .error (.fail _) | .ok _ => none with
        | some (r, va) => s.frontPage p.ctx r va (.ply run cap)
        | none =>
          let bad := subs.zipIdx.filterMap fun (r, k) =>
            match r with | .error (.fail d) => some (k, d) | .error (.page _ _) | .ok _ => none
          match bad with
          | (_, d) :: _ => fail (s.modPly run fun p => { p with subs := nsub }) (bad.foldl (fun m b => m + 2 ^ b.1) 0) cCAPF d
          | [] =>
            let kernels := subs.filterMap fun r => match r with | .ok (.kernel l) => some l | .ok (.copy _) | .error _ => none
            let copies := subs.zipIdx.filterMap fun (r, k) =>
              match r with | .ok (.copy c) => some (k, c) | .ok (.kernel _) | .error _ => none
            let s := (List.range nsub).foldl (fun (s : State) k =>
              s.frontNote p.ctx (capBase (BitVec.ofNat 128 (leNat ((sb.drop (64 * k)).take 16)))) (if copies.any (·.1 == k) then 0 else 64))
              (s.frontNote p.ctx (capBase cap) (64 + 64 * nsub))
            let s := (s.modPly run fun p => { p with subs := nsub, copies := copies }).creditPly run
            let s := s.addLaunches kernels
            if kernels.isEmpty then s.startCopies run else s.schedule p.ctx

/-- A new ply handed to the front end. -/
def State.newPly (s : State) (p : PlyRun) (cap : Cap) : State :=
  ({ s with plies := s.plies ++ [p] }).startPly s.plies.length cap

/-- The charge of ARM and PLY in the FE account of the course's cluster (R306, R336). -/
def feCharge (c : Course) : List Charge := [{ cluster := clusterOf c.place, acct := 17, ns := 120 }]

/-- PLY: the descriptor goes to the front end, whose charge is credited when it has been read (R305, R306). -/
def execPly (w : Eng) (s0 : State) : Out :=
  let s := s0.commit s0.cur
  let c := s.me
  .next (match s.engIssue [] with
    | .error x => s.stop x
    | .ok e =>
      let cap := e.cap w.ea.toNat
      let act := e.guard false
      match s.useErr c.who cap 2 pR (capBase cap) 64 1 false with
      | some x => s.stop (x.stop (capBase cap) act)
      | none =>
        match s.copyRing e w, s.gateStop (feCharge c) with
        | .error x, _ | .ok _, some x => s.stop x
        | .ok (s, ring), none =>
          let s := (s.keepCharges s.cur (feCharge c)).engFinish e w (slotWord ring)
          s.newPly { ctx := c.ctx, cluster := clusterOf c.place, clock := (s.course s.cur).lclock, ring := ring,
                     charges := c.held (feCharge c) } cap)

/-- STATUS of a ply's record (R305). -/
def PlyRun.status (p : PlyRun) : Nat := if p.cause == 0 then 1 else if p.perf == 0 then 5 else 2

/-- A ply that has ended completes: one release, and one record, packet or node (R305). -/
def State.endPly (s : State) (k : Nat) : State :=
  match s.plies[k]? with
  | none => s
  | some p =>
    if !p.ended || p.finished then s
    else
      let s := (s.creditPly k).modPly k fun p => { p with finished := true }
      let s := match p.ring with
        | some r => s.ringComplete p.clock r (recordWords p.status 6 p.subs p.bytes p.perf p.fail 0 0) (p.cause % 256)
        | none => s
      match p.report with
      | some (.packet q slot) =>
        if p.cause == 0 then s.retirePacket q slot 1 0 p.clock
        else if p.detail != 0 then s.retirePacket q slot 3 (2 ^ 8 * p.detail) p.clock
        else s.retirePacket q slot 5 p.cause p.clock
      | some (.node n) =>
        s.modNode n fun x => { x with ended := true, clock := max x.clock p.clock, own := max x.own p.own,
                                      failed := if p.cause == 0 then x.failed else x.failed.orElse fun _ => some p.cause }
      | some (.ply _ _) | none => s

/-- PLY_COMPLETE (subj num: the ply). -/
def execPlyComplete (s : State) : Out := .next (s.endPly s.subj.num)

/-! Nodes (R298). -/

/-- The fields of a node's line 0 that a step reads. -/
structure NodeHdr where
  magic : Nat
  kind : Nat
  prio : Nat
  sys : Bool
  state : Nat
  pred : Nat
  nsucc : Nat
  overrun : Bool
  pfail : Bool
deriving DecidableEq, Repr

/-- A node's header from its first 8 bytes. -/
def nodeOf (l : List Byte) : NodeHdr :=
  let n := leNat l
  { magic := n % 2 ^ 16, kind := n / 2 ^ 16 % 256, prio := n / 2 ^ 24 % 8, sys := bit n 27, state := n / 2 ^ 28 % 16,
    pred := n / 2 ^ 32 % 2 ^ 16, nsucc := n / 2 ^ 48 % 256, overrun := bit n 56, pfail := bit n 57 }

/-- The first 8 bytes of a node, its reserved bits kept. -/
def nodeBytes (old : List Byte) (h : NodeHdr) : List Byte :=
  leBytes 8 (h.magic + 2 ^ 16 * h.kind + 2 ^ 24 * (h.prio % 8) + 2 ^ 27 * flagNat h.sys + 2 ^ 28 * (h.state % 16)
    + 2 ^ 32 * (h.pred % 2 ^ 16) + 2 ^ 48 * (h.nsucc % 256) + 2 ^ 56 * flagNat h.overrun + 2 ^ 57 * flagNat h.pfail
    + leNat (old.take 8) / 2 ^ 58 * 2 ^ 58)

/-- A node's header changed at its home in one step (R303); answers the write time. -/
def State.setNode (s : State) (w : Who) (va : Nat) (f : NodeHdr → NodeHdr) : State × Nat :=
  match s.readVA w va 8 with
  | .error _ => (s, w.clk)
  | .ok old => s.pokeAt w va (nodeBytes old (f (nodeOf old)))

/-- NODE: both lines are written unless the node is armed or running; what completions left for the old node goes (R300, R303). A
non-null RECS of a node of another kind than KERNEL is a value outside its field, CAPF with detail 4 (DESIGN CHOICE, log 135). -/
def execNode (w : Eng) (s0 : State) : Out :=
  let s := s0.commit s0.cur
  let c := s.me
  .next (match s.engIssue [] with
    | .error x => s.stop x
    | .ok e =>
      let act := e.guard false
      let cap := e.cap w.ea.toNat
      let va := capBase cap
      let x (i : Nat) : Nat := (e.grp w.s1 i).toNat
      let sub (k : Nat) : Nat := (e.cap (w.eb.toNat + k)).toNat
      match s.useErr c.who cap 2 (pA ||| pW) va 128 128 true with
      | some err => s.stop (err.stop va act)
      | none =>
        if x 0 / 2 ^ 12 % 16 != 0 || 64 < x 1 || 256 < x 3 || (x 0 % 256 != 1 && capLen (e.cap (w.eb.toNat + 4)) != 0) then
          s.stop (.trap { cause := cCAPF, detail := 4, mask := act, addr := va })
        else match s.releaseEnter s.cur 3 with
        | (s, some st) => s.stop st
        | (s, none) =>
          let s := s.releaseClock s.cur
          let state := match s.readVA c.who va 8 with | .ok b => (nodeOf b).state | .error _ => 0
          if state == 2 || state == 3 then (s.noteHome { c.who with clk := s.me.lclock } va 8).engFinish e w 1
          else
            let line := leBytes 128 (0x5C0D + 2 ^ 16 * (x 0 % 256) + 2 ^ 24 * (x 0 / 2 ^ 8 % 8) + 2 ^ 27 * (x 0 / 2 ^ 11 % 2)
              + 2 ^ 28 + 2 ^ 32 * (x 0 / 2 ^ 16) + 2 ^ 48 * x 1 + 2 ^ 64 * x 2 + 2 ^ 96 * x 3 + 2 ^ 128 * sub 0 + 2 ^ 256 * sub 1
              + 2 ^ 512 * sub 2 + 2 ^ 640 * sub 3 + 2 ^ 768 * sub 4)
            let (s, t) := s.pokeAt { c.who with clk := s.me.lclock } va line
            let s : State := { s with edges := s.edges.filter fun x => !(x.ctx == c.ctx && x.va == va) }
            (s.modMe fun k => { k with lclock := max k.lclock t, wmax := max k.wmax t }).engFinish e w 0)

/-- What becomes of an ARM (R301): the page of a BARRIER node's object that is to be waited for, or the status of ARM with the
state. -/
inductive ArmStep where
  | page (x : XErr) (va : Nat)
  | armed (s : State) (status : Nat)
deriving DecidableEq, Repr

/-- A node armed at its home (R301): the status, and for an armed node the walker's entry with the generation of a BARRIER
node's object, which ARM reads and whose absent page is a translation fault of ARM's (R108, R230, log 140). The FE charge stays with a
node that the walker launches at once (log 97). -/
def State.armNode (s : State) (w : Who) (va : Nat) (chs : List Charge) : ArmStep :=
  match s.readVA w va 128 with
  | .error x => .page x va
  | .ok b =>
    let h := nodeOf b
    if h.state != 1 then .armed (s.noteHome w va 128) 1
    else
      let work : Cap := BitVec.ofNat 128 (leNat ((b.drop 16).take 16))
      let bar : Except XErr (Option BarRef) :=
        if h.kind != 3 || (s.capErr w.ctx work 3 pA 16 16).isSome then .ok none
        else (s.readVA { w with team := none } (capBase work) 16).map fun o =>
          some { ctx := w.ctx, va := capBase work, gen := (barOf o).gen, cap := work }
      match bar with
      | .error x => .page x (capBase work)
      | .ok bar =>
        let s := match bar with | some r => s.noteHome { w with team := none } r.va 16 | none => s
        let (s, t) := s.setNode w va fun h => { h with state := 2 }
        let n : NodeRun := { ctx := w.ctx, va := va, ready := h.pred == 0, bar := bar, clock := t,
                             charges := if h.pred == 0 then chs else [] }
        .armed { s with nodes := s.nodes ++ [n] } 0

/-- ARM. -/
def execArm (w : Eng) (s0 : State) : Out :=
  let s := s0.commit s0.cur
  let c := s.me
  .next (match s.engIssue [] with
    | .error x => s.stop x
    | .ok e =>
      let act := e.guard false
      let cap := e.cap w.ea.toNat
      let va := capBase cap
      match s.useErr c.who cap 2 pA va 128 128 true with
      | some err => s.stop (err.stop va act)
      | none =>
        match s.releaseEnter s.cur 3 with
        | (s, some st) => s.stop st
        | (s, none) =>
          match s.gateStop (feCharge c) with
          | some st => s.stop st
          | none =>
            let s := s.releaseClock s.cur
            match s.armNode { c.who with clk := s.me.lclock } va (c.held (feCharge c)) with
            | .page x a => s.stop ((UseErr.page x).stop a act)
            | .armed t r =>
              let kept := r == 0 && (t.nodes.getLast?).any (·.ready)
              (if kept then t.keepCharges s.cur (feCharge c) else t).engFinish e w (BitVec.ofNat 32 r))

/-! The chart walker (R302). -/

/-- The FE charge of a node credited (R306). -/
def State.creditNode (s : State) (k : Nat) : State :=
  match s.nodes[k]? with
  | none => s
  | some n => (s.modNode k fun n => { n with charges := [] }).credit n.ctx n.charges

/-- An edge (R299): the capability of its successor, and those of its four regions. -/
structure EdgeBytes where
  succ : Cap
  regions : List Cap
deriving DecidableEq, Repr

/-- An edge from its 128 bytes. -/
def edgeOf (b : List Byte) : EdgeBytes :=
  let cap (k : Nat) : Cap := BitVec.ofNat 128 (leNat ((b.drop (16 * k)).take 16))
  { succ := cap 0, regions := (List.range 4).map fun k => cap (k + 1) }

/-- The regions an edge lists, none where every capability is null. -/
def EdgeBytes.listed (e : EdgeBytes) : Option (List (Nat × Nat)) :=
  match e.regions.filter fun c => capLen c != 0 with
  | [] => none
  | l => some (l.map fun c => (capBase c, capLen c))

/-- Some region of an edge does not pass the walker's validation (R98, R299). -/
def State.regionsBad (s : State) (ctx : Nat) (e : EdgeBytes) : Bool :=
  e.regions.any fun c => (s.validate (s.context ctx).tenant c).isSome || (capLen c != 0 && capKind c != 0)

/-- An edge whose successor or whose regions do not pass the walker's validation (R98, R299). -/
def State.edgeBad (s : State) (ctx : Nat) (e : EdgeBytes) : Bool := (s.capErr ctx e.succ 2 0 128 128).isSome || s.regionsBad ctx e

/-- An edge as the walker reads it when its node completes: one with a region that does not validate lists none (R98, log 47). -/
def State.edgeAt (s : State) (ctx : Nat) (b : List Byte) : EdgeBytes :=
  let e := edgeOf b
  if s.regionsBad ctx e then { e with regions := [] } else e

/-- The clocks a node starts with (R299, R301): the clock of its ARM; and an acquire of the completions that made it ready, over
the union of its in-edges' regions where each lists some and there are at most 4, else a full one. -/
def State.startClocks (s : State) (n : NodeRun) : Nat × List Region :=
  let ins := s.edges.filter fun e => e.ctx == n.ctx && e.va == n.va
  let t := ins.foldl (fun m e => max m e.clock) 0
  let union := (ins.flatMap fun e => e.regions.getD []).eraseDups
  if ins.any (·.regions.isNone) || 4 < union.length then (max n.clock t, [])
  else (n.clock, union.map fun r => { base := r.1, len := r.2, time := t })

/-- The successor of an edge loses a predecessor: a count that reaches zero on an armed node gives it to the walker (R302). -/
def State.decrement (s : State) (ctx clk : Nat) (e : EdgeBytes) (failed : Bool) : State :=
  let va := capBase e.succ
  match s.readVA { ctx := ctx } va 8 with
  | .error _ => s
  | .ok b =>
    let h := nodeOf b
    if h.pred == 0 then (s.setNode { ctx := ctx, clk := clk } va fun h => { h with overrun := true }).1
    else
      let (s, t) := s.setNode { ctx := ctx, clk := clk } va fun h => { h with pred := h.pred - 1, pfail := h.pfail || failed }
      let s := { s with edges := s.edges ++ [{ ctx := ctx, va := va, clock := t, regions := e.listed }] }
      if h.pred == 1 && h.state == 2 then
        match s.nodes.findIdx? fun n => n.ctx == ctx && n.va == va && !n.ready && !n.finished with
        | some k => s.modNode k fun n => { n with ready := true }
        | none => { s with nodes := s.nodes ++ [{ ctx := ctx, va := va, ready := true }] }
      else s

/-- A node launches: its line and its edges are read and validated, its DONE slot is allocated, and its work begins. With a full
ring the node stays armed; an absent page of a BARRIER node's object is waited for like one of the node's own (R108, R302, R356). Of
the node's line the validation tests MAGIC, NKIND, NSUCC and the capabilities; reserved bits that are not 0 make no node fail (R298;
DESIGN CHOICE, log 134). -/
def State.startNode (s : State) (k : Nat) : State :=
  match s.nodes[k]? with
  | none => s
  | some n0 =>
    match s.frontRead n0.ctx n0.va 128 with
    | .error (.page r va) => s.frontPage n0.ctx r va (.node k)
    | .error (.fail c) => (s.failNode k c).creditNode k
    | .ok b =>
      let h := nodeOf b
      let cap (o : Nat) : Cap := BitVec.ofNat 128 (leNat ((b.drop o).take 16))
      let (clk, regions) := s.startClocks n0
      let n : NodeRun := { n0 with clock := clk, regions := regions }
      let done := cap 80
      let doneBad := capLen done != 0 && (s.capErr n.ctx done 5 pA 64 64).isSome
      let away (va len : Nat) : Bool := capPerm done &&& pM == 0 && s.leavesDevice { ctx := n.ctx } va len
      -- the DONE ring: a page of its header or of its slot to wait for, a failure, or the slot allocated (R95, R302)
      let ring : Option (Except FrontErr (State × RingRef)) :=
        if capLen done == 0 || doneBad then none
        else match s.frontRead n.ctx (capBase done) 64 with
        | .error x => some (.error x)
        | .ok hb =>
          let hd := ringOf hb
          if away (capBase done) 64 || !hd.ok done then some (.error (.fail cCAPF))
          else if sub32 hd.alloc hd.rp ≥ 2 ^ hd.caplog then none
          else if away (slotVA done hd hd.alloc) 32 then some (.error (.fail cCAPF))
          else match s.frontRead n.ctx (slotVA done hd hd.alloc) 32 with
          | .error x => some (.error x)
          | .ok _ => (s.ringAlloc n.ctx n.clock done hd).map fun r => .ok (r.1, r.2.1)
      let full := capLen done != 0 && !doneBad && ring.isNone
      let i := leNat ((b.drop 8).take 8)
      let formed := s.formLaunch
        { ctx := n.ctx, report := .node k, desc := cap 16, args := cap 32, recs := cap 96, ncourse := i % 2 ^ 32,
          lastn := i / 2 ^ 32 % 512, prio := h.prio, sysc := h.sys, queue := 2 ^ 17 + s.launches.length,
          arrival := s.arrivals, clock := n.clock, regions := n.regions }
      let edgesOk := h.nsucc == 0 || (h.nsucc ≤ 64 && (s.capErr n.ctx (cap 64) 2 pR (128 * h.nsucc) 1).isNone)
      let edges := if h.nsucc == 0 || !edgesOk then .ok [] else s.frontRead n.ctx (capBase (cap 64)) (128 * h.nsucc)
      let object : Except FrontErr Unit :=
        if h.kind != 3 then .ok ()
        else match n.bar with
        | none => .error (.fail cCAPF)
        | some r =>
          if (s.capErr n.ctx r.cap 3 pA 16 16).isSome then .error (.fail cCAPF) else (s.frontRead n.ctx r.va 16).map fun _ => ()
      let page : Option (Nat × Nat) := match ring, edges, h.kind, formed, object with
        | some (.error (.page r va)), _, _, _, _ => some (r, va)
        | _, .error (.page r va), _, _, _ => some (r, va)
        | _, _, 1, .error (.read (.page r va)), _ => some (r, va)
        | _, _, 3, _, .error (.page r va) => some (r, va)
        | _, _, _, _, _ => none
      match full, page with
      | true, _ => s.creditNode k
      | false, some (r, va) => s.frontPage n.ctx r va (.node k)
      | false, none =>
        let (s, slot) : State × Option RingRef := match ring with | some (.ok r) => (r.1, some r.2) | some (.error _) | none => (s, none)
        let s := ((s.frontNote n.ctx n.va 128).frontNote n.ctx (capBase (cap 64)) (128 * h.nsucc)).frontNote n.ctx (capBase (cap 16))
          (if h.kind == 1 then 64 else 0)
        let s := (s.setNode { ctx := n.ctx, clk := n.clock } n.va fun h => { h with state := 3 }).1
        let s : State := { s with edges := s.edges.filter fun e => !(e.ctx == n.ctx && e.va == n.va) }
        let s := (s.modNode k fun x => { x with started := true, ring := slot, clock := clk, own := clk, regions := regions }).creditNode k
        let ringBad := match ring with | some (.error _) => true | some (.ok _) | none => false
        let badCap := [16, 32, 64, 96].any fun o => (s.validate (s.context n.ctx).tenant (cap o)).isSome
        let edgesBad := match edges with
          | .ok eb => !edgesOk || (List.range h.nsucc).any fun e => s.edgeBad n.ctx (edgeOf ((eb.drop (128 * e)).take 128))
          | .error _ => true
        if h.magic != 0x5C0D || doneBad || ringBad || edgesBad || badCap then s.failNode k cCAPF
        else match h.kind with
        | 0 => s.modNode k fun n => { n with ended := true }
        | 1 =>
          match formed with
          | .ok l => s.addLaunch l
          | .error _ => s.failNode k cCAPF
        | 2 =>
          if (s.capErr n.ctx (cap 16) 2 pR 64 1).isSome then s.failNode k cCAPF
          else s.newPly { ctx := n.ctx, cluster := (s.clustersFor n.ctx none).headD 0, clock := n.clock, regions := n.regions,
                          sysc := h.sys, report := some (.node k) } (cap 16)
        | 3 =>
          match n.bar, object with
          | some r, .ok _ => (s.tagArrive n.clock r).modNode k fun n => { n with ended := true }
          | some _, .error (.fail c) => s.failNode k c
          | some _, .error (.page _ _) | none, _ => s.failNode k cCAPF
        | _ => s.failNode k cCAPF

/-- The out-edges of a node from one on: each is read, and its successor decremented, in ascending order; one whose page or whose
successor's page is not present is waited for (R302, R356). -/
def State.runEdges (s : State) (k ctx base clk : Nat) (failed : Bool) : List Nat → State
  | [] => s.modNode k fun n => { n with finished := true }
  | e :: rest =>
    let wait (r va : Nat) : State := (s.modNode k fun n => { n with next := e }).frontPage ctx r va (.node k)
    match s.frontRead ctx (base + 128 * e) 128 with
    | .error (.page r va) => wait r va
    | .error (.fail _) => s.runEdges k ctx base clk failed rest
    | .ok b =>
      let x := s.edgeAt ctx b
      if (s.capErr ctx x.succ 2 0 128 128).isSome then s.runEdges k ctx base clk failed rest
      else match s.frontRead ctx (capBase x.succ) 128 with
      | .error (.page r va) => wait r va
      | .error (.fail _) => s.runEdges k ctx base clk failed rest
      | .ok _ => (((s.frontNote ctx (base + 128 * e) 128).frontNote ctx (capBase x.succ) 128).decrement ctx clk x failed).runEdges k ctx base clk failed rest

/-- The engine writes of a node's work inside some regions: their largest write time (R249, R299). -/
def State.nodeWts (s : State) (k : Nat) (rs : List (Nat × Nat)) : Nat :=
  let plies := (List.range s.plies.length).filter fun r => (s.plies[r]?).any fun p => p.report == some (.node k)
  let mine (l : Launch) : Bool := match l.report with | .node n => n == k | .ply r _ => plies.contains r | .packet _ _ => false
  s.jobs.foldl (fun m j => j.parts.foldl (fun m p =>
    let by' := match p.course with | some i => (s.launch? (s.course i).launch).any mine | none => j.ply.any fun q => plies.contains q.1
    if by' && p.meets rs then max m p.wts else m) m) 0

/-- The clock of a node's completion (R299): a release over the union of its out-edges' regions, which carries the clocks of its
courses and the engine writes inside; a full one where some out-edge lists no region or cannot be read, the union exceeds 4
regions, or DONE is not null. -/
def State.releaseAt (s : State) (k : Nat) (n : NodeRun) (done : Bool) (base nsucc : Nat) : Nat :=
  let edges := (List.range nsucc).map fun e =>
    match s.frontRead n.ctx (base + 128 * e) 128 with | .ok b => (s.edgeAt n.ctx b).listed | .error _ => none
  let union := (edges.flatMap fun e => e.getD []).eraseDups
  let t := if done || edges.any (·.isNone) || 4 < union.length then n.clock else max n.own (s.nodeWts k union)
  n.regions.foldl (fun m r => max m r.time) t

/-- A node whose work has ended: STATE, the DONE record, the release and the decrements, in R302's order. -/
def State.finishNode (s : State) (k : Nat) : State :=
  match s.nodes[k]? with
  | none => s
  | some n =>
    match s.frontRead n.ctx n.va 128 with
    | .error (.page r va) => s.frontPage n.ctx r va (.node k)
    | .error (.fail _) => s.modNode k fun n => { n with finished := true }
    | .ok b =>
      let h := nodeOf b
      let edges : Cap := BitVec.ofNat 128 (leNat ((b.drop 64).take 16))
      let whole := n.regions.foldl (fun m r => max m r.time) n.clock
      let edgesBad := (s.capErr n.ctx edges 2 pR (128 * h.nsucc) 1).isSome
      let done := capLen (BitVec.ofNat 128 (leNat ((b.drop 80).take 16))) != 0
      let clk := s.releaseAt k n done (capBase edges) h.nsucc
      let s := s.frontNote n.ctx n.va 128
      let s := if n.closed then s
        else
          let s := (s.setNode { ctx := n.ctx, clk := whole } n.va fun h => { h with state := if n.failed.isSome then 5 else 4 }).1
          let s := match n.ring with
            | some r =>
              let ok := n.failed.isNone
              s.ringComplete whole r (recordWords (if ok then 1 else 5) 5 1 0 (flagNat ok) (flagNat !ok) 0 (n.va % 2 ^ 32))
                (n.failed.getD 0 % 256)
            | none => s
          s.modNode k fun n => { n with closed := true }
      if edgesBad then s.modNode k fun n => { n with finished := true }
      else s.runEdges k n.ctx (capBase edges) clk n.failed.isSome ((List.range h.nsucc).drop n.next)

/-- The walker has something to do for a node; a vacate request waits for a node in the FE account (R338). -/
def State.nodeDue (s : State) (k : Nat) : Bool :=
  match s.nodes[k]? with
  | none => false
  | some n =>
    let x := (s.context n.ctx).mode
    n.ready && !n.finished && (!n.started || n.ended) && (x == .active || (x == .vacating && !n.charges.isEmpty))
      && !s.frontWaits (.node k)

/-- NODE_COMPLETE (subj num: the node's entry): the walker launches a ready node, or finishes one whose work has ended. -/
def execNodeComplete (s : State) : Out :=
  let k := s.subj.num
  .next (if !s.nodeDue k then s
    else if (s.nodes[k]?).any (·.started) then s.finishNode k
    else s.startNode k)

end Sys2Proof.Machine
end

