-- ==== Sys2Proof/Machine/Vacate.lean ====
section
/-! DEFINITION. The gate's re-evaluation, vacating and resuming a context, gang switches and swapping (R27, R28, R344, R346 to
R351, R412). -/

namespace Sys2Proof.Machine

/-! The issue gate after a credit (R344). -/

/-- The stalled word of one course evaluated again as Ready; what it is granted counts for those after it in the sweep, the state
bytes of a binding too (R344, R346). -/
def State.reevaluate (s : State) (i : Nat) : State :=
  let c := s.course i
  match c.lwait with
  | none => s
  | some w =>
    if w.kind != .gate || !c.alive || c.phase == .vacated then s
    else match s.gate c.ctx c.place w.charges w.binds with
    | .pass => (s.charge c.ctx w.charges).modCourse i fun c =>
        { c with lwait := none, granted := some w.charges, grantBinds := w.binds }
    | .stall => s
    | .vbnd => s.takeTrap i { cause := cVBND, pc := c.core.lanePc }
    | .vbig => s.takeTrap i { cause := cVBIG, pc := c.core.lanePc }

/-- GATE_REEVALUATE (subj num: the context): its stalled words are evaluated oldest stall first (R344). -/
def execGateReevaluate (s : State) : Out :=
  let x := s.subj.num
  let l := (List.range s.courses.length).filter fun i =>
    (s.course i).ctx == x && (s.course i).lwait.any (·.kind == .gate)
  let since (i : Nat) : Nat := ((s.course i).lwait.map (·.since)).getD 0
  .next (if (s.context x).mode == .active then (sortBy since l).foldl State.reevaluate s else s)

/-! Vacating (R341, R347). -/

/-- The living courses of a context. -/
def State.ctxCourses (s : State) (x : Nat) : List Nat :=
  (List.range s.courses.length).filter fun i => (s.course i).ctx == x && (s.course i).alive

/-- The launch and ply completions of a context that are due are performed: they come before a vacate request or the end of the
context (R350, R410). -/
def State.completeDue (s : State) (x : Nat) : State :=
  let s := (List.range s.launches.length).foldl (fun s i =>
    if ((s.launch? i).any fun l => l.ctx == x) && s.launchDone i then s.endLaunch i else s) s
  (List.range s.plies.length).foldl (fun s k => if (s.plies[k]?).any fun p => p.ctx == x then s.endPly k else s) s

/-- The placements that are due in the partition of a context are made: they come before a vacate request (R410). -/
def State.placeDue (s : State) (x : Nat) : State :=
  let p := (s.context x).partition
  (s.agenda.filter fun d => d == .event .gangPlace { num := p }).foldl (fun s _ => s.placeHeads p) s

/-- What falls in the cycle of a vacate request of a context and comes before it. -/
def State.settleDue (s : State) (x : Nat) : State := (s.placeDue x).completeDue x

/-- A vacate request reaches a context: no word of it issues, and each cluster commits the option of this instant (R341,
R347); its reservations are dropped (R408). -/
def State.requestVacate (s : State) (x : Nat) : State :=
  if (s.context x).mode != .active then s
  else
    let s := (s.ctxCourses x).foldl State.creditGranted (s.settleDue x)
    let e := s.estimate x (s.context x).charges [] true 0
    (s.dropReservations x).modCtx x fun c =>
      { c with mode := .vacating, options := e.2, vacateAt := s.clock, vacateEst := e.1 }

/-- VACATE_REQUEST (subj num: the context). -/
def execVacateRequest (s : State) : Out := .next (s.requestVacate s.subj.num)

/-- A cluster has requests of a context out: items of its RQ accounts, or nodes that the front end still has to launch. What
waits for the host's answer to a translation fault stands still, and no option waits for it (R338, R341, log 99). -/
def State.requestsOut (s : State) (x cluster : Nat) : Bool :=
  ((s.context x).charges.any fun c => c.cluster == cluster && 9 ≤ c.acct && c.acct ≤ 16)
    || (List.range s.nodes.length).any fun k =>
      (s.nodes[k]?).any (fun n => n.ctx == x && n.charges.any (·.cluster == cluster)) && !s.frontWaits (.node k)

/-- A copy of a context in a cluster is still to move bytes. -/
def State.copiesOut (s : State) (x cluster : Nat) : Bool :=
  (List.range s.jobs.length).any fun k => (s.jobs[k]?).any fun j =>
    j.ctx == x && j.cluster == cluster && !j.finished && !(j.gathering && j.parts.all (·.done)) && j.waiting.isNone
      && !s.posts.any fun p => p.job == some k

/-- A cluster has done what its option waits for (R338): DRAIN for its requests, copies and tile operations, SAVE for its
requests. -/
def State.clusterDrained (s : State) (x cluster opt : Nat) : Bool :=
  let ops := s.tileOps.any fun o => o.ctx == x && clusterOf o.place == cluster
  if opt == 3 then true
  else if opt == 2 then !s.requestsOut x cluster
  else !s.requestsOut x cluster && !s.copiesOut x cluster && !ops

/-- The gang switch of an outgoing context. -/
def State.gangsw? (s : State) (x : Nat) : Option GangSw := s.gangsws.find? fun g => g.outgoing == x

/-- Nanoseconds as core cycles, rounded up (R72). -/
def cyclesOfNs (ns : Nat) : Nat := (7 * ns + 4) / 5

/-- A gang switch has passed its ceiling, request plus 4 x %vbnd, unsaved (R351). A save lasts no longer than the estimate of the
request (R341), so one whose estimate lies within the ceiling never passes it. -/
def State.ceilingDue (s : State) (x : Nat) : Bool :=
  match s.gangsw? x with
  | none => false
  | some g =>
    let c := s.context x
    c.mode == .vacating && decide (4 * c.vbnd < c.vacateEst)
      && match g.requested with | some r => decide (r + cyclesOfNs (4 * c.vbnd) ≤ s.clock) | none => false

/-- Every cluster of a vacating context has finished, before the ceiling of a gang switch. -/
def State.saveDue (s : State) (x : Nat) : Bool :=
  !s.ceilingDue x && (s.context x).mode == .vacating && (s.context x).options.all fun o => s.clusterDrained x o.1 o.2

/-- A course holds a fault that waits for service or for the end of a move: it stands at a checkpoint already. -/
def Course.served (c : Course) : Bool :=
  c.trapped.isSome || [c.swait, c.lwait].any fun w =>
    w.any fun w => w.kind == .service || w.kind == .post || w.kind == .move

/-- A course saved as of a checkpoint (R347): the latest one under DISCARD and where an issued word has not completed, else that or
one more. Its record is written but where a trap has left one; the replay of a translation fault is no trap (R353, R357). A word in
flight that acts at its targets is saved in flight, as of a checkpoint before it, for no replay may send its packets again (R380).
opt is its cluster's option. -/
def State.saveCourse (s : State) (i opt : Nat) : State :=
  let c := s.course i
  let prior := c.phase
  let s :=
    if c.remoteActs then (s.modCourse i fun c => { c with sfault := none, parked := none }).checkpoint i
    else if c.served || c.phase == .swapped then s
    else if opt == 3 || c.inFlight || !s.pick i then
      -- what the course waited for is tested again on resume
      (s.restore i).modCourse i fun d =>
        { d with swait := c.swait.orElse fun _ => c.swas, lwait := c.lwait.orElse fun _ => c.lwas }
    else (s.modCourse i fun c => { c with sfault := none, parked := none }).checkpoint i
  let s := s.modCourse i fun c => { c with phase := .vacated, prior := prior, option := opt }
  if c.trapped.any (·.source != 1) then s else s.writeRecord i { cause := 0 } false 4 prior.code

/-- The copies of a cluster that DISCARD stops. -/
def State.dropCopies (s : State) (x cluster : Nat) : State :=
  (List.range s.jobs.length).foldl (fun s k =>
    match s.jobs[k]? with
    | some j => if j.ctx == x && j.cluster == cluster then s.stopCopy k j s.reissued else s
    | none => s) s

/-- The teams of a context. -/
def State.ctxTeams (s : State) (x : Nat) : List Nat :=
  (List.range s.teams.length).filter fun t => (s.team t).alive && (s.team t).ctx == x

/-! The save area (R349). -/

/-- The pieces of a range that lie in one 64 KiB page each. -/
def pagePieces (va n : Nat) : List (Nat × Nat) :=
  (List.range ((va % 65536 + n + 65535) / 65536)).map fun i =>
    let lo := max va ((va / 65536 + i) * 65536)
    (lo, min (va + n) ((va / 65536 + i + 1) * 65536) - lo)

/-- The part of a context's save area that belongs to a cluster: 50 MiB for each cluster of the partition in ascending order. -/
def State.savePart (s : State) (x cluster : Nat) : Nat :=
  capBase (s.context x).saveArea + 52428800 * ((s.clustersFor x none).findIdx (· == cluster))

/-- The slot of a swap-out: in the region of the course's core, at its course position there (R349, log 50). -/
def State.swapSlot (s : State) (i : Nat) : Nat :=
  let c := s.course i
  s.savePart c.ctx (clusterOf c.place) + 2 ^ 24 + 4456448 * (c.place % 8) + 278528 * c.pos

/-- The save path writes a range of a context's save area: what it holds is not architected (R349). The host has answered for the
lines of it that it held, which are written over whole, by the end of the save (R431). -/
def State.saveRange (s : State) (x cluster : Nat) (course : Option Nat) (va n : Nat) : State :=
  let new := (pagePieces va n).filterMap fun p =>
    match s.translate { ctx := x } p.1 true with
    | .ok t => some ({ ctx := x, cluster := cluster, course := course, loc := t.loc, len := p.2, seed := s.free } : SaveArea)
    | .error _ => none
  let meets (l : Nat) : Bool := new.any fun a => decide (a.loc / 64 ≤ l) && decide (64 * l < a.loc + a.len)
  ({ s with areas := new ++ s.areas.filter (fun a => !(a.ctx == x && a.cluster == cluster && a.course == course)),
            hostLines := s.hostLines.filter fun l => !meets l, heldWrites := s.heldWrites.filter fun w => !meets (w.1 / 64),
            heldFor := s.heldFor.filter fun h => !meets h.line } : State).wakeIf fun _ _ w => w.kind == .writes

/-- Something else has written what is to be restored from a part of a save area. -/
def State.spoilt (s : State) (x cluster : Nat) (course : Option Nat) : Bool :=
  s.areas.any fun a => a.ctx == x && a.cluster == cluster && a.course == course && a.live && !a.spoilt.isEmpty

/-- What is restored from a spoilt part of a save area: the registers hold values that nothing constrains (R349, log 50). -/
def Core.spoil (k : Core) (regs seed : Nat) : Core :=
  let w (n : Nat) : Word := Config.openWord (2 ^ 254 + seed * 2 ^ 32 + n)
  { k with xs := (List.range 32).map w,
           vregs := (List.range regs).map fun r => { vals := (List.range 256).map fun t => w (64 + 256 * r + t) },
           gregs := (List.range 16).map fun r => { vals := (List.range 64).map fun t => w (2 ^ 20 + 64 * r + t) } }

/-- A course restored from a spoilt part. -/
def Course.spoil (c : Course) (seed : Nat) : Course :=
  { c with core := c.core.spoil c.regs seed, ckpt := c.ckpt.spoil c.regs seed }

/-- The parts of a save area that have been restored. -/
def State.restored (s : State) (x : Nat) (course : Option Nat) : State :=
  { s with areas := s.areas.map fun (a : SaveArea) => if a.ctx == x && a.course == course then { a with live := false } else a }

/-- The holds of a cluster's unit returned to their homes: the courses of the monitors that move are woken once (R216, R223). -/
def State.returnHolds (s : State) (clusters : List Nat) : State :=
  let (gone, left) := s.holds.partition fun h => clusters.contains h.cluster
  ({ s with holds := left }).wakeIf fun _ _ w => w.line.any fun l => gone.any fun h => h.line == l

/-- The save of a context: courses saved, stash bytes written back, copies stopped, spool descriptors and holds given up, the
save areas written, the cores left (R204, R216, R277, R347, R349). -/
def State.saveContext (s : State) (x : Nat) : State :=
  let opts := (s.context x).options
  let s := (s.ctxCourses x).foldl (fun s i => s.saveCourse i ((opts.lookup (clusterOf (s.course i).place)).getD 1)) s
  let s := (s.ctxTeams x).foldl State.stashBack s
  let s := (opts.filter fun o => o.2 == 3).foldl (fun s o => s.dropCopies x o.1) s
  let s := s.returnHolds (opts.map (·.1))
  let s := opts.foldl (fun s o => s.saveRange x o.1 none (s.savePart x o.1) (2 ^ 24)) s
  let mine := s.splits.filter fun p => p.ctx == x
  let s : State := { s with
    spools := s.spools.filter fun d => !d.users.contains x,
    splits := s.splits.filter fun p => p.ctx != x }
  s.modCtx x fun c => { c with savedSplits := mine.map fun (p : Split) => { p with token := false, burst := 0, lastTile := 0 } }

/-- The gang switches of an outgoing context changed. -/
def State.modGangsw (s : State) (x : Nat) (f : GangSw → GangSw) : State :=
  { s with gangsws := s.gangsws.map fun g => if g.outgoing == x then f g else g }

/-- SAVE_COMPLETE (subj num: the context): the last die's handshake has ended; %vmeas is the time since the request, which the
estimate of that instant bounds (R341, R342, log 15). -/
def execSaveComplete (s : State) : Out :=
  let x := s.subj.num
  .next (if !s.saveDue x then s
    else
      let c := s.context x
      let s := s.saveContext x
      let s := s.modCtx x fun c =>
        { c with mode := .vacated, vmeas := min (5 * (s.clock - c.vacateAt) / 7) c.vacateEst }
      (s.modGangsw x fun g => { g with finished := some (min s.clock (c.vacateAt + cyclesOfNs c.vacateEst)) }).schedule x)

/-! Resuming (R28, R348). -/

/-- The clusters in which a vacated context has state to restore: those of its courses and of its frozen engines. -/
def State.savedClusters (s : State) (x : Nat) : List Nat :=
  ((s.courses.filter fun c => c.ctx == x && c.alive).map (fun c => clusterOf c.place)
    ++ (s.jobs.filter fun j => j.ctx == x && !j.finished).map (·.cluster)
    ++ (s.tileOps.filter fun o => o.ctx == x).map fun o => clusterOf o.place).eraseDups

/-- The cores a context left are free for it again and held by no reservation, and its clusters still its partition's (R21, R408,
log 117). -/
def State.canResume (s : State) (x : Nat) : Bool :=
  ((s.context x).savedSplits.all fun p =>
      !s.splits.any (fun q => q.place == p.place) && !s.reservations.any fun r => r.cores.contains p.place)
    && (s.savedClusters x).all fun k => (s.clustersFor x none).contains k

/-- A wait that is tested again after a resume lasts from the resume on (R234); its EVWAIT ends when it would have. -/
def Wait.again (w : Wait) (now : Nat) : Wait := { w with since := now }

/-- A saved course as resume restores it: back in the state it was vacated from. A Waiting one tests its waits again, Waiting all
the while, and what another one's streams waited for is tested when they issue; a Swapped one stays as it is (R27, R348). -/
def Course.resumed (now : Nat) (c : Course) : Course :=
  if c.phase != .vacated then c
  else if c.served || c.prior == .swapped then { c with phase := c.prior }
  else
    let c := c.endWaits fun _ => true
    { c with phase := c.prior, swas := c.swas.map (·.again now), lwas := c.lwas.map (·.again now) }

/-- A capability that still validates, or the same one made null (R99). -/
def regrant (ok : Cap → Bool) (c : Cap) : Cap := if ok c then c else capNull c

/-- The capabilities a course's saved state holds, validated again: a registers, release records and feed descriptors. -/
def Core.regrant (c : Core) (ok : Cap → Bool) : Core :=
  let desc (d : Option FeedDesc) : Option FeedDesc := d.map fun d => { d with cap := Machine.regrant ok d.cap }
  { c with caps := c.caps.map (Machine.regrant ok),
           relq := c.relq.map fun (r : RelRec) => { r with caps := r.caps.map (Machine.regrant ok) },
           feeds := c.feeds.map fun (f : Feed) => { f with active := desc f.active, waiting := desc f.waiting } }

/-- A course whose capabilities have been validated again; REVOKED lists the a registers made null. -/
def Course.regrant (c : Course) (ok : Cap → Bool) : Course :=
  let lost := (List.range 16).foldl (fun m i => if ok (c.core.cap i) then m else m + 2 ^ i) 0
  { c with core := c.core.regrant ok, ckpt := c.ckpt.regrant ok, revoked := c.revoked ||| BitVec.ofNat 16 lost }

/-- A part of a queued copy whose capabilities still validate; a member on another device has its own grant table. -/
def Part.granted (p : Part) (ok : Cap → Bool) : Bool := ok p.srcCap && (p.node.isSome || ok p.dstCap)

/-- A part of a queued copy that a grant change has taken a capability from fails. -/
def Part.regrant (p : Part) (ok : Cap → Bool) : Part :=
  if p.done || p.granted ok then p else { p with done := true, failed := some cCAPF }

/-- A queued copy validated again: its parts, its ring and its barrier (R99). One whose ring or barrier is revoked fails whole, and
reports to what it still may. -/
def Job.regrant (j : Job) (ok : Cap → Bool) : Job :=
  let ring := j.ring.filter fun r => ok r.cap
  let bar := j.bar.filter fun b => ok b.cap
  let lost := ring != j.ring || bar != j.bar
  let ps := j.parts.map fun p => p.regrant fun c => !lost && ok c
  { j with ring := ring, bar := bar, parts := ps, detail := if j.detail == 0 && ps != j.parts then cCAPF else j.detail }

/-- A ply whose copies have not started validated again: a sub-launch whose copy fails has failed (R99, R305). -/
def State.regrantPly (s : State) (run : Nat) (ok : Cap → Bool) : State :=
  match s.plies[run]? with
  | none => s
  | some p =>
    let bad := p.copies.filter fun c => !c.2.granted ok
    let s := s.modPly run fun p => { p with copies := p.copies.filter fun c => c.2.granted ok,
                                            ring := p.ring.filter fun r => ok r.cap }
    bad.foldl (fun s c => s.subEnded run c.1 0 0 0 (some cCAPF)) s

/-- Every capability of a context's saved courses, and every queued engine descriptor, validated again; a descriptor that fails
completes with CAPF (R99). -/
def State.revalidate (s : State) (x : Nat) : State :=
  let tenant := (s.context x).tenant
  let ok (c : Cap) : Bool := (s.validate tenant c).isNone
  let s : State := { s with
    courses := s.courses.map fun c => if c.ctx == x && c.alive then c.regrant ok else c,
    jobs := s.jobs.map fun (j : Job) => if j.ctx != x || j.finished then j else j.regrant ok,
    nodes := s.nodes.map fun (n : NodeRun) => if n.ctx != x then n else
      { n with ring := n.ring.filter fun r => ok r.cap, bar := n.bar.filter fun b => ok b.cap } }
  (List.range s.plies.length).foldl (fun s k =>
    if (s.plies[k]?).any fun p => p.ctx == x && !p.finished then s.regrantPly k ok else s) s

/-- The answers KILL that reached courses of a context while they were vacated are delivered (R353). -/
def State.deliverKills (s : State) (x : Nat) : State :=
  (s.ctxCourses x).foldl (fun s i =>
    match (s.course i).doomed with
    | some cause => s.killCourse i cause (s.trapAbout i cause)
    | none => s) s

/-- A vacated context resumed from its save area; what a grant change took from it is gone, and the wake list keeps its Swapped
courses (R28, R99, R348, R349). -/
def State.resumeContext (s : State) (x : Nat) : State :=
  let s := s.revalidate x
  let s : State := { s with
    splits := s.splits ++ (s.context x).savedSplits,
    courses := s.courses.zipIdx.map fun (c, i) =>
      if c.ctx != x then c
      else if s.spoilt x (clusterOf c.place) none then (c.resumed s.clock).spoil (s.free * 2 ^ 16 + i) else c.resumed s.clock }
  let s := (s.context x).savedSplits.foldl (fun s p => s.l1Trim p.place) s
  let wakes := (s.context x).wakes.filter fun i => (s.course i).phase == .swapped
  let s := s.modCtx x fun c => { c with mode := .active, savedSplits := [], options := [], wakes := wakes, byGrant := false }
  (((s.restored x none).deliverKills x).post .gateReevaluate { num := x }).schedule x

/-! Gang switches (R351, R412). -/

/-- The request of a gang switch is due: %vbnd before its tick (R412), and earlier by the overrun that its last slot took (R351,
log 19). -/
def State.switchDue (s : State) (x : Nat) : Bool :=
  match s.gangsw? x with
  | none => false
  | some g =>
    let c := s.context x
    g.requested.isNone && decide (tickCycle c g.tick ≤ s.clock + cyclesOfNs (c.vbnd + c.debt))

/-- GANGSW_VACATE (subj num: the outgoing context). -/
def execGangswVacate (s : State) : Out :=
  let x := s.subj.num
  .next (if !s.switchDue x then s
    else
      let done := if (s.context x).mode == .vacated then some s.clock else none
      ((s.requestVacate x).modCtx x fun c => { c with debt := 0 }).modGangsw x fun g =>
        { g with requested := some s.clock, finished := done })

/-- VACATE_CEILING (subj num: the context): DISCARD is applied where a die has not finished, whatever is in flight, the context is
LOST, and every course record is written with cause LOST (R351); its cores are empty (R406). -/
def execVacateCeiling (s : State) : Out :=
  let x := s.subj.num
  .next (if !s.ceilingDue x then s
    else
      let s := s.modCtx x fun c => { c with options := c.options.map fun o => if s.clusterDrained x o.1 o.2 then o else (o.1, 3) }
      let s := s.saveContext x
      let s := (s.ctxCourses x).foldl (fun s i => s.writeRecord i { cause := cLOST } false 4 (s.course i).prior.code) s
      let s : State := { s with
        tileOps := s.tileOps.filter fun o => o.ctx != x,
        jobs := s.jobs.map fun (j : Job) => if j.ctx == x then { j with finished := true } else j }
      let s := s.modGangsw x fun g => { g with lost := true, finished := some s.clock }
      (s.modCtx x fun c => { c with mode := .lost, charges := [] }).schedule x)

/-- The incoming gang may start: the outgoing context's save has ended and its tick has begun (R351). -/
def State.incomingDue (s : State) (x : Nat) : Bool :=
  match s.gangsw? x with
  | none => false
  | some g =>
    g.finished.isSome && decide (tickCycle (s.context x) g.tick ≤ s.clock)
      && ((s.context g.incoming).mode != .vacated || s.canResume g.incoming)

/-- GANGSW_INCOMING_START (subj num: the outgoing context): the incoming context resumes on every die, and the packet retires
DONE, VOVER with the overrun in ns, or LOST; an overrun and a loss are posted to the outgoing context's fault ring (R351,
R356, R412). -/
def execGangswIncomingStart (s : State) : Out :=
  let x := s.subj.num
  .next (if !s.incomingDue x then s
    else match s.gangsw? x with
    | none => s
    | some g =>
      let late := g.finished.getD 0 - tickCycle (s.context x) g.tick
      let overrun := (5 * late + 6) / 7
      let s : State := { s with gangsws := s.gangsws.filter fun h => h.outgoing != x }
      let s := if (s.context g.incoming).mode == .vacated then s.resumeContext g.incoming else s
      let s := s.modCtx x fun c => { c with debt := c.debt + overrun }
      let s := if overrun == 0 && !g.lost then s
        else s.postFault { ctx := x, cause := if g.lost then cLOST else 0, source := 6, addr := overrun }
      if g.lost then s.retirePacket g.queue g.slot 6 0 0
      else if overrun == 0 then s.retirePacket g.queue g.slot 1 0 0
      else s.retirePacket g.queue g.slot 7 (min overrun 0xFFFFFF) 0)

/-! Swapping (R27, R28, R346, R349). -/

/-- A copy into a team's window has not completed (R291). -/
def State.copyInto (s : State) (t : Nat) : Bool :=
  s.jobs.any fun j => !j.finished && j.parts.any fun p =>
    !p.done && match p.dst with | .scratch t' _ => t' == t | .global _ _ => false

/-- A waiting course may be swapped out: its context is active, nothing of it is in flight, and no copy into its team's window
is under way (R27, R291). -/
def State.mayswapOut (s : State) (i : Nat) : Bool :=
  let c := s.course i
  c.phase == .waiting && (s.context c.ctx).mode == .active && !c.inFlight && c.mctx.isNone && !c.team.any s.copyInto

/-- SWAP_OUT (subj num: the course): its held stores are committed, stash bytes are written back, and the course's state leaves
the pool for its slot of the save area (R204, R349). -/
def execSwapOut (s : State) : Out :=
  let i := s.subj.num
  .next (if !s.mayswapOut i then s
    else
      let c := s.course i
      let s := (s.creditGranted i).commit i
      let s := match c.team with | some t => s.stashBack t | none => s
      let s := s.saveRange c.ctx (clusterOf c.place) (some i) (s.swapSlot i) 278528
      -- a wait whose word is still to be tested again has been woken
      let s := if c.swait.isNone && c.lwait.isNone || c.swas.isSome || c.lwas.isSome then s.listWake i else s
      (s.modCourse i fun c => { c with phase := .swapped }).schedule c.ctx)

/-- A woken Swapped course fits: its granules are free and the estimate with its bytes stays within %vbnd (R346). -/
def State.swapFits (s : State) (i : Nat) : Bool :=
  let c := s.course i
  s.vestFits c.ctx (clusterOf c.place) 16384
    && match s.split? c.place with
      | none => false
      | some p =>
        let u := (s.modCourse i fun c => { c with phase := .running }).usedAt p
        u.reg ≤ p.reg && u.qbuf ≤ p.qbuf && u.loc ≤ p.loc && u.ckpt ≤ p.ckpt

/-- A Swapped course on its context's wake list is swapped in: the oldest of them, once it fits (R28, R346). -/
def State.swapInDue (s : State) (i : Nat) : Bool :=
  let x := s.context (s.course i).ctx
  x.mode == .active && (x.wakes.filter fun j => (s.course j).phase == .swapped).head? == some i && s.swapFits i

/-- SWAP_IN (subj num: the course): its state is back in the pool, and what its streams waited for is tested again (R27, R28). -/
def execSwapIn (s : State) : Out :=
  let i := s.subj.num
  .next (if !s.swapInDue i then s
    else
      let c := s.course i
      let bad := s.spoilt c.ctx (clusterOf c.place) (some i)
      let s := s.modCourse i fun c =>
        let c := { c.endWaits (fun w => w.kind != .service && w.kind != .post && w.kind != .move) with phase := .running }
        if bad then c.spoil (s.free * 2 ^ 16 + i) else c
      (s.restored c.ctx (some i)).modCtx c.ctx fun x => { x with wakes := x.wakes.filter (· != i) })

end Sys2Proof.Machine
end

