-- ==== Sys2Proof/Machine/Rings.lean ====
section
/-! DEFINITION. The swift: mapping rings, taking packets, and the checks every packet passes before its command (R396 to
R402). -/

namespace Sys2Proof.Machine

/-! Mapping (R401). -/

/-- WPTR, MAGIC and CAPLOG of a ring's header. -/
structure SubHdr where
  magic : Nat
  caplog : Nat
  wptr : Nat
deriving DecidableEq, Repr

/-- A header from its 64 bytes (R396). -/
def subOf (l : List Byte) : SubHdr :=
  let n := leNat l
  { magic := n % 2 ^ 16, caplog := n / 2 ^ 16 % 2 ^ 5, wptr := n / 2 ^ 64 % 2 ^ 32 }

/-- The header line of a ring, at its home. -/
def State.subHdr (s : State) (q : Queue) : Except XErr SubHdr := do
  let b ← s.ringRead q 0 64
  pure (subOf b)

/-- The location of a ring's header line, in lines. -/
def State.ringLine (s : State) (q : Queue) : Nat :=
  if q.num == mgmtRing then ((if q.host then hostBase else 0) + q.base) / 64
  else match s.translate { ctx := q.ctx } q.base with | .ok x => x.loc / 64 | .error _ => q.line

/-- A ring is empty: WPTR = RPTR when read at its home. -/
def State.ringEmpty (s : State) (q : Queue) : Bool :=
  match s.subHdr q with | .ok h => h.wptr == q.rptr | .error _ => false

/-- The rings the swift holds mapped: the registered ones. -/
def State.mappedCount (s : State) : Nat := (s.queues.filter fun q => q.mapped && q.num != mgmtRing).length

/-- A queue may be unmapped: it is empty and not pinned. -/
def State.mayUnmap (s : State) (q : Queue) : Bool := q.mapped && !q.pinmap && q.num != mgmtRing && s.ringEmpty q

/-- The queue to unmap for another: of those that may be, the one least recently non-empty. -/
def State.unmapVictim (s : State) : Option Nat :=
  ((s.queues.filter s.mayUnmap).foldl (fun (b : Option Queue) q =>
    match b with | none => some q | some p => if q.lastBusy < p.lastBusy then some q else b) none).map (·.num)

/-- A queue mapped with its ready bit set; with every mapped ring non-empty it waits, its ready bit kept. -/
def State.mapQueue (s : State) (n : Nat) : State :=
  let s := s.modQueue n fun q => { q with ready := true }
  if (s.queue? n).any (·.mapped) then s
  else if s.mappedCount < 1024 then s.modQueue n fun q => { q with mapped := true }
  else match s.unmapVictim with
  | none => s
  | some v => (s.modQueue v fun q => { q with mapped := false, ready := false }).modQueue n fun q => { q with mapped := true }

/-- QUEUE_NOTIFY (subj num: the queue): a write reached its notify line. -/
def execQueueNotify (s : State) : Out :=
  .next (if (s.queue? s.subj.num).any (fun q => !q.closing) then s.mapQueue s.subj.num else s)

/-- Queues a woken unmapped queue waits behind: one ring has emptied, so the oldest waiting queue is mapped (R401). -/
def State.mapWaiting (s : State) : State :=
  match s.queues.find? fun q => !q.mapped && q.ready && !q.closing with
  | some q => s.mapQueue q.num
  | none => s

/-- QUEUE_UNMAP (subj num: the queue): an empty unpinned queue is unmapped, and mapped again where a second reading finds it
not empty; else a queue that waits takes its place. -/
def execQueueUnmap (s : State) : Out :=
  let n := s.subj.num
  .next (match s.queue? n with
    | none => s
    | some q =>
      if !s.mayUnmap q then s
      else
        let s := (s.ringNote q 0).modQueue n fun q => { q with mapped := false, ready := false }
        if s.ringEmpty q then s.mapWaiting else s.mapQueue n)

/-! Taking packets (R396, R397, R402). -/

/-- The swift reads the header of a ring it visits: an inconsistent one is reported and takes nothing more until its line is
written; an empty one loses its deficit; from another one packet is taken. -/
def State.takeFrom (s : State) (n : Nat) : State :=
  match s.queue? n with
  | none => s
  | some q =>
    let line := s.ringLine q
    let s := s.modQueue n fun q => { q with line := line }
    match s.subHdr q with
    | .error _ => s.modQueue n fun q => { q with ready := false }
    | .ok h =>
      let s := s.ringNote q 0
      if h.magic != 0x5C11 || h.caplog != q.caplog || 2 ^ q.caplog < sub32 h.wptr q.done then
        (s.modQueue n fun q => { q with ready := false, error := true }).postFault
          { ctx := q.ctx, cause := cRINGERR, source := 4, addr := q.num }
      else if h.wptr == q.rptr then (s.modQueue n fun q => { q with ready := false, error := false, deficit := 0 }).mapWaiting
      else
        let s := s.modQueue n fun q =>
          { q with error := false, deficit := q.deficit - 1, rptr := (q.rptr + 1) % 2 ^ 32, lastBusy := s.clock,
                   taken := q.taken ++ [{ slot := q.rptr, arrival := s.arrivals }] }
        ({ s with arrivals := s.arrivals + 1 }).ringWrite q 0 12 (leBytes 4 ((q.rptr + 1) % 2 ^ 32))

/-- A ring the swift serves. -/
def Queue.served (q : Queue) : Bool := q.mapped && q.ready && !q.closing

/-- The ring the swift visits next, in ascending map index after the present one (log 16). -/
def State.nextRing (s : State) : Option Queue :=
  let i := (s.queues.findIdx? fun q => q.num == s.swiftAt).getD 0
  (s.queues.drop (i + 1) ++ s.queues.take (i + 1)).find? Queue.served

/-- SWIFT_TAKE: the present ring while its deficit is at least 1, else the next ready ring with its weight added. -/
def execSwiftTake (s : State) : Out :=
  .next (if s.boot < 5 then s
    else if (s.queue? s.swiftAt).any fun q => q.served && 1 ≤ q.deficit then s.takeFrom s.swiftAt
    else match s.nextRing with
    | none => s
    | some q => ({ s with swiftAt := q.num }.modQueue q.num fun q => { q with deficit := q.deficit + q.weight }).takeFrom q.num)

/-- A ring whose header lies in host memory. -/
def Queue.inHost (q : Queue) : Bool := hostBase ≤ q.line * 64 && q.line * 64 < lentBase

/-- RING_HEADER_SNOOP (subj num: the queue): the host has written the header line of a mapped ring in host memory (R401). -/
def execRingHeaderSnoop (s : State) : Out :=
  .next (s.modQueue s.subj.num fun q => if q.mapped && q.inHost then { q with ready := true } else q)

/-! A packet before its command (R398 to R400, R433). -/

/-- A command that only the management ring takes (R399). -/
def mgmtOpc (opc : Nat) : Bool := 0x20 ≤ opc

/-- What the front end makes of a packet's 64 bytes on a ring: a command, or STATUS and RESULT of a refused one. -/
def packetCheck (mgmt : Bool) (w : Nat) : Except (Nat × Nat) (Instr × Packet) :=
  let listed := match Enc.pktRule (w % 256) (packetFields w) with | .error (.badPacket _) => false | _ => true
  if !listed || (!mgmt && mgmtOpc (w % 256)) then .error (2, 0)
  else if !mgmt && w / 2 ^ 8 % 256 != 0 then .error (2, 1)
  else match decodePacket w with
  | .ok r => .ok r
  | .error (.badPacket off) => .error (2, off)
  | .error (.refused code) => .error (4, code)
  | .error (.ills _) | .error (.illl _) | .error .noWord => .error (2, 0)

/-- A launch of a ring that arrived before a packet has not been fully placed, or a packet that may be one has not come to it
(R406). -/
def State.launchesBefore (s : State) (q : Queue) (t : Taken) : Bool :=
  s.launches.any (fun l => l.queue == q.num && !l.finished && decide (l.placed < l.gangs) && decide (l.arrival < t.arrival))
    || q.taken.any fun u => decide (u.arrival < t.arrival) && u.launch && !u.retired && (!u.begun || s.packetWaits q.num u.slot)

/-- A management packet waits for the service of a page. -/
def State.mgmtPaged (s : State) (q : Queue) : Bool :=
  q.num == mgmtRing && q.taken.any fun t => t.begun && !t.retired && s.frontWaits (.packet q.num t.slot)

/-- The first 4 bytes of a taken packet: OPC in [7:0], FENCE in [19] (R398). -/
def State.packetHead (s : State) (q : Queue) (t : Taken) : Nat :=
  match s.ringRead q (packetOff q t.slot) 4 with | .ok b => leNat b | .error _ => 0

/-- A packet may be the next of its ring to begin: a MARK without FENCE only at the ring's head, and the packets behind it go past it
(R399, R406); while a management packet waits for a page, only FAULTANS, which may answer for it (R415 leaves their order against
fault service open; log 121). -/
def State.mayBegin (s : State) (q : Queue) (t : Taken) : Bool :=
  let n := s.packetHead q t
  !t.begun && (if s.mgmtPaged q then n % 256 == 0x2E else !(n % 256 == 4 && !bit n 19 && s.launchesBefore q t))

/-- The slot of the next packet of a queue to begin: packets begin in ring order; one with FENCE only after all earlier ones of its
ring have retired, a management packet once they have or wait for the service of a page (R398, R400), and none before boot stage 5
(R433). -/
def State.nextPacket (s : State) (q : Queue) : Option Nat :=
  if s.boot < 5 then none
  else match q.taken.findIdx? (s.mayBegin q) with
  | none => none
  | some k =>
    let t := q.taken.getD k { slot := 0 }
    let mgmt := q.num == mgmtRing
    let waits := (q.taken.take k).any fun u =>
      !u.retired && (bit (s.packetHead q t) 19 || (mgmt && !s.frontWaits (.packet q.num u.slot) && (u.begun || !s.mgmtPaged q)))
    if waits || s.frontWaits (.packet q.num t.slot) then none else some t.slot

/-- The largest write time of a packet and of its ring's header, which a launch's start acquire covers (R241, R259). -/
def State.packetClock (s : State) : Nat :=
  match s.queue? s.pktQueue with
  | none => 0
  | some q =>
    let wts (off : Nat) : Nat :=
      if q.num == mgmtRing then (s.stampOf (((if q.host then hostBase else 0) + q.base + off) / 64)).1
      else match s.translate { ctx := q.ctx } (q.base + off) with | .ok x => (s.stampOf (x.loc / 64)).1 | .error _ => 0
    max (wts 0) (wts (packetOff q s.pktSlot))

/-- What the next packet of a queue comes to. -/
inductive PacketStep where
  /-- nothing begins -/
  | idle
  /-- the packet has been retired, or its page is awaited -/
  | ended (s : State)
  /-- the packet register is loaded for a command -/
  | command (i : Instr) (s : State)
deriving DecidableEq, Repr

/-- The next packet of a queue read, checked and put into the packet register. -/
def State.beginPacket (s : State) (n : Nat) : PacketStep :=
  match s.queue? n with
  | none => .idle
  | some q =>
    match s.nextPacket q with
    | none => .idle
    | some slot =>
      let s := s.modQueue n fun q => { q with taken := q.taken.map fun t => if t.slot == slot then { t with begun := true } else t }
      match s.ringRead q (packetOff q slot) 64 with
      | .error (.xltf r) => .ended (s.frontPage q.ctx r (q.base + packetOff q slot) (.packet n slot))
      | .error _ => .ended (s.retirePacket n slot 5 cMEMERR 0)
      | .ok b =>
        let s := s.ringNote q (packetOff q slot)
        let launch := (leNat b % 256 == 1 || leNat b % 256 == 3) && n != mgmtRing
        let s := s.modQueue n fun q => { q with taken := q.taken.map fun t => if t.slot == slot then { t with launch := launch } else t }
        match packetCheck (n == mgmtRing) (leNat b) with
        | .error (status, result) => .ended (s.retirePacket n slot status result 0)
        | .ok (i, p) => .command i { s with pkt := p, pktQueue := n, pktSlot := slot }

/-! How a command ends (R400, R439). -/

/-- The packet retires DONE with a RESULT. -/
def State.pktDone (s : State) (result : Nat := 0) : State := s.retirePacket s.pktQueue s.pktSlot 1 result 0

/-- The packet retires REFUSED with a code of R439. -/
def State.pktRefuse (s : State) (code : Nat) : State := s.retirePacket s.pktQueue s.pktSlot 4 code 0

/-- The packet retires CAPF for a field, with a detail. -/
def State.pktCapf (s : State) (field detail : Nat) : State := s.retirePacket s.pktQueue s.pktSlot 3 (field + 2 ^ 8 * detail) 0

/-- The packet waits and begins again later. -/
def State.pktWait (s : State) : State :=
  s.modQueue s.pktQueue fun q => { q with taken := q.taken.map fun t => if t.slot == s.pktSlot then { t with begun := false } else t }

/-- The context of the ring the packet came from; the management ring has none. -/
def State.ringCtx (s : State) : Option Context :=
  match s.queue? s.pktQueue with
  | none => none
  | some q =>
    if q.num == mgmtRing then none
    else s.contexts.find? fun x => x.num == q.ctx && x.mode != .lost && x.mode != .deleted

/-- The target context of a management packet; lost says whether a LOST one will do. -/
def State.target (s : State) (lost : Bool) : Option Context :=
  s.contexts.find? fun x => x.num == s.pkt.tgt.toNat && x.mode != .deleted && (lost || x.mode != .lost)

/-- A command on its target context, refused where there is none (R439 0x12). -/
def State.onTarget (s : State) (lost : Bool) (f : Context → State) : Out :=
  .next (match s.target lost with | some x => f x | none => s.pktRefuse 0x12)

/-- The first argument word with bits outside a command's named fields. -/
def State.argFault (s : State) (w0 w1 : Nat) : Option Nat :=
  if 2 ^ w0 ≤ s.pkt.arg0.toNat then some 0 else if 2 ^ w1 ≤ s.pkt.arg1.toNat then some 1 else none

end Sys2Proof.Machine
end

