-- ==== Sys2Proof/Machine/Commands.lean ====
section
/-! DEFINITION. The context commands, and the management commands that define partitions and contexts and change what a
context may do (R399, R402, R405, R439). -/

namespace Sys2Proof.Machine

/-! Context commands. -/

/-- A context command acts for the context of its ring. -/
def State.onRingCtx (s : State) (f : Context → State) : Out :=
  .next (match s.ringCtx with | some x => f x | none => s.pktRefuse 0x12)

/-- A launch refused as its packet reports it (R98, R400, R403, R405, R439). -/
def State.launchRefused (s : State) (x : Context) (e : LaunchErr) : State :=
  match e with
  | .cap field d => s.pktCapf field d
  | .desc off => s.retirePacket s.pktQueue s.pktSlot 2 (off + 2 ^ 8) 0
  | .arg k => s.pktRefuse k
  | .vbound => s.pktRefuse 0x10
  | .tick => s.pktRefuse 0x11
  | .read (.page r va) => s.frontPage x.num r va (.packet s.pktQueue s.pktSlot)
  | .read (.fail cause) => s.retirePacket s.pktQueue s.pktSlot 5 cause 0

/-- LAUNCH (R399, R403 to R405). -/
def execLaunch (s : State) : Out :=
  let p := s.pkt
  let arg1 := p.arg1.toNat
  s.onRingCtx fun x =>
    if 2 ^ 15 ≤ arg1 then s.pktRefuse 1
    else match s.formLaunch {
        ctx := x.num, report := .packet s.pktQueue s.pktSlot, desc := p.f0, args := p.f1, recs := p.f2,
        ncourse := p.arg0.toNat, lastn := arg1 % 2 ^ 9, pin := if bit arg1 9 then some (arg1 / 2 ^ 10) else none,
        prio := p.prio.toNat, sysc := p.sysc, tick := p.tick, queue := s.pktQueue,
        arrival := s.arrivalOf (some (.packet s.pktQueue s.pktSlot)), clock := s.packetClock } with
    | .error e => s.launchRefused x e
    | .ok l => (s.frontNote x.num (capBase p.f0) 64).addLaunch l

/-- ARMNODE: as ARM; RESULT is ARM's result (R301, R400). -/
def execArmnode (s : State) : Out :=
  s.onRingCtx fun x =>
    match s.capErr x.num s.pkt.f0 2 pA 128 128 with
    | some d => s.pktCapf 0 d
    | none =>
      match s.argFault 0 0 with
      | some k => s.pktRefuse k
      | none =>
        match s.frontRead x.num (capBase s.pkt.f0) 128 with
        | .error (.page r va) => s.frontPage x.num r va (.packet s.pktQueue s.pktSlot)
        | .error (.fail cause) => s.retirePacket s.pktQueue s.pktSlot 5 cause 0
        | .ok _ =>
          match (s.frontNote x.num (capBase s.pkt.f0) 128).armNode { ctx := x.num, clk := s.packetClock } (capBase s.pkt.f0) [] with
          | .armed t r => t.pktDone r
          | .page (.xltf r) va => s.frontPage x.num r va (.packet s.pktQueue s.pktSlot)
          | .page .moving va => s.frontPage x.num 8 va (.packet s.pktQueue s.pktSlot)
          | .page .linkf _ => s.retirePacket s.pktQueue s.pktSlot 5 cLINKF 0
          | .page .memerr _ => s.retirePacket s.pktQueue s.pktSlot 5 cMEMERR 0

/-- PLYRUN: as PLY; it retires when the ply completes (R305, R400). Its copies run in the lowest cluster of the context's
partition (R21, log 98). -/
def execPlyrun (s : State) : Out :=
  s.onRingCtx fun x =>
    match s.capErr x.num s.pkt.f0 2 pR 64 1 with
    | some d => s.pktCapf 0 d
    | none =>
      match s.argFault 0 0 with
      | some k => s.pktRefuse k
      | none => s.newPly { ctx := x.num, cluster := (s.clustersFor x.num none).headD 0, clock := s.packetClock, sysc := s.pkt.sysc,
                           report := some (.packet s.pktQueue s.pktSlot) } s.pkt.f0

/-- MARK retires: it began at the head of its ring, with FENCE only after the packets before it had retired (R398, R399, R406). -/
def execMark (s : State) : Out :=
  .next (match s.argFault 0 0 with | some k => s.pktRefuse k | none => s.pktDone)

/-! Partitions and contexts. -/

/-- The clusters of a mask (R12). -/
def clusterCount (m : BitVec 24) : Nat := ((List.range 24).filter fun k => m.getLsbD k).length

/-- A partition by its number. -/
def State.partition? (s : State) (n : Nat) : Option Partition := s.partitions.find? fun p => p.num == n

/-- A group holds space that is reserved for a loan or to which one has been moved: it is no longer spare (R387, log 18). -/
def State.groupReserved (s : State) (groups : Word) : Bool :=
  s.loans.any (fun l => (l.state == 1 || l.state == 2) && !l.dest && groups.getLsbD (l.space / 2 ^ 34))
    || s.demotions.any fun d => !d.dest && groups.getLsbD (d.space / 2 ^ 34)

/-- PART names a cluster or a group of another partition, a group that is not spare, a cluster that holds courses, or more clusters
than a save area of one of its contexts covers (R349, R387, R399). -/
def State.partRefused (s : State) (n : Nat) (clusters : BitVec 24) (groups : Word) : Bool :=
  s.partitions.any (fun p => p.num != n && (p.clusters &&& clusters != 0 || p.groups &&& groups != 0))
    || s.groupReserved groups
    || s.courses.any (fun c => c.alive && c.phase != .vacated && clusters.getLsbD (clusterOf c.place))
    || s.contexts.any fun x => x.mode != .deleted && x.partition == n && decide (capLen x.saveArea < 52428800 * clusterCount clusters)

/-- PART: reservations in clusters that leave the partition are dropped (R21, R408). -/
def execPart (s : State) : Out :=
  let n := s.pkt.tgt.toNat
  let clusters := BitVec.ofNat 24 s.pkt.arg0.toNat
  .next (if 24 ≤ n then s.pktRefuse 0x12
    else match s.argFault 24 32 with
    | some k => s.pktRefuse k
    | none =>
      if s.partRefused n clusters s.pkt.arg1 then s.pktRefuse 0x13
      else ({ s with partitions := { num := n, clusters := clusters, groups := s.pkt.arg1 }
                       :: s.partitions.filter (fun p => p.num != n),
                     reservations := s.reservations.filter fun r => r.partition != n || clusters.getLsbD r.cluster }).pktDone)

/-- A save area meets R349 for a number of clusters. -/
def saveAreaOk (c : Cap) (clusters : Nat) : Bool :=
  capLen c != 0 && capKind c == 0 && capPerm c &&& 3 == 3 && capBase c % 65536 == 0 && decide (52428800 * clusters ≤ capLen c)

/-- CTXNEW: 0 in ARG1 sets no %vbnd, which is then VCEIL (R342, R349, R399). -/
def execCtxnew (s : State) : Out :=
  let n := s.pkt.tgt.toNat
  let p := s.pkt
  let tenant := p.arg0.toNat % 2 ^ 16
  let part := p.arg0.toNat / 2 ^ 16
  let old := s.contexts.find? fun x => x.num == n && x.mode != .deleted
  let vbnd := if p.arg1 == 0 then Config.vceil else p.arg1.toNat
  .next (if 64 ≤ n || old.any (·.mode == .lost) then s.pktRefuse 0x12
    else if 2 ^ 5 ≤ part then s.pktRefuse 0
    else if Config.vceil < vbnd then s.pktRefuse 1
    else match s.partition? part, s.validate tenant p.f0, s.validate tenant p.f1 with
    | none, _, _ => s.pktRefuse 0x12
    | some _, some d, _ => s.pktCapf 0 d
    | some _, none, some d => s.pktCapf 1 d
    | some q, none, none =>
      if !saveAreaOk p.f0 (clusterCount q.clusters) then s.pktRefuse 2
      else if capLen p.f1 != 0 && capKind p.f1 != 5 then s.pktRefuse 3
      else match old with
      | some x =>
        if x.tenant == tenant && x.partition == part && x.saveArea == p.f0 && x.faultRing == p.f1 then s.pktDone
        else s.pktRefuse 0
      | none =>
        let x : Context := { num := n, tenant := tenant, partition := part, vbnd := vbnd, saveArea := p.f0, faultRing := p.f1 }
        ({ s with contexts := x :: s.contexts.filter fun c => c.num != n }).pktDone)

/-- Everything of a context that runs ended: completions that are due come first, then its teams are killed with cause HOST, and
its engine work, nodes and plies stop (R233, R399, R410). -/
def State.killContext (s : State) (x : Nat) : State :=
  let s := (s.ctxTeams x).foldl (fun s t => s.killTeam t cHOST) (s.completeDue x)
  let s := (s.ctxCourses x).foldl (fun s i => s.killCourse i cHOST) s
  { s with
    jobs := s.jobs.map fun (j : Job) => if j.ctx == x then { j with finished := true } else j,
    tileOps := s.tileOps.filter fun o => o.ctx != x,
    nodes := s.nodes.map fun (n : NodeRun) => if n.ctx == x then { n with finished := true } else n,
    edges := s.edges.filter fun e => e.ctx != x,
    plies := s.plies.map fun (p : PlyRun) => if p.ctx == x then { p with ended := true, finished := true } else p }

/-- The launches of a packet: its own, or those of its ply. -/
def State.packetLaunches (s : State) (n slot : Nat) : List Nat :=
  (List.range s.launches.length).filter fun i =>
    match (s.launch? i).map Launch.report with
    | some (.packet q k) => q == n && k == slot
    | some (.ply r _) => (s.plies[r]?).any fun p => p.report == some (.packet n slot)
    | some (.node _) | none => false

/-- The packets of a queue that have not retired do so as KILLED, with the cause of the first team kill of their launch, HOST where it
had none before the context's end (R400). -/
def State.killPackets (s : State) (q : Queue) : State :=
  (q.taken.filter fun t => !t.retired).foldl (fun s t =>
    let ls := s.packetLaunches q.num t.slot
    let cause := (ls.findSome? fun i => (s.launch? i).bind (·.killed)).getD cHOST
    s.retirePacket q.num t.slot 5 cause (ls.foldl (fun m i => max m (s.launchClock i)) 0)) s

/-- A context freed: its rings, launches, translations, answers awaited and cores go; woken queues are mapped in place of its mapped
rings (R399, R401). -/
def State.freeContext (s : State) (x : Nat) : State :=
  let part := (s.context x).partition
  let rings := s.mappedCount
  let s := (s.queues.filter fun q => q.ctx == x && q.num != mgmtRing).foldl State.killPackets s
  let s := s.dropReservations x
  let s : State := { s with
    queues := s.queues.filter fun q => q.ctx != x || q.num == mgmtRing,
    launches := s.launches.map fun (l : Launch) => if l.ctx == x then { l with finished := true } else l,
    tlb := s.tlb.filter fun t => t.ctx != x,
    posted := s.posted.filter fun p => p.ctx != x,
    posts := s.posts.filter fun p => p.ctx != x,
    splits := s.splits.filter fun p => p.ctx != x,
    demotions := (s.demotions.map fun (d : Demotion) => { d with ctxs := d.ctxs.filter (· != x) }).filter fun d => !d.ctxs.isEmpty,
    spools := s.spools.map fun (d : SpoolDesc) => { d with users := d.users.filter (· != x) },
    contexts := s.contexts.map fun (c : Context) => if c.num == x then { num := x, mode := .deleted, partition := part } else c }
  let s := (List.range (rings - s.mappedCount)).foldl (fun s _ => s.mapWaiting) s
  s.schedule x

/-- CTXDEL. -/
def execCtxdel (s : State) : Out :=
  s.onTarget true fun x =>
    match s.argFault 0 0 with
    | some k => s.pktRefuse k
    | none => ((s.killContext x.num).freeContext x.num).pktDone

/-! Page tables (R106, R109, R111). -/

/-- PTROOT: the 2 MiB root table lies wholly inside the partition's groups. -/
def execPtroot (s : State) : Out :=
  let root := s.pkt.arg0.toNat * 2 ^ 21
  s.onTarget false fun x =>
    match s.argFault 31 0 with
    | some k => s.pktRefuse k
    | none =>
      if (s.physReason x.num root (2 ^ 21)).isSome then s.pktRefuse 0x13
      else (s.modCtx x.num fun c => { c with ptroot := root }).pktDone

/-- Translations of a context for a range removed from every TLB. -/
def State.dropTlb (s : State) (x base len : Nat) : State :=
  { s with tlb := s.tlb.filter fun t =>
      !(t.ctx == x && decide (t.page * 2 ^ t.size < base + len) && decide (base < (t.page + 1) * 2 ^ t.size)) }

/-- TLBINV completes when the translations are gone, every access under way has been performed, and every course has committed
its held stores as at a checkpoint; one that cannot be performed yet is waited for (R111). -/
def execTlbinv (s : State) : Out :=
  s.onTarget false fun x =>
    match s.argFault 0 0 with
    | some k => s.pktRefuse k
    | none =>
      let cs := s.ctxCourses x.num
      if cs.any fun i => (s.course i).inFlight then s.pktWait
      else
        let held (i : Nat) : Bool := !(s.course i).heldG.isEmpty || !(s.course i).heldS.isEmpty
        let s := (cs.filter held).foldl State.checkpoint s
        if cs.any fun i => !(s.course i).heldG.isEmpty then s.pktWait
        else (s.dropTlb x.num (capBase s.pkt.f0) (capLen s.pkt.f0)).pktDone

/-! Grants (R96, R99, R414). -/

/-- A grant entry lies inside a window filter entry of its tenant, or is unused. -/
def State.inFilter (s : State) (tenant : Nat) (g : BitVec 128) : Bool :=
  let n := g.toNat
  n / 2 ^ 64 % 2 ^ 40 == 0 || s.wfilt.any fun e =>
    let f := e.toNat
    f / 2 ^ 104 % 2 ^ 16 == tenant && decide (f % 2 ^ 57 ≤ n % 2 ^ 57)
      && decide (n % 2 ^ 57 + n / 2 ^ 64 % 2 ^ 40 ≤ f % 2 ^ 57 + f / 2 ^ 64 % 2 ^ 40)

/-- A grant entry admits everything an older one did. -/
def grantCovers (new old : BitVec 128) : Bool :=
  let n := new.toNat
  let o := old.toNat
  let sub (lo w : Nat) : Bool := (o / 2 ^ lo % 2 ^ w) &&& (n / 2 ^ lo % 2 ^ w) == o / 2 ^ lo % 2 ^ w
  o / 2 ^ 64 % 2 ^ 40 == 0 || (decide (n % 2 ^ 57 ≤ o % 2 ^ 57)
    && decide (o % 2 ^ 57 + o / 2 ^ 64 % 2 ^ 40 ≤ n % 2 ^ 57 + n / 2 ^ 64 % 2 ^ 40) && sub 57 7 && sub 104 8)

/-- Contexts of a tenant that hold courses or engine work and are not vacated. -/
def State.residents (s : State) (tenant : Nat) : List Nat :=
  (s.contexts.filter fun x => x.tenant == tenant && (x.mode == .vacating || (x.mode == .active
    && (!(s.ctxCourses x.num).isEmpty || s.jobs.any fun j => j.ctx == x.num && !j.finished)))).map (·.num)

/-- The entry of a tenant's grant table. -/
def State.grantEntry (s : State) (tenant k : Nat) : BitVec 128 :=
  ((s.grants.find? fun g => g.1 == tenant && g.2.1 == k).map (·.2.2)).getD 0

/-- The contexts vacated for a grant change resume; the packet retires when all have (R99). -/
def State.grantResume (s : State) (tenant : Nat) : State :=
  let xs := (s.contexts.filter fun x => x.tenant == tenant && x.byGrant).map (·.num)
  let s := xs.foldl (fun s x => if (s.context x).mode == .vacated && s.canResume x then s.resumeContext x else s) s
  if s.contexts.any fun x => x.tenant == tenant && x.byGrant then s.pktWait else s.pktDone

/-- GRANT: an entry that is removed or narrowed while its tenant has resident contexts is written with them vacated (R99). -/
def execGrant (s : State) : Out :=
  let k := s.pkt.arg0.toNat
  let tenant := s.pkt.arg1.toNat
  let g := s.pkt.f0
  .next (match s.argFault 6 16 with
    | some j => s.pktRefuse j
    | none =>
      if g.toNat / 2 ^ 110 != 0 then s.pktRefuse 2
      else if !s.inFilter tenant g then s.pktRefuse 0x14
      else
        let narrow := !grantCovers g (s.grantEntry tenant k)
        let busy := s.residents tenant
        if narrow && !busy.isEmpty then
          ((busy.filter fun x => (s.context x).mode == CtxMode.active).foldl (fun (s : State) x =>
            (s.requestVacate x).modCtx x fun c => { c with byGrant := true }) s).pktWait
        else
          ({ s with grants := (tenant, k, g) :: s.grants.filter fun e => !(e.1 == tenant && e.2.1 == k) }).grantResume tenant)

/-! Parameters, L2 ways, publish entries (R209, R250, R402). -/

/-- SETP's range of a parameter. -/
def setpRange (x : Context) (k v : Nat) : Bool :=
  match k with
  | 0 => 1 ≤ v && v ≤ Config.vceil
  | 1 | 5 | 6 => v ≤ 1
  | 2 => true
  | 3 => 1 ≤ v && v ≤ 10000
  | 4 => 50 ≤ v && v ≤ 10000
  | 7 => v == 0 || (1000 ≤ v && v ≤ 1000000000)
  | 8 => v == 0 || v < x.tickp
  | 9 => 1 ≤ v && v ≤ 10000
  | _ => false

/-- A parameter set. -/
def setpValue (k : Nat) (v : Word) (x : Context) : Context :=
  let n := v.toNat
  match k with
  | 0 => { x with vbnd := n }
  | 1 => { x with vmode := n == 1 }
  | 2 => { x with policy := v }
  | 3 => { x with wdog := n }
  | 4 => { x with lto := n }
  | 5 => { x with debug := n == 1 }
  | 6 => { x with priv := n == 1 }
  | 7 => { x with tickp := n }
  | 8 => { x with ticko := n }
  | _ => { x with age := n }

/-- SETP; a change of %vbnd or MODE lets the stalled words be evaluated again and the heads be considered (R343, R344). -/
def execSetp (s : State) : Out :=
  let k := s.pkt.arg0.toNat
  s.onTarget false fun x =>
    if 10 ≤ k then s.pktRefuse 0
    else if !setpRange x k s.pkt.arg1.toNat then s.pktRefuse 1
    else
      let s := s.modCtx x.num (setpValue k s.pkt.arg1)
      let s := if k < 2 then (s.post .gateReevaluate { num := x.num }).schedule x.num else s
      s.pktDone

/-- WAYS. -/
def execWays (s : State) : Out :=
  let tenant := s.pkt.arg0.toNat
  .next (match s.argFault 16 16 with
    | some k => s.pktRefuse k
    | none =>
      ({ s with ways := (tenant, BitVec.ofNat 16 s.pkt.arg1.toNat) :: s.ways.filter fun w => w.1 != tenant }).pktDone)

/-- PUBT: VBASE is 64 KiB aligned and VLEN a multiple of 64 KiB (R250). -/
def execPubt (s : State) : Out :=
  let k := s.pkt.arg0.toNat
  let base := capBase s.pkt.f0
  let len := capLen s.pkt.f0
  s.onTarget false fun x =>
    match s.argFault 8 0 with
    | some j => s.pktRefuse j
    | none =>
      if base % 65536 != 0 || len % 65536 != 0 then s.pktRefuse 2
      else (s.modCtx x.num fun c =>
        { c with pub := (k, { c.pubEntry k with vbase := base, vlen := len }) :: c.pub.filter fun p => p.1 != k }).pktDone

end Sys2Proof.Machine
end

