-- ==== Sys2Proof/Machine/Manage.lean ====
section
/-! DEFINITION. The management commands for queues, loans, vacating, faults, gang switches, counters, firmware and attestation,
and the events of the needles and the fault ring (R356, R387 to R390, R399, R401, R412 to R415, R434, R439). -/

namespace Sys2Proof.Machine

/-! Queues (R399, R401). -/

/-- The capacity a ring capability gives: the largest CAPLOG, at most 16, whose slots it holds (log 17). -/
def ringCapacity (c : Cap) : Nat := ((List.range 17).filter fun k => decide (64 + 64 * 2 ^ k ≤ capLen c)).foldl max 0

/-- A null capability or one of KIND 0 with some permissions. -/
def dataCap (c : Cap) (perm : Nat) : Bool := capKind c == 0 && capPerm c &&& perm == perm

/-- A fresh submission ring header (R396). -/
def freshHeader (caplog : Nat) : List Byte := leBytes 64 (0x5C11 + 2 ^ 16 * caplog)

/-- A registered queue's notify line, in lines. -/
def State.notifyAt (s : State) (ctx : Nat) (c : Cap) : Option Nat :=
  if capLen c == 0 then none else s.lineOf { ctx := ctx } (capBase c)

/-- The page of a queue's header or of its notify line that QREG waits for (R108, R401, log 121). -/
def State.queuePage (s : State) (ctx : Nat) (ring notify : Cap) : Option (Nat × Nat) :=
  match s.translate { ctx := ctx } (capBase ring) true, s.translate { ctx := ctx } (capBase notify) with
  | .error (.xltf r), _ => some (r, capBase ring)
  | _, .error (.xltf r) => if capLen notify == 0 then none else some (r, capBase notify)
  | _, _ => none

/-- A new queue registered: its header is written, and the swift maps it where it can. -/
def State.registerQueue (s : State) (ctx n weight : Nat) (pin : Bool) (ring notify : Cap) : State :=
  let log := ringCapacity ring
  let q : Queue := { num := n, ctx := ctx, base := capBase ring, caplog := log, weight := weight, pinmap := pin, notify := notify,
                     mapped := false, notifyLine := s.notifyAt ctx notify, lastBusy := s.clock }
  let q := { q with line := s.ringLine q }
  let s := ({ s with queues := s.queues ++ [q] }).ringWrite q 0 0 (freshHeader log)
  (s.mapQueue n).pktDone

/-- QREG: the same ring registered again takes the new weight, PINMAP and notify line. -/
def execQreg (s : State) : Out :=
  let p := s.pkt
  let weight := p.arg0.toNat % 2 ^ 8
  let pin := bit p.arg0.toNat 8
  let n := p.arg1.toNat
  s.onTarget false fun x =>
    match s.validate x.tenant p.f0, s.validate x.tenant p.f1 with
    | some d, _ => s.pktCapf 0 d
    | none, some d => s.pktCapf 1 d
    | none, none =>
      if weight == 0 then s.pktRefuse 0
      else match s.argFault 9 16 with
      | some k => s.pktRefuse k
      | none =>
        if !dataCap p.f0 3 || capLen p.f0 < 128 || capBase p.f0 % 64 != 0 then s.pktRefuse 2
        else if capLen p.f1 != 0 && !dataCap p.f1 1 then s.pktRefuse 3
        else match s.queue? n with
        | some q =>
          if q.ctx == x.num && q.base == capBase p.f0 && q.caplog == ringCapacity p.f0 && !q.closing then
            match s.queuePage x.num p.f0 p.f1 with
            | some (r, va) => s.frontPage x.num r va (.packet s.pktQueue s.pktSlot)
            | none =>
              (s.modQueue n fun q => { q with weight := weight, pinmap := pin, notify := p.f1,
                                              notifyLine := s.notifyAt x.num p.f1 }).pktDone
          else s.pktRefuse 1
        | none =>
          match s.queuePage x.num p.f0 p.f1, s.translate { ctx := x.num } (capBase p.f0) true with
          | some (r, va), _ => s.frontPage x.num r va (.packet s.pktQueue s.pktSlot)
          | none, .error _ => s.pktRefuse 2
          | none, .ok _ => s.registerQueue x.num n weight pin p.f0 p.f1

/-- QUNREG: the queue takes nothing more, and goes when its taken packets have retired. -/
def execQunreg (s : State) : Out :=
  let n := s.pkt.arg1.toNat
  .next (match s.argFault 0 16 with
    | some k => s.pktRefuse k
    | none =>
      match s.queue? n with
      | none => s.pktRefuse 1
      | some q =>
        if q.taken.isEmpty then ({ s with queues := s.queues.filter fun p => p.num != n }).mapWaiting.pktDone
        else (s.modQueue n fun q => { q with closing := true }).pktWait)

/-! Loans (R387 to R390). -/

/-- A loan from an entry in the format of R387. -/
def loanOf (index : Nat) (e : BitVec 128) : Loan :=
  let n := e.toNat
  let f (lo w : Nat) : Nat := n / 2 ^ lo % 2 ^ w
  { index := index, dest := f 124 1 == 1, lender := f 80 24, term := f 64 16, lbase := f 16 36 * 2 ^ 16, size := f 0 16 }

/-- An entry within its ranges: a TERM of 1 to 60,000 ms, a size (R387); its reserved bits are ignored (R6). -/
def loanEntryOk (e : BitVec 128) : Bool :=
  let l := loanOf 0 e
  1 ≤ l.term && l.term ≤ 60000 && l.size != 0

/-- The bytes of a loan. -/
def Loan.bytes (l : Loan) : Nat := l.size * 2 ^ 21

/-- A recall of the loan ends within 50 ms: 4 µs and its bytes at 224 or 121 B/ns (R390). -/
def Loan.inTime (l : Loan) : Bool := 4000 + (l.bytes + (if l.dest then 121 else 224) - 1) / (if l.dest then 121 else 224) ≤ 50000000

/-- The alignment of a loan's demotion space: that of the largest leaf its bytes may hold (R107, R390). -/
def Loan.align (l : Loan) : Nat := if 2 ^ 30 ≤ l.bytes then 2 ^ 30 else 2 ^ 21

/-- A range of a demotion tier is another loan's space, or holds the pages of a moved one, under the same index too (R387, R390). -/
def State.spaceTaken (s : State) (k : Nat) (dest : Bool) (a n : Nat) : Bool :=
  s.loans.any (fun m => m.index != k && (m.state == 1 || m.state == 2) && m.dest == dest && meet a n m.space m.bytes)
    || s.demotions.any fun d => d.dest == dest && meet a n d.space d.bytes

/-- Room for a loan in its demotion tier (log 18): for spare HBM, in a group of no partition and outside regions lent out;
for host memory, in a window the host granted; never where another loan has its space. -/
def State.reserveSpace (s : State) (l : Loan) : Option Nat :=
  let n := l.bytes
  let up (a : Nat) : Nat := (a + l.align - 1) / l.align * l.align
  let ends := ((s.loans.filter fun m => m.dest == l.dest).map fun m => up (m.space + m.bytes))
    ++ (s.demotions.filter fun d => d.dest == l.dest).map fun d => up (d.space + d.bytes)
  if l.dest then
    (s.cxlwin.filter fun e => e.toNat / 2 ^ 64 != 0).findSome? fun e =>
      (up (e.toNat % 2 ^ 64) :: ends).find? fun a => s.hostWindow a n && !s.spaceTaken l.index true a n
  else
    (List.range 32).findSome? fun g =>
      if s.partitions.any fun p => p.groups.getLsbD g then none
      else
        ((g * 2 ^ 34 :: ends) ++ s.lends.map fun m => up (m.base + m.size * 2 ^ 21)).find? fun a =>
          a / 2 ^ 34 == g && inGroup a n && !s.spaceTaken l.index false a n && !s.lends.any fun m => meet a n m.base (m.size * 2 ^ 21)

/-- A loan operation whose entry and index are in range. -/
def State.loanCmd (s : State) (entry : Bool) (f : Nat → State) : Out :=
  let k := s.pkt.arg1.toNat
  .next (if 4096 ≤ k then s.pktRefuse 1
    else if entry && !loanEntryOk s.pkt.f0 then s.pktRefuse 2
    else f k)

/-- LOAN lend: this device lends a region, none of which is reserved for a loan of its own (R387, R389). -/
def execLoanLend (s : State) : Out :=
  s.loanCmd true fun k =>
    let l := loanOf k s.pkt.f0
    let new : Lend := { index := k, base := l.lbase, size := l.size, term := l.term, renewed := s.clock }
    if s.spaceTaken 4096 false new.base l.bytes then s.pktRefuse 2 else
    match s.lends.find? fun m => m.index == k with
    | some m =>
      if m.base == new.base && m.size == new.size && m.term == new.term then s.pktDone
      else if m.reusable then ({ s with lends := new :: s.lends.filter fun m => m.index != k }).pktDone
      else s.pktRefuse 1
    | none => ({ s with lends := new :: s.lends }).pktDone

/-- LOAN map: the borrower's entry becomes active once its demotion space is reserved (R387). -/
def execLoanMap (s : State) : Out :=
  s.loanCmd true fun k =>
    let l := loanOf k s.pkt.f0
    let old := s.loan k
    if old.state == 1 && old.dest == l.dest && old.lender == l.lender && old.term == l.term && old.lbase == l.lbase
        && old.size == l.size then s.pktDone
    else if old.state == 1 || old.state == 2 then s.pktRefuse 1
    else if !l.inTime then s.pktRefuse 0x16
    else match s.reserveSpace l with
    | none => s.pktRefuse 0x16
    | some a =>
      let l : Loan := { l with state := 1, space := a, renewed := s.clock, asked := s.clock }
      ({ s with loans := l :: s.loans.filter fun m => m.index != k }).pktDone

/-- LOAN recall: the lender asks for a region it lends; a second recall has no effect (R390, R392). -/
def execLoanRecall (s : State) : Out :=
  s.loanCmd false fun k =>
    if s.lends.any fun m => m.index == k then
      ({ s with lends := s.lends.map fun (m : Lend) => if m.index == k then { m with recalled := true } else m }).pktDone
    else s.pktRefuse 1

/-- LOAN end: a region that is back, or a borrower's entry that is not in use, is freed. -/
def execLoanEnd (s : State) : Out :=
  s.loanCmd false fun k =>
    if s.lends.any fun m => m.index == k && m.reusable then
      ({ s with lends := s.lends.filter fun m => m.index != k }).pktDone
    else if s.lends.any (fun m => m.index == k) || (s.loan k).state == 2 || !s.loans.any (fun m => m.index == k) then s.pktRefuse 1
    else ({ s with loans := s.loans.filter fun m => m.index != k }).pktDone

/-! Vacating by command (R347, R348, R399, R412). -/

/-- PREEMPT retires when the context is vacated. -/
def execPreempt (s : State) : Out :=
  s.onTarget false fun x =>
    match s.argFault 0 0, x.mode with
    | some k, _ => s.pktRefuse k
    | none, .active => (s.requestVacate x.num).pktWait
    | none, .vacating => s.pktWait
    | none, .vacated | none, .lost | none, .deleted => s.pktDone

/-- RESUME retires when the context runs again; one that is not vacated is left as it is. -/
def execResume (s : State) : Out :=
  s.onTarget false fun x =>
    match s.argFault 0 0 with
    | some k => s.pktRefuse k
    | none =>
      if x.mode != .vacated then s.pktDone
      else if s.canResume x.num then (s.resumeContext x.num).pktDone
      else s.pktWait

/-- GANGSW: the outgoing context needs ticks; the packet retires when the incoming gang starts (R351, R412, log 19). -/
def execGangsw (s : State) : Out :=
  let y := s.pkt.arg0.toNat
  s.onTarget false fun x =>
    match s.argFault 6 32 with
    | some k => s.pktRefuse k
    | none =>
      if y == x.num || !s.contexts.any (fun c => c.num == y && c.mode != .lost && c.mode != .deleted) then s.pktRefuse 0
      else if x.tickp == 0 then s.pktRefuse 1
      else if s.gangsws.any (fun g => g.outgoing == x.num) then s
      else { s with gangsws := s.gangsws ++ [{ outgoing := x.num, incoming := y, tick := s.pkt.arg1.toNat, queue := s.pktQueue,
                                               slot := s.pktSlot }] }

/-! Answers to faults (R108, R291, R353, R356). -/

/-- An open entry of a context's fault ring. -/
def State.openEntry (s : State) (ctx entry : Nat) : Option Posted := s.posted.find? fun p => p.ctx == ctx && p.entry == entry

/-- An answered course runs again; one that is vacated does so on resume, and a Swapped one once it is swapped in (R27, R28). -/
def State.answerCourse (s : State) (i : Nat) (retry : Bool) : State :=
  let t := (s.resumeTrap i retry).modCourse i fun c => { c with prior := if c.prior == .waiting then .running else c.prior }
  if s.away (s.course i) then t.listWake i else t

/-- An answer: RETRY issues the word, moves the copy or reads the page again; RESUME goes on after the word; KILL kills the
course's team, with XLTF for a translation fault and HOST for a trap, or fails the copy or the item. A KILL of a vacated course
is delivered on resume (R353). -/
def State.answer (s : State) (p : Posted) (ans : Nat) : State :=
  let s : State := { s with posted := s.posted.filter fun q => !(q.ctx == p.ctx && q.entry == p.entry) }
  if ans == 2 then
    match p.course.filter fun i => (s.course i).phase == .vacated with
    | some i => s.modCourse i fun c => { c with doomed := some (if p.source == 1 then cXLTF else cHOST) }
    | none => s.killPoster { ctx := p.ctx, cause := 0, source := p.source, course := p.course, job := p.job, part := p.part,
                             front := p.front }
  else match p.course, p.job, p.front with
  | some i, _, _ => s.answerCourse i (ans == 0)
  | none, some j, _ => s.modJob j fun job => { job with waiting := none }
  | none, none, some (.packet q slot) =>
    s.modQueue q fun q => { q with taken := q.taken.map fun t => if t.slot == slot then { t with begun := false } else t }
  | none, none, some (.ply run cap) => s.startPly run cap
  | none, none, some (.node _) | none, none, none => s

/-- FAULTANS with an answer, 0 RETRY, 1 RESUME, 2 KILL. -/
def State.faultAnswer (s : State) (ans : Nat) : Out :=
  s.onTarget false fun x =>
    match s.openEntry x.num s.pkt.arg0.toNat with
    | none => s.pktRefuse 0
    | some p => if ans == 1 && p.source != 0 then s.pktRefuse 1 else (s.answer p ans).pktDone

/-- FAULTANS RETRY. -/
def execFaultansRetry (s : State) : Out := s.faultAnswer 0

/-- FAULTANS RESUME. -/
def execFaultansResume (s : State) : Out := s.faultAnswer 1

/-- FAULTANS KILL. -/
def execFaultansKill (s : State) : Out := s.faultAnswer 2

/-- A record that waits for a slot of its fault ring can be posted: the oldest of its context, with room or with no usable
ring (R356). -/
def State.postDue (s : State) (k : Nat) : Bool :=
  match s.posts[k]? with
  | none => false
  | some p =>
    !(s.posts.take k).any (fun q => q.ctx == p.ctx)
      && match s.ringHdr p.ctx (s.context p.ctx).faultRing with
        | .error _ => true
        | .ok h => !h.ok (s.context p.ctx).faultRing || sub32 h.alloc h.rp < 2 ^ h.caplog

/-- FAULT_RING_POST (subj num: the record's place among those that wait). -/
def execFaultRingPost (s : State) : Out :=
  let k := s.subj.num
  .next (if !s.postDue k then s
    else match s.posts[k]? with
    | none => s
    | some p => ({ s with posts := s.posts.eraseIdx k }).postFault p)

/-! Counters (R209, R297, R394, R399). -/

/-- Lines of a slice charged to a tenant (R209). -/
def State.occ (s : State) (tenant slice : Nat) : Nat := (s.l2.filter fun e => e.tenant == tenant && e.slice == slice).length

/-- The words of a counter set. -/
def State.counters (s : State) (set n : Nat) : List Nat :=
  match set with
  | 0 => (List.range 256).map (s.occ n)
  | 1 => [(s.context n).dropped]
  | 2 => [(s.context n).demotions.toNat]
  | _ => [(s.context n).copied]

/-- Bytes written by firmware at a device physical address. -/
def State.physWrite (s : State) (a : Nat) (bytes : List Byte) : State := (s.writeLocs 0 (cellsAt a bytes)).1

/-- Firmware may access a device physical range: it lies in a group, and no byte of it is lent out (R109, R389). -/
def State.physOk (s : State) (a n : Nat) : Bool := inGroup a n && !s.lentOut a n

/-- Bytes written by firmware for a packet, which retires once they are performed: one whose bytes the host's response holds waits for
it, and writes them again, with the same effect (R400, R413, R431). -/
def State.physDone (s : State) (a : Nat) (bytes : List Byte) : State :=
  let mine (l : Nat) : Bool := decide (a / 64 ≤ l) && decide (64 * l < a + bytes.length)
  if s.heldWrites.any fun w => mine (w.1 / 64) then s.pktWait
  else if s.hostLines.any mine then (s.physWrite a bytes).pktWait
  else (s.physWrite a bytes).pktDone

/-- QUERY: the words go to a device physical range; the OCC of every slice in ascending order, or one counter (log 20). -/
def execQuery (s : State) : Out :=
  let set := s.pkt.arg0.toNat
  let n := s.pkt.arg1.toNat
  .next (if 4 ≤ set then s.pktRefuse 0
    else if 2 ^ 16 ≤ n || (set != 0 && !s.contexts.any fun x => x.num == n && x.mode != .deleted) then s.pktRefuse 1
    else
      let bytes := (s.counters set n).flatMap (leBytes 4)
      let a := capBase s.pkt.f0
      if !s.physOk a bytes.length then s.pktRefuse 2 else s.physDone a bytes)

/-! Firmware and attestation (R413, R415, R434). -/

/-- FWUPD: the standby's ROM verifies the image and imports the state table; the packet retires at the takeover. -/
def execFwupd (s : State) : Out :=
  let a := capBase s.pkt.f0
  let n := capLen s.pkt.f0
  .next (match s.argFault 0 0 with
    | some k => s.pktRefuse k
    | none =>
      if n == 0 || !s.physOk a n then s.pktRefuse 2
      else
        let img := s.locRead a n
        if !s.standbyOk || !Config.imageAccepted img || !Config.versionSupported img s.tableVersion then s.pktRefuse 0x15
        else { s with patchNext := some img, fwPacket := some (s.pktQueue, s.pktSlot) })

/-- A quiescent boundary: no other management packet is in execution and no fault is being serviced: every record is posted. An
entry that awaits the host's answer, which comes as a management packet, is not being serviced (R415; DEDUCED, log 138). -/
def State.quiescent (s : State) : Bool :=
  s.posts.isEmpty
    && match s.queue? mgmtRing with
      | none => true
      | some q => !q.taken.any fun t => t.begun && !t.retired && some (q.num, t.slot) != s.fwPacket

/-- A patch image waits to take over. -/
def State.takeoverDue (s : State) : Bool := s.patchNext.isSome && s.standbyOk && s.quiescent

/-- FWUPD_TAKEOVER: the patched standby becomes active, the old active needle standby, and the packet retires DONE. -/
def execFwupdTakeover (s : State) : Out :=
  .next (if !s.takeoverDue then s
    else
      let s1 : State := { s with needle := !s.needle, patch := s.patchNext, patchNext := none, fwPacket := none }
      match s.fwPacket with
      | some (q, slot) => s1.retirePacket q slot 1 0 0
      | none => s1)

/-- NEEDLE_FAILOVER: the standby takes over and executes the management packet in progress again; a patch that had not taken
over is verified again with it, and one that waits for a page goes on waiting (R413). -/
def execNeedleFailover (s : State) : Out :=
  .next (if !s.standbyOk then s
    else
      let s : State := { s with needle := !s.needle, standbyOk := false, patchNext := none, fwPacket := none }
      s.modQueue mgmtRing fun q =>
        { q with taken := q.taken.map fun t => if t.retired || s.frontWaits (.packet mgmtRing t.slot) then t else { t with begun := false } })

/-- A SHAKE256 digest of 512 bits (log 8). -/
def digest (b : List Byte) : List Byte := (List.range 64).map (Config.digestByte b)

/-- The 16 bytes of an entry. -/
def entryBytes (e : BitVec 128) : List Byte := leBytes 16 e.toNat

/-- The bytes of a table of 16 entries (R430). -/
def tableBytes (l : List (BitVec 128)) : List Byte := (List.range 16).flatMap fun k => entryBytes (l.getD k 0)

/-- The attestation report of R434 for a nonce, up to its signature. -/
def State.report (s : State) (nonce : List Byte) : List Byte :=
  leBytes 4 0x5C4A0001 ++ leBytes 4 3685 ++ nonce ++ (List.range 16).map Config.serialByte
    ++ digest (Config.imageBytes 0) ++ digest (Config.imageBytes s.image)
    ++ (match s.patch with | some img => digest img | none => List.replicate 64 0)
    ++ digest (leBytes 4 s.hpbudget ++ tableBytes s.cxlwin ++ tableBytes s.wfilt ++ leBytes 4 s.portsDown.toNat
      ++ leBytes 1 s.stacksDown.toNat ++ leBytes 1 s.linksDown.toNat)
    ++ digest (Config.imageBytes 2)

/-- ATTEST: the nonce is read at F0.BASE and the report written 64 bytes on. -/
def execAttest (s : State) : Out :=
  let a := capBase s.pkt.f0
  .next (match s.argFault 0 0 with
    | some k => s.pktRefuse k
    | none =>
      if !s.physOk a (64 + 3685) then s.pktRefuse 2
      else
        let r := s.report (s.locRead a 32)
        s.physDone (a + 64) (r ++ (List.range 3309).map (Config.signByte r)))

end Sys2Proof.Machine
end

