-- ==== Sys2Proof/Machine/Fetch.lean ====
section
/-! DEFINITION. Fetching the two streams of a course: the words at the scalar PC and at the next lane-word index, as the decoder
reads them (R34, R61). -/

namespace Sys2Proof.Machine

/-- What a fetch finds: an instruction, or why the stream cannot issue one. -/
inductive Fetched where
  | word (i : Instr)
  | stop (x : Stop)
deriving DecidableEq, Repr

/-- n code bytes at an offset of a section: outside it CAPF detail 4, a page off the device without M CAPF detail 3, an unusable
page the error of its use, uncorrectable bytes MEMERR (R34, R61, R95, R200, R372, log 12). -/
def State.codeBytes (s : State) (c : Course) (sect : Cap) (off n : Nat) : Except Stop (List Byte) :=
  let va := capBase sect + off
  if capLen sect < off + n then .error (.trap { cause := cCAPF, detail := 4, addr := va % 2 ^ 57 })
  else if capPerm sect &&& pM == 0 && s.leavesDevice c.who va n then
    .error (.trap { cause := cCAPF, detail := 3, addr := va % 2 ^ 57 })
  else if s.badVA c.who va n then .error (.trap { cause := cMEMERR, addr := va })
  else match s.readVA c.who va n with
  | .ok b => .ok b
  | .error x => .error ((UseErr.page x).stop va 0)

/-- What the fetch of n code bytes leaves behind: a read at their home, as the L2, its lines' leases and the TLBs see it (R110, R210,
R211, R242, log 123). -/
def State.noteFetch (s : State) (c : Course) (sect : Cap) (off n : Nat) : State := s.noteHome c.who (capBase sect + off) n

/-- The detail of an illegal word. -/
def Reject.detail (r : Reject) : Nat :=
  match r with | .ills d | .illl d => d | .badPacket _ | .refused _ | .noWord => 1

/-- The scalar word at the PC of a course: an illegal one raises ILLS (R61). A PC that has fallen through past the last word is a
CAPF that names that PC itself: R34 attributes only a transfer of control to the word that made it (log 86). -/
def State.fetchScalar (s : State) (c : Course) : Fetched :=
  match s.codeBytes c c.scode c.core.pc 4 with
  | .error x => .stop x
  | .ok b =>
    match decodeScalar (leNat b) with
    | .ok i => .word i
    | .error r => .stop (.trap { cause := cILLS, detail := Reject.detail r })

/-- The next lane word of a course: an illegal one raises ILLL (R61). -/
def State.fetchLane (s : State) (c : Course) : Fetched :=
  match s.codeBytes c c.lcode (12 * c.core.lanePc) 12 with
  | .error x => .stop x
  | .ok b =>
    match decodeLane c.regs (leNat b) with
    | .ok i => .word i
    | .error r => .stop (.trap { cause := cILLL, detail := Reject.detail r })

end Sys2Proof.Machine
end

