-- ==== Sys2Proof/Machine/ScalarCap.lean ====
section
/-! DEFINITION. The scalar memory and capability words (R100 to R103). -/

namespace Sys2Proof.Machine

/-- EA of a scalar access (R100, R101). -/
def scalarEA (c : Cap) (imm : BitVec 16) : Int := (capBase c : Int) + imm.toInt

/-- A scalar-side load of n bytes (R101): the checks, a memory error, then the bytes and the state after the load. It sees every
store the course holds, those of lane words that have completed among them (R64, R101). -/
def State.scalarLoad (s : State) (ca : BitVec 4) (imm : BitVec 16) (n : Nat) : Except Stop (List Byte × State) :=
  let c := s.me
  let cap := c.core.cap ca.toNat
  let ea := scalarEA cap imm
  match s.useErr c.who cap 0 pR ea n n false with
  | some e => .error (e.stop ea 0)
  | none =>
    match s.loadVA c ea.toNat n with
    | .error e => .error (UseErr.stop (.page e) ea 0)
    | .ok b =>
      if s.badLoad c ea.toNat n then .error (.trap { cause := cMEMERR, addr := ea.toNat })
      else .ok (b, s.noteLoad s.cur ea.toNat n)

/-- A scalar-side store of bytes into the store-hold area (R101); a full area needs a checkpoint, which waits for an issued
lane word (R182). -/
def State.scalarStore (s : State) (ca : BitVec 4) (imm : BitVec 16) (bytes : List Byte) : Out :=
  let c := s.me
  let cap := c.core.cap ca.toNat
  let ea := scalarEA cap imm
  .next (match s.useErr c.who cap 0 pW ea bytes.length bytes.length true with
    | some e => s.scalarStop (e.stop ea 0)
    | none =>
      if c.inFlight && (64 ≤ c.heldCount || 512 ≤ s.coreHeld c.place) then s.scalarWait { kind := .lanes }
      else (s.holdCells s.cur false (cellsAt ea.toNat bytes)).scalarNext id)

/-- XLD. -/
def execXld (d : BitVec 5) (ca : BitVec 4) (imm : BitVec 16) (s : State) : Out :=
  .next (match s.scalarLoad ca imm 4 with
    | .error x => s.scalarStop x
    | .ok (b, s') => s'.scalarNext fun k => k.setX d.toNat (bytesWord b))

/-- XST. -/
def execXst (d : BitVec 5) (ca : BitVec 4) (imm : BitVec 16) (s : State) : Out := s.scalarStore ca imm (wordBytes (s.x d))

/-- CLD: the loaded capability is validated; one that fails raises CAPF and a[d] keeps its value. -/
def execCld (cd ca : BitVec 4) (imm : BitVec 16) (s : State) : Out :=
  let c := s.me
  .next (match s.scalarLoad ca imm 16 with
    | .error x => s.scalarStop x
    | .ok (b, s') =>
      let cap : Cap := BitVec.ofNat 128 (leNat b)
      match s.validate (s.context c.ctx).tenant cap with
      | some detail =>
        s'.scalarTrap { cause := cCAPF, detail := detail, addr := (scalarEA (c.core.cap ca.toNat) imm).toNat }
      | none => s'.scalarNext fun k => k.setCap cd.toNat cap)

/-- CST. -/
def execCst (cd ca : BitVec 4) (imm : BitVec 16) (s : State) : Out :=
  s.scalarStore ca imm (leBytes 16 (s.me.core.cap cd.toNat).toNat)

/-- CMOV. -/
def execCmov (cd ca : BitVec 4) (s : State) : Out := .next (s.scalarNext fun k => k.setCap cd.toNat (k.cap ca.toNat))

/-- CPERM. -/
def execCperm (cd ca : BitVec 4) (b : BitVec 5) (s : State) : Out :=
  let c := s.me.core.cap ca.toNat
  let m := (s.x b).toNat % 128
  .next (s.scalarNext fun k =>
    k.setCap cd.toNat (mkCap (capKind c) (capTen c) (capLen c) (capPerm c &&& m) (capBase c)))

/-- CBND. -/
def execCbnd (cd ca : BitVec 4) (b : BitVec 5) (s : State) : Out :=
  let k := s.me.core
  let c := k.cap ca.toNat
  let r (i : Nat) := (k.x (b.toNat + i)).toNat
  let off := r 0 + 2 ^ 32 * r 1
  let len := r 2 + 2 ^ 32 * r 3
  .next (
    if capLen c = 0 then s.scalarTrap { cause := cCAPF, detail := 1 }
    else if capKind c ≠ 0 then s.scalarTrap { cause := cCAPF, detail := 2 }
    else if capPerm c &&& pD = 0 then s.scalarTrap { cause := cCAPF, detail := 3 }
    else if capLen c < off + len then s.scalarTrap { cause := cCAPF, detail := 7 }
    else s.scalarNext fun k => k.setCap cd.toNat (mkCap (capKind c) (capTen c) len (capPerm c) (capBase c + off)))

/-- The field of a capability a selector names (R103). -/
def capField (c : Cap) (which : Nat) : Word :=
  match which with
  | 0 => BitVec.ofNat 32 (capBase c)
  | 1 => BitVec.ofNat 32 (capBase c / 2 ^ 32)
  | 2 => BitVec.ofNat 32 (capLen c)
  | 3 => BitVec.ofNat 32 (capLen c / 2 ^ 32)
  | _ => BitVec.ofNat 32 (capKind c * 2 ^ 24 + capPerm c * 2 ^ 16 + capTen c)

/-- CGET. -/
def execCget (d : BitVec 5) (ca : BitVec 4) (which : BitVec 16) (s : State) : Out :=
  s.scalarSet d (capField (s.me.core.cap ca.toNat) which.toNat)

end Sys2Proof.Machine
end

