-- ==== Sys2Proof/Machine/Events.lean ====
section
/-! DEFINITION. Events of the cores and of the clock: completion of words in flight, retirement, feeds, wake-ups, timers and the
watchdog (R64, R83, R86, R91, R178, R181, R216, R223, R234, R241, R394). -/

namespace Sys2Proof.Machine

/-! Completion and retirement. -/

/-- The results of a course's lane word in flight have all returned, and the course is on its core. -/
def State.wordDue (s : State) (i : Nat) : Bool :=
  let c := s.course i
  c.inFlight && (c.phase == .placed || c.phase == .running || c.phase == .waiting) && s.resultsIn i

/-- LANE_WORD_COMPLETE (subj num: the course): the remote word in flight completes (R64, R380). -/
def execLaneWordComplete (s : State) : Out :=
  let i := s.subj.num
  .next (if !s.wordDue i then s
    else
      let s : State := { s with cur := i }
      let s := s.modMe fun c => { c with lwait := none, phase := if c.phase == .waiting then .running else c.phase }
      match s.fetchLane s.me with
      | .word (.rld w) => s.completeRld w
      | .word (.ratom w) => s.completeRatom w
      | .word _ | .stop _ => s)

/-- A course retires: its scalar stream has ended and no released word is pending (R91, R162); its stores to a loan that moves, and
the stash bytes of a team that it dissolves, are performed first (R204, R392), and a store that could not be sent has been reported
(R414). -/
def State.retireDue (s : State) (i : Nat) : Bool :=
  let c := s.course i
  c.core.ended && c.core.pending == 0 && !c.inFlight && c.trapped.isNone && c.sfault.isNone
    && !c.served && (c.phase == .placed || c.phase == .running || c.phase == .waiting)
    && (s.context c.ctx).mode == .active && !s.moveHeld i && !s.leaveWaits i && !c.barredStore

/-- COURSE_RETIRE (subj num: the course): held stores are committed, and the course leaves its team (R91, R232, R233). -/
def execCourseRetire (s : State) : Out :=
  let i := s.subj.num
  .next (if !s.retireDue i then s else ((s.commit i).leaveTeam i).retire i)

/-! Feeds (R83 to R86). -/

/-- The address of thread t's element of entry k. -/
def FeedDesc.addr (d : FeedDesc) (k t : Nat) : Int :=
  let c0 := d.count0.toNat
  (capBase d.cap : Int) + d.start.toNat + t * d.tstr.toInt + (k % c0 : Nat) * d.str0.toInt + (k / c0 : Nat) * d.str1.toInt

/-- The mark of an element. -/
inductive Mark where
  | none
  | bounds
  | align
  | xlt (reason : Nat)
  | mem
  | link
deriving DecidableEq, Repr

/-- How many of the newest lane stores that no LSYNC orders thread t's element of a feed at an address misses: a free choice, element
by element (R65, log 101). -/
def State.unseen (s : State) (c : Course) (a t : Nat) : Nat :=
  if c.unsynced.isEmpty then 0 else Config.choice (s.free * 2 ^ 128 + 2 ^ 101 + 256 * a + t) % (c.unsynced.length + 1)

/-- Thread t's element of a feed as the AAE reads it: its value and its mark (R86, R389, R392). -/
def State.feedElem (s : State) (c : Course) (d : FeedDesc) (a : Int) (t : Nat) : Word × Mark :=
  let z : Nat := 2 ^ (d.flags.toNat % 4)
  if a < capBase d.cap || (capBase d.cap : Int) + capLen d.cap < a + z then (0, if d.flags.getLsbD 3 then .none else .bounds)
  else if a % z != 0 then (0, .align)
  else
    let va := a.toNat
    if capPerm d.cap &&& pM == 0 && s.leavesDevice c.who va z then (0, .bounds)
    else match s.loadVA c va z (s.unseen c va t) with
    | .error (.xltf r) => (0, .xlt r)
    | .error .moving => (0, .xlt 0)
    | .error .linkf => (0, .link)
    | .error .memerr => (0, .mem)
    | .ok b =>
      if s.badLoad c va z (s.unseen c va t) then (0, .mem)
      else
        let v := leNat b
        (BitVec.ofNat 32 (if d.flags.getLsbD 2 && decide (2 ^ (8 * z - 1) ≤ v) then v + (2 ^ 32 - 2 ^ (8 * z)) else v), .none)

/-- Entry k of a feed. -/
def State.feedEntry (s : State) (c : Course) (d : FeedDesc) (k : Nat) : QEntry :=
  let es := (List.range 256).map fun t => s.feedElem c d (d.addr k t) t
  let has (p : Mark → Bool) : Mask := maskOf 256 fun t => p (es.getD t (0, .none)).2
  { vals := es.map (·.1), bounds := has (· == .bounds), align := has (· == .align), mem := has (· == .mem),
    link := has (· == .link), xlt := has fun m => match m with | .xlt _ => true | _ => false,
    base := d.addr k 0, step := d.tstr.toInt,
    reasons := es.zipIdx.filterMap fun (e, t) => match e.2 with | .xlt r => some (t, r) | _ => none }

/-- A feed after entry k: the next entry, or the waiting descriptor once the last is pushed; a descriptor of no entries ends at
once. -/
def Feed.advance (f : Feed) : Feed :=
  match f.active with
  | none => f
  | some d =>
    if d.next + 1 < d.entries then { f with active := some { d with next := d.next + 1 } }
    else { active := f.waiting.filter fun w => w.entries != 0, waiting := none }

/-- The AAE can form the next entry of a queue: a feed is active and the queue holds fewer than 4 entries. -/
def State.feedDue (s : State) (i q : Nat) : Bool :=
  let c := s.course i
  (c.core.feeds.getD q {}).active.isSome && decide ((c.core.queues.getD q []).length < 4)
    && (c.phase == .placed || c.phase == .running || c.phase == .waiting) && (s.context c.ctx).mode == .active && !c.served

/-- FEED_ENTRY_FORM (subj num: the course, num2: the operand queue): the entry is formed and pushed; words that wait for it or
for a free slot go on (R46, R63). -/
def execFeedEntryForm (s : State) : Out :=
  let i := s.subj.num
  let q := s.subj.num2
  let c := s.course i
  .next (match (c.core.feeds.getD q {}).active with
    | none => s
    | some d =>
      if !s.feedDue i q then s
      else
        let entry := s.feedEntry c d d.next
        let vas := ((List.range 256).filterMap fun t =>
          let a := d.addr d.next t
          if a < capBase d.cap || (capBase d.cap : Int) + capLen d.cap < a + 1 then none else some (a.toNat / 64 * 64)).eraseDups
        let s := vas.foldl (fun s a => s.noteLoad i a 1 (d.flags.toNat / 16 % 4)) s
        let s := s.modCourse i fun c =>
          { c with core := { c.core with queues := (c.core.queues ++ List.replicate (16 - c.core.queues.length) []).modify q (· ++ [entry]),
                                         feeds := c.core.feeds.modify q Feed.advance } }
        s.wakeIf fun j _ w => j == i && w.kind == .feed)

/-! Wake-ups and re-polls (R28, R223). -/

/-- WAKEUP (subj num: the line): the courses its monitor lists test again. -/
def execWakeup (s : State) : Out := .next (s.wakeIf fun _ _ w => w.line == some s.subj.num)

/-- Waits a condition monitor holds, or a re-poll timer where none is free. -/
def Wait.polled (w : Wait) : Bool :=
  w.line.isNone && (w.kind == .word || w.kind == .barrier || w.kind == .spool || w.kind == .ring)

/-- A course waits without a monitor, and a microsecond has passed since its test. -/
def State.repollDue (s : State) (i : Nat) : Bool :=
  let c := s.course i
  let due (w : Wait) : Bool := w.polled && decide (w.armed + cyclesOfUs 1 ≤ s.clock)
  c.alive && (c.swait.any due || c.lwait.any due)

/-- REPOLL_TIMER (subj num: the course): it tests again, Waiting all the while (R30, R223). -/
def execRepollTimer (s : State) : Out :=
  let i := s.subj.num
  .next (if s.repollDue i then s.wakeIf (fun j _ w => j == i && w.polled) false else s)

/-- A cluster unit has held a line for 2 µs without a cluster-scope atomic on it. -/
def State.holdDue (s : State) (line : Nat) : Bool :=
  s.holds.any fun h => h.line == line && decide (h.used + cyclesOfUs 2 ≤ s.clock)

/-- HOLD_RETURN (subj num: the line): the hold returns to its home, and the courses of the monitors that move are woken once
(R216, R223). -/
def execHoldReturn (s : State) : Out :=
  let line := s.subj.num
  .next (if !s.holdDue line then s
    else ({ s with holds := s.holds.filter fun h => h.line != line }).wakeIf fun _ _ w => w.line == some line)

/-! Timers of a course. -/

/-- A course's oldest held store has been held for 2 µs (R181). -/
def State.heldDue (s : State) (i : Nat) : Bool :=
  let c := s.course i
  c.alive && c.phase != .vacated && c.phase != .swapped && !c.inFlight && c.heldCount != 0
    && decide (c.heldSince + cyclesOfUs 2 ≤ s.clock) && (s.context c.ctx).mode == .active

/-- HELD_STORE_TIMEOUT (subj num: the course): a timed checkpoint (R181, R182). -/
def execHeldStoreTimeout (s : State) : Out :=
  .next (if s.heldDue s.subj.num then s.checkpoint s.subj.num else s)

/-- A parked GRAFT's time is over (R178). -/
def State.parkDue (s : State) (i : Nat) : Bool :=
  (s.course i).alive && (s.course i).parked.any fun t => decide (t ≤ s.clock)

/-- GRAFT_PARK_TIMEOUT (subj num: the course): its GRAFT ends ALONE. -/
def execGraftParkTimeout (s : State) : Out :=
  let i := s.subj.num
  .next (if !s.parkDue i then s
    else s.modCourse i fun c => { c with parked := none, lwait := none, graftStatus := some 1 })

/-- An EVWAIT's timeout has passed (R394). -/
def State.evwaitDue (s : State) (i : Nat) : Bool :=
  let c := s.course i
  c.alive && c.lwait.any fun w => w.kind == .event && w.limit.any fun t => decide (t ≤ s.clock)

/-- EVWAIT_TIMEOUT (subj num: the course): the word ends with its comparand. -/
def execEvwaitTimeout (s : State) : Out :=
  let i := s.subj.num
  .next (if !s.evwaitDue i then s
    else (s.modCourse i fun c => { c with timedOut := true }).wakeIf fun j _ w => j == i && w.kind == .event)

/-! The watchdog (R234). -/

/-- A wait the watchdog counts: internal, and longer than the period. -/
def State.longWait (s : State) (period : Nat) (w : Wait) : Bool := w.internal && decide (w.since + period < s.clock)

/-- Every course of a context is Waiting or Swapped, in internal waits longer than the period; one whose word is being tested
again is in its wait (R223), and one on the wake list is runnable (R28, R346). -/
def State.watchdogDue (s : State) (x : Nat) : Bool :=
  let cs := s.ctxCourses x
  let period := cyclesOfUs ((s.context x).wdog * 1000)
  let stuck (w : Option Wait) : Bool := match w with | some w => s.longWait period w | none => true
  (s.context x).mode == .active && !cs.isEmpty && cs.all fun i =>
    let c := s.course i
    let sw := c.swait.orElse fun _ => c.swas
    let lw := c.lwait.orElse fun _ => c.lwas
    (c.phase == .waiting || c.phase == .swapped) && !(s.context x).wakes.contains i && (sw.isSome || lw.isSome) && stuck sw && stuck lw

/-- WATCHDOG_FIRE (subj num: the context): its teams are killed with WDOG, its courses that are in no team with
them (DESIGN CHOICE, log 141), and a record is posted (R234, R356). -/
def execWatchdogFire (s : State) : Out :=
  let x := s.subj.num
  .next (if !s.watchdogDue x then s
    else
      let s := (s.ctxTeams x).foldl (fun s t => s.killTeam t cWDOG) s
      let s := (s.ctxCourses x).foldl (fun s i => s.killCourse i cWDOG) s
      s.postFault { ctx := x, cause := cWDOG, source := 3 })

/-! Logical time (R241). -/

/-- A resident course: on a core, not swapped. -/
def Course.isResident (c : Course) : Bool := c.phase == .placed || c.phase == .running || c.phase == .waiting

/-- A microsecond has passed since the clocks were last raised. -/
def State.raiseDue (s : State) : Bool := decide (s.raisedAt + cyclesOfUs 1 ≤ s.clock) && s.courses.any Course.isResident

/-- LCLOCK_ADVANCE: every resident course's clock rises by at least 1 for each microsecond since the last advance (log 5). -/
def execLclockAdvance (s : State) : Out :=
  let us := (s.clock - s.raisedAt) / cyclesOfUs 1
  .next { s with
    raisedAt := s.raisedAt + us * cyclesOfUs 1,
    courses := s.courses.zipIdx.map fun (c, i) =>
      if c.isResident then { c with lclock := c.lclock + us + Config.clockRaise (s.free * 2 ^ 128 + i) } else c }

end Sys2Proof.Machine
end

