-- ==== Sys2Proof/Machine/Fabric.lean ====
section
/-! DEFINITION. Events of the fabric: requests from other devices, acknowledgements and their absence, delegated lines, loans and
their recall, ports and devices that fail (R373 to R392, R417, R432). -/

namespace Sys2Proof.Machine

/-! A request arrives (R374, R383). -/

/-- The permission a remote operation needs at its target. -/
def remotePerm (op : RemoteOp) : Nat :=
  match op with
  | .read => pR
  | .write => pW
  | .merge _ => pW ||| pA
  | .atom _ _ | .spool _ _ _ _ _ | .spinit | .spqry | .spfls | .arrive _ _ => pA

/-- An operation that bears a write. -/
def remoteWrites (op : RemoteOp) : Bool :=
  match op with
  | .read | .spqry => false
  | .write | .atom _ _ | .merge _ | .spool _ _ _ _ _ | .spinit | .spfls | .arrive _ _ => true

/-- The context of a tenant on this device. -/
def State.tenantCtx (s : State) (tenant : Nat) : Option Nat :=
  (s.contexts.find? fun x => x.tenant == tenant && x.mode != .deleted && x.mode != .lost).map (·.num)

/-- The grant table of a tenant covers a thread's bytes with the permission, KIND 0. -/
def State.covered (s : State) (tenant : Nat) (op : RemoteOp) (a : RemoteAcc) : Bool :=
  s.grants.any fun g => g.1 == tenant && grantAdmits g.2.2 (mkCap 0 tenant a.size (remotePerm op) a.addr)

/-- What one thread's access of a packet comes to: its bytes or its old word, the write time it met or made, the lease end of the
line it read, the flags it raised, and the leaf of the page it read (R197, R218, R376). -/
structure AccDone where
  bytes : List Byte := []
  wts : Nat := 0
  lease : Nat := 0
  flags : BitVec 5 := 0
  leaf : BitVec 64 := 0
deriving DecidableEq, Repr

/-- The lease end of the line at an address. -/
def State.leaseAt (s : State) (w : Who) (va : Nat) : Nat := match s.lineOf w va with | some l => (s.stampOf l).2 | none => 0

/-- One thread's access performed. -/
def State.performAcc (s : State) (w : Who) (op : RemoteOp) (a : RemoteAcc) : State × AccDone :=
  match op with
  | .read =>
    match s.homeRead w a.addr a.size with
    | .ok (b, t, s) =>
      let leaf := match s.leafFor w a.addr with | .ok x => x.1 | .error _ => 0
      (s, { bytes := b, wts := t, lease := s.leaseAt w a.addr, leaf := leaf })
    | .error _ => (s, {})
  | .write =>
    match s.writeVA w a.addr a.data with | .ok (s, t) => (s, { wts := t }) | .error _ => (s, {})
  | .atom o ty =>
    match s.readVA w a.addr 4 with
    | .error _ => (s, {})
    | .ok b =>
      let r := remoteAtom o.toNat ty.toNat (bytesWord b) (bytesWord a.data) a.cmp
      match s.writeVA w a.addr (wordBytes r.1) with
      | .ok (s, t) => (s, { bytes := b, wts := t, flags := r.2 })
      | .error _ => (s, { bytes := b })
  | .merge ty =>
    let r := s.mergeAt w ty.toNat a.addr [bytesWord a.data]
    (r.1, { wts := r.2.1, flags := r.2.2 })
  -- a spool word and an arrival name no node: their object lies in the device's own memory or in a loan (R230, R276)
  | .spool _ _ _ _ _ | .spinit | .spqry | .spfls | .arrive _ _ => (s, {})

/-- A reply with one more access: the largest write time, and the earliest lease end. -/
def replyAdd (r : RemoteReply) (thread : Nat) (d : AccDone) : RemoteReply :=
  { r with values := if d.bytes.isEmpty then r.values else r.values ++ [(thread, d.bytes)], wts := max r.wts d.wts,
           lease := if r.values.isEmpty then d.lease else min r.lease d.lease, flags := r.flags ||| d.flags,
           cl := d.leaf.toNat / 4 % 4, evp := d.leaf.toNat / 64 % 4 }

/-- The accesses of a packet performed in ascending thread order (R375). -/
def performAccs (s : State) (accs : List RemoteAcc) (f : State → RemoteAcc → State × AccDone) : State × RemoteReply :=
  accs.foldl (fun r a => let x := f r.1 a; (x.1, replyAdd r.2 a.thread x.2)) (s, { values := [], wts := 0, failed := [] })

/-- The contributions a packet brings: those to one element are merged by some tree (R382). -/
def State.mergeAccs (s : State) (w : Who) (ty : Nat) (accs : List RemoteAcc) : State × RemoteReply :=
  ((accs.map (·.addr)).eraseDups).foldl (fun r va =>
      let x := r.1.mergeAt w ty va ((accs.filter (·.addr == va)).map fun a => bytesWord a.data)
      (x.1, { r.2 with wts := max r.2.wts x.2.1, flags := r.2.flags ||| x.2.2 }))
    (s, { values := [], wts := 0, failed := [] })

/-- The accesses of a packet performed at its target (R379, R382). -/
def State.performPacket (s : State) (w : Who) (op : RemoteOp) (accs : List RemoteAcc) : State × RemoteReply :=
  match op with
  | .merge ty => s.mergeAccs w ty.toNat accs
  | _ => performAccs s accs fun s a => s.performAcc w op a

/-- The window of the last 2^16 numbers performed for each source (R383). -/
def State.keepPerformed (s : State) (p : Performed) : State :=
  let mine := s.performed.filter fun q => q.source == p.source
  let rest := s.performed.filter fun q => q.source != p.source
  { s with performed := rest ++ (p :: mine).take (2 ^ 16) }

/-- A region this device lends, reached by the physical address LBASE + offset (R388): the request names it by 2^16 plus its
index in place of the tenant. -/
def State.lentRegion (s : State) (tenant : Nat) : Option Lend :=
  if tenant < 2 ^ 16 then none else s.lends.find? fun l => 2 ^ 16 + l.index == tenant

/-- A block of a lent region as a borrower's spool word finds it: its location, its bytes, and, where it is not cached, whether it is
corrupt (R263, R265). -/
def State.lentBlock (s : State) (p tenant : Nat) : SpoolAt × Bool :=
  let old := s.locRead p 64
  ({ va := 0, loc := p, bytes := old, wts := (s.stampOf (p / 64)).1, mask := 0 }, !s.spoolCached tenant p && (spoolForm old).isSome)

/-- A block poisoned for a borrower's word, which is told so (R263). -/
def State.lentPoison (s : State) (b : SpoolAt) : State × AccDone :=
  let s := s.spoolPoison b
  (s, { bytes := s.locRead b.loc 64, wts := (s.stampOf (b.loc / 64)).1 })

/-- The descriptor of a block kept over a write of its line by a spool word. -/
def State.lentPut (s : State) (p clk : Nat) (cells : List Host.Cell) : State × Nat :=
  let desc := s.spools.filter fun d => d.line == p / 64
  let r := s.writeLocs clk cells
  ({ r.1 with spools := desc ++ r.1.spools.filter fun d => d.line != p / 64 }, r.2)

/-- The step of a borrower's ENQ, DEQ, ENQT or DEQT (R263 to R266, R270 to R272, R276): a corrupt block is poisoned, a word that
fits moves its elements between the packet and the slots, where they lie in the region, and the counters; one that does not fit
changes nothing. The answer is the block as the word found it, or poisoned, and the elements that left it. -/
def State.lentSpool (s : State) (l : Lend) (p clk tenant : Nat) (enq part : Bool) (esize n : Nat) (slots : Option Nat) (data : List Byte) :
    State × AccDone :=
  let (b, corrupt) := s.lentBlock p tenant
  let blk := spoolOf b.bytes
  let es := 4 * 2 ^ blk.esize
  let slot (o k : Nat) : Nat := l.base + o + k % 2 ^ blk.caplog * es
  if corrupt then s.lentPoison b
  else
    let s := s.spoolCache tenant tenant p
    let room := if enq then blk.free else blk.count
    let m := if part then min n room else n
    let outside := match slots with | some o => decide (l.size * 2 ^ 21 < o + 2 ^ blk.caplog * es) | none => false
    if blk.esize ≠ esize ∨ room < m ∨ m = 0 ∨ outside = true then (s, { bytes := b.bytes, wts := b.wts })
    else
      let first := if enq then blk.tail else blk.head
      let moved : List (Nat × Nat) := match slots with | some o => (List.range m).map fun k => (k, slot o (first + k)) | none => []
      let out := if enq then [] else moved.flatMap fun q => s.locRead q.2 es
      let s := if enq then (s.writeLocs clk (moved.flatMap fun q => cellsAt q.2 ((data.drop (es * q.1)).take es))).1 else s
      let n := if enq then blk.enqueued m else { blk with head := blk.head + m, free := blk.free + m }
      let r := s.lentPut p clk (cellsAt (p + 4) (leBytes 4 n.head ++ leBytes 4 n.tail ++ leBytes 4 n.free))
      (r.1, { bytes := b.bytes ++ out, wts := r.2 })

/-- The step of a borrower's SPINIT: the line it brings is written, and it is told the block before (R269). -/
def State.lentInit (s : State) (p clk tenant : Nat) (data : List Byte) : State × AccDone :=
  let b := (s.lentBlock p tenant).1
  let r := (s.spoolCache tenant tenant p).lentPut p clk (cellsAt p (data.take 64))
  (r.1, { bytes := b.bytes, wts := r.2 })

/-- The step of a borrower's SPQRY, a read of the block at its home (R242, R274). -/
def State.lentQuery (s : State) (p clk tenant : Nat) : State × AccDone :=
  let (b, corrupt) := s.lentBlock p tenant
  if corrupt then s.lentPoison b
  else
    let s := (s.spoolCache tenant tenant p).readLine (p / 64) clk
    (s, { bytes := b.bytes, wts := b.wts, lease := (s.stampOf (p / 64)).2 })

/-- The step of a borrower's SPFLS: it is told the block, and in one more byte whether a descriptor was written back, 0, or none was
cached, 1 (R275). -/
def State.lentFlush (s : State) (p : Nat) : State × AccDone :=
  let old := s.locRead p 64
  let wts := (s.stampOf (p / 64)).1
  if (spoolOf old).poison then (s, { bytes := old, wts := wts })
  else if s.spools.any fun d => d.line == p / 64 then
    ({ s with spools := s.spools.filter fun d => d.line != p / 64 }.wakeLine (p / 64), { bytes := old ++ [0], wts := wts })
  else (s, { bytes := old ++ [1], wts := wts })

/-- A borrower's arrival at a barrier object: dropped where the object takes none or the tag is not its GEN (R228, R230). It is told
the object before. -/
def State.lentArrive (s : State) (p clk : Nat) (gen : Option Nat) (n : Nat) : State × AccDone :=
  let old := s.locRead p 16
  let b := barOf old
  let drop := !b.valid || gen.any (· != b.gen)
  let r := s.writeLocs clk (cellsAt p (barBytes (if drop then { b with stale := b.stale + 1 } else b.arrive n))) (wake := !drop)
  (r.1, { bytes := old, wts := r.2 })

/-- A borrower's access to a lent region: bytes read or written at its physical address, with the line's timestamps (R242, R388). -/
def State.lentAcc (s : State) (l : Lend) (clk : Nat) (op : RemoteOp) (a : RemoteAcc) : State × AccDone :=
  let p := l.base + a.addr
  if l.size * 2 ^ 21 < a.addr + a.size then (s, {})
  else
    let old := s.locRead p a.size
    match op with
    | .read =>
      let s := s.readLine (p / 64) clk
      let x := s.stampOf (p / 64)
      (s, { bytes := old, wts := x.1, lease := x.2 })
    | .write =>
      let r := s.writeLocs clk (cellsAt p a.data)
      (r.1, { wts := r.2 })
    | .atom o ty =>
      let n := remoteAtom o.toNat ty.toNat (bytesWord old) (bytesWord a.data) a.cmp
      let r := s.writeLocs clk (cellsAt p (wordBytes n.1))
      (r.1, { bytes := old, wts := r.2, flags := n.2 })
    | .merge ty =>
      let n := remoteAtom 0 ty.toNat (bytesWord old) (bytesWord a.data) 0
      let r := s.writeLocs clk (cellsAt p (wordBytes n.1))
      (r.1, { wts := r.2, flags := n.2 })
    | .spool enq part esize n slots =>
      s.lentSpool l p clk (2 ^ 16 + l.index) enq part esize.toNat n.toNat (slots.map (·.toNat)) a.data
    | .spinit => s.lentInit p clk (2 ^ 16 + l.index) a.data
    | .spqry => s.lentQuery p clk (2 ^ 16 + l.index)
    | .spfls => s.lentFlush p
    | .arrive gen n => s.lentArrive p clk (gen.map (·.toNat)) n.toNat

/-- REMOTE_REQUEST (subj request): a number already performed or refused is only answered again; a write-bearing request without
accesses is its port's question about a number, which is then refused; else each thread is checked against this device's grant
table, a page that is not present is posted to the tenant's own context, and the accesses are
performed (R374, R375, R383, R384). -/
def execRemoteRequest (s : State) : Out :=
  let q := s.subj.request
  .next (match s.performed.find? fun p => remoteWrites q.op && p.source == q.source && p.seqno == q.seqno with
    | some p => { s with sentReply := p.reply }
    | none =>
      let answer (s : State) (r : RemoteReply) : State :=
        let s : State := { s with sentReply := r }
        if remoteWrites q.op then s.keepPerformed { source := q.source, seqno := q.seqno, reply := r } else s
      let none' : RemoteReply := { values := [], wts := 0, failed := q.accs.map (·.thread) }
      if q.accs.isEmpty && remoteWrites q.op then
        { s with sentReply := none' }.keepPerformed { source := q.source, seqno := q.seqno, refused := true, reply := none' }
      else match s.lentRegion q.tenant, s.tenantCtx q.tenant with
      | some l, _ =>
        let r := performAccs s q.accs fun s a => s.lentAcc l q.clock q.op a
        answer r.1 r.2
      | none, none => answer s none'
      | none, some x =>
        let good := q.accs.filter (s.covered q.tenant q.op)
        let bad := q.accs.filter fun a => !s.covered q.tenant q.op a
        let w : Who := { ctx := x, clk := q.clock }
        match good.findSome? fun a => s.firstBad w a.addr a.size (remoteWrites q.op) with
        | some (.page r va) => s.postFault { ctx := x, cause := cXLTF, detail := r, source := 1, answer := true, addr := va }
        | some .moving => s
        | some (.fail _) => answer s none'
        | none =>
          let r := s.performPacket w q.op good
          answer r.1 { r.2 with failed := bad.map (·.thread) })

/-! Answers to this device's packets (R374, R380, R383 to R385). -/

/-- The key of a packet among those outstanding: its target, plus 2^24 for one that bears no write. -/
def Outstanding.key (o : Outstanding) : Nat := if o.writes then o.node else o.node + 2 ^ 24

/-- The outstanding packet of a key and number. -/
def State.packetOut (s : State) (key seqno : Nat) : Option Outstanding :=
  s.outstanding.find? fun o => o.key == key && o.seqno == seqno

/-- An outstanding packet changed. -/
def State.modPacket (s : State) (o : Outstanding) (f : Outstanding → Outstanding) : State :=
  { s with outstanding := s.outstanding.map fun p => if p.key == o.key && p.seqno == o.seqno then f p else p }

/-- The outcome of a write-bearing packet kept with its course until LSEQ reads it (R384). -/
def State.keepOutcome (s : State) (o : Outstanding) (x : PktOutcome) : State :=
  if !o.writes then s
  else s.modCourse o.course fun c =>
    { c with sent := c.sent.map fun p => if p.node == o.node && p.seqno == o.seqno && p.outcome == .unknown then { p with outcome := x } else p }

/-- The flags of a completed word, all its packets resolved: they enter %fpflags at once, in the course's checkpoint too, for the
word has completed (R124, log 95). -/
def Course.flagsIn (c : Course) (word : Nat) : Course :=
  match c.wordFlags.lookup word with
  | none => c
  | some f =>
    { c with core := { c.core with fpflags := c.core.fpflags ||| f }, ckpt := { c.ckpt with fpflags := c.ckpt.fpflags ||| f },
             wordFlags := c.wordFlags.filter fun x => x.1 != word }

/-- A packet no longer outstanding. -/
def State.dropPacket (s : State) (o : Outstanding) : State :=
  { s with outstanding := s.outstanding.filter fun p => !(p.key == o.key && p.seqno == o.seqno) }

/-- A packet is resolved: it is no longer outstanding; with the word's last one its flags are complete and its charge is credited,
and the words that wait for answers, or in LSYNC for the flags, test again (R70, R124, R246, R386, R395). -/
def State.packetGone (s : State) (o : Outstanding) : State :=
  let s := s.dropPacket o
  let c := s.course o.course
  let s := if s.outstanding.any fun p => p.course == o.course && p.word == o.word then s
    else (s.modCourse o.course fun c => c.flagsIn o.word).credit c.ctx (remoteCharge c)
  s.wakeIf fun i d w => ((w.kind == .remote || w.kind == .lseq) && !d.inFlight) || (w.kind == .lsync && i == o.course)

/-- Some threads of a packet with those whose contributions they carry (R382). -/
def Outstanding.threads (o : Outstanding) (ts : List Nat) : List Nat :=
  ts ++ (o.merged.filter fun m => ts.contains m.2).map (·.1)

/-- Threads of a word fail at their target or on their way to it. -/
def State.remoteFails (s : State) (o : Outstanding) (threads : List Nat) (cause detail : Nat) : State :=
  if threads.isEmpty then s
  else
    let first := o.packet.accs.find? fun a => threads.contains a.thread
    let f : RemoteFail := { word := o.word, node := o.node, threads := o.threads threads, cause := cause, detail := detail,
                            addr := (first.map (·.addr)).getD 0, multi := o.multi, pc := o.pc }
    s.modCourse o.course fun c => { c with remoteBad := c.remoteBad ++ [f] }

/-- A course whose write-bearing packet has been acknowledged: its clock passes the write time (R242), and the flags join those of
their word (R124). -/
def Course.acked (c : Course) (word : Nat) (r : RemoteReply) : Course :=
  { c with lclock := max c.lclock r.wts, wmax := max c.wmax r.wts,
           wordFlags := c.wordFlags.map fun x => if x.1 == word then (word, x.2 ||| r.flags) else x }

/-- A packet has been performed: its results go to the word that waits for them, older copies of what it has read are used no more,
and a read line may be cached (R239, R374, R376, R380). -/
def State.packetDone (s : State) (o : Outstanding) (r : RemoteReply) : State :=
  let s := if o.writes then s.modCourse o.course fun c => c.acked o.word r else s
  let s := if o.result then (s.forgetRemote o r).modCourse o.course fun c =>
      { c with replies := c.replies ++ r.values, remoteWts := max c.remoteWts r.wts, remoteFlags := c.remoteFlags ||| r.flags }
    else s
  (((s.keepRemote o r).remoteFails o r.failed cCAPF 12).keepOutcome o .done).packetGone o

/-- The translation fault of a packet at its target, as its course's record gives it (R374). -/
def Outstanding.pageFault (o : Outstanding) (reason : Nat) : FaultInfo :=
  let ts := o.packet.accs.map (·.thread)
  { cause := cXLTF, detail := reason, mask := maskOf 256 fun t => (o.threads ts).contains t,
    addr := (o.packet.accs.map (·.addr)).headD 0, pc := o.pc }

/-- Both streams of a course wait for the target's host (R374). -/
def State.awaitHost (s : State) (i : Nat) : State :=
  s.modCourse i fun c =>
    { c with swait := some { kind := .service, internal := false, since := s.clock },
             lwait := some { kind := .service, internal := false, since := s.clock } }

/-- A packet whose target has no page for it waits for the target's host (R108, R374). The course takes the fault: a read's word
rolls back with the whole course, and its packets are gone; a word that acts at its targets, and awaits their results, stays in
flight, since no rollback sends a packet again (R380); a word that has completed gets a trap of its own (pageDue). Log 66. -/
def State.packetPaged (s : State) (o : Outstanding) (reason : Nat) : State :=
  let c := s.course o.course
  let held (p : Outstanding) : Outstanding := { p with paged := true, reason := reason, raised := o.result }
  if !o.result || c.phase == .retired then s.modPacket o held
  else if c.remoteActs then (((s.modPacket o held).writeRecord o.course (o.pageFault reason) true c.phase.code 0).awaitHost o.course)
  else
    let s : State := { s with outstanding := (s.outstanding.filter fun p => !(p.course == o.course && p.word == o.word))
      ++ [{ held o with result := false }] }
    let s := (s.restore o.course).modCourse o.course fun c => { c with remoteBad := c.remoteBad.filter fun b => b.word != o.word }
    ((s.credit c.ctx (remoteCharge c)).writeRecord o.course (o.pageFault reason) true 2 0).awaitHost o.course

/-- Another page fault of a course that it has taken is still without an answer. -/
def State.otherPage (s : State) (o : Outstanding) : Bool :=
  s.outstanding.any fun p => p.course == o.course && p.paged && p.raised && !(p.key == o.key && p.seqno == o.seqno)

/-- The target's host has answered a page fault of a packet: RETRY sends the packet again, or lets the rolled-back course replay its
read; KILL kills the course's team. A course that has no other such fault to wait for goes on (R108, R374). -/
def State.packetAnswered (s : State) (o : Outstanding) (retry : Bool) : State :=
  let waits := (s.course o.course).trapped.isNone && !s.otherPage o
  let wake (s : State) : State := if waits && o.raised then s.wakeIf fun j _ (w : Wait) => j == o.course && w.kind == WaitKind.service else s
  if !o.paged then s
  -- the charge of a rolled-back read has been credited with the rollback; that of a read whose course has ended has not
  else if !retry then (if o.writes || o.result then s.packetGone o else s.dropPacket o).killCourse o.course cXLTF
  else if !o.writes then wake (if o.result then s.packetGone o else s.dropPacket o)
  else wake (s.modPacket o fun p => { p with paged := false, raised := false, sentAt := s.clock, firstSent := s.clock })

/-- REMOTE_ACK (subj num: the packet's key, num2: its number, reply; value: 0 it has been performed, 1 plus 256 times the reason
its page is not present at the target, 2 RETRY and 3 KILL the target's host has answered). -/
def execRemoteAck (s : State) : Out :=
  let v := s.subj.value.toNat
  .next (match s.packetOut s.subj.num s.subj.num2 with
    | none => s
    | some o =>
      if v % 256 == 0 then s.packetDone o s.subj.reply
      else if v % 256 == 1 then s.packetPaged o (v / 256 % 256)
      else s.packetAnswered o (v % 256 == 2))

/-- A packet has been without an acknowledgement for 20 µs (R383). -/
def State.resendDue (s : State) (o : Outstanding) : Bool := !o.paged && decide (o.sentAt + cyclesOfUs 20 ≤ s.clock)

/-- RETRANSMIT (subj num: the packet's key, num2: its number): it goes out again over another path with the same number. -/
def execRetransmit (s : State) : Out :=
  .next (match s.packetOut s.subj.num s.subj.num2 with
    | none => s
    | some o => if s.resendDue o then s.modPacket o fun p => { p with port := s.pickPort o.port, sentAt := s.clock } else s)

/-- The link timeout of a packet's context, in cycles (R384). -/
def State.ltoOf (s : State) (o : Outstanding) : Nat := cyclesOfUs (s.context (s.course o.course).ctx).lto

/-- A packet has passed its link timeout unasked, or a further one without an answer (R384). -/
def State.resolveDue (s : State) (o : Outstanding) : Bool :=
  !o.paged && decide (o.firstSent + s.ltoOf o * (if o.asked then 2 else 1) ≤ s.clock)

/-- A packet that was dropped, or whose outcome nobody tells: a word that waits for it, and an MCAST, fail with LINKF or INDET
(R381, R385). -/
def State.packetLost (s : State) (o : Outstanding) (indet : Bool) : State :=
  let cause := if indet && o.writes then cINDET else cLINKF
  let s := if o.result || o.multi then s.remoteFails o (o.packet.accs.map (·.thread)) cause 0 else s
  (s.keepOutcome o (if indet then .indet else .dropped)).packetGone o

/-- LINK_RESOLVE (subj num: the packet's key, num2: its number, answer): at the link timeout the port asks the target; the
answer, or a further timeout without one, gives the outcome. A read without an answer fails at its first timeout (R384,
R385). -/
def execLinkResolve (s : State) : Out :=
  .next (match s.packetOut s.subj.num s.subj.num2 with
    | none => s
    | some o =>
      if o.paged || s.clock < o.firstSent + s.ltoOf o then s
      else if !o.writes then s.packetLost o true
      else if !o.asked then s.modPacket o fun p => { p with asked := true }
      else match s.subj.answer with
      | .performed => s.packetDone o s.subj.reply
      | .notPerformed => s.packetLost o false
      | .silent => if s.resolveDue o then s.packetLost o true else s)

/-- A completed remote write has failed at its target and every packet of its word is resolved: the course takes the trap of
the first failure, MCAST's with the lowest failed node in ADDR (R379, R381, R385). -/
def State.laterDue (s : State) (i : Nat) : Option RemoteFail :=
  let c := s.course i
  if c.inFlight || c.served || !(c.phase == .placed || c.phase == .running || c.phase == .waiting)
      || (s.context c.ctx).mode != .active then none
  else c.remoteBad.find? fun b => !s.outstanding.any fun o => o.course == i && o.word == b.word

/-- The page fault of a packet of a word that has completed, which its course has not taken yet (R374). -/
def State.pageDue (s : State) (i : Nat) : Option Outstanding :=
  let c := s.course i
  if c.inFlight || c.served || !(c.phase == .placed || c.phase == .running || c.phase == .waiting)
      || (s.context c.ctx).mode != .active then none
  else s.outstanding.find? fun o => o.course == i && o.paged && !o.raised && !o.result

/-- It is taken: the course rolls back to its latest checkpoint, which no packet of the word follows, its record is written with
REPLAY, and it waits for the target's host (R108, R374, R380). -/
def State.takePage (s : State) (i : Nat) (o : Outstanding) : State :=
  ((((s.modPacket o fun p => { p with raised := true }).restore i).writeRecord i (o.pageFault o.reason) true 2 0)).awaitHost i

/-- The trap of a failed remote write, or of a held store that could not be sent to host memory, is taken, with the index of its word;
ADDR holds an MCAST's lowest failed node, and else for CAPF and MEMERR the address of the lowest failing thread (R54, R354, R381,
R414). -/
def State.takeLater (s : State) (i : Nat) (b : RemoteFail) : State :=
  let c := s.course i
  let all := c.remoteBad.filter fun x => x.word == b.word
  let mask := maskOf 256 fun t => all.any fun x => x.threads.contains t
  let node := all.foldl (fun n x => min n x.node) b.node
  let addr := if b.multi then node else if b.cause == cCAPF || b.cause == cMEMERR then failAddr (all.filter (·.cause == b.cause)) else 0
  (s.modCourse i fun c => { c with remoteBad := c.remoteBad.filter fun x => x.word != b.word }).takeTrap i
    { cause := b.cause, detail := b.detail, mask := mask, addr := addr, pc := b.pc, later := true }

/-! Delegated lines (R377). -/

/-- LINE_DELEGATE (subj num: the line): a switch slice becomes its serialisation point, with its timestamps and monitors. -/
def execLineDelegate (s : State) : Out :=
  let l := s.subj.num
  .next (if s.delegated.contains l || hostBase ≤ l * 64 then s else { s with delegated := l :: s.delegated })

/-- DELEGATION_RECALL (subj num: the line): its home is its serialisation point again. -/
def execDelegationRecall (s : State) : Out := .next { s with delegated := s.delegated.filter (· != s.subj.num) }

/-! Loans (R387 to R392). -/

/-- Loan k changed. -/
def State.modLoan (s : State) (k : Nat) (f : Loan → Loan) : State :=
  { s with loans := s.loans.map fun l => if l.index == k then f l else l }

/-- Milliseconds as core cycles. -/
def cyclesOfMs (n : Nat) : Nat := cyclesOfUs (n * 1000)

/-- The entries of a page table of n entries that are not blank: their addresses. -/
def State.tableEntries (s : State) (table n : Nat) : List Nat :=
  ((s.mem.filter fun c => decide (table ≤ c.1) && decide (c.1 < table + 8 * n)).map fun c => table + (c.1 - table) / 8 * 8).eraseDups

/-- The addresses of the leaves of a page-table tree that lie in a loan, by level. -/
def State.loanLeaves (s : State) (k : Nat) : List Nat → Nat → List Nat
  | [], _ => []
  | n :: rest, table =>
    (s.tableEntries table n).flatMap fun p =>
      let e := s.entryAt p
      if !e.getLsbD 0 then []
      else if e.getLsbD 1 then (if e.toNat / 256 % 4 == 1 && entryPA e / 2 ^ 40 == k then [p] else [])
      else s.loanLeaves k rest (entryPA e)

/-- The leaves of a context in a loan. -/
def State.ctxLeaves (s : State) (x k : Nat) : List Nat := s.loanLeaves k [262144, 512, 512, 32] (s.context x).ptroot

/-- The contexts with a leaf in a loan. -/
def State.borrowers (s : State) (k : Nat) : List Nat :=
  (s.contexts.filter fun x => x.mode != .deleted && !(s.ctxLeaves x.num k).isEmpty).map (·.num)

/-- The demotion counters of some contexts rise by 1, which wakes their EVWAITs (R394). -/
def State.demote (s : State) (xs : List Nat) : State :=
  let s := xs.foldl (fun s x => s.modCtx x fun c => { c with demotions := c.demotions + 1 }) s
  s.wakeIf fun _ c w => w.kind == .event && xs.contains c.ctx

/-- The held stores of a course to a lost loan never reach its lender: they are dropped, as a system-scope release and LSEQ will find
(R384, R385, R388, log 33). -/
def State.dropHeld (s : State) (i lender : Nat) : State :=
  let gone (c : Course) (va : Nat) : Bool := match s.translate c.who va true with | .error .linkf => true | .ok _ | .error _ => false
  let lost := (s.course i).heldG.filter fun h => gone (s.course i) h.1
  if lost.isEmpty then s
  else s.modCourse i fun c =>
    { c with heldG := c.heldG.filter fun h => !gone c h.1, owed := c.owed.filter fun h => !gone c h.1,
             sent := c.sent ++ [{ node := lender, seqno := 0, outcome := .dropped, ranges := lost.map fun h => (h.1, 1) }] }

/-- A loan is lost: its data is gone, and accesses to it raise LINKF (R388, R389). -/
def State.loseLoan (s : State) (k : Nat) : State :=
  let s1 := (s.modLoan k fun l => { l with state := 4 }).demote (s.borrowers k)
  ((List.range s1.courses.length).foldl (fun (s : State) i => s.dropHeld i (s.loan k).lender) s1).wakeIf fun _ _ w => w.kind == .move || w.kind == .writes

/-- A renewal is due every TERM/4 (R389). -/
def State.renewDue (s : State) (l : Loan) : Bool :=
  (l.state == 1 || l.state == 2) && decide (4 * l.asked + cyclesOfMs l.term ≤ 4 * s.clock)

/-- LOAN_RENEW (subj num: the loan): the borrower sends a renewal. -/
def execLoanRenew (s : State) : Out :=
  .next (s.modLoan s.subj.num fun l => if s.renewDue l then { l with asked := s.clock } else l)

/-- One TERM has passed without an acknowledged renewal (R389). -/
def State.lostDue (s : State) (l : Loan) : Bool :=
  (l.state == 1 || l.state == 2) && decide (l.renewed + cyclesOfMs l.term ≤ s.clock)

/-- LOAN_LOST (subj num: the loan). -/
def execLoanLost (s : State) : Out :=
  let k := s.subj.num
  .next (if s.lostDue (s.loan k) then s.loseLoan k else s)

/-- Two TERMs have passed without a renewal of a region lent out (R389). -/
def State.reuseDue (s : State) (l : Lend) : Bool := !l.reusable && decide (l.renewed + 2 * cyclesOfMs l.term ≤ s.clock)

/-- LENDER_REUSE (subj num: the region). -/
def execLenderReuse (s : State) : Out :=
  .next { s with lends := s.lends.map fun (l : Lend) => if l.index == s.subj.num && s.reuseDue l then { l with reusable := true } else l }

/-- RENEWAL_RECEIVE (subj num: the region, num2: the borrower): the lender acknowledges it (R389). -/
def execRenewalReceive (s : State) : Out :=
  .next { s with lends := s.lends.map fun (l : Lend) =>
    if l.index == s.subj.num && !l.reusable then { l with renewed := s.clock, borrower := s.subj.num2 } else l }

/-- RENEWAL_ACK_RECEIVE (subj num: the loan). -/
def execRenewalAckReceive (s : State) : Out :=
  .next (s.modLoan s.subj.num fun l => if l.state == 1 || l.state == 2 then { l with renewed := s.clock } else l)

/-- RECALL_RECEIVE (subj num: the loan): an active loan goes to moving; a second recall has no effect (R390, R392). -/
def execRecallReceive (s : State) : Out :=
  .next (s.modLoan s.subj.num fun l => if l.state == 1 then { l with state := 2, recalledAt := s.clock } else l)

/-- A leaf of a moved loan: TIER 0 or 2 and its new address (R390). -/
def movedLeaf (l : Loan) (e : BitVec 64) : BitVec 64 :=
  let n := e.toNat
  let pa := l.space + entryPA e / 2 ^ 16 % 2 ^ 24 * 2 ^ 16
  BitVec.ofNat 64 (n / 2 ^ 52 * 2 ^ 52 + pa / 2 ^ 12 % 2 ^ 40 * 2 ^ 12 + n / 2 ^ 10 % 4 * 2 ^ 10
    + (if l.dest then 2 else 0) * 2 ^ 8 + n % 2 ^ 8)

/-- The bytes of a lent region as the borrower sees them, by their offset. -/
def State.lentCells (s : State) (l : Loan) : List Host.Cell :=
  let base := l.lender * 2 ^ 52 + l.lbase
  (s.lentMem.filter fun c => decide (base ≤ c.1) && decide (c.1 < base + l.bytes)).map fun c => (c.1 - base, c.2)

/-- The time that the lines of a loan take at their new homes: past every timestamp of the lines they leave and of those they replace
(R242, R391). -/
def State.moveTime (s : State) (src dst lines : Nat) : Nat :=
  let within (l : Nat) : Bool := (decide (src ≤ l) && decide (l < src + lines)) || (decide (dst ≤ l) && decide (l < dst + lines))
  let t := s.stamps.foldl (fun m t => if within t.1 then max m (max t.2.1 t.2.2) else m) 0
  s.floors.foldl (fun m f => max m f.2.2) (s.sliceBase.foldl (fun m b => max m b.2) t) + 1

/-- The bytes of a loan written into its demotion space, every line of which takes a new timestamp; a line that the host holds is
written after its response (R391, R431). What of host memory the host has since taken out of its windows is not written
(R414; DESIGN CHOICE, log 137). -/
def State.copyLoan (s : State) (l : Loan) : State :=
  let cells := s.lentCells l
  let dst := (if l.dest then hostBase else 0) + l.space
  let t := s.moveTime ((lentBase + l.lender * 2 ^ 52 + l.lbase) / 64) (dst / 64) (l.bytes / 64)
  let held := if l.dest then s.hostMem.map (·.1)
    else s.mem.map (·.1) ++ s.badMem ++ s.hostLines.flatMap fun n => (List.range 64).map fun k => n * 64 + k
  let stale := (held.filter fun a => decide (l.space ≤ a) && decide (a < l.space + l.bytes)).map (· - l.space)
  let s := (s.writeLocs t (((cells.map (·.1) ++ stale).eraseDups.filter fun o => !l.dest || s.hostWindow (l.space + o) 1).map fun o => (dst + o, (cells.lookup o).getD 0))).1
  { s with floors := (dst / 64, l.bytes / 64, t) :: s.floors }

/-- The leaves of a loan in a context rewritten; the time of the latest write is kept for EVWAIT (R390, R394). -/
def State.rewriteLeaves (s : State) (l : Loan) (x : Nat) : State :=
  (s.ctxLeaves x l.index).foldl (fun s p =>
    let r := s.writeLocs 0 (cellsAt p (leBytes 8 (movedLeaf l (s.entryAt p)).toNat))
    r.1.modCtx x fun c => { c with demotedAt := max c.demotedAt r.2 }) s

/-- The translations of a loan removed, and the stores that waited for its move performed, as at a checkpoint; a course with a word in
flight, and one that is vacated or has ended, commits them alone (R111, R390, R392). -/
def State.settleMove (s : State) (l : Loan) (xs : List Nat) : State :=
  let s : State := { s with tlb := s.tlb.filter fun t => !(t.leaf.toNat / 256 % 4 == 1 && entryPA t.leaf / 2 ^ 40 == l.index) }
  ((List.range s.courses.length).filter fun i => xs.contains (s.course i).ctx && (s.course i).heldCount != 0).foldl (fun s i =>
    let c := s.course i
    if c.inFlight || c.phase == .vacated || c.phase == .retired then s.commitG i fun _ => true else s.checkpoint i) s

/-- The cycle by which a recall's move ends (R390). -/
def Loan.deadline (l : Loan) : Nat :=
  let bw := if l.dest then 121 else 224
  l.recalledAt + cyclesOfNs (4000 + (l.bytes + bw - 1) / bw)

/-- RECALL_MOVE_DONE (subj num: the loan): the copy has ended, the leaves name the new tier, and RELEASED is sent; a copy that a
failed link stopped past the deadline loses the loan (R390, R391, R394, log 68). -/
def execRecallMoveDone (s : State) : Out :=
  let k := s.subj.num
  let l := s.loan k
  .next (if l.state != 2 then s
    else if l.deadline < s.clock && s.portsDown != 0 then s.loseLoan k
    else
      let xs := s.borrowers k
      let s := (s.copyLoan l).modLoan k fun l => { l with state := 3, released := true }
      let s : State := if xs.isEmpty then s
        else { s with demotions := { dest := l.dest, space := l.space, bytes := l.bytes, ctxs := xs } :: s.demotions }
      let s := (xs.foldl (fun s x => s.rewriteLeaves l x) s).settleMove l xs
      (s.demote xs).wakeIf fun _ _ w => w.kind == .move || w.kind == .writes)

/-- RELEASED_RECEIVE (subj num: the region): a recalled region is back (R390). -/
def execReleasedReceive (s : State) : Out :=
  .next { s with lends := s.lends.map fun (l : Lend) => if l.index == s.subj.num && l.recalled then { l with reusable := true } else l }

/-! Failures (R417, R432). -/

/-- PORT_LINK_DOWN (subj num: the port, 0 to 31): routing avoids it. -/
def execPortLinkDown (s : State) : Out := .next { s with portsDown := s.portsDown ||| BitVec.ofNat 32 (2 ^ (s.subj.num % 32)) }

/-- MISSED_HEARTBEAT (subj num: the node, bytes: the contexts of its job on this device): the failure is known, and the job's
contexts are vacated (R417). -/
def execMissedHeartbeat (s : State) : Out :=
  let s1 : State := { s with deadNodes := if s.deadNodes.contains s.subj.num then s.deadNodes else s.deadNodes ++ [s.subj.num] }
  .next (s.subj.bytes.foldl (fun s b => s.requestVacate b.toNat) s1)

end Sys2Proof.Machine
end

