-- ==== Sys2Proof/Machine/HostPort.lean ====
section
/-! DEFINITION. The host port: control registers, the host's accesses to memory, back-invalidation, power and heat, and device
reset with its boot stages (R242, R260, R430 to R436). -/

namespace Sys2Proof.Machine

/-! Control registers (R430). -/

/-- HPBUDGET written: PW from 1,600 to 2,400 W in steps of 50, any other value leaves it (R430, R435). -/
def State.setBudget (s : State) (v : Nat) : State :=
  let w := v % 2 ^ 12
  if 1600 ≤ w && w ≤ 2400 && w % 50 == 0 then { s with hpbudget := w } else s

/-- HPBUDGET_WRITE (subj value). -/
def execHpbudgetWrite (s : State) : Out := .next (s.setBudget s.subj.value.toNat)

/-- MRING written: the management ring at its address, its capacity and counters as its header has them (R396, R397, R430,
log 17). -/
def State.setMring (s : State) (v : BitVec 64) : State :=
  let q0 : Queue := { num := mgmtRing, ctx := 64, host := v.getLsbD 63, base := v.toNat % 2 ^ 63, weight := 1, pinmap := true,
                      ready := true }
  let h := leNat ((s.ringRead q0 0 64).toOption.getD [])
  let q : Queue := { q0 with caplog := min (h / 2 ^ 16 % 2 ^ 5) 16, rptr := h / 2 ^ 96 % 2 ^ 32, done := h / 2 ^ 96 % 2 ^ 32 }
  { s with mring := v, queues := { q with line := s.ringLine q } :: s.queues.filter fun q => q.num != mgmtRing }

/-- MRING_WRITE (subj value). -/
def execMringWrite (s : State) : Out := .next (s.setMring s.subj.value)

/-- Half j (0 low, 1 high) of entry k of a table of 128-bit entries written. -/
def setHalf (l : List (BitVec 128)) (k j : Nat) (v : BitVec 64) : List (BitVec 128) :=
  (l ++ List.replicate (k + 1 - l.length) 0).modify k fun e =>
    if j == 0 then BitVec.ofNat 128 (e.toNat / 2 ^ 64 * 2 ^ 64 + v.toNat) else BitVec.ofNat 128 (v.toNat * 2 ^ 64 + e.toNat % 2 ^ 64)

/-- HOST_REG_WRITE (subj num: the offset in BAR0, value): CXLWIN entries of 16 bytes, WFILT entries of 32 bytes, of which the
fields fill the first 16; HPSTAT is read-only (R430, log 21). -/
def execHostRegWrite (s : State) : Out :=
  let off := s.subj.num / 8 * 8
  let v := s.subj.value
  .next (if off == 0 then s.setBudget v.toNat
    else if off == 8 then s.setMring v
    else if 0x100 ≤ off && off < 0x200 then { s with cxlwin := setHalf s.cxlwin ((off - 0x100) / 16) (off % 16 / 8) v }
    else if 0x200 ≤ off && off < 0x400 then
      (if off % 32 < 16 then { s with wfilt := setHalf s.wfilt ((off - 0x200) / 32) (off % 16 / 8) v } else s)
    else if off == 0x400 then s
    else { s with hostRegs := (off, v) :: s.hostRegs.filter fun r => r.1 != off })

/-- HPSTAT: needles up, attestation ready, standby healthy, boot stage (R430, R433). -/
def State.hpstat (s : State) : Nat :=
  flagNat (3 ≤ s.boot) + 2 * flagNat (5 ≤ s.boot) + 4 * flagNat s.standbyOk + 16 * s.boot

/-! The host's accesses to memory (R260, R431). -/

/-- Every byte of a range of locations lies in memory (R109); all of host memory is the host's. -/
def hostReach (a n : Nat) : Bool := if hostBase ≤ a then decide (a + n ≤ lentBase) else inGroup a n

/-- The host's response for a line: the writes held for it are performed, oldest first, and the releases that wait for them test
again (R431). -/
def State.backInvalidate (s : State) (l : Nat) : State :=
  let (mine, rest) := s.heldWrites.partition fun w => w.1 / 64 == l
  let s1 : State := { s with heldWrites := rest, heldFor := s.heldFor.filter fun h => h.line != l,
                             hostLines := s.hostLines.filter (· != l) }
  let s2 := mine.foldl (fun s w => (cellsAt w.1 w.2).foldl (fun s c => s.locSet c.1 c.2) s) s1
  (s2.wakeLine l).wakeIf fun _ _ w => w.kind == .writes

/-- The held writes of the lines that a condition picks performed. -/
def State.respond (s : State) (p : Nat → Bool) : State :=
  (((s.heldWrites.map fun w => w.1 / 64).eraseDups).filter p).foldl State.backInvalidate s

/-- Bytes the host writes: performed at the home slice with the host's clock, after the writes that its lines hold, whose write times
are earlier; the line's monitors wake, and its own caches need no back-invalidation (R239, R260). -/
def State.hostWrite (s : State) (a : Nat) (bytes : List Byte) : State :=
  let s := s.respond fun l => (pieces a bytes.length).any fun p => p.1 / 64 == l
  let mine := s.hostLines
  let r := ({ s with hostLines := [] }).writeLocs s.hostClock (cellsAt a bytes)
  { r.1 with hostLines := mine, hostClock := max s.hostClock r.2 }

/-- HOST_MEM_WRITE (subj num: the device physical address, or 2^64 plus a host physical address; bytes). -/
def execHostMemWrite (s : State) : Out :=
  let a := s.subj.num
  if hostReach a s.subj.bytes.length then .next (s.hostWrite a s.subj.bytes) else .fault (.noMemory a)

/-- The bytes the host's caches give of one line: as they stood before the writes held for its response (R431). -/
def State.hostLineRead (s : State) (a n : Nat) : List Byte := (List.range n).map fun i => s.memGet (a + i)

/-- HOST_MEM_READ (subj num: the device physical address, num2: the number of bytes): the host's caches then hold the lines. A line
with held writes is read from the host's caches, before them, or again from its home once its response has let them be performed:
either, never a mixture, and no older value once a newer one has been read (R239, R431). -/
def execHostMemRead (s : State) : Out :=
  let a := s.subj.num
  let n := s.subj.num2
  if hostBase ≤ a || !hostReach a n then .fault (.noMemory a)
  else
    let lines := (pieces a n).map fun p => p.1 / 64
    let s := s.respond fun l => lines.contains l && s.pick l
    .next (lines.foldl (fun s l =>
        let (w, r) := s.stampOf l
        let lease := max r (s.hostClock + (Config.leaseRaw (s.free * 2 ^ 128 + l)).toNat + 1)
        ({ s with hostClock := max s.hostClock w }).setStamp l w lease)
      { s with hostRead := (pieces a n).flatMap fun p => s.hostLineRead p.1 p.2,
               hostLines := lines.filter (fun l => !s.hostLines.contains l) ++ s.hostLines })

/-- BACK_INVALIDATE_RESPONSE (subj num: the line). -/
def execBackInvalidateResponse (s : State) : Out := .next (s.backInvalidate s.subj.num)

/-! Reset and boot (R430, R433, R436). -/

/-- The device as its reset ends, in boot stage 1. What lies outside it stays: host memory, other devices' memory, its place in the
fabric, and the free values still to come. -/
def State.rebooted (s : State) : State :=
  { State.reset with hostMem := s.hostMem, lentMem := s.lentMem, node := s.node, routes := s.routes, free := s.free, boot := 1,
                     image := 1 }

/-- The boot goes on. -/
def State.booting (s : State) : Bool := 1 ≤ s.boot && s.boot < 5 && !s.halted

/-- A boot stage ends (R433): the digest of the image in flash is computed or the device stops; the image's signature is verified,
else the fallback is booted and verified, else the device stops; the needles start; the memory stacks, the links and the ports train
and those that fail stay down; the identity key is derived, and the report is available. -/
def State.bootNext (s : State) : State :=
  if s.boot == 1 then (if Config.romDigest s.free then { s with boot := 2 } else { s with halted := true })
  else if s.boot == 2 then
    if Config.imageAccepted (Config.imageBytes s.image) then { s with boot := 3 }
    else if s.image == 1 then { s with image := 3 }
    else { s with halted := true }
  else if s.boot == 3 then { s with boot := 4, standbyOk := true }
  else if s.boot == 4 then
    { s with boot := 5, portsDown := s.portsDown ||| Config.portsFailed s.free, stacksDown := Config.stacksFailed s.free,
             linksDown := Config.linksFailed s.free }
  else s

/-- DEVICE_RESET. -/
def execDeviceReset (s : State) : Out := .next s.rebooted

/-! Heat (R435, R436). -/

/-- THERMAL_THROTTLE (subj num: the junction temperature in °C, every 10 ms): above 100 each ring carries one token less than
it did, below 95 one goes back (R435). -/
def execThermalThrottle (s : State) : Out :=
  let t := s.subj.num
  .next (if 100 < t then { s with throttle := min s.tokens (s.tokens - s.ringTokens + 1) }
    else if t < 95 then { s with throttle := s.throttle - 1 }
    else s)

/-- THERMAL_SHUTDOWN: at 110 °C the device resets. -/
def execThermalShutdown (s : State) : Out := .next s.rebooted

end Sys2Proof.Machine
end

