-- ==== Sys2Proof/Machine/LaneConvert.lean ====
section
/-! DEFINITION. The conversion class (R125 to R131). -/

namespace Sys2Proof.Machine

open Sys2Proof.Num

/-- Bits [lo + n - 1 : lo] as a write mask. -/
def bitMask (lo n : Nat) : Word := BitVec.ofNat 32 ((2 ^ n - 1) * 2 ^ lo)

/-- CVT: same count, widening from part SEL, or narrowing into part SEL with the other elements of D kept (R126). -/
def execCvt (w : Single) (s : State) : Out :=
  let src := w.ty.toNat
  let dst := w.mod.toNat % 16
  let ns := Legal.count src
  let nd := Legal.count dst
  let wd := Legal.width dst
  let sel := w.sel.toNat
  let cv (a : Word) (i : Nat) : Res := conv src dst (rmOf w.rnd) w.sat (elem (Legal.width src) a i)
  let narrow : Bool := ns < nd
  let f (a : Word) : Word × Flags :=
    if narrow then
      let r := packRes wd ((List.range ns).map (cv a))
      (r.1 <<< (sel * ns * wd), r.2)
    else packRes wd ((List.range nd).map fun i => cv a (if nd < ns then sel * nd + i else i))
  .next (s.mapWord w { a := some src, d := narrow } (fun _ a _ _ => f a) false
    (if narrow then bitMask (sel * ns * wd) (ns * wd) else BitVec.allOnes 32))

/-- The type PACK reads its sources in (R125). -/
def packSource (dst : Nat) : Nat := if Legal.isInt dst then (if Legal.isSigned dst then 0 else 1) else 2

/-- PACK: two elements of D written, the others kept (R127). -/
def execPack (w : Single) (s : State) : Out :=
  let dst := w.ty.toNat
  let src := packSource dst
  let wd := Legal.width dst
  let cv (a : Word) : Res := conv src dst (rmOf w.rnd) w.sat a.toNat
  let f (a b : Word) : Word × Flags :=
    let r := packRes wd (if w.mod.getLsbD 0 then [cv b, cv a] else [cv a, cv b])
    (r.1 <<< (2 * w.sel.toNat * wd), r.2)
  .next (s.mapWord w { a := some src, b := some src, d := true } (fun _ a b _ => f a b) false
    (bitMask (2 * w.sel.toNat * wd) (2 * wd)))

/-- UNPK (R128). -/
def execUnpk (w : Single) (s : State) : Out :=
  let ty := w.ty.toNat
  let wd := Legal.width ty
  let f (a b : Word) : Word × Flags :=
    let x := elem wd a (b.toNat % Legal.count ty)
    if w.mod.getLsbD 0 then (BitVec.ofNat 32 x, 0)
    else if Legal.isInt ty then (BitVec.ofInt 32 (sval (Legal.isSigned ty) wd x), 0)
    else
      let r := conv ty 2 .rne false x
      (BitVec.ofNat 32 r.bits, r.fl)
  .next (s.mapWord w { a := some ty, b := some 1 } (fun _ a b _ => f a b))

/-- SCACC with f32 scales: two roundings (R129). -/
def scaccF32 (d a b c : Word) : Word × Flags :=
  let p := Num.fmul 2 .rne false b.toNat c.toNat
  let r := Num.fma 2 .rne false false false a.toNat p.bits d.toNat
  (BitVec.ofNat 32 r.bits, p.fl ||| r.fl)

/-- SCACC (R129). -/
def execScacc (w : Single) (s : State) : Out :=
  let f32 := w.mod.toNat % 4 == 1
  let ty := if f32 then 2 else 1
  let sel := w.sel.toNat
  let f (d a b c : Word) : Word × Flags :=
    if f32 then scaccF32 d a b c else Num.scaccE8 d a (elem 8 b (sel % 4)) (elem 8 c (sel / 4))
  .next (s.mapWord w { a := some 2, b := some ty, c := some ty, d := true } f)

/-- The scaled value of SCALE rounded into the destination type (R130). -/
def scaleOne (ty : Nat) (rm : Rm) (sat div : Bool) (a e : Nat) : Res :=
  match fval 2 a with
  | .nan sn => ⟨canonNaN ty, if sn || e == 255 then NV else 0⟩
  | .inf n => if e == 255 then ⟨canonNaN ty, NV⟩ else toFloat ty rm sat (.inf n)
  | .fin n m x =>
    if e == 255 then ⟨canonNaN ty, NV⟩
    else toFloat ty rm sat (.fin n m (if div then x + 127 - e else x + e - 127))

/-- SCALE (R130). -/
def execScale (w : Single) (s : State) : Out :=
  let ty := w.ty.toNat
  let wd := Legal.width ty
  let pos := w.mod.toNat / 2 % 16
  let f (a b : Word) : Word × Flags :=
    let r := scaleOne ty (rmOf w.rnd) w.sat (w.mod.getLsbD 0) a.toNat (elem 8 b (w.sel.toNat % 4))
    (BitVec.ofNat 32 (r.bits * 2 ^ (pos * wd)), r.fl)
  .next (s.mapWord w { a := some 2, b := some 1, d := ty != 2 } (fun _ a b _ => f a b) false (bitMask (pos * wd) wd))

/-- The floor of log2 of a non-zero finite value. -/
def floorLog2 (m : Nat) (e : Int) : Int := e + Nat.log2 m

/-- The scale byte of one block's active values (R131). -/
def blockScale (emax : Nat) (vals : List Word) : Nat :=
  let fs := vals.map fun v => fval 2 (v.toNat % 2 ^ 31)
  if fs.any FVal.isNan then 255
  else
    let m := vals.foldl (fun m v => max m (v.toNat % 2 ^ 31)) 0
    match fval 2 m with
    | .nan _ => 255
    | .inf _ => 254
    | .fin _ 0 _ => 127
    | .fin _ k e => (max 0 (min 254 (floorLog2 k e - emax + 127))).toNat

/-- BSCL (R131). -/
def execBscl (w : Single) (s : State) : Out :=
  let g := s.me.core.guard w.ng
  let emax := match w.mod.toNat % 4 with | 0 => 8 | 1 => 15 | _ => 6
  .next (match s.issue g [(w.a, g)] with
    | .error x => s.stop x
    | .ok e =>
      let sel := e.guard w.ng
      let a := e.src 2 w.imm w.a
      let bytes := (List.range 8).map fun j =>
        blockScale emax ((List.range 32).filterMap fun i => if sel.getLsbD (32 * j + i) then a[32 * j + i]? else none)
      let vals := bytes.flatMap fun b => List.replicate 32 (BitVec.ofNat 32 (b * 0x01010101))
      s.finish e [keyOf w.d] none fun c => c.writeV w.d sel vals)

end Sys2Proof.Machine
end

