-- ==== Sys2Proof/Machine/LaneInt.lean ====
section
/-! DEFINITION. The lane integer class (R139 to R144). -/

namespace Sys2Proof.Machine

open Sys2Proof.Num

/-- A result without flags. -/
def plain (f : Word → Word → Word → Word) : Word → Word → Word → Word × Flags := fun a b c => (f a b c, 0)

/-- IADD: an elementwise sum (R140). -/
def opIadd (ty : Nat) (sat : Bool) : Word → Word → Word → Word × Flags := plain fun a b _ => intMap2 ty sat (· + ·) a b

/-- ISUB. -/
def opIsub (ty : Nat) (sat : Bool) : Word → Word → Word → Word × Flags := plain fun a b _ => intMap2 ty sat (· - ·) a b

/-- IMUL. -/
def opImul (ty : Nat) (sat : Bool) : Word → Word → Word → Word × Flags := plain fun a b _ => intMap2 ty sat (· * ·) a b

/-- IMAD. -/
def opImad (ty : Nat) (sat : Bool) : Word → Word → Word → Word × Flags := plain fun a b c => Num.imad ty sat a b c

/-- IMIN. -/
def opImin (ty : Nat) : Word → Word → Word → Word × Flags :=
  plain fun a b _ => intMap2 ty false (fun x y => if x ≤ y then x else y) a b

/-- IMAX. -/
def opImax (ty : Nat) : Word → Word → Word → Word × Flags :=
  plain fun a b _ => intMap2 ty false (fun x y => if x ≤ y then y else x) a b

/-- AND. -/
def opAnd : Word → Word → Word → Word × Flags := plain fun a b _ => a &&& b

/-- OR. -/
def opOr : Word → Word → Word → Word × Flags := plain fun a b _ => a ||| b

/-- XOR. -/
def opXor : Word → Word → Word → Word × Flags := plain fun a b _ => a ^^^ b

/-- SHL. -/
def opShl (ty : Nat) : Word → Word → Word → Word × Flags := plain fun a b _ => patMap2 ty eShl a b

/-- SHR. -/
def opShr (ty : Nat) : Word → Word → Word → Word × Flags := plain fun a b _ => patMap2 ty eShr a b

/-- SRA. -/
def opSra (ty : Nat) : Word → Word → Word → Word × Flags := plain fun a b _ => patMap2 ty eSra a b

/-- MOV. -/
def opMov : Word → Word → Word → Word × Flags := plain fun a _ _ => a

/-- SEL. -/
def opSel (ty : Nat) : Word → Word → Word → Word × Flags := plain fun a b c => selElems ty a b c

/-- IADD. -/
def execIadd (w : Single) (s : State) : Out := .next (s.arith w 2 (opIadd w.ty.toNat w.sat))

/-- ISUB. -/
def execIsub (w : Single) (s : State) : Out := .next (s.arith w 2 (opIsub w.ty.toNat w.sat))

/-- IMUL. -/
def execImul (w : Single) (s : State) : Out := .next (s.arith w 2 (opImul w.ty.toNat w.sat))

/-- IMULH: signed for i32, unsigned for n32 (R141). -/
def execImulh (w : Single) (s : State) : Out := .next (s.arith w 2 (plain fun a b _ => Num.imulh (w.ty == 0) a b))

/-- IMAD. -/
def execImad (w : Single) (s : State) : Out := .next (s.arith w 3 (opImad w.ty.toNat w.sat))

/-- IMIN. -/
def execImin (w : Single) (s : State) : Out := .next (s.arith w 2 (opImin w.ty.toNat))

/-- IMAX. -/
def execImax (w : Single) (s : State) : Out := .next (s.arith w 2 (opImax w.ty.toNat))

/-- IABS. -/
def execIabs (w : Single) (s : State) : Out :=
  .next (s.arith w 1 (plain fun a _ _ => intMap1 w.ty.toNat w.sat (fun x => x.natAbs) a))

/-- INEG. -/
def execIneg (w : Single) (s : State) : Out :=
  .next (s.arith w 1 (plain fun a _ _ => intMap1 w.ty.toNat w.sat (fun x => -x) a))

/-- AND. -/
def execAndLane (w : Single) (s : State) : Out := .next (s.arith w 2 opAnd)

/-- OR. -/
def execOrLane (w : Single) (s : State) : Out := .next (s.arith w 2 opOr)

/-- XOR. -/
def execXorLane (w : Single) (s : State) : Out := .next (s.arith w 2 opXor)

/-- NOT. -/
def execNot (w : Single) (s : State) : Out := .next (s.arith w 1 (plain fun a _ _ => ~~~a))

/-- SHL. -/
def execShlLane (w : Single) (s : State) : Out := .next (s.arith w 2 (opShl w.ty.toNat))

/-- SHR. -/
def execShrLane (w : Single) (s : State) : Out := .next (s.arith w 2 (opShr w.ty.toNat))

/-- SRA. -/
def execSraLane (w : Single) (s : State) : Out := .next (s.arith w 2 (opSra w.ty.toNat))

/-- ROT. -/
def execRot (w : Single) (s : State) : Out := .next (s.arith w 2 (plain fun a b _ => patMap2 w.ty.toNat eRot a b))

/-- BFE: sign-extended for i32 (R142). -/
def execBfe (w : Single) (s : State) : Out := .next (s.arith w 2 (plain fun a b _ => Num.bfe (w.ty == 0) a b))

/-- BFI. -/
def execBfi (w : Single) (s : State) : Out := .next (s.arith w 3 (plain fun a b c => Num.bfi a b c))

/-- POPC. -/
def execPopcLane (w : Single) (s : State) : Out := .next (s.arith w 1 (plain fun a _ _ => patMap1 w.ty.toNat ePopc a))

/-- CLZ. -/
def execClzLane (w : Single) (s : State) : Out := .next (s.arith w 1 (plain fun a _ _ => patMap1 w.ty.toNat eClz a))

/-- BREV. -/
def execBrev (w : Single) (s : State) : Out := .next (s.arith w 1 (plain fun a _ _ => patMap1 w.ty.toNat eBrev a))

/-- MOV. -/
def execMov (w : Single) (s : State) : Out := .next (s.arith w 1 opMov)

/-- SEL; here the SEL field broadcasts an element of B (R137). -/
def execSel (w : Single) (s : State) : Out := .next (s.arith w 3 (opSel w.ty.toNat))

/-- IDP4: MIX is MOD[0] (R143). -/
def execIdp4 (w : Single) (s : State) : Out :=
  .next (s.arith w 3 (plain fun a b c => Num.idp4 w.ty.toNat (w.mod.getLsbD 0) w.sat a b c))

end Sys2Proof.Machine
end

