-- ==== Sys2Proof/Machine/LanePair.lean ====
section
/-! DEFINITION. Pair words: two slots on sources read before either result is written (R55, R56). -/

namespace Sys2Proof.Machine

/-- The TYPE a PTYPE means (R49). -/
def ptype (p : BitVec 3) : Nat := match p.toNat with | 5 => 8 | 6 => 10 | n => n

/-- What a slot computes: the single-format instruction of the same name with every other field zero (R56). -/
def slotOp (op : PairOp) (w : Slot) : Word → Word → Word → Word × Num.Flags :=
  let ty := ptype w.pty
  match op with
  | .iadd => opIadd ty false
  | .isub => opIsub ty false
  | .imul => opImul ty false
  | .imad => opImad ty false
  | .imin => opImin ty
  | .imax => opImax ty
  | .and => opAnd
  | .or => opOr
  | .xor => opXor
  | .shl => opShl ty
  | .shr => opShr ty
  | .sra => opSra ty
  | .mov => opMov
  | .sel => opSel ty
  | .fadd => opFadd ty w.rnd false
  | .fsub => opFsub ty w.rnd false
  | .fmul => opFmul ty w.rnd false
  | .fma => opFma ty w.rnd false 0
  | .fmin => opFminmax ty false false
  | .fmax => opFminmax ty true false
  | .fabs => opFabs ty
  | .fneg => opFneg ty

/-- A pair word (R56): slot P with its opcode, slot Q with its own. -/
def State.pairWord (s : State) (pop : PairOp) (p : Slot) (qop : PairOp) (q : Slot) : State :=
  let k := s.me.core
  let gp := k.guard p.ng
  let gq := k.guard q.ng
  let rp := (Legal.pairSrc pop p).map fun c => (c, gp)
  let rq := (Legal.pairSrc qop q).map fun c => (c, gq)
  match s.issue (if rp.any (fun r => Legal.isQ r.1) then gp else gq) ((if p.u then [] else rp) ++ if q.u then [] else rq)
    ((if p.u then rp else []) ++ if q.u then rq else []) with
  | .error x => s.stop x
  | .ok e =>
    s.finish e [keyOf p.d, keyOf q.d] none fun c =>
      (c.slotWrite e p (ptype p.pty) (slotOp pop p)).slotWrite e q (ptype q.pty) (slotOp qop q)

/-- IADD in slot P. -/
def execIaddPair (p : Slot) (qop : PairOp) (q : Slot) (s : State) : Out := .next (s.pairWord .iadd p qop q)

/-- ISUB in slot P. -/
def execIsubPair (p : Slot) (qop : PairOp) (q : Slot) (s : State) : Out := .next (s.pairWord .isub p qop q)

/-- IMUL in slot P. -/
def execImulPair (p : Slot) (qop : PairOp) (q : Slot) (s : State) : Out := .next (s.pairWord .imul p qop q)

/-- IMAD in slot P. -/
def execImadPair (p : Slot) (qop : PairOp) (q : Slot) (s : State) : Out := .next (s.pairWord .imad p qop q)

/-- IMIN in slot P. -/
def execIminPair (p : Slot) (qop : PairOp) (q : Slot) (s : State) : Out := .next (s.pairWord .imin p qop q)

/-- IMAX in slot P. -/
def execImaxPair (p : Slot) (qop : PairOp) (q : Slot) (s : State) : Out := .next (s.pairWord .imax p qop q)

/-- AND in slot P. -/
def execAndPair (p : Slot) (qop : PairOp) (q : Slot) (s : State) : Out := .next (s.pairWord .and p qop q)

/-- OR in slot P. -/
def execOrPair (p : Slot) (qop : PairOp) (q : Slot) (s : State) : Out := .next (s.pairWord .or p qop q)

/-- XOR in slot P. -/
def execXorPair (p : Slot) (qop : PairOp) (q : Slot) (s : State) : Out := .next (s.pairWord .xor p qop q)

/-- SHL in slot P. -/
def execShlPair (p : Slot) (qop : PairOp) (q : Slot) (s : State) : Out := .next (s.pairWord .shl p qop q)

/-- SHR in slot P. -/
def execShrPair (p : Slot) (qop : PairOp) (q : Slot) (s : State) : Out := .next (s.pairWord .shr p qop q)

/-- SRA in slot P. -/
def execSraPair (p : Slot) (qop : PairOp) (q : Slot) (s : State) : Out := .next (s.pairWord .sra p qop q)

/-- MOV in slot P. -/
def execMovPair (p : Slot) (qop : PairOp) (q : Slot) (s : State) : Out := .next (s.pairWord .mov p qop q)

/-- SEL in slot P. -/
def execSelPair (p : Slot) (qop : PairOp) (q : Slot) (s : State) : Out := .next (s.pairWord .sel p qop q)

/-- FADD in slot P. -/
def execFaddPair (p : Slot) (qop : PairOp) (q : Slot) (s : State) : Out := .next (s.pairWord .fadd p qop q)

/-- FSUB in slot P. -/
def execFsubPair (p : Slot) (qop : PairOp) (q : Slot) (s : State) : Out := .next (s.pairWord .fsub p qop q)

/-- FMUL in slot P. -/
def execFmulPair (p : Slot) (qop : PairOp) (q : Slot) (s : State) : Out := .next (s.pairWord .fmul p qop q)

/-- FMA in slot P. -/
def execFmaPair (p : Slot) (qop : PairOp) (q : Slot) (s : State) : Out := .next (s.pairWord .fma p qop q)

/-- FMIN in slot P. -/
def execFminPair (p : Slot) (qop : PairOp) (q : Slot) (s : State) : Out := .next (s.pairWord .fmin p qop q)

/-- FMAX in slot P. -/
def execFmaxPair (p : Slot) (qop : PairOp) (q : Slot) (s : State) : Out := .next (s.pairWord .fmax p qop q)

/-- FABS in slot P. -/
def execFabsPair (p : Slot) (qop : PairOp) (q : Slot) (s : State) : Out := .next (s.pairWord .fabs p qop q)

/-- FNEG in slot P. -/
def execFnegPair (p : Slot) (qop : PairOp) (q : Slot) (s : State) : Out := .next (s.pairWord .fneg p qop q)

end Sys2Proof.Machine
end

