-- ==== Sys2Proof/Machine/Dispatch.lean ====
section
/-! DEFINITION. The dispatcher: one arm for each instruction, each a direct call of its meaning. -/

namespace Sys2Proof.Machine

/-- One instruction performed. -/
def exec (i : Instr) (s : State) : Host.Outcome State Fault Refusal :=
  match i with
  | .add d a b => Sys2Proof.Machine.execAdd d a b s
  | .sub d a b => Sys2Proof.Machine.execSub d a b s
  | .and d a b => Sys2Proof.Machine.execAnd d a b s
  | .or d a b => Sys2Proof.Machine.execOr d a b s
  | .xor d a b => Sys2Proof.Machine.execXor d a b s
  | .shl d a b => Sys2Proof.Machine.execShl d a b s
  | .shr d a b => Sys2Proof.Machine.execShr d a b s
  | .sra d a b => Sys2Proof.Machine.execSra d a b s
  | .mul d a b => Sys2Proof.Machine.execMul d a b s
  | .mulh d a b => Sys2Proof.Machine.execMulh d a b s
  | .mulhn d a b => Sys2Proof.Machine.execMulhn d a b s
  | .divn d a b => Sys2Proof.Machine.execDivn d a b s
  | .remn d a b => Sys2Proof.Machine.execRemn d a b s
  | .min d a b => Sys2Proof.Machine.execMin d a b s
  | .max d a b => Sys2Proof.Machine.execMax d a b s
  | .minn d a b => Sys2Proof.Machine.execMinn d a b s
  | .maxn d a b => Sys2Proof.Machine.execMaxn d a b s
  | .slt d a b => Sys2Proof.Machine.execSlt d a b s
  | .sltn d a b => Sys2Proof.Machine.execSltn d a b s
  | .seq d a b => Sys2Proof.Machine.execSeq d a b s
  | .clz d a => Sys2Proof.Machine.execClz d a s
  | .popc d a => Sys2Proof.Machine.execPopc d a s
  | .addi d a imm => Sys2Proof.Machine.execAddi d a imm s
  | .andi d a imm => Sys2Proof.Machine.execAndi d a imm s
  | .ori d a imm => Sys2Proof.Machine.execOri d a imm s
  | .xori d a imm => Sys2Proof.Machine.execXori d a imm s
  | .shli d a sh => Sys2Proof.Machine.execShli d a sh s
  | .shri d a sh => Sys2Proof.Machine.execShri d a sh s
  | .srai d a sh => Sys2Proof.Machine.execSrai d a sh s
  | .slti d a imm => Sys2Proof.Machine.execSlti d a imm s
  | .sltni d a imm => Sys2Proof.Machine.execSltni d a imm s
  | .lui d imm => Sys2Proof.Machine.execLui d imm s
  | .muli d a imm => Sys2Proof.Machine.execMuli d a imm s
  | .jr d a => Sys2Proof.Machine.execJr d a s
  | .loop a off => Sys2Proof.Machine.execLoop a off s
  | .beq a b off => Sys2Proof.Machine.execBeq a b off s
  | .bne a b off => Sys2Proof.Machine.execBne a b off s
  | .blt a b off => Sys2Proof.Machine.execBlt a b off s
  | .bge a b off => Sys2Proof.Machine.execBge a b off s
  | .bltn a b off => Sys2Proof.Machine.execBltn a b off s
  | .bgen a b off => Sys2Proof.Machine.execBgen a b off s
  | .j off => Sys2Proof.Machine.execJ off s
  | .jal off => Sys2Proof.Machine.execJal off s
  | .lrun a imm => Sys2Proof.Machine.execLrun a imm s
  | .ljmp a imm => Sys2Proof.Machine.execLjmp a imm s
  | .lsync => Sys2Proof.Machine.execLsync s
  | .xrq d => Sys2Proof.Machine.execXrq d s
  | .qfeed q ca b => Sys2Proof.Machine.execQfeed q ca b s
  | .qhalt q => Sys2Proof.Machine.execQhalt q s
  | .qstat d q => Sys2Proof.Machine.execQstat d q s
  | .xld d ca imm => Sys2Proof.Machine.execXld d ca imm s
  | .xst d ca imm => Sys2Proof.Machine.execXst d ca imm s
  | .cld cd ca imm => Sys2Proof.Machine.execCld cd ca imm s
  | .cst cd ca imm => Sys2Proof.Machine.execCst cd ca imm s
  | .cbnd cd ca b => Sys2Proof.Machine.execCbnd cd ca b s
  | .cperm cd ca b => Sys2Proof.Machine.execCperm cd ca b s
  | .cget d ca which => Sys2Proof.Machine.execCget d ca which s
  | .cmov cd ca => Sys2Proof.Machine.execCmov cd ca s
  | .srd d num => Sys2Proof.Machine.execSrd d num s
  | .swr a num => Sys2Proof.Machine.execSwr a num s
  | .strap code => Sys2Proof.Machine.execStrap code s
  | .sexit => Sys2Proof.Machine.execSexit s
  | .xwait d ca cond => Sys2Proof.Machine.execXwait d ca cond s
  | .nop => Sys2Proof.Machine.execNop s
  | .iadd w => Sys2Proof.Machine.execIadd w s
  | .isub w => Sys2Proof.Machine.execIsub w s
  | .imul w => Sys2Proof.Machine.execImul w s
  | .imulh w => Sys2Proof.Machine.execImulh w s
  | .imad w => Sys2Proof.Machine.execImad w s
  | .imin w => Sys2Proof.Machine.execImin w s
  | .imax w => Sys2Proof.Machine.execImax w s
  | .iabs w => Sys2Proof.Machine.execIabs w s
  | .ineg w => Sys2Proof.Machine.execIneg w s
  | .andLane w => Sys2Proof.Machine.execAndLane w s
  | .orLane w => Sys2Proof.Machine.execOrLane w s
  | .xorLane w => Sys2Proof.Machine.execXorLane w s
  | .not w => Sys2Proof.Machine.execNot w s
  | .shlLane w => Sys2Proof.Machine.execShlLane w s
  | .shrLane w => Sys2Proof.Machine.execShrLane w s
  | .sraLane w => Sys2Proof.Machine.execSraLane w s
  | .rot w => Sys2Proof.Machine.execRot w s
  | .bfe w => Sys2Proof.Machine.execBfe w s
  | .bfi w => Sys2Proof.Machine.execBfi w s
  | .popcLane w => Sys2Proof.Machine.execPopcLane w s
  | .clzLane w => Sys2Proof.Machine.execClzLane w s
  | .brev w => Sys2Proof.Machine.execBrev w s
  | .mov w => Sys2Proof.Machine.execMov w s
  | .sel w => Sys2Proof.Machine.execSel w s
  | .idp4 w => Sys2Proof.Machine.execIdp4 w s
  | .fadd w => Sys2Proof.Machine.execFadd w s
  | .fsub w => Sys2Proof.Machine.execFsub w s
  | .fmul w => Sys2Proof.Machine.execFmul w s
  | .fma w => Sys2Proof.Machine.execFma w s
  | .fmin w => Sys2Proof.Machine.execFmin w s
  | .fmax w => Sys2Proof.Machine.execFmax w s
  | .fabs w => Sys2Proof.Machine.execFabs w s
  | .fneg w => Sys2Proof.Machine.execFneg w s
  | .fcpys w => Sys2Proof.Machine.execFcpys w s
  | .frnd w => Sys2Proof.Machine.execFrnd w s
  | .fclass w => Sys2Proof.Machine.execFclass w s
  | .fdp2 w => Sys2Proof.Machine.execFdp2 w s
  | .rcp w => Sys2Proof.Machine.execRcp w s
  | .rsq w => Sys2Proof.Machine.execRsq w s
  | .sqrt w => Sys2Proof.Machine.execSqrt w s
  | .exp2 w => Sys2Proof.Machine.execExp2 w s
  | .log2 w => Sys2Proof.Machine.execLog2 w s
  | .sinp w => Sys2Proof.Machine.execSinp w s
  | .cosp w => Sys2Proof.Machine.execCosp w s
  | .tanh w => Sys2Proof.Machine.execTanh w s
  | .cvt w => Sys2Proof.Machine.execCvt w s
  | .pack w => Sys2Proof.Machine.execPack w s
  | .unpk w => Sys2Proof.Machine.execUnpk w s
  | .scacc w => Sys2Proof.Machine.execScacc w s
  | .scale w => Sys2Proof.Machine.execScale w s
  | .bscl w => Sys2Proof.Machine.execBscl w s
  | .push w => Sys2Proof.Machine.execPush w s
  | .pushv w => Sys2Proof.Machine.execPushv w s
  | .pinv w => Sys2Proof.Machine.execPinv w s
  | .pop w => Sys2Proof.Machine.execPop w s
  | .psav w => Sys2Proof.Machine.execPsav w s
  | .prst w => Sys2Proof.Machine.execPrst w s
  | .exit w => Sys2Proof.Machine.execExit w s
  | .vote w => Sys2Proof.Machine.execVote w s
  | .rqp w => Sys2Proof.Machine.execRqp w s
  | .nopl w => Sys2Proof.Machine.execNopl w s
  | .shfl w => Sys2Proof.Machine.execShfl w s
  | .shfli w => Sys2Proof.Machine.execShfli w s
  | .redl w => Sys2Proof.Machine.execRedl w s
  | .scanl w => Sys2Proof.Machine.execScanl w s
  | .dswp w => Sys2Proof.Machine.execDswp w s
  | .graft w => Sys2Proof.Machine.execGraft w s
  | .join w => Sys2Proof.Machine.execJoin w s
  | .leave w => Sys2Proof.Machine.execLeave w s
  | .tmemb w => Sys2Proof.Machine.execTmemb w s
  | .ld w => Sys2Proof.Machine.execLd w s
  | .st w => Sys2Proof.Machine.execSt w s
  | .lds w => Sys2Proof.Machine.execLds w s
  | .sts w => Sys2Proof.Machine.execSts w s
  | .smap w => Sys2Proof.Machine.execSmap w s
  | .sunmap w => Sys2Proof.Machine.execSunmap w s
  | .sflush w => Sys2Proof.Machine.execSflush w s
  | .pref w => Sys2Proof.Machine.execPref w s
  | .llock w => Sys2Proof.Machine.execLlock w s
  | .lunlk w => Sys2Proof.Machine.execLunlk w s
  | .atom w => Sys2Proof.Machine.execAtom w s
  | .atomc w => Sys2Proof.Machine.execAtomc w s
  | .red w => Sys2Proof.Machine.execRed w s
  | .waitc w => Sys2Proof.Machine.execWaitc w s
  | .binit w => Sys2Proof.Machine.execBinit w s
  | .barv w => Sys2Proof.Machine.execBarv w s
  | .bwait w => Sys2Proof.Machine.execBwait w s
  | .binv w => Sys2Proof.Machine.execBinv w s
  | .tbar w => Sys2Proof.Machine.execTbar w s
  | .spinit w => Sys2Proof.Machine.execSpinit w s
  | .enq w => Sys2Proof.Machine.execEnq w s
  | .deq w => Sys2Proof.Machine.execDeq w s
  | .enqt w => Sys2Proof.Machine.execEnqt w s
  | .deqt w => Sys2Proof.Machine.execDeqt w s
  | .spqry w => Sys2Proof.Machine.execSpqry w s
  | .spfls w => Sys2Proof.Machine.execSpfls w s
  | .fence w => Sys2Proof.Machine.execFence w s
  | .acq w => Sys2Proof.Machine.execAcq w s
  | .rel w => Sys2Proof.Machine.execRel w s
  | .acqr w => Sys2Proof.Machine.execAcqr w s
  | .relr w => Sys2Proof.Machine.execRelr w s
  | .shdw w => Sys2Proof.Machine.execShdw w s
  | .publ w => Sys2Proof.Machine.execPubl w s
  | .trap w => Sys2Proof.Machine.execTrap w s
  | .brk w => Sys2Proof.Machine.execBrk w s
  | .ckpt w => Sys2Proof.Machine.execCkpt w s
  | .vqry w => Sys2Proof.Machine.execVqry w s
  | .srdl w => Sys2Proof.Machine.execSrdl w s
  | .rld w => Sys2Proof.Machine.execRld w s
  | .rst w => Sys2Proof.Machine.execRst w s
  | .ratom w => Sys2Proof.Machine.execRatom w s
  | .mcast w => Sys2Proof.Machine.execMcast w s
  | .rspr w => Sys2Proof.Machine.execRspr w s
  | .lseq w => Sys2Proof.Machine.execLseq w s
  | .tierq w => Sys2Proof.Machine.execTierq w s
  | .evwait w => Sys2Proof.Machine.execEvwait w s
  | .cpy w => Sys2Proof.Machine.execCpy w s
  | .cpym w => Sys2Proof.Machine.execCpym w s
  | .cpyr w => Sys2Proof.Machine.execCpyr w s
  | .cpyf w => Sys2Proof.Machine.execCpyf w s
  | .crinit w => Sys2Proof.Machine.execCrinit w s
  | .await w => Sys2Proof.Machine.execAwait w s
  | .rslot w => Sys2Proof.Machine.execRslot w s
  | .node w => Sys2Proof.Machine.execNode w s
  | .arm w => Sys2Proof.Machine.execArm w s
  | .ply w => Sys2Proof.Machine.execPly w s
  | .adpf w => Sys2Proof.Machine.execAdpf w s
  | .mma w => Sys2Proof.Machine.execMma w s
  | .mmas w => Sys2Proof.Machine.execMmas w s
  | .mmg w => Sys2Proof.Machine.execMmg w s
  | .pln w => Sys2Proof.Machine.execPln w s
  | .mlda w => Sys2Proof.Machine.execMlda w s
  | .msta w => Sys2Proof.Machine.execMsta w s
  | .mzro w => Sys2Proof.Machine.execMzro w s
  | .mrel w => Sys2Proof.Machine.execMrel w s
  | .mwait w => Sys2Proof.Machine.execMwait w s
  | .iaddPair p qop q => Sys2Proof.Machine.execIaddPair p qop q s
  | .isubPair p qop q => Sys2Proof.Machine.execIsubPair p qop q s
  | .imulPair p qop q => Sys2Proof.Machine.execImulPair p qop q s
  | .imadPair p qop q => Sys2Proof.Machine.execImadPair p qop q s
  | .iminPair p qop q => Sys2Proof.Machine.execIminPair p qop q s
  | .imaxPair p qop q => Sys2Proof.Machine.execImaxPair p qop q s
  | .andPair p qop q => Sys2Proof.Machine.execAndPair p qop q s
  | .orPair p qop q => Sys2Proof.Machine.execOrPair p qop q s
  | .xorPair p qop q => Sys2Proof.Machine.execXorPair p qop q s
  | .shlPair p qop q => Sys2Proof.Machine.execShlPair p qop q s
  | .shrPair p qop q => Sys2Proof.Machine.execShrPair p qop q s
  | .sraPair p qop q => Sys2Proof.Machine.execSraPair p qop q s
  | .movPair p qop q => Sys2Proof.Machine.execMovPair p qop q s
  | .selPair p qop q => Sys2Proof.Machine.execSelPair p qop q s
  | .faddPair p qop q => Sys2Proof.Machine.execFaddPair p qop q s
  | .fsubPair p qop q => Sys2Proof.Machine.execFsubPair p qop q s
  | .fmulPair p qop q => Sys2Proof.Machine.execFmulPair p qop q s
  | .fmaPair p qop q => Sys2Proof.Machine.execFmaPair p qop q s
  | .fminPair p qop q => Sys2Proof.Machine.execFminPair p qop q s
  | .fmaxPair p qop q => Sys2Proof.Machine.execFmaxPair p qop q s
  | .fabsPair p qop q => Sys2Proof.Machine.execFabsPair p qop q s
  | .fnegPair p qop q => Sys2Proof.Machine.execFnegPair p qop q s
  | .laneWordComplete => Sys2Proof.Machine.execLaneWordComplete s
  | .courseRetire => Sys2Proof.Machine.execCourseRetire s
  | .feedEntryForm => Sys2Proof.Machine.execFeedEntryForm s
  | .wakeup => Sys2Proof.Machine.execWakeup s
  | .repollTimer => Sys2Proof.Machine.execRepollTimer s
  | .holdReturn => Sys2Proof.Machine.execHoldReturn s
  | .heldStoreTimeout => Sys2Proof.Machine.execHeldStoreTimeout s
  | .graftParkTimeout => Sys2Proof.Machine.execGraftParkTimeout s
  | .watchdogFire => Sys2Proof.Machine.execWatchdogFire s
  | .lclockAdvance => Sys2Proof.Machine.execLclockAdvance s
  | .gateReevaluate => Sys2Proof.Machine.execGateReevaluate s
  | .spoolTestReply => Sys2Proof.Machine.execSpoolTestReply s
  | .copyComplete => Sys2Proof.Machine.execCopyComplete s
  | .multicastMemberDone => Sys2Proof.Machine.execMulticastMemberDone s
  | .followOnIssue => Sys2Proof.Machine.execFollowOnIssue s
  | .tileOpStart => Sys2Proof.Machine.execTileOpStart s
  | .tileOpEnd => Sys2Proof.Machine.execTileOpEnd s
  | .tokenIdleReturn => Sys2Proof.Machine.execTokenIdleReturn s
  | .nodeComplete => Sys2Proof.Machine.execNodeComplete s
  | .plyComplete => Sys2Proof.Machine.execPlyComplete s
  | .launchComplete => Sys2Proof.Machine.execLaunchComplete s
  | .faultRingPost => Sys2Proof.Machine.execFaultRingPost s
  | .swiftTake => Sys2Proof.Machine.execSwiftTake s
  | .queueNotify => Sys2Proof.Machine.execQueueNotify s
  | .queueUnmap => Sys2Proof.Machine.execQueueUnmap s
  | .gangPlace => Sys2Proof.Machine.execGangPlace s
  | .reservationAge => Sys2Proof.Machine.execReservationAge s
  | .tickStart => Sys2Proof.Machine.execTickStart s
  | .gangswVacate => Sys2Proof.Machine.execGangswVacate s
  | .gangswIncomingStart => Sys2Proof.Machine.execGangswIncomingStart s
  | .vacateCeiling => Sys2Proof.Machine.execVacateCeiling s
  | .vacateRequest => Sys2Proof.Machine.execVacateRequest s
  | .saveComplete => Sys2Proof.Machine.execSaveComplete s
  | .swapOut => Sys2Proof.Machine.execSwapOut s
  | .swapIn => Sys2Proof.Machine.execSwapIn s
  | .needleFailover => Sys2Proof.Machine.execNeedleFailover s
  | .fwupdTakeover => Sys2Proof.Machine.execFwupdTakeover s
  | .remoteRequest => Sys2Proof.Machine.execRemoteRequest s
  | .remoteAck => Sys2Proof.Machine.execRemoteAck s
  | .retransmit => Sys2Proof.Machine.execRetransmit s
  | .linkResolve => Sys2Proof.Machine.execLinkResolve s
  | .lineDelegate => Sys2Proof.Machine.execLineDelegate s
  | .delegationRecall => Sys2Proof.Machine.execDelegationRecall s
  | .loanRenew => Sys2Proof.Machine.execLoanRenew s
  | .loanLost => Sys2Proof.Machine.execLoanLost s
  | .lenderReuse => Sys2Proof.Machine.execLenderReuse s
  | .recallReceive => Sys2Proof.Machine.execRecallReceive s
  | .recallMoveDone => Sys2Proof.Machine.execRecallMoveDone s
  | .evwaitTimeout => Sys2Proof.Machine.execEvwaitTimeout s
  | .launch => Sys2Proof.Machine.execLaunch s
  | .armnode => Sys2Proof.Machine.execArmnode s
  | .plyrun => Sys2Proof.Machine.execPlyrun s
  | .mark => Sys2Proof.Machine.execMark s
  | .part => Sys2Proof.Machine.execPart s
  | .ctxnew => Sys2Proof.Machine.execCtxnew s
  | .ctxdel => Sys2Proof.Machine.execCtxdel s
  | .ptroot => Sys2Proof.Machine.execPtroot s
  | .tlbinv => Sys2Proof.Machine.execTlbinv s
  | .grant => Sys2Proof.Machine.execGrant s
  | .qreg => Sys2Proof.Machine.execQreg s
  | .qunreg => Sys2Proof.Machine.execQunreg s
  | .setp => Sys2Proof.Machine.execSetp s
  | .ways => Sys2Proof.Machine.execWays s
  | .pubt => Sys2Proof.Machine.execPubt s
  | .loanLend => Sys2Proof.Machine.execLoanLend s
  | .loanMap => Sys2Proof.Machine.execLoanMap s
  | .loanRecall => Sys2Proof.Machine.execLoanRecall s
  | .loanEnd => Sys2Proof.Machine.execLoanEnd s
  | .preempt => Sys2Proof.Machine.execPreempt s
  | .resume => Sys2Proof.Machine.execResume s
  | .faultansRetry => Sys2Proof.Machine.execFaultansRetry s
  | .faultansResume => Sys2Proof.Machine.execFaultansResume s
  | .faultansKill => Sys2Proof.Machine.execFaultansKill s
  | .gangsw => Sys2Proof.Machine.execGangsw s
  | .query => Sys2Proof.Machine.execQuery s
  | .fwupd => Sys2Proof.Machine.execFwupd s
  | .attest => Sys2Proof.Machine.execAttest s
  | .hpbudgetWrite => Sys2Proof.Machine.execHpbudgetWrite s
  | .mringWrite => Sys2Proof.Machine.execMringWrite s
  | .hostRegWrite => Sys2Proof.Machine.execHostRegWrite s
  | .hostMemWrite => Sys2Proof.Machine.execHostMemWrite s
  | .hostMemRead => Sys2Proof.Machine.execHostMemRead s
  | .portLinkDown => Sys2Proof.Machine.execPortLinkDown s
  | .deviceReset => Sys2Proof.Machine.execDeviceReset s
  | .thermalThrottle => Sys2Proof.Machine.execThermalThrottle s
  | .thermalShutdown => Sys2Proof.Machine.execThermalShutdown s
  | .backInvalidateResponse => Sys2Proof.Machine.execBackInvalidateResponse s
  | .ringHeaderSnoop => Sys2Proof.Machine.execRingHeaderSnoop s
  | .renewalReceive => Sys2Proof.Machine.execRenewalReceive s
  | .renewalAckReceive => Sys2Proof.Machine.execRenewalAckReceive s
  | .releasedReceive => Sys2Proof.Machine.execReleasedReceive s
  | .missedHeartbeat => Sys2Proof.Machine.execMissedHeartbeat s

end Sys2Proof.Machine
end

