-- ==== Sys2Proof/Machine/Step.lean ====
section
/-! DEFINITION. One step of the machine: what may happen next, which of it does, and the time that passes. -/

namespace Sys2Proof.Machine

/-- Something that may happen next. -/
inductive Action where
  /-- the head of the agenda -/
  | due
  | event (i : Instr) (subj : Subject)
  /-- the next packet of a queue begins -/
  | packet (queue : Nat)
  /-- a course issues its next scalar word -/
  | scalar (course : Nat)
  /-- a course issues its next lane word -/
  | lane (course : Nat)
  /-- a course takes the trap of a scalar word, its earlier lane words complete (R67) -/
  | trap (course : Nat)
  /-- a course takes the trap of a remote write that failed later (R381) -/
  | later (course : Nat) (b : RemoteFail)
  /-- a course takes the page fault of such a write (R374) -/
  | page (course : Nat) (o : Outstanding)
  /-- the stage of the boot ends (R433) -/
  | boot
deriving DecidableEq, Repr

/-- The launch of a course waits for its tick (R411). -/
def State.heldLaunch (s : State) (c : Course) : Bool := match s.launch? c.launch with | some l => l.held | none => false

/-- A course whose words may issue: on a core, in an active context, its launch not held, no fault of it being served. -/
def State.issues (s : State) (c : Course) : Bool :=
  c.isResident && (s.context c.ctx).mode == .active && !s.heldLaunch c && !c.served

/-- The scalar stream of a course can issue. -/
def State.scalarReady (s : State) (c : Course) : Bool :=
  s.issues c && !c.core.ended && c.swait.isNone && c.sfault.isNone

/-- The lane stream of a course can issue. -/
def State.laneReady (s : State) (c : Course) : Bool :=
  s.issues c && c.lwait.isNone && !c.inFlight && c.core.pending != 0

/-- A course's deferred scalar trap can be taken: every lane word released before it has completed (R67). -/
def State.trapReady (s : State) (c : Course) : Bool := s.issues c && c.sfault.isSome && c.core.pending == 0

/-- The course after the last one in turn among the ready ones of a core (R24). -/
def nextInTurn (last : Option Nat) (l : List Nat) : Option Nat :=
  match last with
  | none => l.head?
  | some k => (l.find? fun i => decide (k < i)).orElse fun _ => l.head?

/-- The courses that issue next, one on each core that has a ready one, in turn from the one that issued last. Of several, those
are ready whose operands are there, which is a free choice (R24, log 7). -/
def State.inTurn (s : State) (ready : Course → Bool) (last : List (Nat × Nat)) : List Nat :=
  let all := (List.range s.courses.length).filter fun i => ready (s.course i)
  ((all.map fun i => (s.course i).place).eraseDups).filterMap fun p =>
    let here := all.filter fun i => (s.course i).place == p
    let now := if here.length ≤ 1 then here else here.filter fun i => s.pick (2 ^ 102 + i)
    nextInTurn (last.lookup p) (if now.isEmpty then here else now)

/-- An event with one number, where a condition holds. -/
def eventIf (cond : Bool) (i : Instr) (n : Nat) : List Action := if cond then [.event i { num := n }] else []

/-- What may happen next to one course, but for the issue of a word. -/
def State.courseActions (s : State) (i : Nat) : List Action :=
  let c := s.course i
  (if s.trapReady c then [.trap i] else [])
    ++ (match s.laterDue i with | some b => [.later i b] | none => [])
    ++ (match s.pageDue i with | some o => [.page i o] | none => [])
    ++ eventIf (s.wordDue i) .laneWordComplete i ++ eventIf (s.retireDue i) .courseRetire i
    ++ ((List.range 16).filter (s.feedDue i)).map (fun q => .event .feedEntryForm { num := i, num2 := q })
    ++ eventIf (s.repollDue i) .repollTimer i ++ eventIf (s.heldDue i) .heldStoreTimeout i
    ++ eventIf (s.parkDue i) .graftParkTimeout i ++ eventIf (s.evwaitDue i) .evwaitTimeout i
    ++ eventIf (s.mayswapOut i) .swapOut i ++ eventIf (s.swapInDue i) .swapIn i

/-- What may happen next to one context. -/
def State.ctxActions (s : State) (x : Nat) : List Action :=
  eventIf (s.watchdogDue x) .watchdogFire x ++ eventIf (s.saveDue x) .saveComplete x ++ eventIf (s.switchDue x) .gangswVacate x
    ++ eventIf (s.ceilingDue x) .vacateCeiling x ++ eventIf (s.incomingDue x) .gangswIncomingStart x

/-- What may happen next in the engines and the chart walker. -/
def State.engineActions (s : State) : List Action :=
  ((List.range s.jobs.length).flatMap fun k =>
      eventIf (s.copyDue k) .copyComplete k ++ eventIf (s.followDue k) .followOnIssue k)
    ++ ((List.range s.tileOps.length).flatMap fun k =>
      match s.tileOps[k]? with
      | none => []
      | some o => eventIf (s.tileStarts k) .tileOpStart k
          ++ eventIf (o.started && s.engineRuns o.ctx (clusterOf o.place)) .tileOpEnd k)
    ++ (s.splits.flatMap fun p => eventIf (s.tokenIdle p.place) .tokenIdleReturn p.place)
    ++ ((List.range s.nodes.length).flatMap fun k => eventIf (s.nodeDue k) .nodeComplete k)
    ++ ((List.range s.plies.length).flatMap fun k =>
      eventIf ((s.plies[k]?).any fun p => p.ended && !p.finished) .plyComplete k)

/-- What may happen next in the front end and the scheduler. -/
def State.frontActions (s : State) : List Action :=
  ((List.range s.launches.length).flatMap fun i =>
      eventIf (s.launchDone i) .launchComplete i ++ eventIf (s.tickDue i) .tickStart i ++ eventIf (s.ageDue i) .reservationAge i)
    ++ ((List.range s.posts.length).flatMap fun k => eventIf (s.postDue k) .faultRingPost k)
    ++ eventIf (5 ≤ s.boot && s.queues.any Queue.served) .swiftTake 0
    ++ (s.queues.filter fun q => (s.nextPacket q).isSome).map (fun q => .packet q.num)
    ++ eventIf s.takeoverDue .fwupdTakeover 0

/-- What may happen next on the fabric and by the clock. -/
def State.fabricActions (s : State) : List Action :=
  (s.outstanding.flatMap fun o =>
      (if s.resendDue o then [.event .retransmit { num := o.key, num2 := o.seqno }] else [])
        ++ (if s.resolveDue o then [.event .linkResolve { num := o.key, num2 := o.seqno }] else []))
    ++ (s.loans.flatMap fun l => eventIf (s.renewDue l) .loanRenew l.index ++ eventIf (s.lostDue l) .loanLost l.index
      ++ eventIf (l.state == 2) .recallMoveDone l.index)
    ++ (s.lends.flatMap fun l => eventIf (s.reuseDue l) .lenderReuse l.index)
    ++ (s.holds.flatMap fun h => eventIf (s.holdDue h.line) .holdReturn h.line)

/-- Everything that may happen next: the head of the agenda, after reset the boot, and what the state itself makes due. -/
def State.actions (s : State) : List Action :=
  (if s.agenda.isEmpty then [] else [.due]) ++ eventIf (s.boot == 0) .deviceReset 0 ++ (if s.booting then [.boot] else [])
    ++ (s.inTurn s.scalarReady s.lastScalar).map Action.scalar ++ (s.inTurn s.laneReady s.lastLane).map Action.lane
    ++ (List.range s.courses.length).flatMap s.courseActions ++ (s.contexts.flatMap fun x => s.ctxActions x.num)
    ++ s.engineActions ++ s.frontActions ++ s.fabricActions

/-- A packet begins: it is refused, waits for a page, or is executed. -/
def State.runPacket (s : State) (q : Nat) : Out :=
  match s.beginPacket q with
  | .idle => .next s
  | .ended s => .next s
  | .command i s => exec i s

/-- A fetched scalar word of the current course. -/
def State.runScalar (s : State) : Out :=
  match s.fetchScalar s.me with
  | .word i => exec i (s.noteFetch s.me s.me.scode s.me.core.pc 4)
  | .stop x => .next (s.scalarStop x)

/-- A fetched lane word of the current course. -/
def State.runLane (s : State) : Out :=
  match s.fetchLane s.me with
  | .word i => exec i (s.noteFetch s.me s.me.lcode (12 * s.me.core.lanePc) 12)
  | .stop x => .next (State.stop s x)

/-- The course that has issued a word on a core. -/
def issuedAt (l : List (Nat × Nat)) (place i : Nat) : List (Nat × Nat) := (place, i) :: l.filter fun p => p.1 != place

/-- A word has been issued or tried: its course is Running, or Waiting (R27). -/
def settleOut (i : Nat) (scalar : Bool) (o : Out) : Out :=
  match o with | .next s => .next (s.settle i scalar) | .fault f => .fault f | .refused r => .refused r

/-- One of the things that may happen, performed. -/
def State.perform (s : State) (a : Action) : Out :=
  match a with
  | .due =>
    match s.agenda with
    | [] => .next s
    | .event i subj :: rest => exec i { s with agenda := rest, subj := subj }
    | .packet q :: rest => ({ s with agenda := rest } : State).runPacket q
  | .event i subj => exec i { s with subj := subj }
  | .packet q => s.runPacket q
  | .scalar i =>
    settleOut i true ({ s with cur := i, lastScalar := issuedAt s.lastScalar (s.course i).place i } : State).runScalar
  | .lane i => settleOut i false ({ s with cur := i, lastLane := issuedAt s.lastLane (s.course i).place i } : State).runLane
  | .trap i =>
    match (s.course i).sfault with
    | none => .next s
    | some f => .next (s.takeTrap i f)
  | .later i b => .next (s.takeLater i b)
  | .page i o => .next (s.takePage i o)
  | .boot => .next s.bootNext

/-- The end of a step: a Running course that waits is Waiting (R27); time passes, and the next step takes fresh free values
(log 4). -/
def State.tick (s : State) : State :=
  { s with
    courses := s.courses.map Course.idled,
    clock := s.clock + Config.elapsed s.free, free := s.free + 1 }

/-- A next state with its time passed. -/
def tickOut (o : Out) : Out := match o with | .next s => .next s.tick | .fault f => .fault f | .refused r => .refused r

/-- What may happen next in a step: the advance of logical time, once it is due, comes first (R241). -/
def State.choices (s : State) : List Action := if s.raiseDue then [.event .lclockAdvance {}] else s.actions

/-- One step: the only thing that may happen, one of several by a free choice (log 7), or nothing but time. -/
def step (s : State) : Host.Outcome State Fault Refusal :=
  match s.choices with
  | [] => .next s.tick
  | [a] => tickOut (s.perform a)
  | a :: b :: l => tickOut (s.perform ((a :: b :: l).getD (Config.choice s.free % (l.length + 2)) a))

/-! A program placed from outside (log 22). -/

/-- Bytes placed in device memory. -/
def State.put (s : State) (a : Nat) (bytes : List Byte) : State :=
  { s with mem := s.mem.setMany (cellsAt a bytes) }

/-- A partition of cluster 0 and group 0, with context 0 in it, whose page table maps tenant addresses 0 to 2^30 onto device
addresses from 2^30; the device is past its boot. -/
def State.withContext (s : State) : State :=
  let s : State := { s with boot := 5, image := 1, agenda := [], raisedAt := s.clock, partitions := [{ num := 0, clusters := 1, groups := 1 }],
                            contexts := [{ num := 0 }] }
  (s.put 0 (leBytes 8 0x1001)).put 0x1000 (leBytes 8 0x40000003)

/-- A full course of context 0 on core 0, in its default team. -/
def State.withCourse (s : State) (core : Core) : State :=
  let code : Cap := mkCap 4 0 (2 ^ 16) pX 0
  let c : Course := { regs := 192, team := some 0, launched := BitVec.allOnes 256, scode := code, lcode := code, phase := .running,
                      core := core, ckpt := core }
  let l : Launch := { ctx := 0, report := .packet 0 0, scode := code, lcode := code, args := 0, recs := 0, regs := 192, q := 4,
                      loc := 0, ckpt := 1, teamsx := 1, gang := 1, cpt := 1, power := 8, ncourse := 1, lastn := 0, placed := 1 }
  { s with courses := [c], launches := [l], teams := [{}], splits := [{ place := 0, ctx := 0, reg := 6, qbuf := 1, loc := 0, ckpt := 1 }], cur := 0 }

/-- The register state of a course at its start. -/
def startCore : Core :=
  { feeds := List.replicate 16 {}, queues := List.replicate 16 [], preds := [BitVec.allOnes 256], live := BitVec.allOnes 256 }

/-- The state with an instruction of the opcode table stored where the next step takes its instruction: a scalar word at the
scalar PC, a lane word at the next index of a released record, or a packet in the next slot of a ring. -/
def State.withFetchWord (s : State) (nbits w : Nat) : State :=
  if nbits ≤ 32 then (s.withContext.withCourse startCore).put 0x40000000 (leBytes 4 w)
  else if nbits ≤ 96 then
    (s.withContext.withCourse { startCore with ended := true, pending := 1, relq := [{ first := 0, count := 1, xs := [], caps := [] }] }).put
      0x40000000 (leBytes 12 w)
  else
    let mgmt := mgmtOpc (w % 256)
    let q : Queue := { num := if mgmt then mgmtRing else 0, ctx := if mgmt then 64 else 0, base := if mgmt then 0x40000000 else 0,
                       taken := [{ slot := 0 }] }
    ({ s.withContext with queues := [q] } : State).put 0x40000040 (leBytes 64 w)

end Sys2Proof.Machine
end

