-- ==== Sys2Proof/Safety.lean ====
section
/-! DEFINITION. The terms claims use: what a word may have changed, what it leaves alone, where a word stops, and the
invariants of the machine. -/

namespace Sys2Proof.Machine

/-! Frames. -/

/-- t differs from s in the current course at most: no other course, no memory, no other part of the machine. -/
def OnlyCourse (s t : State) : Prop :=
  t = { s with courses := t.courses } ∧ t.courses.length = s.courses.length ∧ ∀ j, j ≠ s.cur → t.course j = s.course j

/-- t differs from s at most in what a checkpoint records of the current course. -/
def OnlyCore (s t : State) : Prop := OnlyCourse s t ∧ t.me = { s.me with core := t.me.core }

/-- t differs from s at most in the current course's scalar PC and x[d]. -/
def OnlyX (s t : State) (d : BitVec 5) : Prop :=
  OnlyCore s t ∧ t.me.core = { s.me.core with pc := t.me.core.pc, xs := t.me.core.xs }
    ∧ ∀ n, n ≠ d.toNat → t.me.core.x n = s.me.core.x n

/-- t differs from s at most in the current course's scalar PC and a[d]. -/
def OnlyCap (s t : State) (d : BitVec 4) : Prop :=
  OnlyCore s t ∧ t.me.core = { s.me.core with pc := t.me.core.pc, caps := t.me.core.caps }
    ∧ ∀ n, n ≠ d.toNat → t.me.core.cap n = s.me.core.cap n

/-- The three memories of s and t hold the same bytes. -/
def SameMemory (s t : State) : Prop :=
  (∀ a, t.mem.get a = s.mem.get a) ∧ (∀ a, t.hostMem.get a = s.hostMem.get a) ∧ ∀ a, t.lentMem.get a = s.lentMem.get a

/-- What is read back from x[d] after v is written to it: x0 reads zero. -/
def inX (d : BitVec 5) (v : Word) : Word := if d = 0 then 0 else v

/-- The outcome is a next state in which x[d] holds v, the scalar PC has moved to pc, and nothing else has changed. -/
def GivesX (s : State) (pc : Nat) (d : BitVec 5) (v : Word) (o : Out) : Prop :=
  ∃ t, o = .next t ∧ OnlyX s t d ∧ t.me.core.pc = pc ∧ t.me.core.x d.toNat = inX d v

/-- The outcome is a next state in which a[d] holds v, the scalar PC is at the next word, and nothing else has changed. -/
def GivesCap (s : State) (d : BitVec 4) (v : Cap) (o : Out) : Prop :=
  ∃ t, o = .next t ∧ OnlyCap s t d ∧ t.me.core.pc = s.me.core.pc + 4 ∧ t.me.core.cap d.toNat = v

/-- The outcome is a next state that differs from s in the current course's core alone, which is k. -/
def GivesCore (s : State) (k : Core) (o : Out) : Prop := ∃ t, o = .next t ∧ OnlyCore s t ∧ t.me.core = k

/-- A scalar target lies in the course's code section (R34). -/
def inSection (s : State) (target : Int) : Prop := 0 ≤ target ∧ target + 4 ≤ (capLen s.me.scode : Int)

/-- The current course exists. -/
def Running (s : State) : Prop := s.cur < s.courses.length

/-! The end of a lane word. -/

/-- The first writes of a word to these registers do not fit the register shadow, so that a checkpoint comes first (R181, R190). -/
def shadowFull (s : State) (keys : List ShadowKey) : Bool :=
  let c := s.me
  let new := keys.eraseDups.filter fun k => !c.shadow.contains k
  let size (l : List ShadowKey) := (l.map ShadowKey.bytes).foldl (· + ·) 0
  !new.isEmpty && s.shadowShare c < size c.shadow + size new && !c.shadow.isEmpty

/-- A course's registers with the popped entry of a queue gone and the word off the release queue. -/
def Core.after (c : Core) (queue : Option Nat) : Core :=
  let c := match queue with | none => c | some q => { c with queues := c.queues.modify q List.tail }
  c.dropWord

/-- A lane word of s with the issue e has completed in t: it has left the release queue, its queue entry is popped, and k is its
effect on the registers. No other course's registers change, nor its own place, team or context; no byte of memory changes but
for the held stores of a checkpoint the shadow asked for. -/
structure LaneEnd (s t : State) (e : Env) (keys : List ShadowKey) (k : Core → Core) : Prop where
  core : t.me.core = k (s.me.core.after e.queue)
  others : ∀ j, j ≠ s.cur → (t.course j).core = (s.course j).core
  cur : t.cur = s.cur
  team : t.me.team = s.me.team
  ctx : t.me.ctx = s.me.ctx
  mem : t.mem = (if shadowFull s keys then s.checkpoint s.cur else s).mem
  hostMem : t.hostMem = (if shadowFull s keys then s.checkpoint s.cur else s).hostMem
  lentMem : t.lentMem = (if shadowFull s keys then s.checkpoint s.cur else s).lentMem

/-- The word completes wherever its sources can be read and carry no mark: k e is its effect on the registers, e the issue. -/
def Ends (s : State) (qguard : Mask) (reads : List (BitVec 8 × Mask)) (keys : List ShadowKey) (o : Out) (k : Env → Core → Core) : Prop :=
  ∀ e, s.issue qguard reads = .ok e → e.after = none → ∃ t, o = .next t ∧ LaneEnd s t e keys (k e)

/-- A course-wide status written to D of the active threads (R157). -/
def Core.status (c : Core) (e : Env) (w : Single) (v : Word) : Core :=
  c.result e.me.core 0 false w.d (e.guard w.ng) (List.replicate 256 v)

/-- Element t of the v register a code names. -/
def Core.elem (c : Core) (code : BitVec 8) (t : Nat) : Word := (c.vreg code.toNat).vals.getD t 0

/-- The active threads of s's word found v in D, a v register. -/
def GotStatus (s t : State) (w : Single) (v : Word) : Prop :=
  w.d.toNat < 192 → ∀ th, th < 256 → (s.me.core.guard w.ng).getLsbD th = true → t.me.core.elem w.d th = v

/-! Words that compute unit by unit (R136): each executing thread, or each temporal group with U = 1. -/

/-- The elements of TYPE computed independently from the elements of three registers, with the flags of every element (R136). -/
def onElems (ty : Nat) (f : Nat → Nat → Nat → Num.Res) (a b c : Word) : Word × Num.Flags :=
  let w := Legal.width ty
  Num.packRes w ((List.range (Legal.count ty)).map fun i => f (Num.elem w a i) (Num.elem w b i) (Num.elem w c i))

/-- The operand of a source code at unit t. -/
def Env.unit (e : Env) (ty : Nat) (imm : BitVec 16) (code : BitVec 8) (t : Nat) : Word := (e.src ty imm code).getD t 0

/-- What a word that computes unit by unit leaves in the registers: r t is unit t's result and flags, bits bm of D are written, and
the flags of the executing units are added to %fpflags. -/
def Core.wrote (c : Core) (e : Env) (w : Single) (look : Bool) (bm : Word) (r : Nat → Word × Num.Flags) : Core :=
  let n := if w.u then 64 else 256
  let sel := units w.u (e.guard w.ng)
  let vals := (List.range n).map fun t => if sel.getLsbD t then (r t).1 else 0
  let flags := (List.range n).foldl (fun acc t => if sel.getLsbD t then acc ||| (r t).2 else acc) 0
  { c.result e.me.core (if look then w.look.toNat else 0) w.u w.d sel vals bm with fpflags := c.fpflags ||| flags }

/-- The word completes: where the sources srcs can be read and carry no mark, the outcome is a next state whose registers are those
the word wrote, r giving each unit's result from the issue. -/
def Computes (s : State) (w : Single) (srcs : List (BitVec 8)) (look : Bool) (bm : Word) (o : Out)
    (r : Env → Nat → Word × Num.Flags) : Prop :=
  let g := s.me.core.guard w.ng
  let reads := srcs.map fun x => (x, g)
  ∀ e, s.issue g (if w.u then [] else reads) (if w.u then reads else []) = .ok e → e.after = none →
    ∃ t, o = .next t ∧ LaneEnd s t e [keyOf w.d] fun c => c.wrote e w look bm (r e)

/-- A word of the integer, float or special-function class with its first n sources: f takes A, B with the broadcast of SEL, and
C, each 0 where it is not read. -/
def ComputesN (s : State) (w : Single) (n : Nat) (look : Bool) (o : Out) (f : Word → Word → Word → Word × Num.Flags) : Prop :=
  Computes s w ([w.a, w.b, w.c].take n) look (BitVec.allOnes 32) o fun e t =>
    let x (k : Nat) (code : BitVec 8) : Word := if k < n then e.unit w.ty.toNat w.imm code t else 0
    f (x 0 w.a) (bcast w (x 1 w.b)) (x 2 w.c)

/-- The value of an element of an integer type (R116). -/
def elemValue (ty x : Nat) : Int :=
  let n := Legal.width ty
  if Legal.isSigned ty && 2 ^ (n - 1) ≤ x then (x : Int) - 2 ^ n else x

/-- An exact integer result written without SAT (wrapped) or with it (clamped to the range of TYPE) (R116, R140). -/
def elemFit (ty : Nat) (sat : Bool) (r : Int) : Nat :=
  let n := Legal.width ty
  let lo : Int := if Legal.isSigned ty then -(2 ^ (n - 1)) else 0
  let hi : Int := if Legal.isSigned ty then 2 ^ (n - 1) - 1 else 2 ^ n - 1
  ((if sat then max lo (min hi r) else r) % 2 ^ n).toNat

/-- The element operation of a pairable instruction (R140, R144 to R147), its other fields given. -/
def elemOp (op : PairOp) (ty : Nat) (rnd : BitVec 2) (sat : Bool) (x y z : Nat) : Num.Res :=
  let n := Legal.width ty
  let v := elemValue ty
  let rm := Num.rmOf rnd
  match op with
  | .iadd => ⟨elemFit ty sat (v x + v y), 0⟩
  | .isub => ⟨elemFit ty sat (v x - v y), 0⟩
  | .imul => ⟨elemFit ty sat (v x * v y), 0⟩
  | .imad => ⟨elemFit ty sat (v x * v y + v z), 0⟩
  | .imin => ⟨if v x ≤ v y then x else y, 0⟩
  | .imax => ⟨if v x ≤ v y then y else x, 0⟩
  | .and => ⟨x &&& y, 0⟩
  | .or => ⟨x ||| y, 0⟩
  | .xor => ⟨x ^^^ y, 0⟩
  | .shl => ⟨x * 2 ^ (y % n) % 2 ^ n, 0⟩
  | .shr => ⟨x / 2 ^ (y % n), 0⟩
  | .sra => ⟨(((if 2 ^ (n - 1) ≤ x then (x : Int) - 2 ^ n else x) / 2 ^ (y % n)) % 2 ^ n).toNat, 0⟩
  | .mov => ⟨x, 0⟩
  | .sel => ⟨if z ≠ 0 then x else y, 0⟩
  | .fadd => Num.fadd ty rm sat x y
  | .fsub => Num.fsub ty rm sat x y
  | .fmul => Num.fmul ty rm sat x y
  | .fma => Num.fma ty rm sat false false x y z
  | .fmin => Num.fminmax ty false false x y
  | .fmax => Num.fminmax ty true false x y
  | .fabs => Num.fabs ty x
  | .fneg => Num.fneg ty x

/-! Engine words (R283). -/

/-- An engine word of s with the issue e was accepted, t its outcome: it has completed, and the active threads found v in D; the
clocks of the course's loads are the word's own matter. -/
def Accepted (s t : State) (e : Env) (w : Eng) (v : Word) : Prop :=
  let k := s.me.core.after e.queue
  let k := if w.d = 0xF1 then k else k.result s.me.core w.look.toNat false w.d (e.guard false) (List.replicate 256 v)
  t.me.core = { k with lobs := t.me.core.lobs, regions := t.me.core.regions }

/-- A matrix word of s with the issue e was accepted, t its outcome: it has completed, and no register the program names has
changed; the clocks of the course's loads are the word's own matter (R320). -/
def MatrixDone (s t : State) (e : Env) : Prop :=
  t.me.core = { s.me.core.after e.queue with lobs := t.me.core.lobs, regions := t.me.core.regions }

/-- The current course's lane stream waits in t, for a thing of a kind, its registers those of s. -/
def Waits (s : State) (o : Out) (kind : WaitKind) : Prop :=
  ∃ t x, o = .next t ∧ t.me.lwait = some x ∧ x.kind = kind ∧ t.me.core = s.me.core

/-! Invariants. -/

/-- The three memories have their canonical form. -/
def State.memOk (s : State) : Bool := s.mem.wf && s.hostMem.wf && s.lentMem.wf

end Sys2Proof.Machine
end

