-- ==== Sys2Proof/WellFormed.lean ====
section
/-! DEFINITION. Well-formed instructions: those whose fields no rule of the instruction tables forbids. -/

namespace Sys2Proof

/-- An instruction is well formed for a launch that allocates regs v registers: no check of R61 fails for its fields. Commands
and events have no fields. -/
def Instr.wf (regs : Nat) (i : Instr) : Bool := (Legal.detail regs i).isNone

end Sys2Proof
end

