-- ==== Sys2Proof/Certificates/Slice0/Obligations.lean ====
section
/-! DEFINITION. The statements about the model, from the numbered rules of the specification: what each family of words, events
and commands does, the frames, the traps, decoding, and the invariants. -/

open Sys2Proof Sys2Proof.Machine

/-! The scalar words (R73 to R92, R100 to R103). -/

/-- R73: every SR-group word writes its result to x[d] (x0 keeps zero), goes on at the next word and changes nothing else, %fpflags
among it. A word with FN above 21 is illegal with detail 1, a CLZ or POPC with a b field with detail 3. -/
def Obligations.ScalarRegisterOps : Prop :=
  (∀ w, w < 2 ^ 26 → 22 ≤ w % 2 ^ 11 → decodeScalar w = .error (.ills 1))
  ∧ (∀ w, w < 2 ^ 26 → (w % 2 ^ 11 = 20 ∨ w % 2 ^ 11 = 21) → w / 2 ^ 11 % 2 ^ 5 ≠ 0 → decodeScalar w = .error (.ills 3))
  ∧ ∀ (s : State) (d a b : BitVec 5), Running s →
    let x := s.x a
    let y := s.x b
    let n := y.toNat % 32
    let gives := GivesX s (s.me.core.pc + 4) d
    gives (x + y) (exec (.add d a b) s) ∧ gives (x - y) (exec (.sub d a b) s)
    ∧ gives (x &&& y) (exec (.and d a b) s) ∧ gives (x ||| y) (exec (.or d a b) s) ∧ gives (x ^^^ y) (exec (.xor d a b) s)
    ∧ gives (x <<< n) (exec (.shl d a b) s) ∧ gives (x >>> n) (exec (.shr d a b) s)
    ∧ gives (x.sshiftRight n) (exec (.sra d a b) s)
    ∧ gives (x * y) (exec (.mul d a b) s)
    ∧ gives ((x.signExtend 64 * y.signExtend 64).extractLsb' 32 32) (exec (.mulh d a b) s)
    ∧ gives ((x.setWidth 64 * y.setWidth 64).extractLsb' 32 32) (exec (.mulhn d a b) s)
    ∧ gives (if y = 0 then 0xFFFFFFFF else BitVec.ofNat 32 (x.toNat / y.toNat)) (exec (.divn d a b) s)
    ∧ gives (if y = 0 then x else BitVec.ofNat 32 (x.toNat % y.toNat)) (exec (.remn d a b) s)
    ∧ gives (BitVec.ofInt 32 (min x.toInt y.toInt)) (exec (.min d a b) s)
    ∧ gives (BitVec.ofInt 32 (max x.toInt y.toInt)) (exec (.max d a b) s)
    ∧ gives (BitVec.ofNat 32 (min x.toNat y.toNat)) (exec (.minn d a b) s)
    ∧ gives (BitVec.ofNat 32 (max x.toNat y.toNat)) (exec (.maxn d a b) s)
    ∧ gives (if x.toInt < y.toInt then 1 else 0) (exec (.slt d a b) s)
    ∧ gives (if x.toNat < y.toNat then 1 else 0) (exec (.sltn d a b) s)
    ∧ gives (if x = y then 1 else 0) (exec (.seq d a b) s)
    ∧ gives (if x = 0 then 32 else BitVec.ofNat 32 (31 - Nat.log2 x.toNat)) (exec (.clz d a) s)
    ∧ gives (BitVec.ofNat 32 ((List.range 32).filter fun i => x.getLsbD i).length) (exec (.popc d a) s)

/-- R74: every immediate operation writes its result to x[d] (x0 keeps zero), goes on at the next word and changes nothing
else. A shift immediate above 31 is illegal with detail 4, a LUI with an a field with detail 3. -/
def Obligations.ScalarImmediateOps : Prop :=
  (∀ w, w < 2 ^ 32 → 5 ≤ w / 2 ^ 26 → w / 2 ^ 26 ≤ 7 → 32 ≤ w % 2 ^ 16 → decodeScalar w = .error (.ills 4))
  ∧ (∀ w, w < 2 ^ 32 → w / 2 ^ 26 = 10 → w / 2 ^ 16 % 2 ^ 5 ≠ 0 → decodeScalar w = .error (.ills 3))
  ∧ ∀ (s : State) (d a sh : BitVec 5) (imm : BitVec 16), Running s →
    let x := s.x a
    let gives := GivesX s (s.me.core.pc + 4) d
    gives (x + imm.signExtend 32) (exec (.addi d a imm) s)
    ∧ gives (x &&& imm.setWidth 32) (exec (.andi d a imm) s) ∧ gives (x ||| imm.setWidth 32) (exec (.ori d a imm) s)
    ∧ gives (x ^^^ imm.setWidth 32) (exec (.xori d a imm) s)
    ∧ gives (x <<< sh.toNat) (exec (.shli d a sh) s) ∧ gives (x >>> sh.toNat) (exec (.shri d a sh) s)
    ∧ gives (x.sshiftRight sh.toNat) (exec (.srai d a sh) s)
    ∧ gives (if x.toInt < imm.toInt then 1 else 0) (exec (.slti d a imm) s)
    ∧ gives (if x.toNat < imm.toNat then 1 else 0) (exec (.sltni d a imm) s)
    ∧ gives (BitVec.ofNat 32 (imm.toNat * 65536)) (exec (.lui d imm) s)
    ∧ gives (BitVec.ofInt 32 (x.toInt * imm.toInt)) (exec (.muli d a imm) s)

/-- R75 to R78 for targets in the code section: a conditional branch goes to PC + 4 + 4 × OFF where its condition holds and on
where it does not; J and JAL go there, JAL leaving PC + 4 in x31; JR goes to the x[a] it read before it wrote the link; LOOP
counts x[a] down and branches while the count is not zero. Nothing else changes. -/
def Obligations.ScalarTransfers : Prop :=
  ∀ (s : State) (d a b : BitVec 5) (off : BitVec 16) (far : BitVec 26), Running s →
    let x := s.x a
    let y := s.x b
    let pc := s.me.core.pc
    let near : Int := pc + 4 + 4 * off.toInt
    let away : Int := pc + 4 + 4 * far.toInt
    let branch (c : Prop) (i : Instr) : Prop :=
      (c → inSection s near → GivesX s near.toNat 0 0 (exec i s)) ∧ (¬c → GivesX s (pc + 4) 0 0 (exec i s))
    branch (x = y) (.beq a b off) ∧ branch (x ≠ y) (.bne a b off)
    ∧ branch (x.toInt < y.toInt) (.blt a b off) ∧ branch (y.toInt ≤ x.toInt) (.bge a b off)
    ∧ branch (x.toNat < y.toNat) (.bltn a b off) ∧ branch (y.toNat ≤ x.toNat) (.bgen a b off)
    ∧ (inSection s away → GivesX s away.toNat 0 0 (exec (.j far) s))
    ∧ (inSection s away → GivesX s away.toNat 31 (BitVec.ofNat 32 (pc + 4)) (exec (.jal far) s))
    ∧ (x.toNat % 4 = 0 → inSection s x.toNat → GivesX s x.toNat d (BitVec.ofNat 32 (pc + 4)) (exec (.jr d a) s))
    ∧ (x - 1 ≠ 0 → inSection s near → GivesX s near.toNat a (x - 1) (exec (.loop a off) s))
    ∧ (x = 1 → GivesX s (pc + 4) a 0 (exec (.loop a off) s))

/-- R79 to R82: LRUN appends the record of its words with x0 to x15 and a0 to a15 where there is room; LRUN of no words does
nothing; LJMP moves RP; LSYNC goes on when nothing is pending and every word's flags are in %fpflags (R70), the stores of the lane
words before it then being seen (R65); XRQ takes the oldest entry of the return queue. -/
def Obligations.ScalarLaneControl : Prop :=
  ∀ (s : State) (d a : BitVec 5) (imm : BitVec 16), Running s →
    let k := s.me.core
    let n := (s.x a + imm.setWidth 32).toNat
    let words := capLen s.me.lcode / 12
    let next := k.pc + 4
    let new (n : Nat) : RelRec :=
      { first := k.rp, count := n, xs := (List.range 16).map k.x, caps := (List.range 16).map k.cap }
    (n = 0 → GivesCore s { k with pc := next } (exec (.lrun a imm) s))
    ∧ (0 < n → n ≤ 4096 → k.rp + n ≤ words → k.relq.length ≠ 16 → k.pending + n ≤ 4096 →
        GivesCore s { k with pc := next, rp := k.rp + n, pending := k.pending + n, relq := k.relq ++ [new n] }
          (exec (.lrun a imm) s))
    ∧ (n < words → GivesCore s { k with pc := next, rp := n } (exec (.ljmp a imm) s))
    ∧ (k.pending = 0 → s.me.wordFlags = [] → ∃ t, exec .lsync s = .next t ∧ OnlyCourse s t
        ∧ t.me = { s.me with core := { k with pc := next }, unsynced := [] })
    ∧ (∀ v rest, k.retq = v :: rest → ∃ t, exec (.xrq d) s = .next t ∧ OnlyCourse s t ∧ t.me.core.retq = rest
        ∧ t.me.core.pc = next ∧ t.me.core.x d.toNat = inX d v ∧ ∀ m, m ≠ d.toNat → t.me.core.x m = k.x m)

/-- R83, R85, R87, R88: QFEED reads its seven-word descriptor from x[b] to x[b+6] into the active slot where that is free, else
into the waiting one, and a feed of no entries ends at once; QHALT empties the queue and both slots when every lane word
released before it has issued; QSTAT gives the snapshot of the queue, MARK counting an element lost with its link among the marked
ones (the model's own choice, log 27). -/
def Obligations.ScalarFeeds : Prop :=
  ∀ (s : State) (q ca : BitVec 4) (d b : BitVec 5), Running s →
    let k := s.me.core
    let r (i : Nat) := k.x (b.toNat + i)
    let cap := k.cap ca.toNat
    let slots := k.feeds.getD q.toNat {}
    let desc : FeedDesc := { cap := cap, start := r 0, tstr := r 1, count0 := r 2, str0 := r 3, count1 := r 4, str1 := r 5,
                             flags := r 6 }
    (b.toNat ≤ 25 → q.toNat < s.me.nq → (r 2).toNat ≤ 2 ^ 24 → (r 4).toNat ≤ 2 ^ 24 → (r 6).toNat % 4 ≠ 3 → (r 6).toNat < 64 →
      capLen cap ≠ 0 → capKind cap = 0 → capPerm cap &&& 1 ≠ 0 → ¬(slots.active.isSome ∧ slots.waiting.isSome) →
      ∃ t, exec (.qfeed q ca b) s = .next t ∧ OnlyCore s t ∧ t.me.core.pc = k.pc + 4 ∧ t.me.core.queues = k.queues
        ∧ t.me.core.feeds.getD q.toNat {} =
            (if slots.active.isSome then { slots with waiting := some desc }
             else if (r 2).toNat * (r 4).toNat = 0 then slots else { slots with active := some desc })
        ∧ ∀ p, p ≠ q.toNat → t.me.core.feeds.getD p {} = k.feeds.getD p {})
    ∧ (k.pending = 0 ∨ (s.me.inFlight = true ∧ k.pending = 1) →
        ∃ t, exec (.qhalt q) s = .next t ∧ OnlyCore s t ∧ t.me.core.pc = k.pc + 4 ∧ t.me.core.queues.getD q.toNat [] = []
          ∧ t.me.core.feeds.getD q.toNat {} = {} ∧ ∀ p, p ≠ q.toNat →
            t.me.core.queues.getD p [] = k.queues.getD p [] ∧ t.me.core.feeds.getD p {} = k.feeds.getD p {})
    ∧ (let es := k.queues.getD q.toNat []
       let left := match slots.active with | some f => f.count0.toNat * f.count1.toNat - f.next | none => 0
       GivesX s (k.pc + 4) d (BitVec.ofNat 32 (256 * min left (2 ^ 24 - 1)
           + 32 * (if es.any fun e => e.bounds ||| e.align ||| e.xlt ||| e.mem ||| e.link != 0 then 1 else 0)
           + 16 * (if slots.waiting.isSome then 1 else 0) + 8 * (if slots.active.isSome then 1 else 0) + es.length))
         (exec (.qstat d q) s))

/-- R69 to R72, R89: SRD gives a special register's value and changes nothing but x[d] and, for %clock and %lclock, the holding
register that %clockh and %lclockh then return; SWR replaces %fpflags and clears the bits of %faultmask that are 1. Both reflect
every lane word that has completed, where R70 leaves open which (the model's own choice, log 85). NOP goes on. -/
def Obligations.ScalarSpecialRegisters : Prop :=
  ∀ (s : State) (d a : BitVec 5) (num : BitVec 16), Running s →
    let c := s.me
    let k := c.core
    let x := s.context c.ctx
    let next := k.pc + 4
    let reads (n : BitVec 16) (v : Nat) : Prop := GivesX s next d (BitVec.ofNat 32 v) (exec (.srd d n) s)
    reads 0x000 64 ∧ reads 0x001 4 ∧ reads 0x002 c.index ∧ reads 0x004 (x.tenant % 2 ^ 16) ∧ reads 0x005 c.ctx
    ∧ reads 0x007 k.preds.length ∧ reads 0x009 c.nq ∧ reads 0x00A k.retq.length ∧ reads 0x00B k.pending ∧ reads 0x00C k.rp
    ∧ reads 0x020 k.fpflags.toNat ∧ reads 0x030 x.vbnd ∧ reads 0x032 x.vmeas ∧ reads 0x033 (if x.vmode then 1 else 0)
    ∧ reads 0x053 k.clockHold.toNat ∧ reads 0x055 k.lclockHold.toNat
    ∧ (∃ t, exec (.srd d 0x052) s = .next t ∧ OnlyCore s t ∧ t.me.core.pc = next
        ∧ t.me.core.x d.toNat = inX d (BitVec.ofNat 32 s.clock) ∧ t.me.core.clockHold = BitVec.ofNat 32 (s.clock / 2 ^ 32))
    ∧ (∃ t, exec (.srd d 0x054) s = .next t ∧ OnlyCore s t ∧ t.me.core.pc = next
        ∧ t.me.core.x d.toNat = inX d (BitVec.ofNat 32 c.lclock) ∧ t.me.core.lclockHold = BitVec.ofNat 32 (c.lclock / 2 ^ 32))
    ∧ (∃ t, exec (.srd d num) s = .next t ∧ OnlyCore s t ∧ t.me.core.pc = next
        ∧ t.me.core.x d.toNat = inX d (s.special s.cur num.toNat) ∧ ∀ m, m ≠ d.toNat → t.me.core.x m = k.x m)
    ∧ GivesCore s { k with pc := next, fpflags := (s.x a).setWidth 5 } (exec (.swr a 0x020) s)
    ∧ (∀ w, w < 8 → ∃ t, exec (.swr a (0x018 + BitVec.ofNat 16 w)) s = .next t ∧ OnlyCore s t
        ∧ t.me.core = { k with pc := next, faultMask := t.me.core.faultMask }
        ∧ ∀ i, i < 256 → t.me.core.faultMask.getLsbD i = (k.faultMask.getLsbD i && !(i / 32 == w && (s.x a).getLsbD (i % 32))))
    ∧ GivesCore s { k with pc := next } (exec .nop s)

/-- R102, R103: CMOV copies a capability; CPERM removes permissions and never adds one; CBND narrows an ordinary capability with D
to a range inside it; CGET reads its fields. Only a[d], or x[d] for CGET, and the PC change. -/
def Obligations.ScalarCapabilityOps : Prop :=
  ∀ (s : State) (cd ca : BitVec 4) (d b : BitVec 5), Running s →
    let k := s.me.core
    let c := k.cap ca.toNat
    let off := (k.x b.toNat).toNat + 2 ^ 32 * (k.x (b.toNat + 1)).toNat
    let len := (k.x (b.toNat + 2)).toNat + 2 ^ 32 * (k.x (b.toNat + 3)).toNat
    GivesCap s cd c (exec (.cmov cd ca) s)
    ∧ GivesCap s cd (c &&& ~~~(BitVec.ofNat 128 (2 ^ 57 * 127)) ||| (c &&& BitVec.ofNat 128 (2 ^ 57 * ((s.x b).toNat % 128))))
        (exec (.cperm cd ca b) s)
    ∧ (capLen c ≠ 0 → capKind c = 0 → capPerm c &&& 16 ≠ 0 → off + len ≤ capLen c →
        ∃ t, exec (.cbnd cd ca b) s = .next t ∧ OnlyCap s t cd ∧ t.me.core.pc = k.pc + 4
          ∧ capBase (t.me.core.cap cd.toNat) = (capBase c + off) % 2 ^ 57 ∧ capLen (t.me.core.cap cd.toNat) = len
          ∧ capPerm (t.me.core.cap cd.toNat) = capPerm c ∧ capKind (t.me.core.cap cd.toNat) = 0
          ∧ capTen (t.me.core.cap cd.toNat) = capTen c)
    ∧ (∀ which : BitVec 16, which.toNat ≤ 4 → GivesX s (k.pc + 4) d
        (match which.toNat with
         | 0 => c.extractLsb' 0 32
         | 1 => (c.extractLsb' 32 25).setWidth 32
         | 2 => c.extractLsb' 64 32
         | 3 => (c.extractLsb' 96 8).setWidth 32
         | _ => ((c.extractLsb' 120 8).setWidth 32 <<< 24) ||| ((c.extractLsb' 57 7).setWidth 32 <<< 16)
                  ||| (c.extractLsb' 104 16).setWidth 32) (exec (.cget d ca which) s))

/-- R100, R101: XLD and CLD that pass the checks of R95 put the bytes the course loads, least significant first, in x[d] or
a[d], those of its completed lane words' stores and of its earlier scalar stores among them. A capability that fails validation
traps and a[d] keeps its value. Memory and the held stores are unchanged. -/
def Obligations.ScalarLoads : Prop :=
  ∀ (s : State) (d : BitVec 5) (cd ca : BitVec 4) (imm : BitVec 16) (bytes : List Byte), Running s →
    let c := s.me
    let cap := c.core.cap ca.toNat
    let ea : Int := capBase cap + imm.toInt
    let loads (n : Nat) : Prop :=
      s.useErr c.who cap 0 1 ea n n false = none ∧ s.loadVA c ea.toNat n = .ok bytes
        ∧ s.badLoad c ea.toNat n = false
    let got : Cap := BitVec.ofNat 128 (leNat bytes)
    let kept (t : State) : Prop := SameMemory s t ∧ t.me.heldG = c.heldG ∧ t.me.heldS = c.heldS ∧ t.me.core.pc = c.core.pc + 4
    (loads 4 → ∃ t, exec (.xld d ca imm) s = .next t ∧ kept t ∧ t.me.core.x d.toNat = inX d (BitVec.ofNat 32 (leNat bytes))
      ∧ (∀ n, n ≠ d.toNat → t.me.core.x n = c.core.x n) ∧ t.me.core.caps = c.core.caps ∧ t.me.core.vregs = c.core.vregs)
    ∧ (loads 16 → s.validate (s.context c.ctx).tenant got = none →
        ∃ t, exec (.cld cd ca imm) s = .next t ∧ kept t ∧ t.me.core.cap cd.toNat = got
          ∧ (∀ n, n ≠ cd.toNat → t.me.core.cap n = c.core.cap n) ∧ t.me.core.xs = c.core.xs ∧ t.me.core.vregs = c.core.vregs)
    ∧ (∀ detail, loads 16 → s.validate (s.context c.ctx).tenant got = some detail →
        exec (.cld cd ca imm) s =
          .next ((s.noteLoad s.cur ea.toNat 16).scalarTrap { cause := 3, detail := detail, addr := ea.toNat }))

/-- R100, R101, R195: XST and CST that pass the checks of R95 put their bytes, least significant first, into the store-hold area at
EA and go on; no register changes. Where the area has room every byte of memory and every other held byte is unchanged (a
translation may enter the TLBs, and its walk's lines the L2, with leases of their own, R110), and where it is full the course first
takes a checkpoint. -/
def Obligations.ScalarStores : Prop :=
  ∀ (s : State) (d : BitVec 5) (cd ca : BitVec 4) (imm : BitVec 16), Running s →
    let c := s.me
    let cap := c.core.cap ca.toNat
    let ea : Int := capBase cap + imm.toInt
    let full := 64 ≤ c.heldCount || 512 ≤ s.coreHeld c.place
    let stores (i : Instr) (n v : Nat) : Prop :=
      s.useErr c.who cap 0 2 ea n n true = none → (c.inFlight && full) = false →
      ∃ t, exec i s = .next t ∧ t.me.core = { c.core with pc := c.core.pc + 4 }
        ∧ (∀ k, k < n → heldGet t.me.heldG (ea.toNat + k) = some (BitVec.ofNat 8 (v / 2 ^ (8 * k))))
        ∧ (full = false → OnlyCourse { s with tlb := t.tlb, l2 := t.l2, stamps := t.stamps, sliceBase := t.sliceBase } t ∧ t.me.heldS = c.heldS
            ∧ ∀ a, (a < ea.toNat ∨ ea.toNat + n ≤ a) → heldGet t.me.heldG a = heldGet c.heldG a)
    stores (.xst d ca imm) 4 (s.x d).toNat ∧ stores (.cst cd ca imm) 16 (c.core.cap cd.toNat).toNat

/-- R34, R77, R79, R80, R95, R100, R101, R108: a transfer whose target lies outside the code section, and a JR to an address that is
no multiple of 4, take the trap of the transferring word and write nothing else; an LRUN of more than 4,096 words, or of words
beyond the lane section, and an LJMP beyond it trap and release nothing (the detail and the address of the traps of R34 and of
the release beyond the section are the model's reading, log 12); a scalar memory word whose use of its capability fails stops with
that failure and writes no register. -/
def Obligations.ScalarTraps : Prop :=
  (∀ (s : State) (d a b : BitVec 5) (off : BitVec 16) (far : BitVec 26),
      let near : Int := s.me.core.pc + 4 + 4 * off.toInt
      let away : Int := s.me.core.pc + 4 + 4 * far.toInt
      let x := s.x a
      let outside (t : Int) : Out :=
        .next (s.scalarTrap { cause := 3, detail := 4, addr := ((capBase s.me.scode + t) % 2 ^ 57).toNat })
      (x = s.x b → ¬inSection s near → exec (.beq a b off) s = outside near)
      ∧ (x ≠ s.x b → ¬inSection s near → exec (.bne a b off) s = outside near)
      ∧ (x.toInt < (s.x b).toInt → ¬inSection s near → exec (.blt a b off) s = outside near)
      ∧ ((s.x b).toInt ≤ x.toInt → ¬inSection s near → exec (.bge a b off) s = outside near)
      ∧ (x.toNat < (s.x b).toNat → ¬inSection s near → exec (.bltn a b off) s = outside near)
      ∧ ((s.x b).toNat ≤ x.toNat → ¬inSection s near → exec (.bgen a b off) s = outside near)
      ∧ (¬inSection s away → exec (.j far) s = outside away ∧ exec (.jal far) s = outside away)
      ∧ (x - 1 ≠ 0 → ¬inSection s near → exec (.loop a off) s = outside near)
      ∧ (x.toNat % 4 = 0 → ¬inSection s x.toNat → exec (.jr d a) s = outside x.toNat)
      ∧ (x.toNat % 4 ≠ 0 →
          exec (.jr d a) s = .next (s.scalarTrap { cause := 5, addr := (capBase s.me.scode + x.toNat) % 2 ^ 57 })))
  ∧ (∀ (s : State) (a : BitVec 5) (imm : BitVec 16),
      let n := (s.x a + imm.setWidth 32).toNat
      let words := capLen s.me.lcode / 12
      let beyond (word : Nat) : Out :=
        .next (s.scalarTrap { cause := 3, detail := 4, addr := (capBase s.me.lcode + 12 * word) % 2 ^ 57 })
      (4096 < n → exec (.lrun a imm) s = .next (s.scalarTrap { cause := 1, detail := 4 }))
      ∧ (0 < n → n ≤ 4096 → words < s.me.core.rp + n → exec (.lrun a imm) s = beyond words)
      ∧ (words ≤ n → exec (.ljmp a imm) s = beyond n))
  ∧ (∀ (s : State) (d : BitVec 5) (cd ca : BitVec 4) (imm : BitVec 16) (e : UseErr),
        let cap := s.me.core.cap ca.toNat
        let ea : Int := capBase cap + imm.toInt
        let stops (perm n : Nat) (write : Bool) (i : Instr) : Prop :=
          s.useErr s.me.who cap 0 perm ea n n write = some e → exec i s = .next (s.scalarStop (e.stop ea 0))
        stops 1 4 false (.xld d ca imm) ∧ stops 1 16 false (.cld cd ca imm) ∧ stops 2 4 true (.xst d ca imm)
        ∧ stops 2 16 true (.cst cd ca imm))

/-- R90 to R92: STRAP takes the trap TRAPI with its code when every released lane word has completed, and waits before; SEXIT
ends the scalar stream with a checkpoint, and with no live thread the released words are dropped with it (R91); XWAIT whose word
in memory satisfies the condition leaves the word in x[d] and, with an acquire, passes its write time and takes a checkpoint. -/
def Obligations.ScalarTrapExitWait : Prop :=
  ∀ (s t0 : State) (d : BitVec 5) (ca : BitVec 4) (imm code : BitVec 16) (bytes : List Byte) (wts : Nat), Running s →
    let c := s.me
    let k := c.core
    let cap := k.cap ca.toNat
    let word : Word := BitVec.ofNat 32 (leNat bytes)
    let holds := match imm.toNat % 8 with
      | 0 => word == s.x d | 1 => word != s.x d | 2 => decide ((s.x d).toNat ≤ word.toNat) | _ => decide (word.toNat < (s.x d).toNat)
    let reads := s.useErr c.who cap 0 4 (capBase cap) 4 4 false = none ∧ s.homeRead c.who (capBase cap) 4 = .ok (bytes, wts, t0)
      ∧ s.badVA c.who (capBase cap) 4 = false
    let went := t0.scalarNext fun k => { k.setX d.toNat word with lobs := max k.lobs wts }
    (k.pending = 0 → exec (.strap code) s =
        .next (s.takeTrap s.cur { cause := 19, code := code.toNat, scalar := true, pc := k.pc }))
    ∧ (k.pending ≠ 0 → exec (.strap code) s = .next (s.scalarWait { kind := .lanes }))
    ∧ (c.inFlight = false → ∃ t, exec .sexit s = .next t
        ∧ t.me.core = (if k.live = 0 then { k with pc := k.pc + 4, ended := true, relq := [], pending := 0 }
                       else { k with pc := k.pc + 4, ended := true })
        ∧ t.me.ckpt = t.me.core ∧ t.me.shadow = [] ∧ t.me.heldS = [])
    ∧ (reads → holds = true → imm.getLsbD 3 = false → exec (.xwait d ca imm) s = .next went
        ∧ went.me.core.x d.toNat = inX d word ∧ went.me.core.pc = k.pc + 4 ∧ went.me.core.lobs = max k.lobs wts)
    ∧ (reads → holds = true → imm.getLsbD 3 = true → c.inFlight = false →
        exec (.xwait d ca imm) s = .next ((went.acquire s.cur wts).checkpoint s.cur))
    ∧ (reads → holds = false → (imm.getLsbD 3 && c.inFlight) = false → ∃ t w, exec (.xwait d ca imm) s = .next t
        ∧ t.me.core = k ∧ t.me.swait = some w ∧ w.kind = .word)

/-- R353, R356: a trap whose POLICY bit is 0 kills: every member of the trapping course's team is retired, or the course itself
where it is in no team. A trap whose POLICY bit is 1, in a context with a usable fault ring that has a free slot, is posted: the
trapped course keeps the fault and the number of its entry, waits for service on both streams, and the entry is awaited. -/
def Obligations.TrapDelivery : Prop :=
  (∀ (s : State) (i : Nat) (f : FaultInfo), i < s.courses.length → (s.course i).alive = true →
      (s.context (s.course i).ctx).policy.getLsbD f.cause = false →
      ∀ j, (j = i ∨ ((s.course j).team.isSome ∧ (s.course j).team = (s.course i).team ∧ (s.course j).alive)) → j < s.courses.length →
        ((s.takeTrap i f).course j).phase = .retired)
  ∧ (∀ (s : State) (i : Nat) (f : FaultInfo) (h : RingHdr) (r : RingRef) (s2 : State) (tw : Nat),
        let s1 := (((s.creditGranted i).checkpoint i).writeRecord i f false ((s.creditGranted i).checkpoint i |>.course i).phase.code 0).modCourse i
          fun c => { c with sfault := none }
        let s1' := s1.modCourse i fun c => { c with trapped := some { info := f } }
        let x := s1.context (s1.course i).ctx
        i < s.courses.length → x.policy.getLsbD f.cause = true → capLen x.faultRing ≠ 0 →
        s1'.ringHdr (s1.course i).ctx x.faultRing = .ok h → h.ok x.faultRing = true →
        s1'.ringAlloc (s1.course i).ctx 0 x.faultRing h = some (s2, r, tw) →
        let t := s.takeTrap i f
        ((t.course i).trapped.map fun p => (p.info, p.entry)) = some (f, some r.slot)
        ∧ ((t.course i).swait.map (·.kind)) = some .service ∧ ((t.course i).lwait.map (·.kind)) = some .service
        ∧ ∃ p, p ∈ t.posted ∧ p.entry = r.slot ∧ p.course = some i ∧ p.ctx = (s1.course i).ctx)

/-- R353: RESUME goes on after the trapping word, RETRY issues it again; both end the waits, and RESUME's state is the new
checkpoint. A window that the word opened before it faulted then has all of its words still to come (R53). -/
def Obligations.TrapReturn : Prop :=
  ∀ (s : State) (i : Nat) (f : FaultInfo) (e : Option Nat) (n : Nat), i < s.courses.length →
    (s.course i).trapped = some { info := f, entry := e, source := n } → f.later = false →
    let k := (s.course i).core
    let again := (s.resumeTrap i true).course i
    let on := (s.resumeTrap i false).course i
    again.core = k ∧ again.trapped = none ∧ again.swait = none ∧ again.lwait = none
    ∧ on.core = (if f.scalar then { k with pc := k.pc + 4 } else k.passWord) ∧ on.ckpt = on.core
    ∧ (∀ l, l ∈ k.looks → l.own = true → { l with own := false } ∈ k.passWord.looks)
    ∧ on.trapped = none ∧ on.swait = none ∧ on.lwait = none

/-- R182, R184: a checkpoint performs the course's held stores, records its present state and empties its shadow: a held byte is
gone from the area or, where its page cannot be used, stays with its value; with nothing held no memory changes; a lone held byte
is then at its location, or in its team's window where it is a scratch byte. A rollback restores the recorded state and drops the
held stores without performing them, but for those from before the checkpoint whose commit waits for a loan's move (R392); its
logical clock stays (R241). Neither changes an accumulator tile: the words that write tiles take their checkpoints after it (the
model's own reading, log 31), and a held byte whose page has changed goes by either translation (log 118). -/
def Obligations.CheckpointAndRollback : Prop :=
  ∀ (s : State) (i : Nat), i < s.courses.length →
    let c := s.course i
    let t := s.checkpoint i
    let r := s.restore i
    (t.course i).core = c.core ∧ (t.course i).ckpt = c.core ∧ (t.course i).shadow = [] ∧ (t.course i).heldS = []
    ∧ (t.course i).mctx = c.mctx ∧ (t.course i).owed = (t.course i).heldG
    ∧ (∀ a, heldGet (t.course i).heldG a = none ∨ heldGet (t.course i).heldG a = heldGet c.heldG a)
    ∧ (c.heldG = [] → SameMemory s t)
    ∧ (∀ a b x, c.heldG = [(a, b)] → s.heldXlat c a 1 = some x → x.loc < lentBase → x.loc % 64 = a % 64 → x.leaf.getLsbD 11 = false →
        s.memOk = true → s.hostLines = [] → s.heldWrites = [] →
        (t.course i).heldG = [] ∧ t.locGet x.loc = b ∧ ∀ p, p ≠ x.loc → t.locGet p = s.locGet p)
    ∧ (∀ off b k, c.heldS = [(off, b)] → c.team = some k → k < s.teams.length → off < (s.team k).size →
        (s.team k).released.contains (off / 64) = false → Memory.wf (s.team k).scratch = true →
        (t.team k).scratch.get off = b ∧ (t.team k).byteWritten off = true)
    ∧ (r.course i).core = c.ckpt ∧ (r.course i).heldG = c.owed ∧ (r.course i).heldS = [] ∧ (r.course i).shadow = []
    ∧ (r.course i).lclock = c.lclock ∧ (r.course i).mctx = c.mctx ∧ SameMemory s r

/-! The lane words that compute unit by unit (R136 to R153). -/

/-- R136, R137, R140 to R144: the integer class. Every executing unit writes every element of its destination from the elements of
A, B and C, computed independently; the broadcast of SEL applies to B; no word of the class raises a flag. An immediate in C of
IDP4 is expanded in TYPE, the model's own choice (log 83). -/
def Obligations.LaneIntegerWords : Prop :=
  ∀ (s : State) (w : Single), Running s →
    let ty := w.ty.toNat
    let n := Legal.width ty
    let v := elemValue ty
    let fit := elemFit ty w.sat
    let elems (k : Nat) (i : Instr) (f : Nat → Nat → Nat → Nat) : Prop :=
      ComputesN s w k false (exec i s) fun a b c => onElems ty (fun x y z => ⟨f x y z, 0⟩) a b c
    let words (k : Nat) (i : Instr) (f : Word → Word → Word → Word) : Prop :=
      ComputesN s w k false (exec i s) fun a b c => (f a b c, 0)
    let pos (b : Word) : Nat := b.toNat % 32
    let len (b : Word) : Nat := min (b.toNat / 256 % 64) 32
    let field (b : Word) : Word := BitVec.ofNat 32 (2 ^ len b - 1)
    elems 2 (.iadd w) (fun x y _ => fit (v x + v y)) ∧ elems 2 (.isub w) (fun x y _ => fit (v x - v y))
    ∧ elems 2 (.imul w) (fun x y _ => fit (v x * v y)) ∧ elems 3 (.imad w) (fun x y z => fit (v x * v y + v z))
    ∧ elems 2 (.imin w) (fun x y _ => if v x ≤ v y then x else y)
    ∧ elems 2 (.imax w) (fun x y _ => if v x ≤ v y then y else x)
    ∧ elems 1 (.iabs w) (fun x _ _ => fit (if v x < 0 then -v x else v x)) ∧ elems 1 (.ineg w) (fun x _ _ => fit (-v x))
    ∧ words 2 (.andLane w) (fun a b _ => a &&& b) ∧ words 2 (.orLane w) (fun a b _ => a ||| b)
    ∧ words 2 (.xorLane w) (fun a b _ => a ^^^ b) ∧ words 1 (.not w) (fun a _ _ => ~~~a)
    ∧ elems 2 (.shlLane w) (fun x y _ => x * 2 ^ (y % n) % 2 ^ n) ∧ elems 2 (.shrLane w) (fun x y _ => x / 2 ^ (y % n))
    ∧ elems 2 (.sraLane w) (fun x y _ =>
        (((if 2 ^ (n - 1) ≤ x then (x : Int) - 2 ^ n else x) / 2 ^ (y % n)) % 2 ^ n).toNat)
    ∧ elems 2 (.rot w) (fun x y _ => x * 2 ^ (y % n) % 2 ^ n + x / 2 ^ (n - y % n))
    ∧ elems 1 (.popcLane w) (fun x _ _ => ((List.range n).filter fun i => x.testBit i).length)
    ∧ elems 1 (.clzLane w) (fun x _ _ => if x = 0 then n else n - 1 - Nat.log2 x)
    ∧ elems 1 (.brev w) (fun x _ _ => ((List.range n).map fun i => if x.testBit i then 2 ^ (n - 1 - i) else 0).sum)
    ∧ words 2 (.imulh w) (fun a b _ =>
        if ty = 0 then (a.signExtend 64 * b.signExtend 64).extractLsb' 32 32 else (a.setWidth 64 * b.setWidth 64).extractLsb' 32 32)
    ∧ words 2 (.bfe w) (fun a b _ =>
        let f := (a >>> pos b) &&& field b
        if ty = 0 ∧ 0 < len b ∧ f.getLsbD (len b - 1) then f ||| ~~~field b else f)
    ∧ words 3 (.bfi w) (fun a b c => (a &&& ~~~(field b <<< pos b)) ||| ((c <<< pos b) &&& (field b <<< pos b)))
    ∧ words 1 (.mov w) (fun a _ _ => a) ∧ elems 3 (.sel w) (fun x y z => if z ≠ 0 then x else y)
    ∧ words 3 (.idp4 w) (fun a b c =>
        let other (y : Nat) : Int := if (Legal.isSigned ty != w.mod.getLsbD 0) && 2 ^ (n - 1) ≤ y then (y : Int) - 2 ^ n else y
        let sum := ((List.range (Legal.count ty)).map fun i => v (Num.elem n a i) * other (Num.elem n b i)).sum + c.toInt
        BitVec.ofInt 32 (if w.sat then max (-2 ^ 31) (min (2 ^ 31 - 1) sum) else sum))

/-- R136, R145 to R150: the float class. Every executing unit writes every element of its destination; the element results and
their flags are those of the model's float arithmetic, and the flags of every executing unit are added to %fpflags. An immediate
in C of FDP2 is expanded in TYPE, and a NaN comes before infinities of both signs, the model's own choice (log 83, 106). -/
def Obligations.LaneFloatWords : Prop :=
  ∀ (s : State) (w : Single), Running s →
    let ty := w.ty.toNat
    let rm := Num.rmOf w.rnd
    let m := w.mod.getLsbD 0
    let elems (k : Nat) (i : Instr) (f : Nat → Nat → Nat → Num.Res) : Prop :=
      ComputesN s w k false (exec i s) (onElems ty f)
    elems 2 (.fadd w) (fun x y _ => Num.fadd ty rm w.sat x y) ∧ elems 2 (.fsub w) (fun x y _ => Num.fsub ty rm w.sat x y)
    ∧ elems 2 (.fmul w) (fun x y _ => Num.fmul ty rm w.sat x y)
    ∧ elems 3 (.fma w) (fun x y z => Num.fma ty rm w.sat m (w.mod.getLsbD 1) x y z)
    ∧ elems 2 (.fmin w) (fun x y _ => Num.fminmax ty false m x y) ∧ elems 2 (.fmax w) (fun x y _ => Num.fminmax ty true m x y)
    ∧ elems 1 (.fabs w) (fun x _ _ => Num.fabs ty x) ∧ elems 1 (.fneg w) (fun x _ _ => Num.fneg ty x)
    ∧ elems 2 (.fcpys w) (fun x y _ => Num.fcpys ty x y) ∧ elems 1 (.frnd w) (fun x _ _ => Num.frnd ty rm m x)
    ∧ elems 1 (.fclass w) (fun x _ _ => Num.fclass ty x)
    ∧ ComputesN s w 3 false (exec (.fdp2 w) s) (fun a b c => Num.fdp2 ty rm w.sat a b c)

/-- R51, R53, R151 to R153: the special-function class, whose result is held back by LOOK: every executing unit writes every element
of its destination with the function of the element of A and adds its flags. Where no rule speaks it states the model's own choice
(log 73). -/
def Obligations.LaneSpecialFunctionWords : Prop :=
  ∀ (s : State) (w : Single), Running s →
    let ty := w.ty.toNat
    let rm := Num.rmOf w.rnd
    let gives (i : Instr) (f : Nat → Num.Res) : Prop := ComputesN s w 1 true (exec i s) (onElems ty fun x _ _ => f x)
    gives (.rcp w) (Sfu.rcp ty rm w.sat) ∧ gives (.rsq w) (Sfu.rsq ty w.sat) ∧ gives (.sqrt w) (Sfu.sqrt ty rm)
    ∧ gives (.exp2 w) (Sfu.exp2 ty w.sat) ∧ gives (.log2 w) (Sfu.log2 ty) ∧ gives (.sinp w) (Sfu.sinp ty)
    ∧ gives (.cosp w) (Sfu.cosp ty) ∧ gives (.tanh w) (Sfu.tanh ty)

/-- R55 to R57: a pair word reads the sources of both slots before either writes; slot P then slot Q write what the single-format
instruction of the same name computes with every other field zero. -/
def Obligations.LanePairWords : Prop :=
  ∀ (s : State) (p q : Slot) (qop : PairOp), Running s →
    let ptype (x : BitVec 3) : Nat := if x = 5 then 8 else if x = 6 then 10 else x.toNat
    let reads (op : PairOp) (x : Slot) : List (BitVec 8 × Mask) :=
      (Legal.pairSrc op x).map fun c => (c, s.me.core.guard x.ng)
    let byThread (op : PairOp) (x : Slot) : List (BitVec 8 × Mask) := if x.u then [] else reads op x
    let byGroup (op : PairOp) (x : Slot) : List (BitVec 8 × Mask) := if x.u then reads op x else []
    let wrote (e : Env) (op : PairOp) (x : Slot) (c : Core) : Core :=
      let ty := ptype x.pty
      let n := if x.u then 64 else 256
      let sel := units x.u (e.guard x.ng)
      let r (t : Nat) := onElems ty (elemOp op ty x.rnd false) (e.unit ty 0 x.a t) (e.unit ty 0 x.b t) (e.unit ty 0 x.c t)
      let vals := (List.range n).map fun t => if sel.getLsbD t then (r t).1 else 0
      let flags := (List.range n).foldl (fun acc t => if sel.getLsbD t then acc ||| (r t).2 else acc) 0
      { c.writeD x.u x.d sel vals with fpflags := c.fpflags ||| flags }
    let pair (pop : PairOp) (i : Instr) : Prop :=
      let inP := (reads pop p).any fun r => Legal.isQ r.1
      ∀ e, s.issue (s.me.core.guard (if inP then p.ng else q.ng)) (byThread pop p ++ byThread qop q)
          (byGroup pop p ++ byGroup qop q) = .ok e → e.after = none →
        ∃ t, exec i s = .next t ∧ LaneEnd s t e [keyOf p.d, keyOf q.d] fun c => wrote e qop q (wrote e pop p c)
    pair .iadd (.iaddPair p qop q) ∧ pair .isub (.isubPair p qop q) ∧ pair .imul (.imulPair p qop q)
    ∧ pair .imad (.imadPair p qop q) ∧ pair .imin (.iminPair p qop q) ∧ pair .imax (.imaxPair p qop q)
    ∧ pair .and (.andPair p qop q) ∧ pair .or (.orPair p qop q) ∧ pair .xor (.xorPair p qop q)
    ∧ pair .shl (.shlPair p qop q) ∧ pair .shr (.shrPair p qop q) ∧ pair .sra (.sraPair p qop q)
    ∧ pair .mov (.movPair p qop q) ∧ pair .sel (.selPair p qop q) ∧ pair .fadd (.faddPair p qop q)
    ∧ pair .fsub (.fsubPair p qop q) ∧ pair .fmul (.fmulPair p qop q) ∧ pair .fma (.fmaPair p qop q)
    ∧ pair .fmin (.fminPair p qop q) ∧ pair .fmax (.fmaxPair p qop q) ∧ pair .fabs (.fabsPair p qop q)
    ∧ pair .fneg (.fnegPair p qop q)

/-- R125 to R131: the conversion class. CVT converts the elements, into a part of D that keeps the other elements where it narrows;
PACK writes two elements of D; UNPK takes the element B names; SCACC adds a scaled A to D; SCALE writes one scaled element; BSCL
gives each block of 32 threads the scale byte of its active values. With U = 1 and a v destination the elements a word does not
write stay each thread's own, the model's own choice (log 82). -/
def Obligations.LaneConversionWords : Prop :=
  ∀ (s : State) (w : Single), Running s →
    let ty := w.ty.toNat
    let rm := Num.rmOf w.rnd
    let dst := w.mod.toNat % 16
    let part (lo n : Nat) : Word := BitVec.ofNat 32 ((2 ^ n - 1) * 2 ^ lo)
    let cv (x : Nat) : Num.Res := Num.conv ty dst rm w.sat x
    let ns := Legal.count ty
    let nd := Legal.count dst
    let ws := Legal.width ty
    let wd := Legal.width dst
    let sel := w.sel.toNat
    -- CVT
    (nd ≤ ns → Computes s w [w.a] false (BitVec.allOnes 32) (exec (.cvt w) s) fun e t =>
      Num.packRes wd ((List.range nd).map fun i =>
        cv (Num.elem ws (e.unit ty w.imm w.a t) (if nd < ns then sel * nd + i else i))))
    ∧ (ns < nd → Computes s w [w.a, w.d] false (part (sel * ns * wd) (ns * wd)) (exec (.cvt w) s) fun e t =>
        let r := Num.packRes wd ((List.range ns).map fun i => cv (Num.elem ws (e.unit ty w.imm w.a t) i))
        (r.1 <<< (sel * ns * wd), r.2))
    -- PACK
    ∧ (let src := if Legal.isInt ty then (if Legal.isSigned ty then 0 else 1) else 2
       Computes s w [w.a, w.b, w.d] false (part (2 * sel * ws) (2 * ws)) (exec (.pack w) s) fun e t =>
         let x := Num.conv src ty rm w.sat (e.unit src w.imm w.a t).toNat
         let y := Num.conv src ty rm w.sat (e.unit src w.imm w.b t).toNat
         let r := Num.packRes ws (if w.mod.getLsbD 0 then [y, x] else [x, y])
         (r.1 <<< (2 * sel * ws), r.2))
    -- UNPK
    ∧ Computes s w [w.a, w.b] false (BitVec.allOnes 32) (exec (.unpk w) s) (fun e t =>
        let x := Num.elem ws (e.unit ty w.imm w.a t) ((e.unit 1 w.imm w.b t).toNat % ns)
        if w.mod.getLsbD 0 then (BitVec.ofNat 32 x, 0)
        else if Legal.isInt ty then (BitVec.ofInt 32 (elemValue ty x), 0)
        else (BitVec.ofNat 32 (Num.conv ty 2 .rne false x).bits, (Num.conv ty 2 .rne false x).fl))
    -- SCACC
    ∧ (w.mod.toNat % 4 = 1 → Computes s w [w.a, w.b, w.c, w.d] false (BitVec.allOnes 32) (exec (.scacc w) s) fun e t =>
        let p := Num.fmul 2 .rne false (e.unit 2 w.imm w.b t).toNat (e.unit 2 w.imm w.c t).toNat
        let r := Num.fma 2 .rne false false false (e.unit 2 w.imm w.a t).toNat p.bits (e.unit 0 w.imm w.d t).toNat
        (BitVec.ofNat 32 r.bits, p.fl ||| r.fl))
    ∧ (w.mod.toNat % 4 ≠ 1 → Computes s w [w.a, w.b, w.c, w.d] false (BitVec.allOnes 32) (exec (.scacc w) s) fun e t =>
        Num.scaccE8 (e.unit 0 w.imm w.d t) (e.unit 2 w.imm w.a t) (Num.elem 8 (e.unit 1 w.imm w.b t) (sel % 4))
          (Num.elem 8 (e.unit 1 w.imm w.c t) (sel / 4)))
    -- SCALE
    ∧ (let pos := w.mod.toNat / 2 % 16
       Computes s w (if ty ≠ 2 then [w.a, w.b, w.d] else [w.a, w.b]) false (part (pos * ws) ws) (exec (.scale w) s) fun e t =>
         let r := scaleOne ty rm w.sat (w.mod.getLsbD 0) (e.unit 2 w.imm w.a t).toNat (Num.elem 8 (e.unit 1 w.imm w.b t) (sel % 4))
         (BitVec.ofNat 32 (r.bits * 2 ^ (pos * ws)), r.fl))
    -- BSCL
    ∧ (∀ e, s.issue (s.me.core.guard w.ng) [(w.a, s.me.core.guard w.ng)] = .ok e → e.after = none →
        ∃ t, exec (.bscl w) s = .next t ∧ LaneEnd s t e [keyOf w.d] fun c =>
          let on := e.guard w.ng
          let emax := match w.mod.toNat % 4 with | 0 => 8 | 1 => 15 | _ => 6
          let block (j : Nat) : List Word :=
            (List.range 32).filterMap fun i => if on.getLsbD (32 * j + i) then some (e.unit 2 w.imm w.a (32 * j + i)) else none
          c.writeV w.d on ((List.range 256).map fun t => BitVec.ofNat 32 (blockScale emax (block (t / 32)) * 0x01010101)))

/-- R45, R47, R50, R155, R156: a v register written as a destination takes the new bits under the mask in its selected threads and
keeps the others, every other thread's element and every other register stay, and the poison of the written elements is cleared;
with U = 1 a g register takes one element per temporal group, and a v register all four threads of each group. A source is a v
register's elements, the popped entry of a queue, a g register's element of the thread's temporal group, the x register captured at
the release, the immediate, or a thread number. That with U = 1 and a partial mask each of the four threads keeps its own other bits
is the model's own choice (log 82). -/
def Obligations.LaneOperands : Prop :=
  (∀ (c : Core) (code : BitVec 8) (sel : Mask) (vals : List Word) (bm : Word),
      let new (old v : Word) : Word := (old &&& ~~~bm) ||| (v &&& bm)
      (code.toNat < 192 →
        let d := c.writeD false code sel vals bm
        (∀ t, t < 256 → (d.vreg code.toNat).vals.getD t 0
            = if sel.getLsbD t then new ((c.vreg code.toNat).vals.getD t 0) (vals.getD t 0) else (c.vreg code.toNat).vals.getD t 0)
        ∧ (∀ r, r ≠ code.toNat → d.vreg r = c.vreg r) ∧ (∀ r, d.greg r = c.greg r)
        ∧ (∀ t, sel.getLsbD t → (d.vreg code.toNat).rf.getLsbD t = false ∧ (d.vreg code.toNat).me.getLsbD t = false)
        ∧ d.pc = c.pc ∧ d.xs = c.xs ∧ d.caps = c.caps ∧ d.preds = c.preds ∧ d.live = c.live ∧ d.fpflags = c.fpflags)
      ∧ (code.toNat < 192 → (∀ t, 64 ≤ t → sel.getLsbD t = false) →
          let d := c.writeD true code sel vals bm
          ∀ t, t < 256 → (d.vreg code.toNat).vals.getD t 0
            = if sel.getLsbD (t % 64) then new ((c.vreg code.toNat).vals.getD t 0) (vals.getD (t % 64) 0)
              else (c.vreg code.toNat).vals.getD t 0)
      ∧ (0xD0 ≤ code.toNat → code.toNat < 0xE0 →
          let d := c.writeD true code sel vals bm
          (∀ k, k < 64 → (d.greg (code.toNat - 0xD0)).vals.getD k 0
            = if sel.getLsbD k then new ((c.greg (code.toNat - 0xD0)).vals.getD k 0) (vals.getD k 0)
              else (c.greg (code.toNat - 0xD0)).vals.getD k 0)
          ∧ ∀ r, d.vreg r = c.vreg r))
  ∧ (∀ (c : Core) (rel : RelRec) (entry : List Word) (ty : Nat) (imm : BitVec 16) (code : BitVec 8) (t : Nat), t < 256 → c.looks = [] →
        let got := (c.source rel entry ty imm code).getD t 0
        (code.toNat < 0xC0 → got = (c.vreg code.toNat).vals.getD t 0)
        ∧ (0xC0 ≤ code.toNat → code.toNat < 0xD0 → got = entry.getD t 0)
        ∧ (0xD0 ≤ code.toNat → code.toNat < 0xE0 → got = (c.greg (code.toNat - 0xD0)).vals.getD (t % 64) 0)
        ∧ (code = 0xE0 → got = 0)
        ∧ (0xE0 < code.toNat → code.toNat < 0xF0 → got = rel.xs.getD (code.toNat - 0xE0) 0)
        ∧ (code = 0xF0 → got = Num.expandImm ty imm)
        ∧ (code = 0xF2 → got = BitVec.ofNat 32 t) ∧ (code = 0xF3 → got = BitVec.ofNat 32 (t % 64))
        ∧ (code = 0xF4 → got = BitVec.ofNat 32 (t / 64)) ∧ (code = 0xF5 → got = BitVec.ofNat 32 (c.cli.getD t t)))
/-! Predicates, cross-lane words and teams (R156 to R180, R232). -/

/-- R158: the conditions of PUSH and VOTE: integers compared by value, signed for i32 and unsigned for n32; an f32 comparison with a
NaN holds for NE alone and sets NV for a signalling one; -0 equals +0. -/
def Obligations.Conditions : Prop :=
  (∀ a b : Word,
    cond 0 0 a b = (decide (a = b), 0) ∧ cond 0 1 a b = (decide (a ≠ b), 0) ∧ cond 0 2 a b = (decide (a.toInt < b.toInt), 0)
    ∧ cond 0 3 a b = (decide (a.toInt ≤ b.toInt), 0) ∧ cond 0 4 a b = (decide (b.toInt < a.toInt), 0)
    ∧ cond 0 5 a b = (decide (b.toInt ≤ a.toInt), 0)
    ∧ cond 1 0 a b = (decide (a = b), 0) ∧ cond 1 1 a b = (decide (a ≠ b), 0) ∧ cond 1 2 a b = (decide (a.toNat < b.toNat), 0)
    ∧ cond 1 3 a b = (decide (a.toNat ≤ b.toNat), 0) ∧ cond 1 4 a b = (decide (b.toNat < a.toNat), 0)
    ∧ cond 1 5 a b = (decide (b.toNat ≤ a.toNat), 0))
  ∧ (∀ (a b : Word) (n : Nat), (a &&& 0x7FFFFFFF).toNat > 0x7F800000 → n ≤ 5 →
      (cond 2 n a b).1 = decide (n = 1) ∧ (cond 2 n b a).1 = decide (n = 1) ∧ (a.getLsbD 22 = false → (cond 2 n a b).2 = Num.NV))
  ∧ cond 2 0 0x80000000 0 = (true, 0) ∧ cond 2 2 0x80000000 0 = (false, 0)

/-- R156 to R162: PUSH and PUSHV push a mask of active threads, PINV turns the top over below it, POP drops it, PSAV writes the
stack into every thread and PRST reads it back, EXIT ends its active threads in the live mask and every entry, and NOPL does
nothing. A push onto a full stack takes PSOV and a PINV or POP of the last entry takes PSUN, before anything else; a PRST whose
saved count is 0 takes PSUN and one above 16 PSOV, and nothing changes. That the MASK of these faults is 0 is the model's own choice
(R354, log 26). -/
def Obligations.LanePredicateWords : Prop :=
  (∀ (s : State) (w : Single), Running s →
      let k := s.me.core
      let g := k.guard w.ng
      let ty := w.ty.toNat
      let cnd := w.mod.toNat % 16
      -- PUSH
      (k.preds.length < 16 → ∀ e, s.issue g [(w.a, g), (w.b, g)] = .ok e → e.after = none →
        ∃ t m fl, exec (.push w) s = .next t ∧ LaneEnd s t e [] (fun c => { c with preds := m :: c.preds, fpflags := c.fpflags ||| fl })
          ∧ ∀ i, i < 256 → m.getLsbD i
            = ((e.guard w.ng).getLsbD i && (cond ty cnd (e.unit ty w.imm w.a i) (e.unit ty w.imm w.b i)).1))
      -- PUSHV
      ∧ (k.preds.length < 16 → ∀ e, s.issue 0 [] = .ok e → e.after = none →
          ∃ t m, exec (.pushv w) s = .next t ∧ LaneEnd s t e [] (fun c => { c with preds := m :: c.preds })
            ∧ ∀ i, i < 256 → m.getLsbD i = ((e.guard w.ng).getLsbD i && (let n := w.a.toNat - 0xE0 + i / 32
                if n = 0 then false else (e.rel.xs.getD n 0).getLsbD (i % 32))))
      -- PINV, POP
      ∧ (∀ top below rest, k.preds = top :: below :: rest →
          Ends s 0 [] [] (exec (.pinv w) s) (fun _ c => { c with preds := (below &&& ~~~top &&& c.live) :: below :: rest })
          ∧ Ends s 0 [] [] (exec (.pop w) s) fun _ c => { c with preds := below :: rest })
      -- PSAV
      ∧ (k.preds.length ≤ 16 → ∀ e, s.issue 0 [] = .ok e → e.after = none →
          ∃ t vals, exec (.psav w) s = .next t ∧ LaneEnd s t e [keyOf w.d] (fun c => c.writeV w.d (BitVec.allOnes 256) vals)
            ∧ ∀ i, i < 256 → (∀ j, j < 16 → (vals.getD i 0).getLsbD j = ((k.preds.reverse.getD j 0).getLsbD i))
                ∧ (vals.getD i 0).toNat / 2 ^ 16 = k.preds.length)
      -- PRST
      ∧ (∀ e, s.issue g [(w.a, BitVec.allOnes 256)] = .ok e → e.after = none →
          let n := (e.unit 0 0 w.a 0).toNat / 2 ^ 16 % 32
          1 ≤ n → n ≤ 16 → ∃ t ps, exec (.prst w) s = .next t ∧ LaneEnd s t e [] (fun c => { c with preds := ps })
            ∧ ps.length = n ∧ ∀ j i, j < n → i < 256 → (ps.reverse.getD j 0).getLsbD i
              = ((e.unit 0 0 w.a i).getLsbD j && k.live.getLsbD i))
      ∧ (∀ e, s.issue g [(w.a, BitVec.allOnes 256)] = .ok e →
          let n := (e.unit 0 0 w.a 0).toNat / 2 ^ 16 % 32
          (n = 0 → exec (.prst w) s = .next (s.stop (.trap { cause := 8 })))
          ∧ (16 < n → exec (.prst w) s = .next (s.stop (.trap { cause := 7 }))))
      -- EXIT, NOPL
      ∧ Ends s 0 [] [] (exec (.exit w) s)
          (fun _ c => { c with live := c.live &&& ~~~g, preds := c.preds.map fun p => p &&& ~~~g })
      ∧ Ends s 0 [] [] (exec (.nopl w) s) fun _ c => c)
  ∧ (∀ (s : State) (w : Single),
        (16 ≤ s.me.core.preds.length →
          exec (.push w) s = .next (s.stop (.trap { cause := 7 })) ∧ exec (.pushv w) s = .next (s.stop (.trap { cause := 7 })))
        ∧ (s.me.core.preds.length ≤ 1 →
          exec (.pinv w) s = .next (s.stop (.trap { cause := 8 })) ∧ exec (.pop w) s = .next (s.stop (.trap { cause := 8 }))))

/-- R82, R164, R165: VOTE pushes its ballot, or one word for any, all or the count, and RQP one value of D over the active threads
(the first, the largest, the smallest or the sum); a push of either waits while the return queue of 32 has no room for it (VOTE's
ballot for all of its 8 entries), and after SEXIT a push that finds none is discarded, the word completing with the queue as it
was. -/
def Obligations.LaneReturnQueueWords : Prop :=
  ∀ (s : State) (w : Single), Running s →
    let k := s.me.core
    let g := k.guard w.ng
    let ty := w.ty.toNat
    let fits (n : Nat) : Bool := k.retq.length + n ≤ 32
    let pushed (n : Nat) (es : List Word) : Core → Core := fun c => if fits n then { c with retq := c.retq ++ es } else c
    let idOf (i : Nat) : Nat := k.cli.getD i i
    (∀ e, s.issue g [(w.a, g), (w.b, g)] = .ok e → e.after = none →
      let mode := w.mod.toNat / 16 % 4
      let n := if mode = 0 then 8 else 1
      let on (i : Nat) : Bool := (e.guard w.ng).getLsbD i
      let yes (i : Nat) : Bool := on i && (cond ty (w.mod.toNat % 16) (e.unit ty w.imm w.a i) (e.unit ty w.imm w.b i)).1
      let all := List.range 256
      fits n = true ∨ k.ended = true →
      ∃ t es fl, exec (.vote w) s = .next t ∧ LaneEnd s t e [] (fun c => pushed n es { c with fpflags := c.fpflags ||| fl })
        ∧ es.length = n
        ∧ (mode = 0 → ∀ j, j < 256 → (es.getD (j / 32) 0).getLsbD (j % 32) = all.any fun i => yes i && idOf i == j)
        ∧ (mode = 1 → es = [if all.any yes then 1 else 0])
        ∧ (mode = 2 → es = [if all.all (fun i => !on i || yes i) then 1 else 0])
        ∧ (mode = 3 → es = [BitVec.ofNat 32 (all.filter yes).length]))
    ∧ (∀ e, s.issue g [(w.d, g)] = .ok e → e.after = none →
        let vs := ((List.range 256).filter fun i => (e.guard w.ng).getLsbD i).map fun i => (e.unit 0 0 w.d i).toNat
        let red := w.mod.toNat % 4
        fits 1 = true ∨ k.ended = true →
        ∃ t v, exec (.rqp w) s = .next t ∧ LaneEnd s t e [] (pushed 1 [v])
          ∧ (red = 0 → v = BitVec.ofNat 32 (vs.headD 0)) ∧ (red = 1 → v = BitVec.ofNat 32 (vs.foldl max 0))
          ∧ (red = 2 → v = BitVec.ofNat 32 (vs.foldl min (2 ^ 32 - 1))) ∧ (red = 3 → v = BitVec.ofNat 32 vs.sum))
    ∧ (∀ e, s.issue g [(w.d, g)] = .ok e → fits 1 = false → k.ended = false →
        exec (.rqp w) s = .next (s.stop (.wait { kind := .push })))
    ∧ (∀ e, s.issue g [(w.a, g), (w.b, g)] = .ok e →
        let n := if w.mod.toNat / 16 % 4 = 0 then 8 else 1
        (fits n = false → k.ended = false → exec (.vote w) s = .next (s.stop (.wait { kind := .push })))
        ∧ (fits n = false → k.ended = true → e.after = none → ∃ t, exec (.vote w) s = .next t ∧ t.me.core.retq = k.retq))

/-- R167 to R170: SHFL, SHFLI and DSWP give each active thread the value of A in its source thread where that thread is active, else
its own C; a SHFL and a SHFLI stay in the thread's pass of 64. What they consume of A and C follows from the value of B, popped or
not (R187). -/
def Obligations.LanePermuteWords : Prop :=
  ∀ (s : State) (w : Single), Running s →
    let g := s.me.core.guard w.ng
    let popped (extra : List (BitVec 8)) : Option QEntry := s.me.core.nextEntry (w.a :: w.c :: extra)
    let start (extra : List (BitVec 8)) : Env :=
      { me := s.me, rel := s.me.core.relq.headD { first := 0, count := 0, xs := [], caps := [] },
        entry := ((popped extra).map (·.vals)).getD [] }
    let marked (extra : List (BitVec 8)) : Mask := match (popped extra).bind (·.fault g) with | some (_, f) => f.mask | none => 0
    let inPass (t : Nat) (lane : Int) : Option Nat := if 0 ≤ lane ∧ lane < 64 then some (t / 64 * 64 + lane.toNat) else none
    let width : Nat := 64 / 2 ^ (w.mod.toNat / 16 % 8)
    let lane (t : Nat) : Int := let l : Int := (t % 64 : Nat)
      match w.mod.toNat % 16 with
      | 0 => l - 1 | 1 => l + 1 | 2 => l - 2 | 3 => l + 2 | 4 => l - width | 5 => l + width | _ => ((t % 64) ^^^ width : Nat)
    let k := w.imm.toNat % 4
    let pass (t : Nat) : Nat := match w.mod.toNat % 4 with | 0 => t / 64 ^^^ k | 1 => (t / 64 + k) % 4 | _ => k
    let permutes (o : Out) (extra : List (BitVec 8)) (from' : Env → Nat → Option Nat) : Prop :=
      let rd := permuteReads (g &&& ~~~marked extra) (from' (start extra))
      ∀ e, s.issue g ([(w.a, rd.2), (w.c, rd.1)] ++ extra.map fun c => (c, g)) = .ok e → e.after = none →
        ∃ t vals, o = .next t ∧ LaneEnd s t e [keyOf w.d] (fun c => c.writeV w.d (e.guard w.ng) vals)
          ∧ ∀ i, i < 256 → (e.guard w.ng).getLsbD i = true → vals.getD i 0 =
            match from' e i with
            | some j => if (e.guard w.ng).getLsbD j then e.unit 0 0 w.a j else e.unit 0 0 w.c i
            | none => e.unit 0 0 w.c i
    permutes (exec (.shfl w) s) [] (fun _ t => inPass t (lane t))
    ∧ permutes (exec (.shfli w) s) [w.b] (fun e t => inPass t ((e.unit 0 0 w.b t).toInt + w.imm.toInt))
    ∧ permutes (exec (.dswp w) s) [] (fun _ t => if pass t < 4 then some (t % 64 + 64 * pass t) else none)

/-- R171, R172: REDL gives every active thread the combination of its pass's active elements by the fixed tree, SCANL the inclusive
combination of the active elements up to its lane, or the exclusive one with C where there is none, C being a source of both (R155);
a sum of integers is the sum modulo 2^32 of the elements combined. -/
def Obligations.LaneReduceScanWords : Prop :=
  ∀ (s : State) (w : Single), Running s →
    let g := s.me.core.guard w.ng
    let f := combine w.ty.toNat (w.mod.toNat % 8) (Num.rmOf w.rnd) (w.mod.getLsbD 4)
    let excl := w.mod.getLsbD 3
    let sums := w.ty.toNat ≠ 2 ∧ w.mod.toNat % 8 = 0
    (∀ e, s.issue g [(w.a, g)] = .ok e → e.after = none →
      let on := e.guard w.ng
      let tree (p : Nat) := redTree f 6 (passVals on (e.src 0 0 w.a) p)
      ∃ t vals fl, exec (.redl w) s = .next t
        ∧ LaneEnd s t e [keyOf w.d] (fun c => { c.writeV w.d on vals with fpflags := c.fpflags ||| fl })
        ∧ (∀ i, i < 256 → vals.getD i 0 = ((tree (i / 64)).map (·.1)).getD 0)
        ∧ (sums → ∀ i, i < 256 → vals.getD i 0 = BitVec.ofNat 32
            (((List.range 64).filter fun l => on.getLsbD (i / 64 * 64 + l)).map fun l => (e.unit 0 0 w.a (i / 64 * 64 + l)).toNat).sum))
    ∧ (∀ e, s.issue g [(w.a, g), (w.c, g)] = .ok e → e.after = none →
        let on := e.guard w.ng
        let upTo (i n : Nat) := ((List.range n).filter fun l => on.getLsbD (i / 64 * 64 + l)).map fun l => e.unit 0 0 w.a (i / 64 * 64 + l)
        let folded (l : List Word) (none' : Word) : Word := match l with | [] => none' | v :: vs => vs.foldl (fun x y => (f x y).1) v
        ∃ t vals fl, exec (.scanl w) s = .next t
          ∧ LaneEnd s t e [keyOf w.d] (fun c => { c.writeV w.d on vals with fpflags := c.fpflags ||| fl })
          ∧ ∀ i, i < 256 → on.getLsbD i = true → vals.getD i 0 =
              if excl then folded (upTo i (i % 64)) (e.unit 0 0 w.c i) else folded (upTo i (i % 64 + 1)) 0)

/-- R173 to R177: JOIN of an unused key creates a team of it on the core (status 1) while fewer than 16 are there (else 3), of a key
in use enters its team (0), of the course's own key does nothing (2); LEAVE leaves the team (0, or 1 in none); TMEMB tells the
members, the rank among them or the key. That members with the same %course share a rank is the model's own choice (log 88). -/
def Obligations.LaneTeamWords : Prop :=
  ∀ (s : State) (w : Single) (e : Env), Running s → s.issue 0 [] = .ok e → e.after = none →
    let c := s.me
    let key := w.imm.toNat
    let own : Prop := ∃ k, c.team = some k ∧ (s.team k).key = key ∧ (s.team k).isDefault = false
    (own → ∃ t, exec (.join w) s = .next t ∧ t.me.team = c.team ∧ GotStatus s t w 2)
    ∧ (∀ k, ¬own → s.teamByKey c key = some k → (s.team k).arrived = [] → (s.team k).gathering = [] → s.leaveWaits s.cur = false →
        (s.releaseEnter s.cur 1).2 = none →
        ∃ t, exec (.join w) s = .next t ∧ t.me.team = some k ∧ GotStatus s t w 0)
    ∧ (¬own → s.teamByKey c key = none → (s.teamsAt c.place).length < 16 → s.leaveWaits s.cur = false → (s.releaseEnter s.cur 1).2 = none →
        ∃ t k, exec (.join w) s = .next t ∧ t.me.team = some k ∧ (t.team k).key = key ∧ (t.team k).isDefault = false
          ∧ (t.team k).alive = true ∧ (t.team k).place = c.place ∧ (t.team k).ctx = c.ctx ∧ GotStatus s t w 1)
    ∧ (¬own → s.teamByKey c key = none → 16 ≤ (s.teamsAt c.place).length →
        ∃ t, exec (.join w) s = .next t ∧ t.me.team = c.team ∧ GotStatus s t w 3)
    ∧ (c.team = none → ∃ t, exec (.leave w) s = .next t ∧ t.me.team = none ∧ GotStatus s t w 1)
    ∧ (c.team.isSome → s.leaveWaits s.cur = false → (s.releaseEnter s.cur 1).2 = none → ∃ t, exec (.leave w) s = .next t ∧ t.me.team = none ∧ GotStatus s t w 0)
    ∧ (let what := w.mod.toNat % 4
       let v : Word := match c.team with
         | none => if what = 0 then 1 else if what = 1 then 0 else 0xFFFFFFFF
         | some k => if what = 0 then BitVec.ofNat 32 (s.members k).length
             else if what = 1 then BitVec.ofNat 32 ((s.members k).filter fun j => (s.course j).index < c.index).length
             else BitVec.ofNat 32 (s.team k).key
       ∃ t, exec (.tmemb w) s = .next t ∧ LaneEnd s t e [keyOf w.d] fun k => k.status e w v)

/-- R178 to R180: GRAFT takes the status a partner or the park timeout left; alone it ends with 1, or parks for 64 cycles times IMM;
with a partner whose courses do not fit together both end with 2, else, once the donor's team-scope release is performed (R173), the
course of the lower index takes the other's live threads, both at a checkpoint, and the other retires. The receiver keeps its own
live threads and takes the donor's into its free ones, each with its v registers, and its stack is the new live mask alone. Where no
rule speaks (the guard of D, that of two with the same %course the later arrival receives, and that the donor's flags are complete
first) it states the model's own choice (log 71, 89, 95). -/
def Obligations.LaneGraft : Prop :=
  (∀ (s : State) (w : Single) (e : Env), Running s → s.issue 0 [] = .ok e → e.after = none →
      let c := s.me
      let i := s.cur
      let partner := s.earliestParked (match c.team with | some t => s.parkedAt t c.core.lanePc | none => [])
      let freed (s : State) (p st : Nat) : State := s.modCourse p fun c => { c with parked := none, lwait := none, graftStatus := some st }
      let done (s : State) (v : Word) : State := s.finishCkpt e w.ng w.d 0 v
      (∀ st, c.graftStatus = some st → ∃ t, exec (.graft w) s = .next t ∧ t.me.graftStatus = none
          ∧ GotStatus s t w (BitVec.ofNat 32 st))
      ∧ (c.graftStatus = none → partner = none → w.imm = 0 → ∃ t, exec (.graft w) s = .next t ∧ GotStatus s t w 1)
      ∧ (c.graftStatus = none → partner = none → w.imm ≠ 0 → ∃ t, exec (.graft w) s = .next t
          ∧ t.me.parked = some (s.clock + 64 * w.imm.toNat) ∧ t.me.core = c.core)
      ∧ (∀ p, c.graftStatus = none → partner = some p →
          let low := if (s.course p).index < c.index then p else i
          let high := if (s.course p).index < c.index then i else p
          let entered := s.releaseEnter high 1
          let fits : Prop := graftNofit (s.course low) (s.course high) = false ∧ (s.course high).wordFlags = []
          (graftNofit (s.course low) (s.course high) = true → exec (.graft w) s = .next (done (freed s p 2) 2))
          ∧ (fits → entered.2 = none → low = i →
              exec (.graft w) s = .next (done (entered.1.migrate i p) 0))
          ∧ (fits → entered.2 = none → low = p → p ≠ i →
              exec (.graft w) s = .next (freed (entered.1.migrate p i) p 0))
          ∧ (graftNofit (s.course low) (s.course high) = false → (s.course high).wordFlags ≠ [] →
              exec (.graft w) s = .next (s.stop (.wait { kind := .remote })))
          ∧ (∀ x, fits → entered.2 = some x →
              exec (.graft w) s = .next (entered.1.stop x))))
  ∧ (∀ (regs : Nat) (r d : Core), (threadsOf r.live).length + (threadsOf d.live).length ≤ 256 →
        let t := graftCore regs r d
        (∀ i, i < 256 → r.live.getLsbD i = true → t.live.getLsbD i = true ∧ ∀ n, n < regs → (t.vreg n).vals.getD i 0 = (r.vreg n).vals.getD i 0)
        ∧ t.preds = [t.live]
        ∧ (threadsOf t.live).length = (threadsOf r.live).length + (threadsOf d.live).length
        ∧ ∀ i, i < 256 → d.live.getLsbD i = true → ∃ j, j < 256 ∧ t.live.getLsbD j = true ∧ r.live.getLsbD j = false
            ∧ ∀ n, n < regs → (t.vreg n).vals.getD j 0 = (d.vreg n).vals.getD i 0)

/-- R176, R232: TBAR outside a team goes on; in a team it releases at team scope, arrives and waits, and goes on once the
barrier has let it leave; the barrier is empty again when the last present member arrives. -/
def Obligations.LaneTeamBarrier : Prop :=
  ∀ (s : State) (w : Single) (e : Env), Running s → s.issue 0 [] = .ok e → e.after = none →
    let i := s.cur
    (s.me.team = none → ∃ t, exec (.tbar w) s = .next t ∧ t.me.core = s.me.core.after e.queue)
    ∧ (∀ k, s.me.team = some k → s.me.core.atBarrier = true → (s.team k).arrived.contains i = false →
        ∃ t, exec (.tbar w) s = .next t ∧ LaneEnd s t e [] fun c => { c with atBarrier := false })
    ∧ (∀ k, s.me.team = some k → s.me.core.atBarrier = false → (s.releaseEnter i 1).2 = none →
        let here := ((s.release i 1).modTeam k fun tm => { tm with arrived := tm.arrived ++ [i] }).modCore fun c => { c with atBarrier := true }
        exec (.tbar w) s = .next (((here.checkpoint i).stop (.wait { kind := .tbar })).barrierCheck k))
    ∧ (∀ k, k < s.teams.length → (s.team k).arrived ≠ [] → (∀ j, j ∈ s.members k → j ∈ (s.team k).arrived) →
        ((s.barrierCheck k).team k).arrived = [])

/-! Lane memory words (R104, R105, R193 to R208). -/

/-- R104, R105, R199, R200: an LD whose active threads all pass the checks of R95 gives each of them, in the W registers from D,
the element its course loads at EA(t) = BASE + V(t) × scale + IMM, least significant byte first, a narrow element extended by
the sign of its type; inactive threads keep their elements, an uncorrectable byte poisons its element, and where the shadow
takes the writes no byte of memory changes. With an order it acquires and takes a checkpoint. Where some active threads fail
checks 1 to 5 the others perform, and the word then raises the fault of the lowest check that failed, its mask every thread that
failed any. -/
def Obligations.LaneLoad : Prop :=
  (∀ (s : State) (w : Single) (e : Env), Running s →
      let c := s.me
      let g := c.core.guard w.ng
      s.issue g [(w.a, g)] = .ok e → e.after = none →
      let on := e.guard w.ng
      let z := Legal.width w.ty.toNat / 8 * 2 ^ (w.mod.toNat / 32 % 4)
      let regs := 2 ^ (w.mod.toNat / 32 % 4)
      let cap := e.rel.caps.getD w.sel.toNat 0
      let order := w.mod.getLsbD 7
      let ea (t : Nat) : Int := (capBase cap : Int) + (e.unit 1 0 w.a t).toNat * 2 ^ (w.mod.toNat % 8) + w.imm.toInt
      let bytes (t : Nat) : List Byte := match s.loadVA c (ea t).toNat z with | .ok b => b | .error _ => []
      let active := (List.range 256).filter fun t => on.getLsbD t
      (∀ t, t ∈ active → s.useErr c.who cap 0 (if order && w.scope = 4 then 9 else 1) (ea t) z z false = none) →
      ∃ t, exec (.ld w) s = .next t
        ∧ t.me.core = { (s.me.core.after e.queue).writeLoads c.core w.look.toNat w.d regs on
              (active.map fun i => (i, loadRegs w.ty.toNat (bytes i)))
              (fun j => maskOf 256 fun i => on.getLsbD i && s.badLoad c ((ea i).toNat + 4 * j) (min z 4))
            with lobs := t.me.core.lobs, regions := t.me.core.regions }
        ∧ (order = false → shadowFull s ((List.range regs).map fun j => keyOf (w.d + BitVec.ofNat 8 j)) = false → SameMemory s t)
        ∧ (order = true → t.me.ckpt = t.me.core ∧ t.me.core.lobs = 0 ∧ t.me.core.regions = [])
        ∧ (regs = 1 → w.look = 0 → w.d.toNat < 192 → ∀ i, i < 256 → t.me.core.elem w.d i =
            if on.getLsbD i = false then c.core.elem w.d i
            else if Legal.width w.ty.toNat = 32 then BitVec.ofNat 32 (leNat (bytes i))
            else BitVec.ofInt 32 (elemValue w.ty.toNat (leNat (bytes i)))))
  ∧ (∀ (s : State) (w : Single) (e : Env), Running s →
        let c := s.me
        let g := c.core.guard w.ng
        s.issue g [(w.a, g)] = .ok e → e.after = none → w.mod.toNat / 32 % 4 = 0 →
        let z := Legal.width w.ty.toNat / 8
        let cap := e.rel.caps.getD w.sel.toNat 0
        let accs := s.globalAccs c (e.guard w.ng) cap (ordPerm w 1) (e.src 1 0 w.a) (2 ^ (w.mod.toNat % 8)) w.imm.toInt z z false
        (∃ a f, a ∈ accs ∧ a.err = some (.cap f)) →
        ∃ f : FaultInfo, accVerdict accs = .ok (some f)
          ∧ (∀ i, i < 256 → f.mask.getLsbD i = accs.any fun a => a.t == i && a.err.isSome)
          ∧ (∃ a h, a ∈ accs ∧ a.err = some (.cap h) ∧ h.cause = f.cause ∧ h.detail = f.detail
              ∧ ∀ b k, b ∈ accs → b.err = some (.cap k) → h.check ≤ k.check)
          ∧ let loaded := (goodAccs accs).foldl (fun s a => s.noteLoad s.cur a.addr.toNat z (w.mod.toNat / 8 % 4)) s
            exec (.ld w) s = .next ((if w.mod.getLsbD 7 then loaded.acquire loaded.cur 0 else loaded).finish
              e [keyOf (w.d + 0)] (some f) fun k =>
              k.writeLoads e.me.core w.look.toNat w.d 1 (accMask (goodAccs accs))
                ((goodAccs accs).map fun a => (a.t, loadRegs w.ty.toNat ((s.loadVA c a.addr.toNat z).toOption.getD [])))
                fun j => maskOf 256 fun i => (goodAccs accs).any fun a => a.t == i && s.badLoad c (a.addr.toNat + 4 * j) (min z 4)))

/-- R104, R195, R199: an ST whose active threads all pass the checks of R95 goes on and changes no register. Where the store-hold
area has room for its lines it puts each thread's bytes there at EA(t), the highest thread's where two overlap; every other held
byte and every byte of memory stay. With an order it releases first and takes a checkpoint after the store. -/
def Obligations.LaneStore : Prop :=
  ∀ (s : State) (w : Single) (e : Env), Running s →
    let c := s.me
    let g := c.core.guard w.ng
    let regs := 2 ^ (w.mod.toNat / 32 % 4)
    s.issue g ((w.a, g) :: (List.range regs).map fun j => (w.d + BitVec.ofNat 8 j, g)) = .ok e → e.after = none →
    let z := Legal.width w.ty.toNat / 8 * regs
    let cap := e.rel.caps.getD w.sel.toNat 0
    let order := w.mod.getLsbD 7
    let ea (t : Nat) : Int := (capBase cap : Int) + (e.unit 1 0 w.a t).toNat * 2 ^ (w.mod.toNat % 8) + w.imm.toInt
    let data (t : Nat) : List Byte := leBytes z
      ((List.range regs).map fun j => (e.unit w.ty.toNat 0 (w.d + BitVec.ofNat 8 j) t).toNat * 2 ^ (32 * j)).sum
    let active := (List.range 256).filter fun t => (e.guard w.ng).getLsbD t
    let cells := active.flatMap fun t => (List.range z).map fun k => ((ea t).toNat + k, (data t).getD k 0)
    let lines := (cells.map fun x => x.1 / 64).eraseDups.length
    (∀ t, t ∈ active → s.useErr c.who cap 0 (if order && w.scope = 4 then 10 else 2) (ea t) z z true = none) →
    (order = false → ∃ t, exec (.st w) s = .next t ∧ t.me.core = s.me.core.after e.queue
      ∧ (c.heldCount + lines ≤ 64 → s.coreHeld c.place + lines ≤ 512 → SameMemory s t ∧ t.me.heldS = c.heldS
          ∧ ∀ a, heldGet t.me.heldG a = match cells.reverse.find? fun x => x.1 == a with
              | some x => some x.2 | none => heldGet c.heldG a))
    ∧ (order = true → (s.releaseEnter s.cur w.scope.toNat).2 = none → ∃ t, exec (.st w) s = .next t
        ∧ t = (((s.release s.cur w.scope.toNat).holdCells s.cur false cells (w.mod.toNat / 8 % 4) true).finish e [] none
          id).checkpoint s.cur
        ∧ t.me.core = s.me.core.after e.queue ∧ t.me.ckpt = t.me.core)

/-- R192, R193, R199: an LDS or STS whose addresses are aligned performs for the active threads inside the window and goes on: LDS
gives them the bytes of the window, the course's own held ones first, STS holds their bytes; a thread that commits a violation
performs nothing, is switched off in the live mask and every predicate entry, and marked in %faultmask. -/
def Obligations.LaneScratchWords : Prop :=
  ∀ (s : State) (w : Single) (e : Env), Running s →
    let c := s.me
    let g := c.core.guard w.ng
    let regs := 2 ^ (w.mod.toNat / 32 % 4)
    let z := Legal.width w.ty.toNat / 8 * regs
    let sa (t : Nat) : Int := ((e.unit 1 0 w.a t).toNat * 2 ^ (w.mod.toNat % 8) : Nat) + w.imm.toInt
    let on := e.guard w.ng
    let active := (List.range 256).filter fun t => on.getLsbD t
    let out (write : Bool) (t : Nat) : Bool := on.getLsbD t && (s.window c).violates c.heldS (sa t) z write
    let good (write : Bool) := active.filter fun t => !out write t
    let fine (write : Bool) : Prop := e.after = none ∧ (∀ t, t ∈ active → sa t % (z : Int) = 0)
      ∧ s.fills c ((good write).map fun t => (sa t).toNat) = []
    let off (write : Bool) (k : Core) : Core :=
      let m := maskOf 256 (out write)
      { k with live := k.live &&& ~~~m, preds := k.preds.map fun p => p &&& ~~~m, faultMask := k.faultMask ||| m }
    let cells := (good true).flatMap fun t => cellsAt (sa t).toNat (leBytes z
      ((List.range regs).map fun j => (e.unit w.ty.toNat 0 (w.d + BitVec.ofNat 8 j) t).toNat * 2 ^ (32 * j)).sum)
    (s.issue g [(w.a, g)] = .ok e → fine false → ∃ t, exec (.lds w) s = .next t
      ∧ LaneEnd s t e ((List.range regs).map fun j => keyOf (w.d + BitVec.ofNat 8 j)) fun k =>
          off false (k.writeLoads c.core w.look.toNat w.d regs (maskOf 256 fun t => (good false).contains t)
            ((good false).map fun t => (t, loadRegs w.ty.toNat (s.scratchRead c (sa t).toNat z)))
            fun j => maskOf 256 fun t => (good false).contains t && (List.range (min z 4)).any fun i =>
              (heldGet c.heldS ((sa t).toNat + 4 * j + i)).isNone && (s.window c).bad.contains ((sa t).toNat + 4 * j + i)))
    ∧ (s.issue g ((w.a, g) :: (List.range regs).map fun j => (w.d + BitVec.ofNat 8 j, g)) = .ok e → fine true →
        ∃ t, exec (.sts w) s = .next t ∧ t.me.core = off true (s.me.core.after e.queue)
          ∧ (c.heldCount + (cells.map fun x => x.1 / 64).eraseDups.length ≤ 64 →
              s.coreHeld c.place + (cells.map fun x => x.1 / 64).eraseDups.length ≤ 512 → SameMemory s t ∧ t.me.heldG = c.heldG
              ∧ ∀ a, heldGet t.me.heldS a = match cells.reverse.find? fun x => x.1 == a with
                  | some x => some x.2 | none => heldGet c.heldS a))

/-- R201 to R205: SMAP takes a free slot for an aligned range inside the window that overlaps no other (status 0; 3 outside the
window, 2 for a slot in use, 1 for an overlap); SUNMAP writes back and frees its slot (0, or 1 where it holds nothing); SFLUSH
writes the dirty bytes back and takes a checkpoint. Both first perform the course's own held scratch stores, and wait while the host
has not answered for a held write of any line, as a release does (the model's own choice, log 90, 30). -/
def Obligations.LaneStashWords : Prop :=
  ∀ (s : State) (w : Single) (e : Env) (k : Nat), Running s → s.issue 0 [] = .ok e → e.after = none →
    s.me.team = some k → k < s.teams.length →
    let c := s.me
    let tm := s.team k
    let slot := w.imm.toNat % 16
    let mode := w.mod.toNat % 4
    let so := (e.x w.a).toNat
    let go := (e.x w.b).toNat
    let len := (e.x w.c).toNat
    let cap := e.rel.caps.getD w.sel.toNat 0
    let overlaps := tm.stash.any fun x => so < x.2.scr + x.2.len && x.2.scr < so + len
    let usable : Prop := so % 64 = 0 ∧ go % 64 = 0 ∧ len % 64 = 0 ∧ len ≠ 0
      ∧ s.useErr c.who cap 0 (if mode = 1 then 1 else 3) ((capBase cap : Int) + go) len 1 (mode != 1) = none
    let gives (o : Out) (v : Word) : Prop := ∃ t, o = .next t ∧ GotStatus s t w v ∧ t.me.team = some k
    (usable → tm.size < so + len → gives (exec (.smap w) s) 3)
    ∧ (usable → so + len ≤ tm.size → (tm.stash.lookup slot).isSome → gives (exec (.smap w) s) 2)
    ∧ (usable → so + len ≤ tm.size → (tm.stash.lookup slot).isNone → overlaps = true → gives (exec (.smap w) s) 1)
    ∧ (usable → so + len ≤ tm.size → (tm.stash.lookup slot).isNone → overlaps = false →
        ∃ t x, exec (.smap w) s = .next t ∧ GotStatus s t w 0 ∧ (t.team k).stash.lookup slot = some x
          ∧ x.scr = so ∧ x.va = capBase cap + go ∧ x.len = len ∧ x.mode = mode)
    ∧ ((tm.stash.lookup slot).isNone → gives (exec (.sunmap w) s) 1)
    ∧ (∀ x, tm.stash.lookup slot = some x →
        let s1 := s.commitS s.cur fun a => x.scr ≤ a && a < x.scr + x.len
        let r := s1.stashFlush k (fun n _ => n == slot) c.lclock (some s.cur)
        s1.flushErr k (fun n _ => n == slot) (e.guard w.ng) = none →
        (r.1.heldWrites = [] → ∃ t, exec (.sunmap w) s = .next t ∧ GotStatus s t w 0 ∧ (t.team k).stash.lookup slot = none)
        ∧ (r.1.heldWrites ≠ [] → ∃ t y, exec (.sunmap w) s = .next t ∧ t.me.lwait = some y ∧ y.kind = .writes ∧ t.me.core = c.core))
    ∧ (let pick (n : Nat) (_ : Nat) : Bool := w.mod.getLsbD 0 || n == slot
       let s1 := s.commitS s.cur fun _ => true
       s1.flushErr k pick (e.guard w.ng) = none →
        let r := s1.stashFlush k pick c.lclock (some s.cur)
        let s2 := r.1.modCourse r.1.cur fun c => { c with wmax := max c.wmax r.2, lclock := max c.lclock r.2 }
        (r.1.heldWrites = [] → exec (.sflush w) s = .next ((s2.finish e [] none id).checkpoint s.cur))
        ∧ (r.1.heldWrites ≠ [] → exec (.sflush w) s = .next (s2.stop (.wait { kind := .writes }))))

/-- R207, R208: PREF never faults (it can only wait for its queue's feed), changes no register and no byte of memory; LLOCK
locks the lines its active threads name and tells each thread whether its line is newly locked (0), was locked (1) or could not
be (2); LUNLK unlocks them (0, or 1 where the team held no lock). -/
def Obligations.LaneCacheWords : Prop :=
  ∀ (s : State) (w : Single) (e : Env), Running s →
    let c := s.me
    let g := c.core.guard w.ng
    (s.issueHint g w.a = .ok e → ∃ t, exec (.pref w) s = .next t ∧ t.me.core = s.me.core.after e.queue ∧ SameMemory s t) ∧
    (∀ x, s.issueHint g w.a = .error x → x = .wait { kind := .feed } ∧ exec (.pref w) s = .next (s.stop x)) ∧
    (s.issue g [(w.a, g)] = .ok e → e.after = none →
    let cap := e.rel.caps.getD w.sel.toNat 0
    let active := (List.range 256).filter fun t => (e.guard w.ng).getLsbD t
    let va (t : Nat) : Int :=
      ((capBase cap : Int) + (e.unit 1 0 w.a t).toNat * (2 ^ (w.mod.toNat % 8) : Nat) + w.imm.toInt) / 64 * 64
    let line (t : Nat) : Nat := match s.translate c.who (va t).toNat with | .ok x => x.loc / 64 | .error _ => 0
    let locks (o : Out) (told : Nat → State → Word → Prop) : Prop :=
      ∀ k, c.team = some k → k < s.teams.length → (∀ t, t ∈ active → s.useErr c.who cap 0 1 (va t) 64 1 false = none) →
        ∃ t st, o = .next t ∧ t.me.core = (s.me.core.after e.queue).result c.core w.look.toNat false w.d (e.guard w.ng) st
          ∧ ∀ i, i ∈ active → told i t (st.getD i 0)
    locks (exec (.llock w) s) (fun i t v => ∀ k, c.team = some k → (v = 0 ∨ v = 1 ∨ v = 2)
        ∧ (v = 0 → (s.team k).locks.contains (line i) = false ∧ (t.team k).locks.contains (line i) = true)
        ∧ ((s.team k).locks.contains (line i) = true → v = 1 ∧ (t.team k).locks.contains (line i) = true))
    ∧ locks (exec (.lunlk w) s) (fun i t v => ∀ k, c.team = some k → (v = 0 ∨ v = 1)
        ∧ (v = 0 → (s.team k).locks.contains (line i) = true)
        ∧ ((s.team k).locks.contains (line i) = false → v = 1)
        ∧ ((s.team k).locks.Nodup → (t.team k).locks.contains (line i) = false)))

/-! Atomics, waits, barriers and ordering (R215 to R253). -/

/-- R218, R219: the update each OP selects, for integers; and one thread's step of a global atomic returns the word as it stood and
leaves its update there, every other byte of memory unchanged; no course's registers change. -/
def Obligations.AtomicStep : Prop :=
  (∀ old b : Word,
      (∀ ty, ty = 0 ∨ ty = 1 →
        let le (x y : Word) : Prop := if ty = 0 then x.toInt ≤ y.toInt else x.toNat ≤ y.toNat
        atomOp 0 ty old b = (old + b, 0)
        ∧ ((atomOp 1 ty old b).1 = old ∨ (atomOp 1 ty old b).1 = b) ∧ le (atomOp 1 ty old b).1 old ∧ le (atomOp 1 ty old b).1 b
        ∧ ((atomOp 2 ty old b).1 = old ∨ (atomOp 2 ty old b).1 = b) ∧ le old (atomOp 2 ty old b).1 ∧ le b (atomOp 2 ty old b).1
        ∧ atomOp 3 ty old b = (old &&& b, 0) ∧ atomOp 4 ty old b = (old ||| b, 0) ∧ atomOp 5 ty old b = (old ^^^ b, 0)
        ∧ atomOp 6 ty old b = (b, 0)
        ∧ atomOp 7 ty old b = (if b.toNat ≤ old.toNat then 0 else old + 1, 0)
        ∧ atomOp 8 ty old b = (if old = 0 ∨ b.toNat < old.toNat then b else old - 1, 0))
      ∧ atomOp 6 2 old b = (b, 0))
  ∧ (∀ (s : State) (va : Nat) (hold : Bool) (f : Word → Word × Num.Flags) (x : Xlat), Running s →
        s.translate s.me.who va true 4 = .ok x → va % 4 = 0 → x.loc % 64 = va % 64 → x.leaf.getLsbD 11 = false →
        s.memOk = true → s.heldWrites = [] → s.hostLines = [] →
        (s.takeHold (clusterOf s.me.place) (x.loc / 64)).translate s.me.who va true 4 = .ok x →
        let r := s.atomGlobal va hold f
        let old : Word := BitVec.ofNat 32 (leNat (s.locRead x.loc 4))
        r.2.1 = old ∧ r.2.2.2 = (f old).2
        ∧ (∀ k, k < 4 → r.1.locGet (x.loc + k) = BitVec.ofNat 8 ((f old).1.toNat / 2 ^ (8 * k)))
        ∧ (∀ a, (a < x.loc ∨ x.loc + 4 ≤ a) → r.1.locGet a = s.locGet a)
        ∧ ∀ j, (r.1.course j).core = (s.course j).core)

/-- R105, R193, R219, R220, R385: the atomics complete. First those without ORD, in one equation for each: ATOM, ATOMC and RED
at scratch addresses (MOD[7]) or global ones whose active threads pass the checks of R193 or R95 answer the next state in which
the course's held stores to their lines are performed, then each thread's update in ascending order, then D takes the old values
(RED has none), the flags are added, the word has completed and a checkpoint follows; with one active thread and a page that is
not lent, no other store being held, D takes the word that stood there and the memory takes its update; where the links lose
some threads' answers, ATOM and ATOMC give D to the others and trap with LINKF or INDET. Then each with ORD or without: a
release comes first and an acquire passes the write times read; where the links lose an answer of a lender (R384), a RED
completes all the same, and of ATOM and ATOMC this part takes the case that none is lost. That the loss of a packet is decided in the
word's own step is the model's own choice (log 33, 100). -/
def Obligations.LaneAtomicWords : Prop :=
  (∀ (s : State) (w : Single) (e : Env), Running s → w.mod.getLsbD 8 = false → w.mod.getLsbD 9 = false →
      let c := s.me
      let i := s.cur
      let g := c.core.guard w.ng
      let on := e.guard w.ng
      let scope := w.scope.toNat
      let cap := e.rel.caps.getD w.sel.toNat 0
      let off (t : Nat) : Int := ((e.unit 1 0 w.a t).toNat * 2 ^ (w.mod.toNat / 16 % 8) : Nat) + w.imm.toInt
      let active := (List.range 256).filter fun t => on.getLsbD t
      let b (t : Nat) : Word := e.unit w.ty.toNat 0 w.b t
      let atom (t : Nat) (old : Word) : Word × Num.Flags := atomOp (w.mod.toNat % 16) w.ty.toNat old (b t)
      let atomc (t : Nat) (old : Word) : Word × Num.Flags := (if old = b t then e.unit w.ty.toNat 0 w.c t else old, 0)
      let line (vas : List Nat) (a : Nat) : Bool := vas.any fun v => v / 64 == a / 64
      let ends (dst : Bool) (r : State × List (Nat × Word) × Nat × Num.Flags) : State :=
        (r.1.finish e (if dst then [keyOf w.d] else []) none fun k =>
          let k := if dst then k.result c.core w.look.toNat false w.d on (threadVec r.2.1) else k
          { k with fpflags := k.fpflags ||| r.2.2.2 }).checkpoint r.1.cur
      let forms (P : Instr → List (BitVec 8) → Bool → (Nat → Word → Word × Num.Flags) → Prop) : Prop :=
        P (.atom w) [w.b] true atom ∧ P (.atomc w) [w.b, w.c] true atomc ∧ P (.red w) [w.b] false atom
      -- scratch
      (w.mod.getLsbD 7 = true →
        (∀ t, t ∈ active → off t % 4 = 0 ∧ (s.window c).violates c.heldS (off t) 4 true = false
          ∧ (s.window c).violates c.heldS (off t) 4 false = false ∧ s.badWord c (off t).toNat = false) →
        s.fills c (active.map fun t => (off t).toNat) = [] →
        forms fun x operands dst f =>
          s.issue g ((w.a :: operands).map fun r => (r, g)) = .ok e → e.after = none →
          exec x s = .next (ends dst ((s.commitS i (line (active.map fun t => (off t).toNat))).atomThreads
            (active.map fun t => { t := t, addr := off t }) fun s a => s.atomScratch a.addr.toNat (f a.t))))
      -- global
      ∧ (w.mod.getLsbD 7 = false →
        let ea (t : Nat) : Int := (capBase cap : Int) + off t
        let vas := active.map fun t => (ea t).toNat
        let accs : List Acc := active.map fun t => { t := t, addr := ea t }
        let s1 := s.commitG i (line vas)
        (∀ t, t ∈ active → s.useErr c.who cap 0 (if scope = 4 then 12 else 4) (ea t) 4 4 true = none
          ∧ s.badLoad c (ea t).toNat 4 = false) →
        s.gateStop (s.atomCharge c scope vas) = none →
        forms fun x operands dst f =>
          s.issue g ((w.a :: operands).map fun r => (r, g)) = .ok e → e.after = none →
          let one (s : State) (a : Acc) := s.atomGlobal a.addr.toNat (scope == 2) (f a.t)
          ((∀ a, a ∈ accs → s1.lostAt c a = none) → exec x s = .next (ends dst ((s1.loanPackets c accs).atomThreads accs one)))
          ∧ (∀ a, active = [a] → s1.me.heldG = [] → s1.loanPackets c accs = s1 → s.memOk = true → s.heldWrites = [] → s.hostLines = [] →
              ∀ y, s1.translate c.who (ea a).toNat true 4 = .ok y → y.loc < lentBase → y.leaf.getLsbD 11 = false →
                y.loc % 64 = (ea a).toNat % 64 →
                let old : Word := BitVec.ofNat 32 (leNat (s1.locRead y.loc 4))
                ∃ t, exec x s = .next t ∧ (∀ k, k < 4 → t.locGet (y.loc + k) = BitVec.ofNat 8 ((f a old).1.toNat / 2 ^ (8 * k)))
                  ∧ (dst = true → w.d.toNat < 192 → t.me.core.elem w.d a = old)
                  ∧ t.me.core.fpflags = c.core.fpflags ||| (f a old).2)
          ∧ (let l := accs.filterMap fun a => (s1.lostAt c a).map fun x => (a, x.1)
             let fault := if dst then linkFault none l else none
             let r := (s1.loanPackets c accs).atomThreads (accs.filter fun a => (s1.lostAt c a).all (·.2)) one
             let t := r.1.finish e (if dst then [keyOf w.d] else []) fault fun k =>
               let k := if dst then k.result c.core w.look.toNat false w.d (accMask (accs.filter fun a => (s1.lostAt c a).isNone))
                 (threadVec r.2.1) else k
               { k with fpflags := k.fpflags ||| r.2.2.2 }
             exec x s = .next (if fault.isSome then t else t.checkpoint t.cur))))
  ∧ ∀ (s : State) (w : Single) (e : Env), Running s →
    let c := s.me
    let g := c.core.guard w.ng
    let scope := w.scope.toNat
    let cap := e.rel.caps.getD w.sel.toNat 0
    let scr := w.mod.getLsbD 7
    let ea (t : Nat) : Int := (if scr then 0 else (capBase cap : Int)) + (e.unit 1 0 w.a t).toNat * 2 ^ (w.mod.toNat / 16 % 8) + w.imm.toInt
    let active := (List.range 256).filter fun t => (e.guard w.ng).getLsbD t
    let accs : List Acc := active.map fun t => { t := t, addr := ea t }
    let b (t : Nat) : Word := e.unit w.ty.toNat 0 w.b t
    let new (t : Nat) (old : Word) : Word := if old = b t then e.unit w.ty.toNat 0 w.c t else old
    let fits : Prop :=
      if scr then (∀ t, t ∈ active → ea t % 4 = 0 ∧ (s.window c).violates c.heldS (ea t) 4 true = false
          ∧ (s.window c).violates c.heldS (ea t) 4 false = false ∧ s.badWord c (ea t).toNat = false)
        ∧ s.fills c (active.map fun t => (ea t).toNat) = []
      else ∀ t, t ∈ active → s.useErr c.who cap 0 (if scope = 4 then 12 else 4) (ea t) 4 4 true = none
          ∧ s.badLoad c (ea t).toNat 4 = false
    let entered := if w.mod.getLsbD 9 then s.releaseEnter s.cur scope else (s, none)
    let passes : Prop := entered.2 = none
      ∧ (scr = false → entered.1.gateStop (entered.1.atomCharge c scope (active.map fun t => (ea t).toNat)) = none)
    let near (a : Nat) : Bool := (active.map fun t => (ea t).toNat).any fun v => v / 64 == a / 64
    let s1 := if w.mod.getLsbD 9 then s.release s.cur scope else if scr then s.commitS s.cur near else s.commitG s.cur near
    let performs (o : Out) (operands : List (BitVec 8)) (dst : Bool) (f : Nat → Word → Word × Num.Flags) : Prop :=
      let lost (a : Acc) : Option (Nat × Bool) := if scr then none else s1.lostAt c a
      let got := accs.filter fun a => (lost a).isNone
      s.issue g ((w.a :: operands).map fun r => (r, g)) = .ok e → e.after = none → fits → passes → (dst = true → got = accs) →
      let r := (if scr then s1 else s1.loanPackets c accs).atomThreads (accs.filter fun a => (lost a).all (·.2)) fun s a =>
        if scr then s.atomScratch a.addr.toNat (f a.t) else s.atomGlobal a.addr.toNat (scope == 2) (f a.t)
      ∃ t, o = .next t ∧ t.me.ckpt = t.me.core
        ∧ t.me.core = (let k := s.me.core.after e.queue
            let k := if dst then k.result c.core w.look.toNat false w.d (e.guard w.ng) (threadVec r.2.1) else k
            { k with fpflags := k.fpflags ||| r.2.2.2, lobs := t.me.core.lobs, regions := t.me.core.regions })
        ∧ (w.mod.getLsbD 8 = false ∨ got = [] → t.me.core.lobs = c.core.lobs ∧ t.me.core.regions = c.core.regions)
        ∧ (w.mod.getLsbD 8 = true → got ≠ [] → t.me.core.lobs = 0 ∧ t.me.core.regions = [] ∧ r.2.2.1 ≤ t.me.lclock)
    performs (exec (.atom w) s) [w.b] true (fun t old => atomOp (w.mod.toNat % 16) w.ty.toNat old (b t))
    ∧ performs (exec (.atomc w) s) [w.b, w.c] true (fun t old => (new t old, 0))
    ∧ performs (exec (.red w) s) [w.b] false fun t old => atomOp (w.mod.toNat % 16) w.ty.toNat old (b t)

/-- R222: WAITC with no active thread goes on; it tests the word at the lowest active thread's address against that thread's B (EQ,
NE, GEN or LTN), and where the condition holds every active thread gets the word; where it does not, the lane stream waits. -/
def Obligations.LaneConditionWait : Prop :=
  ∀ (s s1 : State) (w : Single) (e : Env) (bytes : List Byte) (wts : Nat), Running s →
    let c := s.me
    let g := c.core.guard w.ng
    let one : Mask := if g = 0 then 0 else BitVec.ofNat 256 (2 ^ lowest g)
    s.issue g [(w.a, one), (w.b, one)] = .ok e → e.after = none →
    let t0 := lowest (e.guard w.ng)
    let cap := e.rel.caps.getD w.sel.toNat 0
    let ea : Int := (capBase cap : Int) + (e.unit 0 0 w.a t0).toNat * (2 ^ (w.mod.toNat / 8 % 8) : Nat) + w.imm.toInt
    let v : Word := BitVec.ofNat 32 (leNat bytes)
    let b := e.unit 0 0 w.b t0
    let holds : Bool := match w.mod.toNat % 8 with
      | 0 => v == b | 1 => v != b | 2 => decide (b.toNat ≤ v.toNat) | _ => decide (v.toNat < b.toNat)
    (e.guard w.ng = 0 → ∃ t, exec (.waitc w) s = .next t ∧ LaneEnd s t e [] fun c => c)
    ∧ (e.guard w.ng ≠ 0 → s.useErr c.who cap 0 4 ea 4 4 false = none → s.homeRead c.who ea.toNat 4 = .ok (bytes, wts, s1) →
        s.badVA c.who ea.toNat 4 = false →
        (holds = true → ∃ t, exec (.waitc w) s = .next t
          ∧ t.me.core = { (c.core.after e.queue).result c.core w.look.toNat false w.d (e.guard w.ng) (List.replicate 256 v)
              with lobs := t.me.core.lobs, regions := t.me.core.regions }
          ∧ (w.mod.getLsbD 7 = true → wts ≤ t.me.lclock ∧ t.me.core.lobs = 0 ∧ t.me.ckpt = t.me.core)
          ∧ (w.mod.getLsbD 7 = false → t.me.core.lobs = max c.core.lobs wts ∧ t.me.core.regions = c.core.regions))
        ∧ (holds = false → ∃ t x, exec (.waitc w) s = .next t ∧ t.me.lwait = some x ∧ x.kind = .word ∧ t.me.core = c.core))

/-- R224 to R229: BINIT makes its object open for the next generation with the count of A (closed for a count of 0) and BINV closes
it, both ending the old generation, telling how many waited; BARV arrives at an open object, or drops a closed object's (3) or a
stale tag's (2) arrival into STALE; BWAIT returns at once for a generation that has ended, with 0, or 1 where it was broken, and
waits for one that has not. A BARV that enrols past the limit gives 3, one with MOD[0] goes on as a BWAIT for the generation it
arrived in. An arrival of count n ends the generation when the count reaches EXPECT: GEN moves on, ARRIVED returns to 0, LASTBRK
clears and the excess enters STALE; else ARRIVED alone changes. Where no rule speaks (which enrolments count, ENROL in no team, GEN
of an arrival that is dropped, the loss of a packet) it states the model's own choice (log 33, 110, 111, 112). -/
def Obligations.LaneBarrierWords : Prop :=
  (∀ (o : BarObj) (n : Nat),
      (o.expect ≤ o.arrived + n → o.arrive n
        = { o with gen := (o.gen + 1) % 256, arrived := 0, lastbrk := false, stale := o.stale + (o.arrived + n - o.expect) })
      ∧ (o.arrived + n < o.expect → o.arrive n = { o with arrived := o.arrived + n })
      ∧ (o.expect < 2 ^ 32 → o.arrived < 2 ^ 32 → o.gen < 256 → o.scope < 8 → o.state < 4 → o.stale ≤ 0xFFFF → barOf (barBytes o) = o))
  ∧ (∀ (s : State) (w : Single) (e : Env) (b : BarAt), Running s → e.after = none → s.barAt s.me e w = .ok b →
        let c := s.me
        let i := s.cur
        let g := c.core.guard w.ng
        let at0 := valueThread (e.guard w.ng)
        let one : Mask := BitVec.ofNat 256 (2 ^ valueThread g)
        let o := barOf b.old
        let word (nrel gen code : Nat) : Word := BitVec.ofNat 32 (min nrel 0xFFFF * 65536 + gen % 256 * 256 + code)
        let plain (s : State) (v : Word) : State := (s.finishStatus e w.ng w.d w.look.toNat v).checkpoint i
        -- the end of a word that has sent a packet to the object's device: the links may lose it, or its answer
        let ends (loc : Nat) (s : State) (k : State → State) : State :=
          match s.loanLoss (loc / 64) with
          | none => k s
          | some (cause, _) => s.finish e [] (some { cause := cause, mask := e.guard w.ng }) id
        let told (loc : Nat) (s : State) (v : Word) : State := ends loc s fun s => plain s v
        let n := (e.unit 0 0 w.a at0).toNat
        -- the object as the release leaves it, in one step
        let anew (scope : Nat) (mk : BarObj → BarObj) (out : Out) : Prop :=
          let p := s.releasePrep i scope
          (s.releaseEnter i scope).2 = none → p.gateStop (p.class4 c b.va) = none → ∀ b', p.barAt c e w = .ok b' →
            let o := barOf b'.old
            let waiters := (p.objWaiters b'.loc).length
            let cut : Bool := (o.state == 1 && 2 ≤ o.scope && o.scope ≤ 4 && o.arrived != 0) || waiters != 0
            out = .next (told b'.loc ((p.releaseClock i).barPut i b'.va
              (mk { o with gen := (o.gen + 1) % 256, lastbrk := cut, arrived := 0, stale := 0 })) (word waiters (o.gen + 1) 0))
        -- BINIT, BINV
        (s.issue g [(w.a, one)] = .ok e →
          anew w.scope.toNat (fun o => { o with expect := n, state := if n = 0 then 0 else 1, scope := w.scope.toNat,
                                                ext := w.mod.getLsbD 0 }) (exec (.binit w) s))
        ∧ (s.issue g [] = .ok e → anew o.scope (fun o => { o with state := 0 }) (exec (.binv w) s))
        -- BARV
        ∧ (s.issue g ((w.a, one) :: if w.mod.getLsbD 2 then [(w.b, one)] else []) = .ok e → c.core.arrivedGen = none →
            let count := if w.a = 0xF1 then 1 else n
            let stale : Prop := w.mod.getLsbD 2 = true ∧ (e.unit 0 0 w.b at0).toNat % 256 ≠ o.gen
            let free : Prop := s.gateStop (s.class4 c b.va) = none
            let me : Enrol := { ctx := c.ctx, va := b.va, gen := o.gen }
            let full : Prop := ∃ k, c.team = some k ∧ 8 ≤ (s.liveEnrols k).length ∧ ∀ x, x ∈ s.liveEnrols k → x ≠ me
            let drop (code : Nat) : Out := .next (told b.loc (s.barPut i b.va { o with stale := o.stale + 1 } (wake := false)) (word 0 o.gen code))
            (o.valid = false → free → exec (.barv w) s = drop 3)
            ∧ (o.valid = true → stale → free → exec (.barv w) s = drop 2)
            ∧ (o.valid = true → ¬stale → w.mod.getLsbD 1 = true → full → free → exec (.barv w) s = .next (plain s (word 0 o.gen 3)))
            ∧ (o.valid = true → ¬stale → (w.mod.getLsbD 1 = true → ¬full) →
                let p := s.releasePrep i o.scope
                (s.releaseEnter i o.scope).2 = none → p.gateStop (p.class4 c b.va) = none → ∀ b', p.barAt c e w = .ok b' →
                let s1 := p.releaseClock i
                let s2 := match c.team with
                  | some k => if w.mod.getLsbD 1 && !s1.lostStore c.who b.va then
                      let l := s1.liveEnrols k
                      s1.modTeam k fun tm => { tm with enrols := if l.contains me then l else me :: l }
                    else s1
                  | none => s1
                let o' := barOf b'.old
                let s3 := s2.barPut i b.va (o'.arrive count o.gen)
                (w.mod.getLsbD 0 = false →
                  exec (.barv w) s = .next (told b.loc s3 (word 0 o.gen (if o'.expect < o'.arrived + count then 4 else 0))))
                ∧ (w.mod.getLsbD 0 = true →
                  let s4 := (s3.modCore fun k => { k with arrivedGen := some o.gen }).checkpoint i
                  ∀ b4, s4.barAt (s4.course i) e w = .ok b4 →
                    exec (.barv w) s = .next (ends b.loc s3 fun _ => s4.barrierWait w e b4 o.gen))))
        -- BWAIT
        ∧ (s.issue g [(w.a, one)] = .ok e →
            let gen := n / 256 % 256
            let noted := s.noteHome c.who b.va 16
            let back (s : State) (code : Nat) : State := plain (s.modCore fun k => { k with arrivedGen := none }) (word 0 gen code)
            (o.gen = gen → o.valid = false → exec (.bwait w) s = .next (back noted 3))
            ∧ (o.gen = gen → o.valid = true → ∃ t x, exec (.bwait w) s = .next t ∧ t.me.lwait = some x ∧ x.kind = .barrier
                ∧ x.obj = some b.loc ∧ t.me.core = c.core)
            ∧ (o.gen = (gen + 1) % 256 → o.lastbrk = true → exec (.bwait w) s = .next (back noted 1))
            ∧ (o.gen ≠ gen → (o.gen ≠ (gen + 1) % 256 ∨ o.lastbrk = false) →
                exec (.bwait w) s = .next (back (noted.acquire i b.wts) 0))))

/-- R245 to R249: REL performs the course's held stores and raises its clock past every write of its own; ACQ passes the largest
write time it has observed and its region clocks, and forgets them; FENCE does both and passes every lease its core holds; ACQR
keeps a region clock for each region, RELR releases the writes inside the regions. Each takes a checkpoint and changes no
register. -/
def Obligations.LaneOrderingWords : Prop :=
  ∀ (s : State) (w : Single) (e : Env), Running s → s.issue 0 [] = .ok e → e.after = none →
    let c := s.me
    let i := s.cur
    let rs := regionsOf e w
    let done (t : State) : Prop := t.me.ckpt = t.me.core ∧ t.me.shadow = []
      ∧ t.me.core = { c.core.after e.queue with lobs := t.me.core.lobs, regions := t.me.core.regions }
    let clocks := c.core.regions.foldl (fun m r => max m r.time) (max c.lclock c.core.lobs)
    (∃ t, exec (.acq w) s = .next t ∧ done t ∧ t.me.core.lobs = 0 ∧ t.me.core.regions = [] ∧ clocks ≤ t.me.lclock)
    ∧ ((s.releaseEnter i w.scope.toNat).2 = none →
        ∃ t, exec (.rel w) s = .next t ∧ done t ∧ t.me.core.lobs = c.core.lobs ∧ t.me.core.regions = c.core.regions
          ∧ c.wmax ≤ t.me.lclock ∧ t.me.heldS = []
          ∧ t = ((s.release i w.scope.toNat).finish e [] none id).checkpoint i)
    ∧ ((s.releaseEnter i w.scope.toNat).2 = none →
        ∃ t, exec (.fence w) s = .next t ∧ done t ∧ t.me.core.lobs = 0 ∧ t.me.core.regions = []
          ∧ clocks ≤ t.me.lclock ∧ c.wmax ≤ t.me.lclock ∧ t.me.heldS = []
          ∧ ∀ l, l ∈ s.l1 → l.place = c.place → l.lease < t.me.lclock)
    ∧ (regionKindBad e w = false →
        ∃ t, exec (.acqr w) s = .next t ∧ done t ∧ t.me.core.lobs = 0
          ∧ t.me.core.regions = ((rs.map fun r => { base := r.1, len := r.2, time := c.core.lobs : Region }).reverse
              ++ c.core.regions).take 4)
    ∧ (regionKindBad e w = false → (s.regionEnter i w.scope.toNat rs).2 = none →
        ∃ t, exec (.relr w) s = .next t ∧ done t
          ∧ t = (((s.regionPrep i w.scope.toNat rs).regionClock i rs).finish e [] none id).checkpoint i
          ∧ (∀ a, inRegions rs a = false → heldGet (s.regionPrep i w.scope.toNat rs).me.heldG a = heldGet c.heldG a))
    ∧ (∀ x, (s.releaseEnter i w.scope.toNat).2 = some x →
        exec (.rel w) s = .next ((s.releasePrep i w.scope.toNat).stop x) ∧ exec (.fence w) s = .next ((s.releasePrep i w.scope.toNat).stop x))

/-- R250 to R253: SHDW opens a closed buffer for the course's team (0; 2 where its team has it open, 1 where another has, 3 where
the capability names none), whatever stores the course holds: its checkpoint performs them; PUBL by the owner flips the copies and
closes the buffer (0), or drops the back copy (2); by anyone else it does nothing (1). A cloned buffer with a line that cannot be
copied is not published: the word stops with that line's fault. -/
def Obligations.LanePublishWords : Prop :=
  ∀ (s : State) (w : Single) (e : Env) (b : BufAt), Running s → s.issue 0 [] = .ok e → e.after = none → s.bufAt e w = .ok b →
    let c := s.me
    let free (s : State) : Prop := s.gateStop (s.class4 c b.va) = none
    let drop := w.mod.getLsbD 0
    let gives (o : Out) (v : Word) : Prop := ∃ t, o = .next t ∧ GotStatus s t w v
    (b.buf = none → free s → gives (exec (.shdw w) s) 3 ∧ gives (exec (.publ w) s) 3)
    ∧ (∀ n p, b.buf = some (n, p) → (s.contexts.any fun x => x.num == c.ctx) = true →
        (p.isOpen = true → c.team = some p.team → free s → gives (exec (.shdw w) s) 2)
        ∧ (p.isOpen = true → c.team ≠ some p.team → free s → gives (exec (.shdw w) s) 1 ∧ gives (exec (.publ w) s) 1)
        ∧ (p.isOpen = false → free s → gives (exec (.publ w) s) 1)
        ∧ (∀ k, p.isOpen = false → c.team = some k → free s →
            ∃ t, exec (.shdw w) s = .next t ∧ GotStatus s t w 0
              ∧ let q := (t.context c.ctx).pubEntry n
                q.isOpen = true ∧ q.team = k ∧ q.clone = w.mod.getLsbD 0 ∧ q.selb = p.selb)
        ∧ (let entered := s.releaseEnter s.cur w.scope.toNat
           let bad := if !drop && p.clone then entered.1.cloneErr (entered.1.course entered.1.cur) p else none
           p.isOpen = true → c.team = some p.team → entered.2 = none → entered.1.bufferWrites p.team p = false → free entered.1 →
            (∀ va x, bad = some (va, x) → exec (.publ w) s = .next (entered.1.stop ((UseErr.page x).stop va (e.guard w.ng))))
            ∧ (bad = none → ∃ t, exec (.publ w) s = .next t ∧ GotStatus s t w (if drop then 2 else 0)
              ∧ (let q := (t.context c.ctx).pubEntry n
                 q.isOpen = false ∧ q.selb = (if drop then p.selb else !p.selb)))))

/-! Spools (R261 to R279). -/

/-- R269, R274, R275, R278: SPINIT releases at the new scope and writes a block that passes the checks of R263, empty, with the
capacity, element size and slots its fields name, and tells how many courses it woke and how many elements the old block held; SPQRY
reads the block at its home and gives the count, the free count, HEAD, TAIL or the status; SPFLS gives 0 where a descriptor was
cached and 1 where none was. Each takes a checkpoint. Where the links lose the answer of another device's home the word traps with
INDET instead (lost), and where they lose the request the word traps before it acts (log 33). -/
def Obligations.LaneSpoolBlockWords : Prop :=
  ∀ (s : State) (w : Single) (e : Env) (b : SpoolAt), Running s → s.issue 0 [] = .ok e → e.after = none → s.spoolAt e w = .ok b →
    let c := s.me
    let i := s.cur
    let tenant := (s.context c.ctx).tenant
    let n := leNat b.bytes
    let sound (s : State) (b : SpoolAt) : Prop := s.spoolCached tenant b.loc = true ∨ s.spoolBad tenant b.bytes = none
    let tail := n / 2 ^ 64 % 2 ^ 32
    let head := n / 2 ^ 32 % 2 ^ 32
    let blocked (s : State) (b : SpoolAt) : Nat := min (s.spoolWaiters b.loc).length 0xFFFF
    let gives (lost : Bool) (s' : State) (v : Nat) : Out :=
      .next (if lost then s'.finish e [] (some { cause := 17, mask := e.guard w.ng }) id
             else s'.finishCkpt e w.ng w.d w.look.toNat (BitVec.ofNat 32 v))
    let sent := s.spoolSend (s.spoolCharge c b.va) b
    let noted := s.noteHome c.who b.va 64
    let asked := noted.spoolAsk (s.spoolCharge c b.va)
    -- SPINIT
    (let esz := w.mod.toNat % 8
     let cl := w.mod.toNat / 8 % 32
     let slots := e.rel.caps.getD (w.sel.toNat + 1) 0
     let image := spoolInitBytes esz cl w.scope.toNat (w.mod.getLsbD 8) slots
     let p := s.releasePrep i w.scope.toNat
     s.useErr c.who slots 0 3 (capBase slots) (2 ^ cl * (4 * 2 ^ esz)) (4 * 2 ^ esz) true = none →
     (s.releaseEnter i w.scope.toNat).2 = none →
     (∀ b' lost, p.spoolReach e w b = .inr lost → p.spoolAt e w = .ok b' → (p.context c.ctx).tenant = tenant →
        let old := if p.spoolCached tenant b'.loc = true ∨ p.spoolBad tenant b'.bytes = none then
          leNat b'.bytes / 2 ^ 64 % 2 ^ 32 - leNat b'.bytes / 2 ^ 32 % 2 ^ 32 else 0
        exec (.spinit w) s = gives lost ((((p.spoolSend (p.spoolCharge c b'.va) b').spoolWrite i b' 0 image).spoolCache tenant c.ctx
          b'.loc).releaseClock i) (blocked p b' * 2 ^ 16 + min old 0xFFFF))
     ∧ (esz ≤ 4 → cl ≤ 24 → 1 ≤ w.scope.toNat → w.scope.toNat ≤ 4 →
        let k := spoolOf image
        image.length = 64 ∧ k.head = 0 ∧ k.tail = 0 ∧ k.free = 2 ^ cl ∧ k.esize = esz ∧ k.caplog = cl ∧ k.scope = w.scope.toNat
        ∧ k.slots = slots ∧ k.poison = false ∧ (s.slotsBad tenant k = false → s.spoolBad tenant image = none)))
    -- SPQRY
    ∧ (∀ lost, s.spoolReach e w b true = .inr lost →
        let cached := asked.spoolCache tenant c.ctx b.loc
        (sound noted b →
          (w.mod.toNat % 8 = 0 → exec (.spqry w) s = gives lost cached (tail - head))
          ∧ (w.mod.toNat % 8 = 1 → exec (.spqry w) s = gives lost cached (n / 2 ^ 96 % 2 ^ 32))
          ∧ (w.mod.toNat % 8 = 2 → exec (.spqry w) s = gives lost cached head)
          ∧ (w.mod.toNat % 8 = 3 → exec (.spqry w) s = gives lost cached tail)
          ∧ (w.mod.toNat % 8 = 4 → exec (.spqry w) s = gives lost cached (blocked s b * 2 ^ 16 + n / 2 ^ 19 % 32 * 2 ^ 8
              + n / 2 ^ 16 % 8 * 2 ^ 5 + n / 2 ^ 128 % 8 * 4 + n / 2 ^ 131 % 2 * 2 + n / 2 ^ 132 % 2)))
        ∧ (w.mod.toNat % 8 = 4 → ¬sound noted b → exec (.spqry w) s = gives lost (asked.spoolPoison b)
            (blocked s b * 2 ^ 16 + n / 2 ^ 19 % 32 * 2 ^ 8 + n / 2 ^ 16 % 8 * 2 ^ 5 + n / 2 ^ 128 % 8 * 4 + n / 2 ^ 131 % 2 * 2 + 1)))
    -- SPFLS
    ∧ (∀ lost, s.spoolReach e w b = .inr lost → n / 2 ^ 132 % 2 = 0 →
        ((∀ d, d ∈ s.spools → d.line ≠ b.loc / 64) → exec (.spfls w) s = gives lost sent 1)
        ∧ ((∃ d, d ∈ s.spools ∧ d.line = b.loc / 64) → exec (.spfls w) s = gives lost ({ sent with
            spools := sent.spools.filter fun d => d.line != b.loc / 64 }.wakeLine (b.loc / 64)) 0))
    -- stopped at the gate, or its request lost on its way
    ∧ (∀ t asks, s.spoolReach e w b asks = .inl t → exec (if asks then .spqry w else .spfls w) s = .next t
        ∧ ((∃ x, s.gateStop [s.spoolCharge c b.va] = some x ∧ t = s.stop x)
          ∨ ∃ cause, s.loanLoss (b.loc / 64) = some (cause, false)
              ∧ t = (if asks then s.spoolAsk (s.spoolCharge c b.va) else sent).stop (.trap { cause := cause, mask := e.guard w.ng })))

/-- R266, R270 to R272: where the spool's block is sound and of the word's element size, ENQ puts the active threads' elements
into the slots from TAIL on and DEQ takes those from HEAD on, in thread order, when all fit, and blocks when they do not; ENQT
and DEQT move as many as fit and push an entry naming the threads served. ENQ releases once there is room for its elements, and
meets the block again after it; DEQ acquires; each takes a checkpoint. Where the links lose the answer of another device's home, the
elements are moved and the word traps with INDET (log 33). -/
def Obligations.LaneSpoolMoves : Prop :=
  ∀ (s f : State) (w : Single) (e : Env) (b0 : SpoolAt) (enq part lost0 : Bool), Running s →
    let c := s.me
    let i := s.cur
    let g := c.core.guard w.ng
    let W := 2 ^ (w.mod.toNat % 8)
    let regs := (List.range W).map fun j => w.d + BitVec.ofNat 8 j
    (part = true → c.core.preds.length < 16) → s.issue g (if enq then regs.map fun r => (r, g) else []) = .ok e → e.after = none →
    s.spoolOpen e w = .inr (f, b0, lost0) →
    let active := (List.range 256).filter fun t => (e.guard w.ng).getLsbD t
    let n := active.length
    let room (k : SpoolBlk) : Nat := if enq then k.free else k.tail - k.head
    let served (k : SpoolBlk) := active.take (if part then min n (room k) else n)
    let fit (k : SpoolBlk) : Prop := w.mod.toNat % 8 = k.esize ∧ (part = false → n ≤ 2 ^ k.caplog)
    let short (k : SpoolBlk) : Prop := if part then w.mod.getLsbD 3 = true ∧ room k = 0 ∧ n ≠ 0 else room k < n
    let slot (k : SpoolBlk) (j : Nat) : Nat := capBase k.slots + j % 2 ^ k.caplog * (4 * W)
    let exec' := if enq then (if part then exec (.enqt w) s else exec (.enq w) s)
      else if part then exec (.deqt w) s else exec (.deq w) s
    let push (k : SpoolBlk) (c : Core) : Core :=
      if part then { c with preds := (maskOf 256 fun t => (served k).contains t) :: c.preds } else c
    let ends (lost : Bool) (s : State) (keys : List ShadowKey) (f : Core → Core) : State :=
      if lost then s.finish e [] (some { cause := 17, mask := e.guard w.ng }) id else (s.finish e keys none f).checkpoint i
    let waits (b : SpoolAt) : Prop := ∃ t x, exec' = .next t ∧ t.me.lwait = some x ∧ x.kind = .spool
      ∧ x.obj = some b.loc ∧ t.me.core = c.core
    let usable (s : State) (b : SpoolAt) : Prop :=
      let k := spoolOf b.bytes
      s.slotErr s.me k (if enq then k.tail else k.head) (served k).length enq b.mask = none
    let blk0 := spoolOf b0.bytes
    fit blk0 →
    -- it waits, before anything is performed
    (short blk0 → waits b0)
    -- DEQ, DEQT
    ∧ (enq = false → ¬short blk0 → usable f b0 →
        let m := (served blk0).length
        let bytes (k : Nat) : List Byte := match f.readVA c.who (slot blk0 (blk0.head + k)) (4 * W) with | .ok l => l | .error _ => []
        let err (j : Nat) : Mask := maskOf 256 fun t => (served blk0).zipIdx.any fun (u, k) =>
          u == t && f.badVA c.who (slot blk0 (blk0.head + k) + 4 * j) 4
        let read := (List.range m).foldl (fun (s : State) k => s.noteHome c.who (slot blk0 (blk0.head + k)) (4 * W)) f
        let sent := read.spoolSend (f.spoolCharge c b0.va) b0
        let t := ends lost0 ((sent.spoolPut i b0 (blk0.head + m) blk0.tail (blk0.free + m)).acquire i b0.wts) (regs.map keyOf) fun k =>
          push blk0 (k.writeLoads c.core w.look.toNat w.d W (maskOf 256 fun t => (served blk0).contains t)
            ((served blk0).zipIdx.map fun (t, k) => (t, loadRegs 0 (bytes k))) err)
        exec' = .next t ∧ (lost0 = false → t.me.ckpt = t.me.core ∧ t.me.core.lobs = 0 ∧ t.me.core.regions = []
        ∧ (W = 1 → w.look = 0 → w.d.toNat < 192 → ∀ k, k < m →
            t.me.core.elem w.d ((served blk0).getD k 0) = BitVec.ofNat 32 (leNat (bytes k)))))
    -- ENQ, ENQT
    ∧ (enq = true → ¬short blk0 → usable f b0 →
        let entered := f.releaseEnter i blk0.scope
        (∀ x, entered.2 = some x → exec' = .next (entered.1.stop x))
        ∧ ∀ s1 b lost, entered.2 = none → entered.1.spoolOpen e w = .inr (s1, b, lost) →
          let blk := spoolOf b.bytes
          fit blk →
          (short blk → waits b)
          ∧ (¬short blk → usable s1 b →
            let words (t : Nat) : List Byte := regs.flatMap fun r => leBytes 4 (e.unit 0 0 r t).toNat
            let sent := s1.spoolSend (s1.spoolCharge c b.va) b
            let t := ends lost ((sent.releaseClock i).spoolFill b blk ((served blk).map words)) [] (push blk)
            exec' = .next t ∧ (lost = false → t.me.core = push blk (s1.me.core.after e.queue) ∧ t.me.ckpt = t.me.core)))

/-! System words (R360 to R364). -/

/-- R182, R361 to R364: TRAP and BRK with no active thread go on, as BRK does while the context's debug enable is clear; else they
raise TRAPI and BRKI with IMM and the active threads. CKPT takes a checkpoint, its own word done. VQRY gives each active thread the
cost of the class, its estimate, or what fits under the bound: for a copy or a tile operation the largest size whose estimate does
(all ones where none does), for an atomic, a remote or a front-end item 1 or 0; SRDL gives the special register IMM names. -/
def Obligations.LaneSystemWords : Prop :=
  ∀ (s : State) (w : Single) (e : Env), Running s → e.after = none →
    let c := s.me
    let g := c.core.guard w.ng
    let on := e.guard w.ng
    let same (o : Out) : Prop := ∃ t, o = .next t ∧ LaneEnd s t e [] fun k => k
    let trap (cause : Nat) : State := s.takeTrap s.cur { cause := cause, mask := on, code := w.imm.toNat, scalar := false, pc := c.core.lanePc }
    (s.issue 0 [] = .ok e →
      (on = 0 → same (exec (.trap w) s) ∧ same (exec (.brk w) s))
      ∧ (on ≠ 0 → exec (.trap w) s = .next (trap 19))
      ∧ ((s.context c.ctx).debug = false → same (exec (.brk w) s))
      ∧ (on ≠ 0 → (s.context c.ctx).debug = true → exec (.brk w) s = .next (trap 20))
      ∧ (∃ t, exec (.ckpt w) s = .next t ∧ t.me.core = c.core.after e.queue ∧ t.me.ckpt = t.me.core ∧ t.me.shadow = []
          ∧ ∀ j, j ≠ s.cur → (t.course j).core = (s.course j).core)
      ∧ (∃ t, exec (.srdl w) s = .next t
          ∧ LaneEnd s t e [keyOf w.d] (fun k => k.status e w (s.special s.cur w.imm.toNat))
          ∧ GotStatus s t w (s.special s.cur w.imm.toNat)))
    ∧ (s.issue g [(w.a, g)] = .ok e →
        let cls := w.mod.toNat % 16
        let est (n : Nat) : Nat := s.eNew c.ctx (itemCharge c cls n) []
        let bound := (s.context c.ctx).vbnd
        ∃ t, exec (.vqry w) s = .next t ∧ (∀ j, j ≠ s.cur → (t.course j).core = (s.course j).core)
          ∧ (w.d.toNat < 192 → ∀ th, th < 256 → on.getLsbD th = true →
              let n := (e.unit 1 0 w.a th).toNat
              let v := t.me.core.elem w.d th
              let all1 : Word := 0xFFFFFFFF
              (w.mod.toNat / 16 % 4 = 0 → (cls = 2 → v = BitVec.ofNat 32 (64 + (n + 15) / 16))
                ∧ (cls = 3 → v = BitVec.ofNat 32 (16 + (5 * n + 6) / 7)) ∧ (cls ≠ 2 → cls ≠ 3 → v = BitVec.ofNat 32 (vcost cls)))
              ∧ (w.mod.toNat / 16 % 4 = 1 → v = BitVec.ofNat 32 (min (est n) 0xFFFFFFFF))
              ∧ (2 ≤ w.mod.toNat / 16 % 4 →
                  ((cls = 2 ∨ cls = 3) → bound < est 0 → v = all1)
                  ∧ (cls = 2 → est 0 ≤ bound → ∃ m, v = BitVec.ofNat 32 m ∧ m % 16 = 0 ∧ m ≤ 2 ^ 28 ∧ est m ≤ bound
                      ∧ ∀ n, n ≤ 2 ^ 28 → est n ≤ bound → n ≤ m)
                  ∧ (cls = 3 → est 0 ≤ bound → ∃ m, v = BitVec.ofNat 32 m ∧ m ≤ 255 ∧ est m ≤ bound
                      ∧ ∀ n, n ≤ 255 → est n ≤ bound → n ≤ m)
                  ∧ (4 ≤ cls → cls ≤ 7 → v = if est 0 ≤ bound then 1 else 0)
                  ∧ ((cls < 2 ∨ 7 < cls) → v = all1))))

/-! Remote and tier words (R372 to R394). -/

/-- R372, R376, R379 to R383: where no active thread's access fails, RLD and RATOM wait for the results of the packets they send
(one for each node and line), and complete at once where they send none, giving the threads the bytes read from this device's own
memory or from cached copies of other devices' lines, or the old values; RST, MCAST, RSPR and a RATOM without a result store or
combine theirs on this device, send their packets and complete at once. A store or an update of this device's own that goes to a
lender is a packet too, and may be lost on its way (R383 to R385). Where no rule speaks (RSPR's source, what a read may take
from a kept copy) it states the model's own choice (log 14, 40, 94). -/
def Obligations.LaneRemoteWords : Prop :=
  ∀ (s : State) (w : Single) (e : Env), Running s → s.me.inFlight = false → e.after = none →
    let c := s.me
    let i := s.cur
    let g := c.core.guard w.ng
    let on := e.guard w.ng
    let z := Legal.width w.ty.toNat / 8 * 2 ^ (w.mod.toNat / 32 % 4)
    let regs := (List.range (2 ^ (w.mod.toNat / 32 % 4))).map fun j => (w.d + BitVec.ofNat 8 j, g)
    let cap := e.rel.caps.getD w.sel.toNat 0
    let node (t : Nat) : Nat := (e.unit 0 0 w.b t).toNat
    let accs (perm scale z : Nat) (write : Bool) : List Acc :=
      s.remoteAccs c on cap perm (e.src 1 0 w.a) (2 ^ scale) w.imm.toInt z node write
    let free (s : State) : Prop := s.gateStop (remoteCharge c) = none
    let entered (rel : Bool) : State × Option Stop := if rel then s.releaseEnter i 4 else (s, none)
    let passes (rel : Bool) : Prop := (entered rel).2 = none ∧ free (entered rel).1
    let sound (l : List Acc) : Prop := (∀ a, a ∈ l → a.err = none) ∧ s.packetsFull (groupAccs node (l.filter fun a => node a.t != 0xFFFFFF)) = false
    let near (l : List Acc) (a : Nat) : Bool := l.any fun b => b.addr.toNat / 64 == a / 64
    let own (l : List Acc) : List Acc := l.filter fun a => node a.t == 0xFFFFFF
    let away (l : List Acc) : List (Nat × List Acc) := groupAccs node (l.filter fun a => node a.t != 0xFFFFFF)
    let stored (t : Nat) : List Byte := storeBytes z (e.storeData w t)
    let selfStores (s : State) (l : List Acc) : State := l.foldl (fun s a => s.selfStore a.addr.toNat (stored a.t)) (s.loanPackets s.me l)
    let fresh : Prop := s.resultsIn i = true ∧ ∀ b, b ∈ c.remoteBad → b.word ≠ s.free
    -- RLD
    (s.issue g [(w.a, g), (w.b, g)] = .ok e → free s →
      let l := accs 1 (w.mod.toNat % 8) z false
      let copy (a : Acc) : Option RemoteCopy := s.remoteCopy c (node a.t) a.addr.toNat z
      let far := groupAccs node (l.filter fun a => node a.t != 0xFFFFFF && (copy a).isNone)
      let keep := w.mod.toNat / 8 % 4 != 1 && w.mod.toNat / 8 % 4 != 2
      (∀ a, a ∈ l → a.err = none) → s.packetsFull far = false → own l = [] →
      (far ≠ [] → ∃ u x, exec (.rld w) s = .next u ∧ u.me.inFlight = true ∧ u.me.lwait = some x ∧ x.kind = .remote
        ∧ u.outstanding = (s.sendGroups .read far z (fun _ => []) (fun _ => 0) false true keep (w.mod.toNat / 8 % 4)).outstanding
        ∧ u.outstanding.length = s.outstanding.length + far.length)
      ∧ (far = [] → fresh → ∃ u, exec (.rld w) s = .next u ∧ u.me.inFlight = false ∧ u.outstanding = s.outstanding ∧ u.me.ckpt = u.me.core
          ∧ (z ≤ 4 → w.look = 0 → w.d.toNat < 192 → ∀ a r, a ∈ l → copy a = some r →
              u.me.core.elem w.d a.t = (loadRegs w.ty.toNat r.bytes).getD 0 0)))
    ∧ (s.issue g [(w.a, g), (w.b, g)] = .ok e → free s → ∀ a bytes wts s2, on = BitVec.ofNat 256 (2 ^ a) → a < 256 →
        let l := accs 1 (w.mod.toNat % 8) z false
        let ea : Nat := ((capBase cap : Int) + (e.unit 1 0 w.a a).toNat * 2 ^ (w.mod.toNat % 8) + w.imm.toInt).toNat
        let s1 := s.commitG i fun x => ea / 64 == x / 64
        sound l → node a = 0xFFFFFF → s1.homeRead c.who ea z = .ok (bytes, wts, s2) → s1.badVA c.who ea z = false →
        fresh → w.mod.getLsbD 7 = false → z ≤ 4 → w.look = 0 → w.d.toNat < 192 →
        ∃ t, exec (.rld w) s = .next t ∧ t.me.inFlight = false ∧ t.me.ckpt = t.me.core
          ∧ t.me.core.elem w.d a = (loadRegs w.ty.toNat bytes).getD 0 0)
    -- RATOM
    ∧ (s.issue g ((w.a, g) :: (w.b, g) :: (w.c, g) :: if w.mod.toNat % 16 = 9 then [(w.d, g)] else []) = .ok e →
        let op := w.mod.toNat % 16
        let l := accs 4 (w.mod.toNat / 16 % 8) 4 true
        sound l → (∀ a, a ∈ own l → s.badVA c.who a.addr.toNat 4 = false) → passes (w.mod.getLsbD 9) →
        let s1 := if w.mod.getLsbD 9 then s.release i 4 else s.commitG i (near l)
        let value (t : Nat) : Word := e.unit w.ty.toNat 0 w.c t
        let cmp (t : Nat) : Word := if op = 9 then e.unit 0 0 w.d t else 0
        let mine := (own l).filter fun a => (s1.lostAt c a).all (·.2)
        let safe : Prop := ∀ a, a ∈ own l → s1.lostAt c a = none
        let r := (s1.loanPackets c (own l)).atomThreads mine fun s a => s.atomGlobal a.addr.toNat false fun old =>
          if op = 9 then (if old = cmp a.t then value a.t else old, 0) else atomOp op w.ty.toNat old (value a.t)
        let sent (result : Bool) : State := r.1.sendGroups (.atom (BitVec.ofNat 4 op) w.ty) (away l) 4
          (fun t => leBytes 4 (value t).toNat) cmp true result
        -- the flags of the word enter together, where no packet is still to bring some
        let gone := (sent false).holdFlags (away l) r.2.2.2
        (w.d ≠ 0xF1 → away l ≠ [] → ∃ u x, exec (.ratom w) s = .next u ∧ u.me.inFlight = true ∧ u.me.lwait = some x ∧ x.kind = .remote
          ∧ u.outstanding = (sent true).outstanding
          ∧ u.me.remoteFlags = r.2.2.2 ∧ u.me.core.fpflags = c.core.fpflags)
        ∧ (w.d ≠ 0xF1 → away l = [] → fresh → safe → ∃ u, exec (.ratom w) s = .next u ∧ u.me.inFlight = false ∧ u.me.ckpt = u.me.core
            ∧ (w.look = 0 → w.d.toNat < 192 → ∀ a, a ∈ own l → ∃ v, (a.t, v) ∈ r.2.1 ∧ u.me.core.elem w.d a.t = v))
        ∧ (w.d = 0xF1 → exec (.ratom w) s = .next (((if w.mod.getLsbD 8 then gone.acquire i r.2.2.1 else gone).finish e [] none
            id).checkpoint i)
            ∧ (away l = [] → gone.me.core.fpflags = r.1.me.core.fpflags ||| r.2.2.2)
            ∧ (away l ≠ [] → gone.me.core.fpflags = r.1.me.core.fpflags)))
    -- RST
    ∧ (s.issue g ((w.a, g) :: (w.b, g) :: regs) = .ok e →
        let l := accs 2 (w.mod.toNat % 8) z true
        sound l → passes (w.mod.getLsbD 7) →
        let s1 := if w.mod.getLsbD 7 then s.release i 4
          else s.commitG i fun b => l.any fun a => a.addr.toNat ≤ b && b < a.addr.toNat + z
        let s2 := selfStores s1 (own l)
        exec (.rst w) s = .next (((s2.sendGroups .write (away l) z stored (fun _ => 0) true false).finish e [] none id).checkpoint i))
    -- MCAST: the count and the nodes come from three scalar registers from B on
    ∧ (s.issue g ((w.a, g) :: regs) = .ok e →
        let nodes := (List.range (e.x (w.b + 1)).toNat).map fun k => (e.x w.b + BitVec.ofNat 32 k * e.x (w.b + 2)).toNat
        let me := nodes.contains 0xFFFFFF
        let l := s.castAccs c on cap (e.src 1 0 w.a) (2 ^ (w.mod.toNat % 8)) w.imm.toInt z nodes
        let groups := (nodes.filter fun n => n != 0xFFFFFF).flatMap fun n => groupAccs (fun _ => n) l
        1 ≤ nodes.length → nodes.length ≤ 32 → (∀ n, n ∈ nodes → s.nodeOk n = true) → (∀ a, a ∈ l → a.err = none) →
        s.packetsFull groups = false → passes (w.mod.getLsbD 7) →
        let s1 := if w.mod.getLsbD 7 then s.release i 4
          else s.commitG i fun b => l.any fun a => a.addr.toNat ≤ b && b < a.addr.toNat + z
        let s2 := if me then selfStores s1 l else s1
        let s3 := s2.sendCast groups z stored
        exec (.mcast w) s = .next ((s3.finish e [] none id).checkpoint i)
        ∧ s3.outstanding.length = s.outstanding.length + groups.length ∧ (s3.finish e [] none id).me.core = c.core.after e.queue)
    -- RSPR
    ∧ (s.issue g [(w.a, g), (w.b, g), (w.d, g)] = .ok e → free s →
        let l := accs 6 2 4 true
        (∀ a, a ∈ l → a.err = none) →
        let value (t : Nat) : Word := e.unit w.ty.toNat 0 w.d t
        let away' := l.filter fun a => node a.t != 0xFFFFFF
        -- the coalescer merges the pairs of the word that name one address of one node
        let pairs := s.mergePairs w.ty.toNat node value away'
        let far := groupAccs node (pairs.map (·.acc))
        s.packetsFull far = false →
        let s1 := (((own l).map fun a => a.addr.toNat).eraseDups).foldl (fun (r : State × BitVec 5) va =>
          let x := r.1.mergeInto w.ty.toNat va (((own l).filter fun a => a.addr.toNat == va).map fun a => value a.t)
          (x.1, r.2 ||| x.2)) ((s.commitG i (near l)).loanPackets c (own l), pairs.foldl (fun f p => f ||| p.flags) 0)
        let data (t : Nat) : List Byte := leBytes 4 (((pairs.find? fun (p : Merge) => p.acc.t == t).map fun (p : Merge) => p.value).getD 0).toNat
        exec (.rspr w) s = .next (((((s1.1.sendGroups (.merge w.ty) far 4 data (fun _ => 0) true false
          (merged := pairs.flatMap fun p => (p.threads.drop 1).map fun t => (t, p.acc.t))).holdFlags far s1.2).finish e [] none id).checkpoint i))
        -- one pair for each node and address, of every thread that names them
        ∧ (∀ p, p ∈ pairs → p.threads = (away'.filter fun a => node a.t == node p.acc.t && a.addr.toNat == p.acc.addr.toNat).map (·.t))
        ∧ (∀ a, a ∈ away' → ∃ p, p ∈ pairs ∧ a.t ∈ p.threads))

/-- R386, R393, R394: LSEQ gives 0, 1 or 2 for the course's packets to a node once all have an outcome (2 where one is
indeterminate, else 1 where one was dropped), and waits before; TIERQ gives the demotion count, or each active thread the tier of
its address; EVWAIT gives the demotion count at once where it differs from B, else waits IMM microseconds. That the limit counts from
its first beginning, and that TIERQ checks one byte, is the model's own choice (log 81, 91). -/
def Obligations.LaneTierWords : Prop :=
  ∀ (s : State) (w : Single) (e : Env), Running s → e.after = none → s.gateStop (remoteCharge s.me) = none →
    let c := s.me
    let g := c.core.guard w.ng
    let on := e.guard w.ng
    let one : Mask := BitVec.ofNat 256 (2 ^ valueThread g)
    let b := e.unit 0 0 w.b (valueThread on)
    let count := (s.context c.ctx).demotions
    -- LSEQ
    (s.issue g [(w.b, one)] = .ok e → s.nodeOk b.toNat = true →
      let mine := c.sent.filter fun p => p.node == b.toNat
      let got (v : Word) : Prop := ∃ t, exec (.lseq w) s = .next t ∧ GotStatus s t w v ∧ t.me.ckpt = t.me.core
        ∧ (c.heldG = [] → t.me.sent = c.sent.filter fun p => p.node != b.toNat)
      ((∃ p, p ∈ mine ∧ p.outcome = .unknown) → ∃ t x, exec (.lseq w) s = .next t ∧ t.me.lwait = some x ∧ x.kind = .lseq
        ∧ t.me.core = c.core ∧ t.me.sent = c.sent)
      ∧ ((∀ p, p ∈ mine → p.outcome ≠ .unknown) →
          ((∃ p, p ∈ mine ∧ p.outcome = .indet) → got 2)
          ∧ ((∀ p, p ∈ mine → p.outcome ≠ .indet) → (∃ p, p ∈ mine ∧ p.outcome = .dropped) → got 1)
          ∧ ((∀ p, p ∈ mine → p.outcome ≠ .indet ∧ p.outcome ≠ .dropped) → got 0)))
    -- TIERQ
    ∧ (w.mod.getLsbD 3 = true → s.issue g [] = .ok e → ∃ t, exec (.tierq w) s = .next t ∧ GotStatus s t w count ∧ t.me.ckpt = t.me.core)
    ∧ (s.issue g [(w.a, g)] = .ok e →
        (w.mod.getLsbD 3 = false →
            let cap := e.rel.caps.getD w.sel.toNat 0
            let ea (t : Nat) : Int := (capBase cap : Int) + (e.unit 1 0 w.a t).toNat * (2 ^ (w.mod.toNat % 8) : Nat) + w.imm.toInt
            (∀ t, t < 256 → on.getLsbD t = true → capCheck cap 0 0 (ea t) 1 1 = none) →
            ∃ u, exec (.tierq w) s = .next u ∧ u.me.ckpt = u.me.core
              ∧ (w.d.toNat < 192 → ∀ t, t < 256 → on.getLsbD t = true →
                  ((∃ x, s.leafFor c.who (ea t).toNat = .error x) → u.me.core.elem w.d t = 3)
                  ∧ ∀ l k, s.leafFor c.who (ea t).toNat = .ok (l, k) →
                      let tier := l.toNat / 256 % 4
                      let loan := entryPA l / 2 ^ 40
                      u.me.core.elem w.d t = if tier = 1
                        then BitVec.ofNat 32 (loan * 256 + (if (s.loan loan).state = 2 then 4 else 0) + 1) else BitVec.ofNat 32 tier)))
    -- EVWAIT
    ∧ (s.issue g [(w.b, one)] = .ok e →
        (count ≠ b → ∃ t, exec (.evwait w) s = .next t ∧ GotStatus s t w count ∧ t.me.ckpt = t.me.core ∧ t.me.timedOut = false
          ∧ t.me.core.lobs = 0)
        ∧ (count = b → c.timedOut = true → ∃ t, exec (.evwait w) s = .next t ∧ GotStatus s t w b ∧ t.me.timedOut = false)
        ∧ (count = b → c.timedOut = false → ∃ t x, exec (.evwait w) s = .next t ∧ t.me.lwait = some x ∧ x.kind = .event
            ∧ t.me.core = c.core
            ∧ (∀ o, c.lwas = some o → o.kind = .event → x.limit = o.limit)
            ∧ ((∀ o, c.lwas = some o → o.kind ≠ .event) → x.limit = if w.imm = 0 then none else some (s.clock + w.imm.toNat * 1400))))

/-! Engine words (R281 to R334). -/

/-- R181, R288, R290 to R297: a copy word that passes its checks is accepted: the course's held stores are performed, the word is
charged, one job with its slices or members enters the cluster's copy engine, a slot of its ring is allocated, and D receives the
slot's number (all ones without a ring). A further CPY of a team that gathers one adds its slice to that job, and a copy that
DISCARD stopped, or a rollback left, takes its job and its slot up again (R181, R347), whole where it had finished; CPYF enters its
tile operation, not ready, as well; ADPF is dropped, and counted, rather than wait or fail. That a stopped copy takes its old slot
again, that one that had finished moves nothing a second time, and that CPYM and CPYR read one descriptor, is the model's own choice
(log 103, 129, 96). -/
def Obligations.LaneCopyWords : Prop :=
  ∀ (s s1 : State) (w : Eng) (e : Env) (p : Part) (bar : Option BarRef) (ring : Option RingRef), Running s → e.after = none →
    let h := s.commit s.cur
    let c := h.me
    let i := s.cur
    let cl := clusterOf c.place
    let charge (first shadow : Bool) (n : Nat) : List Charge :=
      [{ cluster := cl, acct := 0, ns := (if first then 64 else 0) + (n + 15) / 16, shadow := shadow }]
    let kept (l : List Charge) : List Charge := c.granted.getD l
    let srcCap : Cap := if w.ex.getLsbD 21 then 0 else e.rel.caps.getD w.ea.toNat 0
    let slot : Word := match ring with | some r => BitVec.ofNat 32 r.slot | none => 0xFFFFFFFF
    let grp (code : BitVec 8) (k : Nat) : Nat := (e.x (code + BitVec.ofNat 8 k)).toNat
    h.engIssue [] = .ok e →
    -- the slice a copy moves
    (∀ scr, h.copyPart e w scr = .ok p →
      p.len = grp w.s1 0 ∧ p.len ≤ 2 ^ 28 ∧ p.done = false ∧ p.course = some i ∧ p.srcCap = srcCap
      ∧ p.src = (if w.ex.getLsbD 21 then End.scratch (c.team.getD 0) (grp w.s1 1)
          else End.global c.ctx (capBase (e.rel.caps.getD w.ea.toNat 0) + grp w.s1 1))
      ∧ p.dst = (if scr then End.scratch (c.team.getD 0) (grp w.s1 2)
          else End.global c.ctx (capBase (e.rel.caps.getD w.eb.toNat 0) + grp w.s1 2))
      ∧ (w.ex.getLsbD 18 = false → p.outLen = p.len))
    -- CPY: the first of its team, or of a course in none
    ∧ (h.copyPart e w (w.ex.getLsbD 20) = .ok p → h.engineLoad cl < 256 →
        let sh := h.inShadow c p.dst p.outLen
        (h.collective = none → h.stopped .cpy = none → h.copyBar e w = .ok bar → h.copyRing e w = .ok (s1, ring) →
          h.gateStop (charge true sh p.len) = none →
          ∃ t j, exec (.cpy w) s = .next t ∧ Accepted s t e w slot ∧ t.jobs.length = s.jobs.length + 1
            ∧ t.jobs[s.jobs.length]? = some j ∧ j.kind = .cpy ∧ j.parts = [{ p with shadow := sh }] ∧ j.ring = ring ∧ j.bar = bar ∧ j.team = c.team
            ∧ j.charges = kept (charge true sh p.len) ∧ j.inShadow = sh ∧ j.finished = false
            ∧ (sh = false → t.me.ckpt = t.me.core))
        ∧ (∀ j job, (h.collective = some j ∨ h.collective = none ∧ h.stopped .cpy = some j) → s.jobs[j]? = some job → job.ring = ring →
            job.finished = false → h.gateStop (charge job.parts.isEmpty sh p.len) = none →
            ∃ t job', exec (.cpy w) s = .next t ∧ Accepted s t e w slot ∧ t.jobs.length = s.jobs.length ∧ t.jobs[j]? = some job'
              ∧ job'.parts = job.parts ++ [{ p with shadow := sh }] ∧ job'.charges = job.charges ++ kept (charge job.parts.isEmpty sh p.len)
              ∧ job'.reissue = false ∧ (sh = false → t.me.ckpt = t.me.core)))
    -- one that had finished before its word was rolled back
    ∧ (∀ j job, (h.collective = some j ∨ h.collective = none ∧ h.stopped .cpy = some j) → s.jobs[j]? = some job → job.ring = ring →
        job.finished = true → ∃ t, exec (.cpy w) s = .next t ∧ Accepted s t e w slot ∧ t.jobs.length = s.jobs.length
          ∧ (t.jobs[j]?).map (·.parts) = some job.parts)
    -- CPYM, CPYR
    ∧ (∀ n src, h.copySource e w = .ok (n, src) →
        let nm := grp w.s2 0
        let list := e.rel.caps.getD w.eb.toNat 0
        1 ≤ nm → nm ≤ 32 → h.useErr c.who list 0 1 (capBase list) (32 * nm) 32 false = none → h.engineLoad cl < 256 →
        let entries := match h.readVA c.who (capBase list) (32 * nm) with | .ok l => l | .error _ => []
        let parts (refusing : Bool) : List Part := (List.range nm).map fun k =>
          h.memberPart c refusing src srcCap n (packedLen (exPack w) n) (grp w.s1 2) (exPack w) ((entries.drop (32 * k)).take 32)
        let shadow (l : List Part) : Bool := l.all fun p => p.node.isNone && h.inShadow c p.dst p.outLen
        let cost (l : List Part) : List Charge :=
          charge true (shadow l) (n * nm) ++ if l.any (·.node.isSome) then [rqCharge c.place 3000] else []
        let takes (o : Out) (refusing : Bool) (kind : JobKind) : Prop :=
          (∀ k j, h.stopped kind = some k → s.jobs[k]? = some j → j.finished = false) →
          h.copyReport e w (h.stopped kind) = .ok (s1, ring, bar) → h.gateStop (cost (parts refusing)) = none →
          ∃ t j, o = .next t ∧ Accepted s t e w slot
            ∧ t.jobs = (match h.stopped kind with | none => s.jobs ++ [j] | some k => s.jobs.modify k fun _ => j)
            ∧ j.kind = kind ∧ j.parts = (parts refusing).map (fun p => { p with shadow := shadow (parts refusing) }) ∧ j.ring = ring ∧ j.bar = bar ∧ j.charges = kept (cost (parts refusing))
            ∧ j.inShadow = shadow (parts refusing) ∧ (shadow (parts refusing) = false → t.me.ckpt = t.me.core)
        takes (exec (.cpym w) s) false .cpym
        ∧ ((h.context c.ctx).priv = true → takes (exec (.cpyr w) s) true .cpyr))
    -- CPYF
    ∧ (h.copyPart e w true = .ok p → h.copyBar e w = .ok bar →
        let offs := (List.range (if w.ex.getLsbD 12 then 5 else 2)).map fun k => grp w.s2 k
        let cycles := w.ex.toNat / 64 % 16
        let op : TileOp :=
          { course := i, ctx := c.ctx, team := c.team.getD 0, place := c.place, z := w.ex.toNat / 2 ^ 10 % 4,
            ta := w.imm.toNat / 4096, tb := w.imm.toNat / 256 % 16, pb := cycles, rz := false, aoff := offs.headD 0,
            boffs := offs.drop 1, job := some s.jobs.length, ready := false, charge := 16 + (5 * cycles + 6) / 7 }
        let cost : List Charge := charge true false p.len ++ [tileCharge c.place (16 + (5 * cycles + 6) / 7)]
        (∀ r, r ∈ op.ranges → r.1 % 512 = 0 ∧ r.1 + r.2 ≤ (h.window c).size) → h.engineLoad cl < 256 → h.noContext = false →
        (h.tileOps.filter fun o => o.course == i).length < 16 → h.copyRing e w = .ok (s1, ring) →
        h.gateStop cost c.mctx.isNone = none →
        ∃ t j, exec (.cpyf w) s = .next t ∧ Accepted s t e w slot ∧ t.jobs = s.jobs ++ [j] ∧ j.kind = .cpyf ∧ j.parts = [p]
          ∧ j.ring = ring ∧ j.charges = charge true false p.len ∧ j.follow = 1 ∧ t.tileOps = s.tileOps ++ [op] ∧ t.me.mctx.isSome = true ∧ t.me.ckpt = t.me.core)
    -- ADPF
    ∧ (let n := grp w.s1 0
       let src := h.globalEnd (e.rel.caps.getD w.ea.toNat 0) 1 (grp w.s1 1) n 0
       let dst := h.scratchEnd (grp w.s1 2) n 0
       ((∃ x, h.copyRing e w = .error x) → ∃ t, exec (.adpf w) s = .next t ∧ Accepted s t e w 0xFFFFFFFF ∧ t.jobs = s.jobs)
       ∧ (h.copyRing e w = .ok (s1, ring) →
          (∀ va off, src = .ok (.global c.ctx va) → dst = .ok (.scratch (c.team.getD 0) off) → n ≤ 2 ^ 28 →
            h.firstBad c.who va n false = none → h.adpfBusy (c.team.getD 0) off n = false → h.engineLoad cl < 256 →
            h.gate c.ctx c.place (charge true false n) false = .pass →
            ∃ t j, exec (.adpf w) s = .next t ∧ Accepted s t e w slot ∧ t.jobs = s.jobs ++ [j] ∧ j.kind = .adpf
              ∧ j.parts = [{ src := .global c.ctx va, dst := .scratch (c.team.getD 0) off, len := n, outLen := n, clk := c.lclock,
                             course := some i, issued := h.free, srcCap := e.rel.caps.getD w.ea.toNat 0 }])
          ∧ ((2 ^ 28 < n ∨ 256 ≤ h.engineLoad cl ∨ h.gate c.ctx c.place (charge true false n) false ≠ .pass ∨ (∃ x, src = .error x)
                ∨ ∃ x, dst = .error x) →
              (∃ x, x ∈ s.contexts ∧ x.num = c.ctx) →
              ∃ t, exec (.adpf w) s = .next t ∧ Accepted s t e w slot ∧ t.jobs = s.jobs
                ∧ (t.context c.ctx).dropped = (s.context c.ctx).dropped + 1)))

/-- R283, R286 to R289, R298 to R305: CRINIT writes an empty ring of the word's scope and capacity, its generation moved on and
its reserved bits 0, and tells how many slots of the old one were allocated and not written; RSLOT frees as many slots as it
may; AWAIT gives the first word of a written record, 0xFF for a counter that cannot be allocated, and waits between; NODE writes
a node that is neither armed nor running (0) and leaves one that is (1); ARM arms a node that is idle (0; 1 otherwise); PLY
hands its descriptor to the front end. CRINIT, RSLOT, NODE and ARM act after the course's release, on the header or the node as
it stands then; ARM keeps the generation of a BARRIER node's object, and an absent page of the object is its fault. That ARM keeps its
charge only for a node that is ready at once, that it reads the object, that CRINIT takes a capability too short for its capacity, and
that NODE takes no record array for another kind than KERNEL, is the model's own choice (log 97, 140, 114, 135). -/
def Obligations.LaneChartWords : Prop :=
  ∀ (s : State) (w : Eng) (e : Env), Running s → e.after = none →
    let i := s.cur
    let cap := e.rel.caps.getD w.ea.toNat 0
    let va := capBase cap
    let c := s.me
    let v1 := (e.unit 0 0 w.s1 (valueThread (e.guard false))).toNat
    let fe : List Charge := [{ cluster := clusterOf c.place, acct := 17, ns := 120 }]
    let put (r : State) (hd : RingHdr) (fresh : Bool) : State :=
      let r := r.releaseClock r.cur
      let p := r.pokeAt { ctx := c.ctx, team := c.team, clk := r.me.lclock } va (ringBytes hd ++ if fresh then List.replicate 46 0 else [])
      p.1.modMe fun k => { k with lclock := max k.lclock p.2, wmax := max k.wmax p.2 }
    -- CRINIT, RSLOT
    (∀ hd0 hd scope, let entered := s.releaseEnter i scope
      s.ringHdr c.ctx cap c.team = .ok hd0 → s.ringErr cap 6 (e.guard false) = none → entered.2 = none →
      entered.1.gateStop (entered.1.class4 c va) = none → entered.1.ringHdr c.ctx cap c.team = .ok hd →
      (s.engIssue [] = .ok e → scope = w.ex.toNat % 8 →
        exec (.crinit w) s = .next ((put entered.1
          { stale := 0, rp := 0, wp := 0, alloc := 0, gen := (hd.gen + 1) % 256, scope := w.ex.toNat % 8, caplog := w.imm.toNat % 32,
            magic := 0x5C05 } true).engFinish e w (BitVec.ofNat 32 (if hd.ok cap then min (sub32 hd.alloc hd.wp) 0xFFFF else 0))))
      ∧ (s.engIssue [w.s1] = .ok e → hd0.ok cap = true → scope = hd0.scope →
          let m := min v1 (sub32 hd.wp hd.rp)
          exec (.rslot w) s = .next ((put entered.1 { hd with rp := (hd.rp + m) % 2 ^ 32 } false).engFinish e w (BitVec.ofNat 32 m))))
    -- AWAIT
    ∧ (∀ hd, s.engIssue [w.s1] = .ok e → s.ringErr cap 5 (e.guard false) = none → s.ringHdr c.ctx cap c.team = .ok hd → hd.ok cap = true →
        let at0 := sub32 v1 hd.rp
        (at0 < sub32 hd.wp hd.rp → s.slotCheck cap 5 v1 hd (e.guard false) = none → ∀ v, s.readWord c.who (va + 64 + 32 * (v1 % 2 ^ hd.caplog)) = .ok v →
          ∃ t, exec (.await w) s = .next t ∧ Accepted s t e w v ∧ t.me.core.lobs = 0 ∧ t.me.ckpt = t.me.core)
        ∧ (∀ x, at0 < sub32 hd.wp hd.rp → s.slotCheck cap 5 v1 hd (e.guard false) = some x → exec (.await w) s = .next (s.stop x))
        ∧ (sub32 hd.wp hd.rp ≤ at0 → at0 < sub32 hd.alloc hd.rp → Waits s (exec (.await w) s) .ring)
        ∧ (sub32 hd.wp hd.rp ≤ at0 → sub32 hd.alloc hd.rp ≤ at0 →
            ∃ t, exec (.await w) s = .next t ∧ Accepted s t e w 0xFF ∧ t.me.ckpt = t.me.core))
    -- NODE, ARM
    ∧ (let h := s.commit i
       let entered := h.releaseEnter i 3
       let r := entered.1.releaseClock entered.1.cur
       let x (k : Nat) : Nat := (e.x (w.s1 + BitVec.ofNat 8 k)).toNat
       let sub (k : Nat) : Nat := (e.rel.caps.getD (w.eb.toNat + k) 0).toNat
       let line := leBytes 128 (0x5C0D + 2 ^ 16 * (x 0 % 256) + 2 ^ 24 * (x 0 / 2 ^ 8 % 8) + 2 ^ 27 * (x 0 / 2 ^ 11 % 2) + 2 ^ 28
         + 2 ^ 32 * (x 0 / 2 ^ 16) + 2 ^ 48 * x 1 + 2 ^ 64 * x 2 + 2 ^ 96 * x 3 + 2 ^ 128 * sub 0 + 2 ^ 256 * sub 1 + 2 ^ 512 * sub 2
         + 2 ^ 640 * sub 3 + 2 ^ 768 * sub 4)
       h.engIssue [] = .ok e → entered.2 = none →
       (∀ b, h.useErr h.me.who cap 2 6 va 128 128 true = none → x 0 / 2 ^ 12 % 16 = 0 → x 1 ≤ 64 → x 3 ≤ 256 →
          (x 0 % 256 ≠ 1 → capLen (e.rel.caps.getD (w.eb.toNat + 4) 0) = 0) → r.readVA h.me.who va 8 = .ok b →
          let state := leNat b / 2 ^ 28 % 16
          ((state = 2 ∨ state = 3) → exec (.node w) s
            = .next ((r.noteHome { h.me.who with clk := r.me.lclock } va 8).engFinish e w 1))
          ∧ (state ≠ 2 → state ≠ 3 →
              let p := r.pokeAt { h.me.who with clk := r.me.lclock } va line
              let q : State := { p.1 with edges := p.1.edges.filter fun (x : EdgeIn) => !(x.ctx == h.me.ctx && x.va == va) }
              exec (.node w) s
                = .next ((q.modMe fun k => { k with lclock := max k.lclock p.2, wmax := max k.wmax p.2 }).engFinish e w 0)))
       ∧ (∀ b, let aw : Who := { h.me.who with clk := r.me.lclock }
          h.useErr h.me.who cap 2 4 va 128 128 true = none → entered.1.gateStop fe = none → r.readVA aw va 128 = .ok b →
          let state := leNat b / 2 ^ 28 % 16
          let work : Cap := BitVec.ofNat 128 (leNat ((b.drop 16).take 16))
          let object := r.readVA { aw with team := none } (capBase work) 16
          let named : Prop := leNat b / 2 ^ 16 % 256 = 3 ∧ r.capErr c.ctx work 3 4 16 16 = none
          (state ≠ 1 → ∃ t, exec (.arm w) s = .next t ∧ Accepted s t e w 1 ∧ t.nodes = s.nodes)
          ∧ (∀ x, state = 1 → named → object = .error x →
              exec (.arm w) s = .next (r.stop ((UseErr.page x).stop (capBase work) (e.guard false))))
          ∧ (state = 1 → (named → ∃ o, object = .ok o) → ∃ t x, exec (.arm w) s = .next t ∧ Accepted s t e w 0
              ∧ t.nodes = s.nodes ++ [x] ∧ x.ctx = c.ctx ∧ x.va = va
              ∧ (∀ o, named → object = .ok o → x.bar = some { ctx := c.ctx, va := capBase work, gen := (barOf o).gen, cap := work })
              ∧ x.ready = (leNat b / 2 ^ 32 % 2 ^ 16 == 0) ∧ x.charges = (if x.ready then c.granted.getD fe else [])
              ∧ x.started = false ∧ x.ended = false)))
    -- PLY
    ∧ (∀ s1 ring, let h := s.commit i
       h.engIssue [] = .ok e → h.useErr h.me.who cap 2 1 va 64 1 false = none → h.copyRing e w = .ok (s1, ring) →
       h.gateStop fe = none →
       let t := (s1.keepCharges s1.cur fe).engFinish e w (match ring with | some r => BitVec.ofNat 32 r.slot | none => 0xFFFFFFFF)
       Accepted s t e w (match ring with | some r => BitVec.ofNat 32 r.slot | none => 0xFFFFFFFF)
       ∧ exec (.ply w) s = .next (t.newPly { ctx := c.ctx, cluster := clusterOf c.place, clock := t.me.lclock, ring := ring,
                                             charges := c.granted.getD fe } cap))

/-- R313, R319 to R326: an MMA, MMAS or MMG whose operands are aligned and readable in the team's window binds a matrix context,
enters its operation at the end of the array's queue with the types, precision, tile and offsets of its fields; PLN packs a tile
from registers into the window; MLDA and MSTA move one accumulator tile, and MSTA of a poisoned one raises RFERR, clean where the
shadow copy of the tile is sound in the poisoned places (R359); MZRO zeroes tiles; MREL gives the context back; MWAIT waits
for operations of its tiles, as MLDA, MSTA, MZRO and MREL do; a word that must bind a matrix context waits while others have both of
its core. Mapped lines of the window that a word reads or writes are filled
first, and no word writes a register through D. Where no rule speaks it states the model's own choice (log 37). -/
def Obligations.LaneTileWords : Prop :=
  ∀ (s : State) (w : Eng) (e : Env), Running s → e.after = none →
    let h := s.commit s.cur
    let c := h.me
    let i := s.cur
    let g := c.core.guard false
    let one : Mask := BitVec.ofNat 256 (2 ^ valueThread g)
    let z := w.ex.toNat / 4 % 4
    let pb := w.ex.toNat / 16 % 16
    let aoff := w.ex.toNat / 2 ^ 20 * 512 + (e.x w.s1).toNat
    let whole : Prop := ∀ m, c.mctx = some m → m.tiles.length = 4
    -- MMA, MMAS, MMG
    (let op (boffs : List Nat) (index : Option (List Nat)) (cycles : Nat) : TileOp :=
       { course := i, ctx := c.ctx, team := c.team.getD 0, place := c.place, z := z, ta := w.imm.toNat / 4096,
         tb := w.imm.toNat / 256 % 16, pb := pb, rz := w.ex.getLsbD 1, aoff := aoff, boffs := boffs, index := index,
         charge := 16 + (5 * cycles + 6) / 7 }
     let queues (o : Out) (reads : List (BitVec 8 × Mask)) (op : TileOp) : Prop :=
       h.issue g (reads.filter fun r => r.1 != 0xF1) = .ok e → h.noContext = false →
       (h.tileOps.filter fun o => o.course == i).length < 16 →
       (∀ r, r ∈ op.ranges → r.1 % 512 = 0 ∧ (h.window c).violates c.heldS r.1 r.2 false = false) →
       h.gateStop [tileCharge c.place op.charge] c.mctx.isNone = none → ∀ f, h.fillRanges op.ranges (e.guard false) = .ok f →
       ∃ t, o = .next t ∧ MatrixDone s t e ∧ t.me.ckpt = t.me.core
         ∧ t.tileOps = s.tileOps ++ [{ op with
             aCap := f.windowRead op.team (op.ranges.headD (0, 0)).1 (op.ranges.headD (0, 0)).2
             bCaps := (op.ranges.drop 1).map fun r => f.windowRead op.team r.1 r.2
             aBad := f.windowBad op.team (op.ranges.headD (0, 0)).1 (op.ranges.headD (0, 0)).2
             bBad := (op.ranges.drop 1).map fun r => f.windowBad op.team r.1 r.2 }]
         ∧ t.me.mctx = some (c.mctx.getD { tiles := List.replicate 4 {} })
     let boff := w.ex.toNat / 256 % 4096 * 512
     let reg (q : Nat) : BitVec 8 := w.s2 + BitVec.ofNat 8 q
     let hi := w.imm.getLsbD 4
     let supply : Mask := maskOf 256 fun t => (t % 64 / 32 == 1) == hi
     let pos : List Nat := ((List.range 256).filter fun t => supply.getLsbD t).flatMap fun t =>
       (List.range 16).map fun k => (e.unit 0 0 w.s2 t).toNat / 4 ^ k % 4
     queues (exec (.mma w) s) [] (op [boff + (e.x w.s2).toNat] none pb)
     ∧ queues (exec (.mmas w) s) [(w.s2, supply)] (op [boff] (some pos) ((pb + 1) / 2))
     ∧ queues (exec (.mmg w) s) ((List.range 4).map fun q => (reg q, one))
         (op ((List.range 4).map fun q => (e.unit 0 0 (reg q) (valueThread (e.guard false))).toNat) none pb))
    -- PLN
    ∧ (let ty := w.imm.toNat / 4096
       let lay := w.ex.toNat % 4
       let regs := (List.range (Legal.plnRegs ty lay)).map fun k => w.s1 + BitVec.ofNat 8 k
       let off : Nat := w.ex.toNat / 2 ^ 20 * 512 + (e.x w.s2).toNat
       let bytes := regs.flatMap fun r => (e.src 0 0 r).flatMap wordBytes
       h.issue g (regs.map fun r => (r, BitVec.allOnes 256)) = .ok e → off % 512 = 0 →
       (h.window c).violates c.heldS off (Tiles.tileBytes ty (lay == 2)) true = false → ∀ k f, c.team = some k →
       h.fillRange off (Tiles.tileBytes ty (lay == 2)) (e.guard false) = .ok f →
       exec (.pln w) s = .next ((f.putWindow k c.lclock (cellsAt off (Tiles.packBytes ty lay bytes))).matFinish e))
    -- the others
    ∧ (h.engIssue [] = .ok e →
        let off : Int := ((e.x w.s1).toNat : Int) + w.imm.toInt
        let cap := e.rel.caps.getD w.ea.toNat 0
        let ea : Int := (capBase cap : Int) + off
        let busy (mask : Nat) : Prop := ∃ o, o ∈ h.tileOps ∧ o.course = i ∧ mask / 2 ^ o.z % 2 = 1
        let free : Prop := h.noContext = false ∧ h.gateStop [] c.mctx.isNone = none
        (¬busy (2 ^ z) → free → whole →
          (∀ f, w.ex.getLsbD 31 = true → off % 4 = 0 → (h.window c).violates c.heldS off 4096 false = false →
            h.fillRange off.toNat 4096 (e.guard false) = .ok f →
            ∃ t, exec (.mlda w) s = .next t ∧ MatrixDone s t e ∧ t.me.ckpt = t.me.core
              ∧ (t.me.tile z).vals = wordsOf (f.scratchRead c off.toNat 4096))
          ∧ (∀ bytes, w.ex.getLsbD 31 = false → h.useErr c.who cap 0 1 ea 4096 4 false = none → h.loadVA c ea.toNat 4096 = .ok bytes →
              ∃ t, exec (.mlda w) s = .next t ∧ MatrixDone s t e ∧ t.me.ckpt = t.me.core
                ∧ (t.me.tile z).vals = wordsOf bytes)
          ∧ (let bytes := (padTo 1024 (c.tile z).vals).flatMap wordBytes
             (c.tile z).bad = [] →
             (∀ f, w.ex.getLsbD 31 = true → off % 4 = 0 → (h.window c).violates c.heldS off 4096 true = false →
               h.fillRange off.toNat 4096 (e.guard false) = .ok f →
               exec (.msta w) s = .next ((f.bindCtx.holdCells i true (cellsAt off.toNat bytes)).matFinish e))
             ∧ (w.ex.getLsbD 31 = false → h.useErr c.who cap 0 2 ea 4096 4 true = none →
                 exec (.msta w) s = .next ((h.bindCtx.holdCells i false (cellsAt ea.toNat bytes) 0 true).matFinish e))))
        ∧ (¬busy (2 ^ z) → h.noContext = false → (c.tile z).bad ≠ [] →
            ((w.ex.getLsbD 31 = true ∧ off % 4 = 0 ∧ (h.window c).violates c.heldS off 4096 true = false)
              ∨ (w.ex.getLsbD 31 = false ∧ h.useErr c.who cap 0 2 ea 4096 4 true = none)) →
            let clean : Bool := match c.tileCopies.lookup z with
              | some old => (c.tile z).bad.all fun i => !old.bad.contains i | none => false
            exec (.msta w) s = .next (h.stop (.rferr { cause := 14, mask := e.guard false } clean)))
        ∧ (h.noContext = true → Waits s (exec (.mlda w) s) .context ∧ Waits s (exec (.msta w) s) .context
            ∧ Waits s (exec (.mzro w) s) .context)
        ∧ (busy (2 ^ z) → h.noContext = false → Waits s (exec (.mlda w) s) .engine ∧ Waits s (exec (.msta w) s) .engine)
        ∧ (¬busy w.ex.toNat → free → whole → ∃ t, exec (.mzro w) s = .next t ∧ MatrixDone s t e ∧ t.me.ckpt = t.me.core
            ∧ ∀ k, k < 4 → t.me.tile k = if w.ex.getLsbD k then {} else h.bindCtx.me.tile k)
        ∧ (busy w.ex.toNat → (h.noContext = false → Waits s (exec (.mzro w) s) .engine) ∧ Waits s (exec (.mwait w) s) .engine)
        ∧ (¬busy w.ex.toNat → ∃ t, exec (.mwait w) s = .next t ∧ MatrixDone s t e ∧ t.tileOps = s.tileOps ∧ t.me.ckpt = t.me.core)
        ∧ (¬busy 15 → ∃ t, exec (.mrel w) s = .next t ∧ MatrixDone s t e ∧ t.me.mctx = none ∧ t.me.ckpt = t.me.core)
        ∧ (busy 15 → Waits s (exec (.mrel w) s) .engine))

/-! Events. subj names what an event is about; an event that is not due leaves the machine as it is. -/

/-- R28, R64, R83 to R86, R91, R178, R181, R216, R223, R234, R241, R344, R394, R438: the events of courses: a lane word whose
results are in completes; a course retires; the next entry of a feed joins its queue; a written line, a poll, a returned hold, a
timeout ends the waits it concerns, and their courses run, or at a poll stay Waiting; the words stalled at a context's gate are
evaluated again, the oldest stall first; held stores are performed after 2 µs; the watchdog kills a context's teams and courses;
logical clocks rise. Where no rule speaks it states the model's own choice (log 5, 23, 39, 51, 101, 141). -/
def Obligations.CourseEvents : Prop :=
  ∀ (s : State),
    let n := s.subj.num
    let c := s.course n
    let idle (i : Instr) : Prop := exec i s = .next s
    let ends (i : Instr) (run : Bool) (p : Nat → Wait → Prop) : Prop := ∃ t, exec i s = .next t ∧ SameMemory s t
      ∧ (∀ j, (t.course j).core = (s.course j).core)
      ∧ ∀ j w, (s.course j).alive = true →
          (((s.course j).lwait = some w ∨ (s.course j).swait = some w) → p j w → (s.course j).phase = .waiting →
            (t.course j).phase = if run then .running else .waiting) ∧
          ((s.course j).lwait = some w → p j w → (t.course j).lwait = none) ∧ ((s.course j).swait = some w → p j w → (t.course j).swait = none)
          ∧ ((s.course j).lwait = some w → ¬p j w → (t.course j).lwait = some w)
          ∧ ((s.course j).swait = some w → ¬p j w → (t.course j).swait = some w)
    -- completion, retirement, feeds
    (s.wordDue n = false → idle .laneWordComplete)
    ∧ (s.wordDue n = true →
        let s1 := { s with cur := n }.modMe fun c => { c with lwait := none, phase := if c.phase = Phase.waiting then .running else c.phase }
        (∀ w, s1.fetchLane s1.me = .word (.rld w) → exec .laneWordComplete s = .next (s1.completeRld w))
        ∧ (∀ w, s1.fetchLane s1.me = .word (.ratom w) → exec .laneWordComplete s = .next (s1.completeRatom w)))
    ∧ (s.retireDue n = false → idle .courseRetire)
    ∧ (s.retireDue n = true → n < s.courses.length →
        ∃ t, exec .courseRetire s = .next t ∧ (t.course n).phase = .retired ∧ t = ((s.commit n).leaveTeam n).retire n)
    ∧ (∀ d, let q := s.subj.num2
       (c.core.feeds.getD q {}).active = some d → s.feedDue n q = true → n < s.courses.length → q < 16 →
       ∃ t, exec .feedEntryForm s = .next t ∧ SameMemory s t
         ∧ (t.course n).core.queues.getD q [] = c.core.queues.getD q [] ++ [s.feedEntry c d d.next]
         ∧ (q < c.core.feeds.length → (t.course n).core.feeds.getD q {} = (c.core.feeds.getD q {}).advance)
         ∧ ∀ th : Nat, th < 256 →
             let z : Nat := 2 ^ (d.flags.toNat % 4)
             let a : Int := (capBase d.cap : Int) + d.start.toNat + th * d.tstr.toInt + ((d.next % d.count0.toNat : Nat) : Int) * d.str0.toInt
               + ((d.next / d.count0.toNat : Nat) : Int) * d.str1.toInt
             let x := (s.feedEntry c d d.next).vals.getD th 0
             ((a < capBase d.cap ∨ (capBase d.cap : Int) + capLen d.cap < a + z) → x = 0)
             ∧ (∀ b, capBase d.cap ≤ a → a + z ≤ (capBase d.cap : Int) + capLen d.cap → a % z = 0 → capPerm d.cap &&& 8 = 8 →
                 s.loadVA c a.toNat z (s.unseen c a.toNat th) = .ok b → s.badLoad c a.toNat z (s.unseen c a.toNat th) = false → d.flags.getLsbD 2 = false → x = BitVec.ofNat 32 (leNat b)))
    -- wake-ups
    ∧ ends .wakeup true (fun _ w => w.line = some n)
    ∧ (s.repollDue n = false → idle .repollTimer)
    ∧ (s.repollDue n = true → ends .repollTimer false fun j w => j = n ∧ w.line = none
        ∧ (w.kind = .word ∨ w.kind = .barrier ∨ w.kind = .spool ∨ w.kind = .ring))
    ∧ (s.holdDue n = false → idle .holdReturn)
    ∧ (s.holdDue n = true → ends .holdReturn true fun _ w => w.line = some n)
    ∧ (s.evwaitDue n = false → idle .evwaitTimeout)
    ∧ (s.evwaitDue n = true → ends .evwaitTimeout true fun j w => j = n ∧ w.kind = .event)
    ∧ (s.parkDue n = false → idle .graftParkTimeout)
    ∧ (s.parkDue n = true → n < s.courses.length → ∃ t, exec .graftParkTimeout s = .next t ∧ SameMemory s t
        ∧ t.course n = { c with parked := none, lwait := none, graftStatus := some 1 } ∧ ∀ j, j ≠ n → t.course j = s.course j)
    ∧ (s.heldDue n = false → idle .heldStoreTimeout)
    ∧ (s.heldDue n = true → exec .heldStoreTimeout s = .next (s.checkpoint n))
    ∧ (s.watchdogDue n = false → idle .watchdogFire)
    ∧ (s.watchdogDue n = true →
        let s1 := (s.ctxTeams n).foldl (fun s t => s.killTeam t 18) s
        exec .watchdogFire s = .next (((s1.ctxCourses n).foldl (fun s i => s.killCourse i 18) s1).postFault
          { ctx := n, cause := 18, source := 3 }))
    -- clocks, the gate, spools
    ∧ (∃ t, exec .lclockAdvance s = .next t ∧ SameMemory s t ∧ ∀ j, (t.course j).core = (s.course j).core
        ∧ (s.course j).lclock ≤ (t.course j).lclock
        ∧ (j < s.courses.length → (s.course j).isResident = true →
            (s.course j).lclock + (s.clock - s.raisedAt) / cyclesOfUs 1 ≤ (t.course j).lclock))
    ∧ ((s.context n).mode ≠ .active → idle .gateReevaluate)
    ∧ (let atGate (j : Nat) (v : Wait) : Prop :=
         j < s.courses.length ∧ (s.course j).ctx = n ∧ (s.course j).lwait = some v ∧ v.kind = .gate
       ∀ i w, (s.context n).mode = .active → atGate i w → (s.course i).alive = true → (s.course i).phase ≠ .vacated →
        (∀ j v, atGate j v → j ≠ i → w.since < v.since ∨ (w.since = v.since ∧ i < j)) →
        let x := s.course i
        let t := s.reevaluate i
        let gate := s.gate n x.place w.charges w.binds
        -- the oldest stall is evaluated first, the others after it
        (∃ rest : List Nat, exec .gateReevaluate s = .next (rest.foldl State.reevaluate t) ∧ ∀ j, (j ∈ rest ↔ j ≠ i ∧ ∃ v, atGate j v))
        ∧ ((∀ j v, atGate j v → j = i) → exec .gateReevaluate s = .next t)
        ∧ (gate = .stall → t = s)
        ∧ (gate = .pass → t.course i = { x with lwait := none, granted := some w.charges, grantBinds := w.binds }
            ∧ ∀ j, j ≠ i → t.course j = s.course j)
        ∧ (gate = .vbnd → t = s.takeTrap i { cause := 12, pc := x.core.lanePc })
        ∧ (gate = .vbig → t = s.takeTrap i { cause := 13, pc := x.core.lanePc }))
    ∧ exec .spoolTestReply s = .next (s.credit c.ctx [rqCharge c.place s.subj.num2])

/-- R259, R288 to R297, R302 to R305, R313, R321, R328, R356, R396, R400: the events of the engines and the front end: a slice of a
copy moves and the copy finishes with its report; a member on another device is done; a follow-on becomes ready; a tile operation
takes its operands with a token, and writes its tile; a node, a ply, a launch and a fault record complete; the swift takes a packet.
Where no rule speaks it states the model's own choice (log 23, 34, 38, 70, 116). -/
def Obligations.EngineEvents : Prop :=
  ∀ (s : State),
    let n := s.subj.num
    let idle (i : Instr) : Prop := exec i s = .next s
    -- copies
    (s.jobs[n]? = none → idle .copyComplete ∧ idle .multicastMemberDone ∧ idle .followOnIssue)
    ∧ (∀ j, s.jobs[n]? = some j →
        (j.parts.findIdx? s.partReady = none → exec .copyComplete s = .next (s.jobCheck n))
        ∧ (∀ p, s.partReady p = true ↔ p.done = false ∧ p.node = none ∧ (p.landing = none ∨ s.heldWrites = []))
        ∧ (∀ k p, j.parts.findIdx? s.partReady = some k → j.parts[k]? = some p →
            exec .copyComplete s = .next ((s.movePart n k).jobCheck n)
            ∧ (∀ ctx va s0 src bad s1 t, s.mayMove n j = true → p.landing = none → p.gate = none → p.pack = none → p.dst = .global ctx va →
                s.partLeaves (j.who p) p = false → s.partSource (j.who p) p = .ok (s0, src, bad) →
                s0.firstBad (j.who p) va src.length true = none → src ≠ [] → s0.writeVA (j.who p) va src = .ok (s1, t) →
                s.movePart n k = (s1.markBad (j.who p) va bad).partDone n k src.length (if bad = [] then max p.wts t else t)
                  (if bad = [] then none else some 15) false)
            -- a gated member whose bytes are written: its gate is 2 once the host holds none of them back
            ∧ (∀ g bytes, s.mayMove n j = true → p.landing = some bytes → p.gate = some g → s.heldWrites = [] →
                s.firstBad (j.who p) g 4 true = none →
                let r := s.pokeAt { j.who p with clk := max p.clk (max p.wts 0) } g (leBytes 4 2)
                s.movePart n k = r.1.partDone n k bytes (max (max p.wts 0) r.2) none false))
        ∧ (∀ p, j.parts[s.subj.num2]? = some p → j.finished = false → p.done = false → p.node ≠ none →
            (s.subj.member = .performed → s.mayMove n j = false → exec .multicastMemberDone s = .next (s.jobCheck n))
            ∧ (s.subj.member = .performed → s.mayMove n j = true → s.partLeaves (j.who p) { p with dst := .scratch 0 0 } = false →
                ∀ r src bad, s.partSource (j.who p) p = .ok (r, src, bad) → exec .multicastMemberDone s
                  = .next ((r.partDone n s.subj.num2 p.outLen s.subj.reply.wts (if bad = [] then none else some 15) false).jobCheck n))
            ∧ (s.subj.member = .refused → p.gate ≠ none → exec .multicastMemberDone s
              = .next ((s.partDone n s.subj.num2 0 0 none true).jobCheck n))
            ∧ (∀ x, s.subj.member = .failed x → ∃ k, k ≤ p.outLen ∧ exec .multicastMemberDone s
              = .next ((s.partDone n s.subj.num2 k 0 (some x.toNat) false).jobCheck n)))
        ∧ (s.followDue n = false → idle .followOnIssue)
        ∧ (s.followDue n = true → exec .followOnIssue s
            = .next { s with tileOps := s.tileOps.map fun o => if o.job = some n then { o with ready := true } else o }))
    -- the array
    ∧ (s.tileStarts n = false → idle .tileOpStart)
    ∧ (∀ o, s.tileOps[n]? = some o → s.tileStarts n = true → (s.team o.team).alive = true → o.job = none →
        ∃ t o', exec .tileOpStart s = .next t ∧ SameMemory s t ∧ t.courses = s.courses ∧ t.tileOps[n]? = some o' ∧ o'.started = true
          ∧ (∀ i b, o'.aCap[i]? = some b → b = o.aCap.getD i 0 ∨ b = s.windowByte o.team ((o.ranges.headD (0, 0)).1 + i))
          ∧ o'.aCap.length = o.aCap.length ∧ o'.bCaps.length = (o.ranges.drop 1).length
          ∧ ∀ p, p ∈ t.splits → p.place = o.place → p.token = true)
    ∧ (∀ o, s.tileOps[n]? = some o → o.started = false → idle .tileOpEnd)
    ∧ (∀ o, s.tileOps[n]? = some o → o.started = true → s.engineRuns o.ctx (clusterOf o.place) = true →
        (s.course o.course).phase ≠ .retired → o.course < s.courses.length →
        (∃ m, (s.course o.course).mctx = some m ∧ o.z < m.tiles.length) →
        ∃ t, exec .tileOpEnd s = .next t ∧ SameMemory (s.shadowTile o.course o.z) t ∧ t.tileOps = s.tileOps.eraseIdx n
          ∧ ((t.course o.course).tile o.z).vals = Tiles.tileResult o.ta o.tb o.pb o.rz o.index o.aCap
              (((o.ranges.drop 1).zip o.bCaps).map fun x => s.racedTile o x.1 x.2) ((s.course o.course).tile o.z).vals
          ∧ (∀ z, z ≠ o.z → (t.course o.course).tile z = (s.course o.course).tile z)
          ∧ ∀ j, j ≠ o.course → (t.course j).mctx = (s.course j).mctx)
    ∧ (s.tokenIdle n = false → idle .tokenIdleReturn)
    ∧ (s.tokenIdle n = true → ∃ t, exec .tokenIdleReturn s = .next t ∧ t = { s with splits := t.splits } ∧ t.coreToken n = false)
    -- charts, launches, records
    ∧ (s.nodeDue n = false → idle .nodeComplete)
    ∧ (∀ x, s.nodeDue n = true → s.nodes[n]? = some x →
        exec .nodeComplete s = .next (if x.started then s.finishNode n else s.startNode n))
    ∧ (∀ p, s.plies[n]? = some p →
        ((p.ended = false ∨ p.finished = true) → idle .plyComplete)
        ∧ (p.ended = true → p.finished = false → ∃ t q, exec .plyComplete s = .next t ∧ t.plies[n]? = some q ∧ q.finished = true
            ∧ (p.ring = none → ∀ qn slot, p.report = some (.packet qn slot) → p.cause = 0 → t =
                ((s.creditPly n).modPly n fun p => { p with finished := true }).retirePacket qn slot 1 0 p.clock)))
    ∧ (s.launchDone n = false → idle .launchComplete)
    ∧ (s.launchDone n = true → exec .launchComplete s = .next (s.endLaunch n)
        ∧ ∀ l q slot, s.launch? n = some l → l.report = .packet q slot → l.killed = none → l.tick = false →
            s.endLaunch n = (s.modLaunch n fun l => { l with finished := true }).retirePacket q slot 1 0 (s.launchClock n))
    ∧ (s.postDue n = false → idle .faultRingPost)
    ∧ (∀ p, s.postDue n = true → s.posts[n]? = some p → exec .faultRingPost s = .next ({ s with posts := s.posts.eraseIdx n }.postFault p))
    ∧ (s.boot < 5 → idle .swiftTake)
    ∧ (∀ q, 5 ≤ s.boot → s.queue? s.swiftAt = some q → q.served = true → 1 ≤ q.deficit → exec .swiftTake s = .next (s.takeFrom s.swiftAt))
    ∧ (∀ q h, s.queue? n = some q → s.subHdr q = .ok h → h.magic = 0x5C11 → h.caplog = q.caplog →
        sub32 h.wptr q.done ≤ 2 ^ q.caplog → h.wptr ≠ q.rptr →
        ∃ t q', s.takeFrom n = t ∧ t.queue? n = some q' ∧ q'.rptr = (q.rptr + 1) % 2 ^ 32 ∧ q'.taken = q.taken ++ [{ slot := q.rptr, arrival := s.arrivals }])

/-- R27, R28, R341 to R351, R401, R406 to R413: the events of the scheduler and the needles: rings are mapped and unmapped, gangs
are placed, heads that waited reserve, ticks start, a context is vacated and saved, gangs switch, waiting courses leave their cores
and come back, and the standby needle takes over. Where no rule speaks it states the model's own choice (log 15, 16, 19, 23, 44, 49,
50, 62, 117, 138, 139). -/
def Obligations.SchedulerEvents : Prop :=
  ∀ (s : State),
    let n := s.subj.num
    let idle (i : Instr) : Prop := exec i s = .next s
    -- rings
    (s.queue? n = none → idle .queueNotify ∧ idle .queueUnmap)
    ∧ (∀ q, s.queue? n = some q →
        (q.closing = true → idle .queueNotify)
        ∧ (q.closing = false → exec .queueNotify s = .next (s.mapQueue n)
            ∧ (q.mapped = false → s.mappedCount < 1024 → ∃ t q', s.mapQueue n = t ∧ t.queue? n = some q' ∧ q'.mapped = true ∧ q'.ready = true))
        ∧ (s.mayUnmap q = false → idle .queueUnmap)
        ∧ (s.mayUnmap q = true → ∃ t, exec .queueUnmap s = .next t ∧ SameMemory s t ∧ t.courses = s.courses
            ∧ t = (let s1 := (s.ringNote q 0).modQueue n fun q => { q with mapped := false, ready := false }
                -- the oldest queue that waits for a place is mapped in its stead
                if s1.ringEmpty q then s1.mapWaiting else s1.mapQueue n)))
    -- placement
    ∧ exec .gangPlace s = .next (let s1 := s.ageHeads (s.heads n); s1.considerHeads (s1.heads n))
    -- a head whose AGE is over reserves before the heads are considered, the one that is due longest first
    ∧ ((∀ i, i ∈ s.heads n → s.ageDue i = false) → s.ageHeads (s.heads n) = s)
    ∧ (let since (i : Nat) : Nat := match s.launch? i with
         | some l => l.blockedSince.getD 0 + cyclesOfUs (s.context l.ctx).age | none => 0
       ∀ i, i ∈ s.heads n → s.ageDue i = true → (∀ j, j ∈ s.heads n → s.ageDue j = true → j = i ∨ since i < since j) →
        s.ageHeads (s.heads n) = s.reserveFor i)
    ∧ (s.heads n = [] → idle .gangPlace)
    ∧ (∀ i rest l cores, s.heads n = i :: rest → (∀ j, j ∈ s.heads n → s.ageDue j = false) → s.launch? i = some l → (l.placed = 0 → s.groupErrs i = []) →
        (let s1 := s.growReservation i l (s.nextGang i)
         s1.chooseCores i l (s.nextGang i) = some cores → exec .gangPlace s = .next (s1.placeGang i l (s.nextGang i) cores)))
    ∧ (s.ageDue n = false → idle .reservationAge)
    ∧ (∀ l, s.ageDue n = true → s.launch? n = some l → ∃ t, exec .reservationAge s = .next t ∧ SameMemory s t ∧ t.courses = s.courses
        ∧ (s.clustersFor l.ctx l.pin ≠ [] → ∃ r, t.reservations = s.reservations ++ [r] ∧ r.launch = n
            ∧ r.partition = (s.context l.ctx).partition ∧ r.cluster ∈ s.clustersFor l.ctx l.pin
            ∧ r.cores = (s.eligibleIn n l.ctx r.cluster (s.nextGang n)).take (s.nextGang n).length
            ∧ ∀ k, k ∈ s.clustersFor l.ctx l.pin →
                (s.eligibleIn n l.ctx k (s.nextGang n)).length ≤ (s.eligibleIn n l.ctx r.cluster (s.nextGang n)).length))
    ∧ (s.tickDue n = false → idle .tickStart)
    ∧ (s.tickDue n = true → exec .tickStart s
        = .next (s.modLaunch n fun l => { l with held := false, missed := min (l.tickAt.getD 0 - l.firstTick) 0xFFFFFF }))
    -- vacating and gang switches
    ∧ ((s.context n).mode ≠ .active → idle .vacateRequest)
    ∧ (∀ x, (s.context n).mode = .active → s.contexts.find? (fun c => c.num == n) = some x →
        ∃ t, exec .vacateRequest s = .next t ∧ SameMemory (s.settleDue n) t ∧ (t.context n).mode = .vacating ∧ (t.context n).vacateAt = s.clock
          ∧ (∀ j, (t.course j).core = ((s.settleDue n).course j).core) ∧ (∀ j, j < s.courses.length → (t.course j).core = (s.course j).core)
          ∧ ∀ r, r ∈ t.reservations → r ∈ (s.settleDue n).reservations)
    ∧ ((∀ u, .event .gangPlace u ∉ s.agenda) → s.placeDue n = s)
    ∧ (s.saveDue n = false → idle .saveComplete)
    ∧ (∀ x, s.saveDue n = true → s.contexts.find? (fun c => c.num == n) = some x →
        ∃ t, exec .saveComplete s = .next t ∧ (t.context n).mode = .vacated
          ∧ (t.context n).vmeas = min (5 * (s.clock - x.vacateAt) / 7) x.vacateEst
          ∧ (∀ p, p ∈ t.splits → p.ctx ≠ n) ∧ ∀ i, i < s.courses.length → (s.course i).ctx = n → (s.course i).alive = true →
              (t.course i).phase = .vacated)
    ∧ (s.switchDue n = false → idle .gangswVacate)
    ∧ (s.switchDue n = true → ∃ t, exec .gangswVacate s = .next t
        ∧ SameMemory (if (s.context n).mode = .active then s.settleDue n else s) t ∧ (t.context n).debt = 0
        ∧ ∀ g, g ∈ t.gangsws → g.outgoing = n → g.requested = some s.clock)
    ∧ (s.ceilingDue n = false → idle .vacateCeiling)
    ∧ (∀ x, s.ceilingDue n = true → s.contexts.find? (fun c => c.num == n) = some x → ∃ t, exec .vacateCeiling s = .next t
        ∧ (t.context n).mode = .lost ∧ (∀ g, g ∈ t.gangsws → g.outgoing = n → g.lost = true) ∧ ∀ o, o ∈ t.tileOps → o.ctx ≠ n)
    ∧ (s.incomingDue n = false → idle .gangswIncomingStart)
    ∧ (∀ g, s.incomingDue n = true → s.gangsw? n = some g →
        let overrun := (5 * (g.finished.getD 0 - tickCycle (s.context n) g.tick) + 6) / 7
        let s0 : State := { s with gangsws := s.gangsws.filter fun h => h.outgoing != n }
        let s1 := (if (s.context g.incoming).mode = .vacated then s0.resumeContext g.incoming else s0).modCtx n fun c =>
          { c with debt := c.debt + overrun }
        exec .gangswIncomingStart s = .next (
          if g.lost then (s1.postFault { ctx := n, cause := 22, source := 6, addr := overrun }).retirePacket g.queue g.slot 6 0 0
          else if overrun = 0 then s1.retirePacket g.queue g.slot 1 0 0
          else (s1.postFault { ctx := n, cause := 0, source := 6, addr := overrun }).retirePacket g.queue g.slot 7
            (min overrun 0xFFFFFF) 0))
    -- swapping
    ∧ (s.mayswapOut n = false → idle .swapOut)
    ∧ (s.mayswapOut n = true → n < s.courses.length → ∃ t, exec .swapOut s = .next t ∧ (t.course n).phase = .swapped
        ∧ (t.course n).core = (s.course n).core ∧ ∀ j, (t.course j).core = (s.course j).core)
    ∧ (s.swapInDue n = false → idle .swapIn)
    ∧ (s.swapInDue n = true → n < s.courses.length → ∃ t, exec .swapIn s = .next t ∧ SameMemory s t
        ∧ (let c := { (s.course n).endWaits (fun w => w.kind != .service && w.kind != .post && w.kind != .move) with phase := .running }
           t.course n = if s.spoilt (s.course n).ctx (clusterOf (s.course n).place) (some n) then c.spoil (s.free * 2 ^ 16 + n) else c)
        ∧ ∀ j, j ≠ n → t.course j = s.course j)
    -- needles
    ∧ (s.standbyOk = false → idle .needleFailover)
    ∧ (s.standbyOk = true → ∃ t, exec .needleFailover s = .next t ∧ t.needle = (!s.needle) ∧ t.standbyOk = false ∧ t.patchNext = none
        ∧ t.courses = s.courses ∧ SameMemory s t)
    ∧ (s.takeoverDue = false → idle .fwupdTakeover)
    ∧ (∀ q slot, s.takeoverDue = true → s.fwPacket = some (q, slot) → exec .fwupdTakeover s
        = .next ({ s with needle := !s.needle, patch := s.patchNext, patchNext := none, fwPacket := none }.retirePacket q slot 1 0 0))

/-- R373 to R392, R417, R432: the events of the fabric: a request is performed once, however often it arrives, and only where the
tenant's grants cover it; an acknowledgement, its absence and the port's answer resolve a packet; lines are delegated and recalled;
loans are renewed, lost, recalled and moved; ports and devices fail. Where no rule speaks it states the model's own choice (log 23,
33, 61, 65, 66, 67, 68). -/
def Obligations.FabricEvents : Prop :=
  ∀ (s : State),
    let n := s.subj.num
    let q := s.subj.request
    let idle (i : Instr) : Prop := exec i s = .next s
    -- requests
    (∀ p, remoteWrites q.op = true → s.performed.find? (fun p => p.source == q.source && p.seqno == q.seqno) = some p →
      exec .remoteRequest s = .next { s with sentReply := p.reply })
    ∧ ((remoteWrites q.op = false ∨ ∀ p, p ∈ s.performed → p.source ≠ q.source ∨ p.seqno ≠ q.seqno) → q.accs ≠ [] →
        s.lentRegion q.tenant = none →
        (s.tenantCtx q.tenant = none → ∃ t, exec .remoteRequest s = .next t ∧ SameMemory s t
          ∧ t.sentReply.failed = q.accs.map (·.thread) ∧ t.sentReply.values = [])
        ∧ (∀ x, s.tenantCtx q.tenant = some x → (∀ a, a ∈ q.accs → s.covered q.tenant q.op a = false) →
            ∃ t, exec .remoteRequest s = .next t ∧ SameMemory s t ∧ t.sentReply.failed = q.accs.map (·.thread)
              ∧ t.sentReply.values = [])
        ∧ (∀ x, s.tenantCtx q.tenant = some x → (∀ a, a ∈ q.accs → s.covered q.tenant q.op a = true
              ∧ s.firstBad { ctx := x, clk := q.clock } a.addr a.size (remoteWrites q.op) = none) →
            let r := match q.op with
              | .merge ty => s.mergeAccs { ctx := x, clk := q.clock } ty.toNat q.accs
              | _ => performAccs s q.accs fun t a => t.performAcc { ctx := x, clk := q.clock } q.op a
            ∃ t, exec .remoteRequest s = .next t ∧ t.mem = r.1.mem ∧ t.hostMem = r.1.hostMem ∧ t.sentReply.failed = []
              ∧ t.sentReply.values = r.2.values
              ∧ (remoteWrites q.op = true → ∃ p, p ∈ t.performed ∧ p.source = q.source ∧ p.seqno = q.seqno ∧ p.reply = t.sentReply)))
    -- a borrower's request, and a port's question about a number that nothing has performed
    ∧ (∀ l, (remoteWrites q.op = false ∨ ∀ p, p ∈ s.performed → p.source ≠ q.source ∨ p.seqno ≠ q.seqno) → q.accs ≠ [] →
        s.lentRegion q.tenant = some l →
        let r := performAccs s q.accs fun t a => t.lentAcc l q.clock q.op a
        ∃ t, exec .remoteRequest s = .next t ∧ t.mem = r.1.mem ∧ t.hostMem = r.1.hostMem ∧ t.sentReply = r.2)
    ∧ (remoteWrites q.op = true → (∀ p, p ∈ s.performed → p.source ≠ q.source ∨ p.seqno ≠ q.seqno) → q.accs = [] →
        ∃ t p, exec .remoteRequest s = .next t ∧ SameMemory s t ∧ p ∈ t.performed ∧ p.source = q.source ∧ p.seqno = q.seqno ∧ p.refused = true)
    -- answers
    ∧ (s.packetOut n s.subj.num2 = none → idle .remoteAck ∧ idle .retransmit ∧ idle .linkResolve)
    ∧ (∀ o, s.packetOut n s.subj.num2 = some o →
        (s.subj.value.toNat % 256 = 0 → exec .remoteAck s = .next (s.packetDone o s.subj.reply))
        ∧ (s.subj.value.toNat % 256 = 1 → exec .remoteAck s = .next (s.packetPaged o (s.subj.value.toNat / 256 % 256)))
        ∧ (2 ≤ s.subj.value.toNat % 256 → exec .remoteAck s = .next (s.packetAnswered o (s.subj.value.toNat % 256 == 2)))
        ∧ (s.resendDue o = false → idle .retransmit)
        ∧ (s.resendDue o = true → exec .retransmit s = .next (s.modPacket o fun p => { p with port := s.pickPort o.port, sentAt := s.clock })
            ∧ ∀ k, s.pickPort o.port = some k → k < 32 ∧ s.portsDown.getLsbD k = false
                ∧ (o.port = some k → ∀ m, m < 32 → s.portsDown.getLsbD m = false → m = k))
        ∧ ((o.paged = true ∨ s.clock < o.firstSent + s.ltoOf o) → idle .linkResolve)
        ∧ (o.paged = false → o.firstSent + s.ltoOf o ≤ s.clock →
            (o.writes = false → exec .linkResolve s = .next (s.packetLost o true))
            ∧ (o.writes = true → o.asked = false → exec .linkResolve s = .next (s.modPacket o fun p => { p with asked := true }))
            ∧ (o.writes = true → o.asked = true → s.subj.answer = .performed → exec .linkResolve s = .next (s.packetDone o s.subj.reply))
            ∧ (o.writes = true → o.asked = true → s.subj.answer = .notPerformed → exec .linkResolve s = .next (s.packetLost o false))
            ∧ (o.writes = true → o.asked = true → s.subj.answer = .silent → exec .linkResolve s
                = .next (if s.resolveDue o then s.packetLost o true else s)))
        ∧ (∀ p, p ∈ (s.packetDone o s.subj.reply).outstanding → ¬(p.key = o.key ∧ p.seqno = o.seqno)))
    -- delegated lines
    ∧ (n * 64 < hostBase → n ∉ s.delegated → exec .lineDelegate s = .next { s with delegated := n :: s.delegated })
    ∧ ((hostBase ≤ n * 64 ∨ n ∈ s.delegated) → idle .lineDelegate)
    ∧ (∃ t, exec .delegationRecall s = .next t ∧ t = { s with delegated := t.delegated } ∧ n ∉ t.delegated
        ∧ ∀ l, l ≠ n → (l ∈ t.delegated ↔ l ∈ s.delegated))
    -- loans
    ∧ (let l := s.loan n
       let sets (i : Instr) (f : Loan → Loan) : Prop := exec i s
         = .next { s with loans := s.loans.map fun l => if l.index = n then f l else l }
       sets .loanRenew (fun l => if s.renewDue l then { l with asked := s.clock } else l)
       ∧ sets .renewalAckReceive (fun l => if l.state = 1 ∨ l.state = 2 then { l with renewed := s.clock } else l)
       ∧ sets .recallReceive (fun l => if l.state = 1 then { l with state := 2, recalledAt := s.clock } else l)
       ∧ (s.lostDue l = false → idle .loanLost)
       ∧ (s.lostDue l = true → exec .loanLost s = .next (s.loseLoan n) ∧ SameMemory s (s.loseLoan n)
           ∧ ∀ m, m ∈ (s.loseLoan n).loans → m.index = n → m.state = 4)
       ∧ (l.state ≠ 2 → idle .recallMoveDone)
       ∧ (l.state = 2 → l.deadline < s.clock → s.portsDown ≠ 0 → exec .recallMoveDone s = .next (s.loseLoan n))
       ∧ (l.state = 2 → (s.clock ≤ l.deadline ∨ s.portsDown = 0) → ∃ t, exec .recallMoveDone s = .next t
           ∧ ∀ m, m ∈ t.loans → m.index = n → m.state = 3 ∧ m.released = true))
    ∧ (let sets (i : Instr) (f : Lend → Lend) : Prop := exec i s
         = .next { s with lends := s.lends.map fun l => if l.index = n then f l else l }
       sets .lenderReuse (fun l => if s.reuseDue l then { l with reusable := true } else l)
       ∧ sets .renewalReceive (fun l => if l.reusable then l else { l with renewed := s.clock, borrower := s.subj.num2 })
       ∧ sets .releasedReceive (fun l => if l.recalled then { l with reusable := true } else l))
    -- failures
    ∧ (∃ t, exec .portLinkDown s = .next t ∧ t = { s with portsDown := t.portsDown }
        ∧ ∀ k, k < 32 → t.portsDown.getLsbD k = (s.portsDown.getLsbD k || k == n % 32))
    ∧ (∃ t, exec .missedHeartbeat s = .next t
        ∧ ((∀ i, s.launchDone i = false) → (∀ p, p ∈ s.plies → p.ended = false ∨ p.finished = true) →
            (∀ l, l ∈ s.launches → l.finished = true ∨ l.gangs ≤ l.placed) → SameMemory s t) ∧ n ∈ t.deadNodes
        ∧ ∀ b, b ∈ s.subj.bytes → (∃ x, x ∈ s.contexts ∧ x.num = b.toNat) → (t.context b.toNat).mode ≠ .active)

/-- R242, R260, R401, R430 to R436: the host port: HPBUDGET takes 1,600 to 2,400 W in steps of 50 and nothing else; MRING places the
management ring; the host's writes are performed in memory and its reads return it, the host's caches then holding the lines; a
back-invalidation response performs the writes held for its line; reset and 110 °C boot the device again; heat takes tokens. Where
no rule speaks it states the model's own choice (log 8, 17, 21, 64, 69). -/
def Obligations.HostEvents : Prop :=
  ∀ (s : State),
    let n := s.subj.num
    let v := s.subj.value
    let idle (i : Instr) : Prop := exec i s = .next s
    let w := v.toNat % 2 ^ 12
    let budget := if 1600 ≤ w ∧ w ≤ 2400 ∧ w % 50 = 0 then
      { s with hpbudget := w } else s
    -- the tokens each ring carries: what heat leaves, and no more than the budget allows
    let out := min (s.tokens - s.throttle) (min 48 ((s.hpbudget - 800) / 30))
    -- registers
    exec .hpbudgetWrite s = .next budget
    ∧ (∃ t q, exec .mringWrite s = .next t ∧ SameMemory s t ∧ t.mring = v ∧ t.queue? mgmtRing = some q ∧ q.host = v.getLsbD 63
        ∧ q.base = v.toNat % 2 ^ 63 ∧ q.taken = [] ∧ q.mapped = true)
    ∧ (n / 8 * 8 = 0 → exec .hostRegWrite s = .next budget)
    ∧ (n / 8 * 8 = 8 → exec .hostRegWrite s = exec .mringWrite s)
    ∧ (0x400 = n / 8 * 8 → idle .hostRegWrite)
    ∧ (∀ k, k < 16 → n / 8 * 8 = 0x100 + 16 * k → k < s.cxlwin.length → ∃ t, exec .hostRegWrite s = .next t
        ∧ t = { s with cxlwin := t.cxlwin } ∧ (t.cxlwin.getD k 0).toNat % 2 ^ 64 = v.toNat
        ∧ (t.cxlwin.getD k 0).toNat / 2 ^ 64 = (s.cxlwin.getD k 0).toNat / 2 ^ 64)
    ∧ (∀ k, k < 16 → n / 8 * 8 = 0x200 + 32 * k → k < s.wfilt.length → ∃ t, exec .hostRegWrite s = .next t
        ∧ t = { s with wfilt := t.wfilt } ∧ (t.wfilt.getD k 0).toNat % 2 ^ 64 = v.toNat)
    -- memory
    ∧ (hostReach n s.subj.bytes.length = true → s.memOk = true → n < hostBase → n + s.subj.bytes.length ≤ hostBase →
        ∃ t, exec .hostMemWrite s = .next t ∧ (∀ j, (t.course j).core = (s.course j).core)
          ∧ (∀ k, k < s.subj.bytes.length → t.mem.get (n + k) = s.subj.bytes.getD k 0)
          ∧ ((∀ w, w ∈ s.heldWrites → ∀ k, k < s.subj.bytes.length → w.1 / 64 ≠ (n + k) / 64) →
              ∀ a, (a < n ∨ n + s.subj.bytes.length ≤ a) → t.mem.get a = s.mem.get a)
          ∧ (∀ a, t.hostMem.get a = s.hostMem.get a) ∧ s.hostClock ≤ t.hostClock)
    ∧ (hostReach n s.subj.bytes.length = false → exec .hostMemWrite s = .fault (.noMemory n))
    ∧ (n < hostBase → hostReach n s.subj.num2 = true → ∃ t, exec .hostMemRead s = .next t
        ∧ (∀ j, (t.course j).core = (s.course j).core)
        ∧ ((∀ w, w ∈ s.heldWrites → ∀ k, k < s.subj.num2 → w.1 / 64 ≠ (n + k) / 64) →
            SameMemory s t ∧ t.courses = s.courses
            ∧ (s.areas = [] → t.hostRead = (List.range s.subj.num2).map fun k => s.mem.get (n + k)))
        ∧ ∀ k, k < s.subj.num2 → (n + k) / 64 ∈ t.hostLines)
    ∧ ((hostBase ≤ n ∨ hostReach n s.subj.num2 = false) → exec .hostMemRead s = .fault (.noMemory n))
    ∧ (∃ t, exec .backInvalidateResponse s = .next t ∧ n ∉ t.hostLines ∧ (∀ x, x ∈ t.heldWrites → x.1 / 64 ≠ n)
        ∧ (∀ j, (t.course j).core = (s.course j).core)
        ∧ ((∀ x, x ∈ s.heldWrites → x.1 / 64 ≠ n) → SameMemory s t))
    ∧ (∃ t, exec .ringHeaderSnoop s = .next t ∧ SameMemory s t ∧ t.courses = s.courses
        ∧ ∀ q, s.queue? n = some q → q.mapped = true → q.inHost = true → ∃ q', t.queue? n = some q' ∧ q' = { q with ready := true })
    -- reset and heat
    ∧ (∃ t, exec .deviceReset s = .next t ∧ exec .thermalShutdown s = .next t
        ∧ t.mem = State.reset.mem ∧ t.courses = [] ∧ t.contexts = State.reset.contexts ∧ t.hostMem = s.hostMem ∧ t.lentMem = s.lentMem
        ∧ t.hpbudget = State.reset.hpbudget ∧ t.boot = 1 ∧ t.halted = false)
    ∧ s.perform .boot = .next s.bootNext
    ∧ (let t := s.bootNext
       (s.boot = 1 → (t.boot = 2 ∧ t.halted = s.halted) ∨ (t.boot = 1 ∧ t.halted = true))
       ∧ (s.boot = 2 → Config.imageAccepted (Config.imageBytes s.image) = true → t = { s with boot := 3 })
       ∧ (s.boot = 2 → Config.imageAccepted (Config.imageBytes s.image) = false → s.image = 1 → t = { s with image := 3 })
       ∧ (s.boot = 2 → Config.imageAccepted (Config.imageBytes s.image) = false → s.image ≠ 1 → t = { s with halted := true })
       ∧ (s.boot = 3 → t = { s with boot := 4, standbyOk := true })
       ∧ (s.boot = 4 → t.boot = 5 ∧ (∀ k, s.portsDown.getLsbD k = true → t.portsDown.getLsbD k = true)
           ∧ t = { s with boot := 5, portsDown := t.portsDown, stacksDown := t.stacksDown, linksDown := t.linksDown })
       ∧ (s.boot < 5 → ∀ q, s.nextPacket q = none))
    ∧ (100 < n → exec .thermalThrottle s
        = .next { s with throttle := min s.tokens (s.tokens - out + 1) })
    ∧ s.ringTokens = out
    ∧ (n < 95 → exec .thermalThrottle s = .next { s with throttle := s.throttle - 1 })
    ∧ (95 ≤ n → n ≤ 100 → idle .thermalThrottle)

/-! Commands. The packet in the packet register asks for them; it retires with the STATUS and RESULT of R400. -/

/-- R98, R301, R302, R398 to R405: LAUNCH, ARMNODE, PLYRUN and MARK of a context's ring: a well-formed launch enters the scheduler
at the end of its ring, a bad one is refused as its packet reports it; ARMNODE arms as ARM does and retires with ARM's result;
PLYRUN starts a ply that retires the packet; MARK begins only at its ring's head, behind no launch that is not fully placed, and
retires then. A retired packet's slot leaves its queue, DONE moving over it.
Where no rule speaks it states the model's own choice (log 42, 44, 54, 55, 98, 140). -/
def Obligations.ContextCommands : Prop :=
  ∀ (s : State),
    let p := s.pkt
    let refused (i : Instr) (code : Nat) : Prop := exec i s = .next (s.retirePacket s.pktQueue s.pktSlot 4 code 0)
    let done (r : State) (result : Nat) : State := r.retirePacket s.pktQueue s.pktSlot 1 result 0
    (s.ringCtx = none → refused .launch 0x12 ∧ refused .armnode 0x12 ∧ refused .plyrun 0x12)
    -- LAUNCH
    ∧ (∀ x, s.ringCtx = some x →
        let a1 := p.arg1.toNat
        let formed := s.formLaunch
          { ctx := x.num, report := .packet s.pktQueue s.pktSlot, desc := p.f0, args := p.f1, recs := p.f2, ncourse := p.arg0.toNat,
            lastn := a1 % 2 ^ 9, pin := if p.arg1.getLsbD 9 then some (a1 / 2 ^ 10) else none, prio := p.prio.toNat, sysc := p.sysc,
            tick := p.tick, queue := s.pktQueue, arrival := s.arrivalOf (some (.packet s.pktQueue s.pktSlot)), clock := s.packetClock }
        (2 ^ 15 ≤ a1 → refused .launch 1)
        ∧ (a1 < 2 ^ 15 →
            (∀ l, formed = .ok l → ∃ t, exec .launch s = .next t ∧ t.launches = s.launches ++ [l] ∧ l.ctx = x.num
              ∧ l.ncourse = p.arg0.toNat ∧ 1 ≤ l.ncourse ∧ l.ncourse ≤ 2 ^ 24 ∧ l.held = p.tick ∧ l.prio = p.prio.toNat
              ∧ l.report = .packet s.pktQueue s.pktSlot ∧ SameMemory s t ∧ t.courses = s.courses)
            ∧ (∀ e, formed = .error e → exec .launch s = .next (s.launchRefused x e))))
    -- ARMNODE, PLYRUN
    ∧ (∀ x, s.ringCtx = some x → p.arg0 = 0 → p.arg1 = 0 →
        (s.capErr x.num p.f0 2 4 128 128 = none → ∀ b, s.frontRead x.num (capBase p.f0) 128 = .ok b →
          let step := (s.frontNote x.num (capBase p.f0) 128).armNode { ctx := x.num, clk := s.packetClock } (capBase p.f0) []
          (∀ t r, step = .armed t r → exec .armnode s = .next (t.retirePacket t.pktQueue t.pktSlot 1 r 0))
          ∧ (∀ r va, step = .page (.xltf r) va → exec .armnode s = .next (s.frontPage x.num r va (.packet s.pktQueue s.pktSlot))))
        ∧ (∀ d, s.capErr x.num p.f0 2 4 128 128 = some d →
            exec .armnode s = .next (s.retirePacket s.pktQueue s.pktSlot 3 (2 ^ 8 * d) 0))
        ∧ (s.capErr x.num p.f0 2 1 64 1 = none → exec .plyrun s
            = .next (s.newPly { ctx := x.num, cluster := (s.clustersFor x.num none).headD 0, clock := s.packetClock, sysc := p.sysc,
                                report := some (.packet s.pktQueue s.pktSlot) } p.f0)))
    -- MARK
    ∧ (p.arg0 = 0 → p.arg1 = 0 → exec .mark s = .next (done s 0))
    ∧ (∀ q t l, q.num ≠ 65536 → s.packetHead q t % 256 = 4 → s.packetHead q t / 2 ^ 19 % 2 = 0 → l ∈ s.launches → l.queue = q.num →
        l.finished = false → l.placed < l.gangs → l.arrival < t.arrival → s.mayBegin q t = false)
    ∧ (p.arg0 ≠ 0 → refused .mark 0)
    ∧ (p.arg0 = 0 → p.arg1 ≠ 0 → refused .mark 1)
    -- retiring
    ∧ (∀ q n slot status result clk, s.queue? n = some q →
        (∃ x rest, q.taken = x :: rest ∧ x.slot = slot ∧ ∀ y, y ∈ rest → y.retired = false ∧ y.slot ≠ slot) →
        ∃ q', (s.retirePacket n slot status result clk).queue? n = some q' ∧ q'.taken = q.taken.tail ∧ q'.done = (q.done + 1) % 2 ^ 32)

/-- R96, R99, R106, R109, R111, R209, R250, R349, R399, R401, R402, R439: PART, CTXNEW, CTXDEL, PTROOT, TLBINV, GRANT, QREG, QUNREG,
SETP, WAYS and PUBT: each makes its change and retires DONE where its arguments are in range, and else is refused and changes
nothing but its packet's retirement. Where no rule speaks it states the model's own choice (log 17, 42, 56, 58, 59, 60, 121). -/
def Obligations.SetupCommands : Prop :=
  ∀ (s : State),
    let p := s.pkt
    let n := p.tgt.toNat
    let a0 := p.arg0.toNat
    let a1 := p.arg1.toNat
    let retires (i : Instr) (status result : Nat) : Prop := exec i s = .next (s.retirePacket s.pktQueue s.pktSlot status result 0)
    let gives (i : Instr) (r : State) : Prop := exec i s = .next (r.retirePacket s.pktQueue s.pktSlot 1 0 0)
    -- PART
    (24 ≤ n → retires .part 4 0x12)
    ∧ (n < 24 → a0 < 2 ^ 24 →
        let clusters : BitVec 24 := BitVec.ofNat 24 a0
        (s.partRefused n clusters p.arg1 = true → retires .part 4 0x13)
        ∧ (s.partRefused n clusters p.arg1 = false → gives .part { s with
            partitions := { num := n, clusters := clusters, groups := p.arg1 } :: s.partitions.filter fun q => q.num != n
            reservations := s.reservations.filter fun r => r.partition != n || clusters.getLsbD r.cluster })
        ∧ (s.partRefused n clusters p.arg1 = false → ∀ q, q ∈ s.partitions → q.num ≠ n → q.clusters &&& clusters = 0 ∧ q.groups &&& p.arg1 = 0))
    -- CTXNEW
    ∧ (64 ≤ n → retires .ctxnew 4 0x12)
    ∧ (∀ q, n < 64 → (∀ x, x ∈ s.contexts → x.num = n → x.mode = .deleted) → a0 / 2 ^ 16 < 32 →
        let tenant := a0 % 2 ^ 16
        let vbnd := if a1 = 0 then Config.vceil else a1
        vbnd ≤ Config.vceil → s.partition? (a0 / 2 ^ 16) = some q → s.validate tenant p.f0 = none → s.validate tenant p.f1 = none →
        saveAreaOk p.f0 (clusterCount q.clusters) = true → (capLen p.f1 ≠ 0 → capKind p.f1 = 5) →
        gives .ctxnew { s with
          contexts := { num := n, tenant := tenant, partition := a0 / 2 ^ 16, vbnd := vbnd, saveArea := p.f0, faultRing := p.f1 }
            :: s.contexts.filter fun c => c.num != n })
    ∧ (n < 64 → a0 / 2 ^ 16 < 32 → Config.vceil < a1 → (∀ x, x ∈ s.contexts → x.num = n → x.mode = .deleted) → retires .ctxnew 4 1)
    -- commands on a context that is not there
    ∧ (s.target false = none → retires .ptroot 4 0x12 ∧ retires .tlbinv 4 0x12 ∧ retires .qreg 4 0x12 ∧ retires .setp 4 0x12
        ∧ retires .pubt 4 0x12)
    ∧ (s.target true = none → retires .ctxdel 4 0x12)
    -- CTXDEL, PTROOT, TLBINV
    ∧ (∀ x, s.target true = some x → p.arg0 = 0 → p.arg1 = 0 → gives .ctxdel ((s.killContext x.num).freeContext x.num))
    ∧ (∀ x, s.target false = some x →
        (a0 < 2 ^ 31 → p.arg1 = 0 →
          (s.physReason x.num (a0 * 2 ^ 21) (2 ^ 21) = none → gives .ptroot (s.modCtx x.num fun c => { c with ptroot := a0 * 2 ^ 21 }))
          ∧ (s.physReason x.num (a0 * 2 ^ 21) (2 ^ 21) ≠ none → retires .ptroot 4 0x13))
        ∧ (p.arg0 = 0 → p.arg1 = 0 →
            let cs := s.ctxCourses x.num
            ((∃ i, i ∈ cs ∧ (s.course i).inFlight = true) → exec .tlbinv s = .next s.pktWait)
            ∧ ((∀ i, i ∈ cs → (s.course i).inFlight = false) →
                let r := (cs.filter fun i => !(s.course i).heldG.isEmpty || !(s.course i).heldS.isEmpty).foldl State.checkpoint s
                ((∃ i, i ∈ cs ∧ (r.course i).heldG ≠ []) → exec .tlbinv s = .next r.pktWait)
                ∧ ((∀ i, i ∈ cs → (r.course i).heldG = []) →
                    let f := r.pkt.f0
                    exec .tlbinv s = .next ({ r with
                      tlb := r.tlb.filter fun t => !(t.ctx == x.num && decide (t.page * 2 ^ t.size < capBase f + capLen f)
                        && decide (capBase f < (t.page + 1) * 2 ^ t.size)) }.retirePacket r.pktQueue r.pktSlot 1 0 0)))))
    -- GRANT
    ∧ (a0 < 2 ^ 6 → a1 < 2 ^ 16 → p.f0.toNat < 2 ^ 110 →
        (s.inFilter a1 p.f0 = false → retires .grant 4 0x14)
        ∧ (s.inFilter a1 p.f0 = true → (grantCovers p.f0 (s.grantEntry a1 a0) = true ∨ s.residents a1 = []) →
            exec .grant s = .next ({ s with
              grants := (a1, a0, p.f0) :: s.grants.filter fun e => !(e.1 == a1 && e.2.1 == a0) }.grantResume a1))
        ∧ (s.inFilter a1 p.f0 = true → grantCovers p.f0 (s.grantEntry a1 a0) = false → s.residents a1 ≠ [] →
            ∃ t, exec .grant s = .next t ∧ t.grants = s.grants
              ∧ ((∀ i, s.launchDone i = false) → (∀ p, p ∈ s.plies → p.ended = false ∨ p.finished = true) →
                  (∀ l, l ∈ s.launches → l.finished = true ∨ l.gangs ≤ l.placed) → SameMemory s t)
              ∧ t = (((s.residents a1).filter fun x => (s.context x).mode == .active).foldl (fun (r : State) x =>
                  (r.requestVacate x).modCtx x fun c => { c with byGrant := true }) s).pktWait))
    -- QREG, QUNREG
    ∧ (∀ x, s.target false = some x → s.validate x.tenant p.f0 = none → s.validate x.tenant p.f1 = none → 1 ≤ a0 % 2 ^ 8 → a0 < 2 ^ 9 →
        a1 < 2 ^ 16 → dataCap p.f0 3 = true → 128 ≤ capLen p.f0 → capBase p.f0 % 64 = 0 → (capLen p.f1 ≠ 0 → dataCap p.f1 1 = true) →
        s.queue? a1 = none → s.queuePage x.num p.f0 p.f1 = none → (∃ y, s.translate { ctx := x.num } (capBase p.f0) true = .ok y) →
        exec .qreg s = .next (s.registerQueue x.num a1 (a0 % 2 ^ 8) (p.arg0.getLsbD 8) p.f0 p.f1))
    ∧ (p.arg0 = 0 → a1 < 2 ^ 16 →
        (s.queue? a1 = none → retires .qunreg 4 1)
        ∧ (∀ q, s.queue? a1 = some q →
            (q.taken = [] → gives .qunreg { s with queues := s.queues.filter fun q => q.num != a1 }.mapWaiting)
            ∧ (q.taken ≠ [] → ∃ t, exec .qunreg s = .next t ∧ SameMemory s t ∧ ∃ q', t.queue? a1 = some q' ∧ q'.closing = true)))
    -- SETP
    ∧ (∀ x, s.target false = some x →
        (10 ≤ a0 → retires .setp 4 0)
        ∧ (a0 < 10 → setpRange x a0 a1 = false → retires .setp 4 1)
        ∧ (2 ≤ a0 → a0 < 10 → setpRange x a0 a1 = true → gives .setp (s.modCtx x.num (setpValue a0 p.arg1)))
        ∧ (a0 < 2 → setpRange x a0 a1 = true → gives .setp (((s.modCtx x.num (setpValue a0 p.arg1)).post .gateReevaluate { num := x.num }).schedule x.num))
        ∧ (∀ v, setpRange x 0 v = true ↔ 1 ≤ v ∧ v ≤ Config.vceil) ∧ (∀ v, setpRange x 3 v = true ↔ 1 ≤ v ∧ v ≤ 10000)
        ∧ (∀ v, setpRange x 4 v = true ↔ 50 ≤ v ∧ v ≤ 10000) ∧ (∀ v, setpRange x 7 v = true ↔ v = 0 ∨ (1000 ≤ v ∧ v ≤ 1000000000)))
    -- WAYS, PUBT
    ∧ (a0 < 2 ^ 16 → a1 < 2 ^ 16 → gives .ways { s with ways := (a0, BitVec.ofNat 16 a1) :: s.ways.filter fun w => w.1 != a0 })
    ∧ (∀ x, s.target false = some x → a0 < 2 ^ 8 → p.arg1 = 0 →
        ((capBase p.f0 % 65536 ≠ 0 ∨ capLen p.f0 % 65536 ≠ 0) → retires .pubt 4 2)
        ∧ (capBase p.f0 % 65536 = 0 → capLen p.f0 % 65536 = 0 → gives .pubt (s.modCtx x.num fun c =>
            { c with pub := (a0, { c.pubEntry a0 with vbase := capBase p.f0, vlen := capLen p.f0 }) :: c.pub.filter fun q => q.1 != a0 })))

/-- R297, R347, R348, R353, R356, R387 to R390, R394, R399, R412 to R415, R434, R439: the LOAN commands, PREEMPT, RESUME, FAULTANS,
GANGSW, QUERY, FWUPD and ATTEST. Where no rule speaks it states the model's own choice (log 8, 18, 19, 20, 60, 62, 117). -/
def Obligations.OperationCommands : Prop :=
  ∀ (s : State),
    let p := s.pkt
    let a0 := p.arg0.toNat
    let a1 := p.arg1.toNat
    let base := capBase p.f0
    let retires (i : Instr) (status result : Nat) : Prop := exec i s = .next (s.retirePacket s.pktQueue s.pktSlot status result 0)
    let gives (i : Instr) (r : State) : Prop := exec i s = .next (r.retirePacket s.pktQueue s.pktSlot 1 0 0)
    -- a device physical range in a group, none of it lent out
    let mine (a n : Nat) : Prop := inGroup a n = true ∧ s.lentOut a n = false
    -- a packet writes bytes there: it retires once they are performed
    let puts (i : Instr) (a : Nat) (bytes : List Byte) : Prop :=
      let line (l : Nat) : Prop := a / 64 ≤ l ∧ 64 * l < a + bytes.length
      let r := (s.writeLocs 0 (cellsAt a bytes)).1
      ((∀ l, line l → (∀ w, w ∈ s.heldWrites → w.1 / 64 ≠ l) ∧ l ∉ s.hostLines) → gives i r)
      ∧ ((∃ w, w ∈ s.heldWrites ∧ line (w.1 / 64)) → exec i s = .next s.pktWait)
      ∧ ((∀ w, w ∈ s.heldWrites → ¬line (w.1 / 64)) → (∃ l, line l ∧ l ∈ s.hostLines) → exec i s = .next r.pktWait)
    -- LOAN
    (let l := loanOf a1 p.f0
     let new : Lend := { index := a1, base := l.lbase, size := l.size, term := l.term, renewed := s.clock }
     (4096 ≤ a1 → retires .loanLend 4 1 ∧ retires .loanMap 4 1 ∧ retires .loanRecall 4 1 ∧ retires .loanEnd 4 1)
     ∧ (a1 < 4096 → loanEntryOk p.f0 = false → retires .loanLend 4 2 ∧ retires .loanMap 4 2)
     ∧ (a1 < 4096 → loanEntryOk p.f0 = true →
         (s.spaceTaken 4096 false l.lbase l.bytes = true → retires .loanLend 4 2)
         ∧ (s.spaceTaken 4096 false l.lbase l.bytes = false → (∀ m, m ∈ s.lends → m.index ≠ a1) →
             gives .loanLend { s with lends := new :: s.lends })
         ∧ ((s.loan a1).state ≠ 1 → (s.loan a1).state ≠ 2 →
             (l.inTime = false → retires .loanMap 4 0x16)
             ∧ (l.inTime = true → s.reserveSpace l = none → retires .loanMap 4 0x16)
             ∧ (∀ a, l.inTime = true → s.reserveSpace l = some a → gives .loanMap { s with
                 loans := { l with state := 1, space := a, renewed := s.clock, asked := s.clock } :: s.loans.filter fun m => m.index != a1 })))
     ∧ (a1 < 4096 →
         ((∀ m, m ∈ s.lends → m.index ≠ a1) → retires .loanRecall 4 1)
         ∧ ((∃ m, m ∈ s.lends ∧ m.index = a1) → gives .loanRecall { s with
             lends := s.lends.map fun m => if m.index = a1 then { m with recalled := true } else m })
         ∧ ((∃ m, m ∈ s.lends ∧ m.index = a1 ∧ m.reusable = true) → gives .loanEnd { s with lends := s.lends.filter fun m => m.index != a1 })
         ∧ ((∀ m, m ∈ s.lends → m.index ≠ a1) → (s.loan a1).state ≠ 2 → (∃ m, m ∈ s.loans ∧ m.index = a1) →
             gives .loanEnd { s with loans := s.loans.filter fun m => m.index != a1 })
         ∧ ((∀ m, m ∈ s.lends → m.index = a1 → m.reusable = false) → ((∃ m, m ∈ s.lends ∧ m.index = a1) ∨ (s.loan a1).state = 2
             ∨ ∀ m, m ∈ s.loans → m.index ≠ a1) → retires .loanEnd 4 1)))
    -- commands on a context that is not there
    ∧ (s.target false = none → retires .preempt 4 0x12 ∧ retires .resume 4 0x12 ∧ retires .gangsw 4 0x12 ∧ retires .faultansRetry 4 0x12
        ∧ retires .faultansResume 4 0x12 ∧ retires .faultansKill 4 0x12)
    -- PREEMPT, RESUME, GANGSW
    ∧ (∀ x, s.target false = some x →
        (p.arg0 = 0 → p.arg1 = 0 →
          (x.mode = .active → exec .preempt s = .next (s.requestVacate x.num).pktWait)
          ∧ (x.mode = .vacating → exec .preempt s = .next s.pktWait) ∧ (x.mode = .vacated → retires .preempt 1 0)
          ∧ (x.mode ≠ .vacated → retires .resume 1 0) ∧ (x.mode = .vacated → s.canResume x.num = true → gives .resume (s.resumeContext x.num))
          ∧ (x.mode = .vacated → s.canResume x.num = false → exec .resume s = .next s.pktWait))
        ∧ (a0 < 2 ^ 6 →
            ((a0 = x.num ∨ ∀ c, c ∈ s.contexts → c.num = a0 → c.mode = .lost ∨ c.mode = .deleted) → retires .gangsw 4 0)
            ∧ (a0 ≠ x.num → (∃ c, c ∈ s.contexts ∧ c.num = a0 ∧ c.mode ≠ .lost ∧ c.mode ≠ .deleted) →
                (x.tickp = 0 → retires .gangsw 4 1)
                ∧ (x.tickp ≠ 0 → (∀ g, g ∈ s.gangsws → g.outgoing ≠ x.num) → exec .gangsw s = .next { s with
                    gangsws := s.gangsws ++ [{ outgoing := x.num, incoming := a0, tick := a1, queue := s.pktQueue, slot := s.pktSlot }] }))))
    -- FAULTANS
    ∧ (∀ x, s.target false = some x →
        (s.openEntry x.num a0 = none → retires .faultansRetry 4 0 ∧ retires .faultansResume 4 0 ∧ retires .faultansKill 4 0)
        ∧ (∀ e, s.openEntry x.num a0 = some e →
            gives .faultansRetry (s.answer e 0) ∧ gives .faultansKill (s.answer e 2)
            ∧ (e.source = 0 → gives .faultansResume (s.answer e 1)) ∧ (e.source ≠ 0 → retires .faultansResume 4 1)
            -- returning from the trap
            ∧ (∀ i t, e.course = some i → i < s.courses.length → (s.course i).trapped = some t → t.info.later = false →
                let k := (s.course i).core
                (∀ r, r = (s.answer e 0).course i → r.trapped = none ∧ r.swait = none ∧ r.lwait = none ∧ r.core = k)
                ∧ (∀ r, r = (s.answer e 1).course i → r.trapped = none
                    ∧ r.core = if t.info.scalar then { k with pc := k.pc + 4 } else k.passWord))))
    -- QUERY
    ∧ (4 ≤ a0 → retires .query 4 0)
    ∧ (a0 < 4 → 2 ^ 16 ≤ a1 → retires .query 4 1)
    ∧ (a0 < 4 → a1 < 2 ^ 16 → (a0 ≠ 0 → ∃ x, x ∈ s.contexts ∧ x.num = a1 ∧ x.mode ≠ .deleted) →
        let words : List Nat := if a0 = 0 then (List.range 256).map fun k =>
            (s.l2.filter fun e => e.tenant == a1 && e.slice == k).length
          else if a0 = 1 then [(s.context a1).dropped] else if a0 = 2 then [(s.context a1).demotions.toNat] else [(s.context a1).copied]
        let bytes := words.flatMap (leBytes 4)
        (mine base bytes.length → puts .query base bytes) ∧ (¬mine base bytes.length → retires .query 4 2))
    -- FWUPD, ATTEST
    ∧ (p.arg0 = 0 → p.arg1 = 0 →
        (1 ≤ capLen p.f0 → mine base (capLen p.f0) →
          let img := s.locRead base (capLen p.f0)
          exec .fwupd s = .next (if s.standbyOk ∧ Config.imageAccepted img ∧ Config.versionSupported img s.tableVersion
            then { s with patchNext := some img, fwPacket := some (s.pktQueue, s.pktSlot) }
            else s.retirePacket s.pktQueue s.pktSlot 4 0x15 0))
        ∧ ((capLen p.f0 = 0 ∨ ¬mine base (capLen p.f0)) → retires .fwupd 4 2)
        ∧ (¬mine base 3749 → retires .attest 4 2)
        ∧ (mine base 3749 →
            let r := s.report (s.locRead base 32)
            puts .attest (base + 64) (r ++ (List.range 3309).map (Config.signByte r))))

/-! Fetching, decoding and the whole machine. -/

/-- R22, R34, R61, R62, R396: a step in which one thing may happen does that: a course that issues a scalar word executes the
instruction its four bytes at the scalar PC decode to, one that issues a lane word the instruction its twelve bytes at the next
released index decode to for its allocation, a queue whose packet begins the command it decodes to, and an event its own meaning; an
illegal word traps with ILLS or ILLL and its detail; a word issued leaves its course Running or Waiting. The advance of logical
clocks comes first once it is due; of several other things a step does one, and time passes in every step. Where no rule speaks it
states the model's own choice (log 4, 7). -/
def Obligations.StepRunsDecoded : Prop :=
  ∀ (s : State),
    (∀ n b, let r : State := { s with cur := n, lastScalar := issuedAt s.lastScalar (s.course n).place n }
      let c := r.me
      let va := capBase c.scode + c.core.pc
      c.core.pc + 4 ≤ capLen c.scode → (capPerm c.scode &&& 8 ≠ 0 ∨ r.leavesDevice c.who va 4 = false) → r.badVA c.who va 4 = false →
      r.readVA c.who va 4 = .ok b →
      (∀ i, decodeScalar (leNat b) = .ok i → s.perform (.scalar n) = settleOut n true (exec i (r.noteHome c.who va 4)))
      ∧ (∀ d, decodeScalar (leNat b) = .error (.ills d) →
          s.perform (.scalar n) = .next ((r.scalarStop (.trap { cause := 1, detail := d })).settle n true)))
    ∧ (∀ n b, let r : State := { s with cur := n, lastLane := issuedAt s.lastLane (s.course n).place n }
      let c := r.me
      let va := capBase c.lcode + 12 * c.core.lanePc
      12 * c.core.lanePc + 12 ≤ capLen c.lcode → (capPerm c.lcode &&& 8 ≠ 0 ∨ r.leavesDevice c.who va 12 = false) →
      r.badVA c.who va 12 = false → r.readVA c.who va 12 = .ok b →
      (∀ i, decodeLane c.regs (leNat b) = .ok i → s.perform (.lane n) = settleOut n false (exec i (r.noteHome c.who va 12)))
      ∧ (∀ d, decodeLane c.regs (leNat b) = .error (.illl d) →
          s.perform (.lane n) = .next ((r.stop (.trap { cause := 2, detail := d })).settle n false)))
    -- the fetch is a read: it changes no course and no byte
    ∧ (∀ w va n, SameMemory s (s.noteHome w va n) ∧ (s.noteHome w va n).courses = s.courses ∧ (s.noteHome w va n).cur = s.cur)
    ∧ (∀ n scalar o t, settleOut n scalar o = .next t → ∃ u, o = .next u ∧ SameMemory u t ∧ ∀ j, (t.course j).core = (u.course j).core)
    ∧ (∀ n i r, s.beginPacket n = .command i r → s.perform (.packet n) = exec i r)
    ∧ (∀ n i r, s.beginPacket n = .command i r → ∃ q slot b, s.queue? n = some q ∧ s.nextPacket q = some slot
        ∧ (s.modQueue n fun q => { q with taken := q.taken.map fun t => if t.slot == slot then { t with begun := true } else t }).ringRead q
            (packetOff q slot) 64 = .ok b
        ∧ decodePacket (leNat b) = .ok (i, r.pkt))
    ∧ (∀ i subj, s.perform (.event i subj) = exec i { s with subj := subj })
    ∧ (∀ i subj rest, s.agenda = .event i subj :: rest → s.perform .due = exec i { s with agenda := rest, subj := subj })
    ∧ (s.raiseDue = true → step s = tickOut (exec .lclockAdvance { s with subj := {} }))
    ∧ (∀ a, s.raiseDue = false → s.actions = [a] → step s = tickOut (s.perform a))
    ∧ (s.raiseDue = false → s.actions ≠ [] → ∃ a, a ∈ s.actions ∧ step s = tickOut (s.perform a))
    ∧ (s.raiseDue = false → s.actions = [] → step s = .next s.tick)
    ∧ (∀ o t, tickOut o = .next t → ∃ u, o = .next u ∧ SameMemory u t ∧ u.clock ≤ t.clock ∧ t.free = u.free + 1
        ∧ ∀ j, (t.course j).core = (u.course j).core)

/-- R35 to R42, R398, R399: words written out from their encodings decode to the instructions they stand for. -/
def Obligations.DecodeSanity : Prop :=
  -- add x3, x1, x2 and addi x5, x6, -1
  decodeScalar 0x00611000 = .ok (.add 3 1 2)
  ∧ decodeScalar 0x04A6FFFF = .ok (.addi 5 6 0xFFFF)
  ∧ decodeScalar 0x00611016 = .error (.ills 1)
  -- enq.i32 [a5], v3 and deq.i32 v4, [a5] of R270, and enqt.i32.x2 [a5], v0 of R271
  ∧ (∃ w, decodeLane 192 0x00A8400FC7C7C40001400000 = .ok (.enq w) ∧ w.d = 3 ∧ w.sel = 5 ∧ w.mod = 0)
  ∧ (∃ w, decodeLane 192 0x00A88013C7C7C40001400000 = .ok (.deq w) ∧ w.d = 4 ∧ w.sel = 5)
  ∧ (∃ w, decodeLane 192 0x00A8C003C7C7C40001400001 = .ok (.enqt w) ∧ w.d = 0 ∧ w.mod = 1)
  ∧ decodeLane 192 (3 * 2 ^ 94) = .error (.illl 1)
  -- a MARK packet with FENCE, and an unassigned OPC
  ∧ (∃ p, decodePacket 0x80004 = .ok (.mark, p) ∧ p.fence = true)
  ∧ decodePacket 0xFF = .error (.badPacket 0)

/-- R35 to R42, R58, R59, R398, R399: the decoder reads every well-formed instruction's word as that instruction, with every
field, and no word of 32 or 96 bits stands for an instruction but the one the encoder gives; a packet that R399 admits decodes
to its command and fields. -/
def Obligations.DecodeEncode : Prop :=
  (∀ (i : Instr) (regs : Nat), i.wf regs = true →
    (∀ w, encode i = .scalar w → w < 2 ^ 32 ∧ decodeScalar w = .ok i)
    ∧ (∀ w, encode i = .lane w → w < 2 ^ 96 ∧ decodeLane regs w = .ok i))
  ∧ (∀ (i : Instr) (w : Nat), w < 2 ^ 32 → decodeScalar w = .ok i → encode i = .scalar w)
  ∧ (∀ (i : Instr) (regs w : Nat), w < 2 ^ 96 → decodeLane regs w = .ok i → encode i = .lane w ∧ i.wf regs = true)
  ∧ ∀ (i : Instr) (p : Packet) (w : Nat) (r : Enc.PktRule), encodePacket i p = some w → Enc.pktRule (w % 256) p = .ok r → r.cmd = i →
      Enc.pktFault r p = none → decodePacket w = .ok (i, p)

/-- R20, R399, R430: at reset no partition, context, launch or course exists, the package budget is 2,000 W, and the memories have
their form; a course a launch places starts with its index in x1, the team key 0 in x2, its capabilities in a0 and a1, every other
register zero, and one predicate entry, the mask of its launched threads. Where no rule speaks it states the model's own choice (log
9, 10, 45). -/
def Obligations.ResetAndStart : Prop :=
  State.reset.memOk = true ∧ State.reset.partitions = [] ∧ State.reset.contexts = [] ∧ State.reset.launches = []
  ∧ State.reset.courses = [] ∧ State.reset.hpbudget = 2000 ∧ State.reset.clock = 0 ∧ State.reset.mring = 0
  ∧ ∀ (l : Launch) (i k place team clock : Nat),
      let c := l.course i k place team clock
      let n := if k + 1 = l.ncourse then l.lastn else 256
      c.core.x 1 = BitVec.ofNat 32 k ∧ (∀ j, j ≠ 1 → c.core.x j = 0)
      ∧ c.core.cap 0 = startArgs l.args ∧ c.core.cap 1 = recordArea l.recs k ∧ (∀ j, 2 ≤ j → c.core.cap j = 0)
      ∧ (∀ v t, c.core.elem v t = 0) ∧ c.core.pc = 0 ∧ c.core.rp = 0 ∧ c.core.pending = 0
      ∧ c.core.preds = [c.core.live] ∧ (∀ t, t < 256 → c.core.live.getLsbD t = decide (t < n))
      ∧ c.phase = .placed ∧ c.ckpt = c.core ∧ c.heldG = [] ∧ c.heldS = []

/-- R219, R242: every step keeps the three memories in their canonical form: addresses rise strictly and no listed byte is the one
an unlisted address reads as, so that equal memories are equal lists. Where no rule speaks it states the model's own choice (log
10). -/
def Obligations.StepKeepsMemoryForm : Prop :=
  ∀ (s t : State), s.memOk = true → step s = .next t → t.memOk = true
end

