-- ==== Sys2Proof/Laws/Memory.lean ====
section
/-! SUPPORT. The laws of memory: reading after writing, and the canonical form every write keeps. -/

namespace Sys2Proof.Machine

theorem Memory.wfFrom_mono (m : Memory) (lo lo' : Nat) (hl : lo' ≤ lo) (h : Memory.wfFrom lo m = true) :
    Memory.wfFrom lo' m = true := by
  cases m with
  | nil => rfl
  | cons c m =>
    simp only [Memory.wfFrom, Bool.and_eq_true, decide_eq_true_eq] at h ⊢
    exact ⟨⟨Nat.le_trans hl h.1.1, h.1.2⟩, h.2⟩

theorem Memory.get_below (m : Memory) (lo a : Nat) (h : Memory.wfFrom lo m = true) (ha : a < lo) :
    Memory.get m a = Memory.blank := by
  induction m generalizing lo with
  | nil => rfl
  | cons c m ih =>
    simp only [Memory.wfFrom, Bool.and_eq_true, decide_eq_true_eq] at h
    rw [Memory.get, if_neg (by omega)]
    exact ih (c.1 + 1) h.2 (by omega)

theorem Memory.set_wfFrom (m : Memory) (lo a : Nat) (b : Byte) (h : Memory.wfFrom lo m = true) (ha : lo ≤ a) :
    Memory.wfFrom lo (Memory.set m a b) = true := by
  induction m generalizing lo with
  | nil =>
    unfold Memory.set
    split
    · rfl
    · next hb => simp [Memory.wfFrom, ha, hb]
  | cons c m ih =>
    obtain ⟨k, v⟩ := c
    have hc := h
    simp only [Memory.wfFrom, Bool.and_eq_true, decide_eq_true_eq] at hc
    unfold Memory.set
    split
    · split
      · exact h
      · next hlt hb => simp [Memory.wfFrom, ha, hb, hc.1.2, hc.2]; omega
    · split
      · next hlt he =>
        subst he
        split
        · exact Memory.wfFrom_mono m _ _ (by omega) hc.2
        · next hb => simp [Memory.wfFrom, ha, hb, hc.2]
      · next hlt he =>
        simp only [Memory.wfFrom, Bool.and_eq_true, decide_eq_true_eq]
        exact ⟨hc.1, ih (k + 1) hc.2 (by omega)⟩

/-- A write keeps the canonical form. -/
theorem Memory.set_wf (m : Memory) (a : Nat) (b : Byte) (h : m.wf = true) : (m.set a b).wf = true :=
  Memory.set_wfFrom m 0 a b h (Nat.zero_le a)

/-- Several writes keep the canonical form. -/
theorem Memory.setMany_wf (l : List Host.Cell) (m : Memory) (h : m.wf = true) : (m.setMany l).wf = true := by
  induction l generalizing m with
  | nil => exact h
  | cons c l ih => exact ih _ (Memory.set_wf m c.1 c.2 h)

theorem Memory.get_set_from (m : Memory) (lo a x : Nat) (b : Byte) (h : Memory.wfFrom lo m = true) :
    Memory.get (Memory.set m a b) x = if x = a then b else Memory.get m x := by
  induction m generalizing lo with
  | nil =>
    unfold Memory.set
    split
    · next hb => split <;> simp [Memory.get, hb]
    · simp [Memory.get, eq_comm]
  | cons c m ih =>
    obtain ⟨k, v⟩ := c
    simp only [Memory.wfFrom, Bool.and_eq_true, decide_eq_true_eq] at h
    have below (y : Nat) (hy : y ≤ k) : Memory.get m y = Memory.blank := Memory.get_below m _ y h.2 (by omega)
    unfold Memory.set
    split
    · next hlt =>
      split
      · next hb =>
        split
        · next hx => rw [hx, hb, Memory.get, if_neg (by omega), below a (by omega)]
        · rfl
      · simp only [Memory.get, eq_comm]
    · split
      · next hlt he =>
        subst he
        split
        · next hb =>
          split
          · next hx => rw [hx, hb]; exact below a (by omega)
          · next hx => rw [Memory.get, if_neg (fun e => hx e.symm)]
        · next hb =>
          simp only [Memory.get]
          split
          · next e => simp [e.symm]
          · next e => rw [if_neg (fun e' => e e'.symm)]
      · next hlt he =>
        simp only [Memory.get, ih (k + 1) h.2]
        split
        · next e => rw [if_neg (by omega)]
        · rfl

/-- A read after a write: the written byte at its address, the old byte elsewhere. -/
theorem Memory.get_set (m : Memory) (a x : Nat) (b : Byte) (h : m.wf = true) :
    (m.set a b).get x = if x = a then b else m.get x := Memory.get_set_from m 0 a x b h

theorem Memory.readFrom_get (n : Nat) (m : Memory) (a lo : Nat) (h : Memory.wfFrom lo m = true) (ha : a ≤ lo) :
    Memory.readFrom m a n = (List.range n).map fun i => m.get (a + i) := by
  induction n generalizing m a lo with
  | zero => cases m <;> rfl
  | succ n ih =>
    have shift (f : Nat → Byte) : (List.range (n + 1)).map f = f 0 :: (List.range n).map fun i => f (i + 1) := by
      rw [List.range_succ_eq_map, List.map_cons, List.map_map]; rfl
    rw [shift]
    cases m with
    | nil =>
      rw [Memory.readFrom, ih [] (a + 1) (a + 1) rfl (Nat.le_refl _)]
      rfl
    | cons c m =>
      obtain ⟨k, v⟩ := c
      simp only [Memory.wfFrom, Bool.and_eq_true, decide_eq_true_eq] at h
      rw [Memory.readFrom]
      by_cases hk : k = a
      · subst hk
        rw [if_pos rfl, ih m (k + 1) (k + 1) h.2 (Nat.le_refl _)]
        simp only [Nat.add_zero, Memory.get, if_pos]
        congr 1
        apply List.map_congr_left
        intro i _
        rw [if_neg (by omega), Nat.add_assoc, Nat.add_comm 1]
      · rw [if_neg hk, ih ((k, v) :: m) (a + 1) k (by simp [Memory.wfFrom, h.1.2, h.2]) (by omega)]
        simp only [Nat.add_zero, Memory.get, if_neg hk]
        congr 1
        · exact (Memory.get_below m _ a h.2 (by omega)).symm
        · apply List.map_congr_left
          intro i _
          rw [Nat.add_assoc, Nat.add_comm 1]

theorem Memory.dropWhile_get (m : Memory) (lo a : Nat) (h : Memory.wfFrom lo m = true) :
    Memory.wfFrom a (m.dropWhile fun c => c.1 < a) = true
      ∧ ∀ x, a ≤ x → Memory.get (m.dropWhile fun c => c.1 < a) x = m.get x := by
  induction m generalizing lo with
  | nil => exact ⟨rfl, fun _ _ => rfl⟩
  | cons c m ih =>
    obtain ⟨k, v⟩ := c
    have hc := h
    simp only [Memory.wfFrom, Bool.and_eq_true, decide_eq_true_eq] at hc
    rw [List.dropWhile_cons]
    by_cases hk : k < a
    · simp only [hk, decide_true, if_true]
      refine ⟨(ih _ hc.2).1, fun x hx => ?_⟩
      rw [(ih _ hc.2).2 x hx, Memory.get, if_neg (by omega)]
    · simp only [hk, decide_false]
      exact ⟨by simp [Memory.wfFrom, hc.1.2, hc.2]; omega, fun _ _ => rfl⟩

/-- In a canonical memory the n bytes from an address are the bytes at the n addresses. -/
theorem Memory.read_get (m : Memory) (a n : Nat) (h : m.wf = true) :
    m.read a n = (List.range n).map fun i => m.get (a + i) := by
  have d := Memory.dropWhile_get m 0 a h
  refine (Memory.readFrom_get n _ a a d.1 (Nat.le_refl a)).trans ?_
  apply List.map_congr_left
  intro i _
  exact d.2 _ (Nat.le_add_right a i)

end Sys2Proof.Machine
end

