-- ==== Sys2Proof/Laws/State.lean ====
section
/-! SUPPORT. The small lemmas of the state: what each elementary update changes and what it leaves alone. -/

namespace Sys2Proof.Machine

/-! Reading back what an update of a course wrote. -/

@[simp] theorem modMe_eq (s : State) (f : Course → Course) : s.modMe f = s.modCourse s.cur f := rfl

@[simp] theorem modCore_eq (s : State) (f : Core → Core) :
    s.modCore f = s.modCourse s.cur fun c => { c with core := f c.core } := rfl

@[simp] theorem modCourse_length (s : State) (i : Nat) (f : Course → Course) :
    (s.modCourse i f).courses.length = s.courses.length := by simp [State.modCourse]

theorem modCourse_same (s : State) (i : Nat) (f : Course → Course) (h : i < s.courses.length) :
    (s.modCourse i f).course i = f (s.course i) := by
  simp [State.course, State.modCourse, List.getD, h]

theorem modCourse_other (s : State) (i j : Nat) (f : Course → Course) (h : j ≠ i) :
    (s.modCourse i f).course j = s.course j := by
  simp [State.course, State.modCourse, List.getD, h.symm]

theorem modCourse_course (s : State) (i j : Nat) (f : Course → Course) (h : i < s.courses.length) :
    (s.modCourse i f).course j = if j = i then f (s.course i) else s.course j := by
  split
  · next e => rw [e, modCourse_same s i f h]
  · next e => exact modCourse_other s i j f e

theorem modCourse_me (s : State) (f : Course → Course) (h : s.cur < s.courses.length) :
    (s.modCourse s.cur f).me = f s.me := modCourse_same s s.cur f h

/-! What State.modCourse leaves alone: every field but courses. -/

section
variable (s : State) (i : Nat) (f : Course → Course)
@[simp] theorem modCourse_clock : (s.modCourse i f).clock = s.clock := rfl
@[simp] theorem modCourse_agenda : (s.modCourse i f).agenda = s.agenda := rfl
@[simp] theorem modCourse_subj : (s.modCourse i f).subj = s.subj := rfl
@[simp] theorem modCourse_pkt : (s.modCourse i f).pkt = s.pkt := rfl
@[simp] theorem modCourse_pktQueue : (s.modCourse i f).pktQueue = s.pktQueue := rfl
@[simp] theorem modCourse_pktSlot : (s.modCourse i f).pktSlot = s.pktSlot := rfl
@[simp] theorem modCourse_cur : (s.modCourse i f).cur = s.cur := rfl
@[simp] theorem modCourse_lastScalar : (s.modCourse i f).lastScalar = s.lastScalar := rfl
@[simp] theorem modCourse_lastLane : (s.modCourse i f).lastLane = s.lastLane := rfl
@[simp] theorem modCourse_swiftAt : (s.modCourse i f).swiftAt = s.swiftAt := rfl
@[simp] theorem modCourse_hostClock : (s.modCourse i f).hostClock = s.hostClock := rfl
@[simp] theorem modCourse_raisedAt : (s.modCourse i f).raisedAt = s.raisedAt := rfl
@[simp] theorem modCourse_sentReply : (s.modCourse i f).sentReply = s.sentReply := rfl
@[simp] theorem modCourse_free : (s.modCourse i f).free = s.free := rfl
@[simp] theorem modCourse_teams : (s.modCourse i f).teams = s.teams := rfl
@[simp] theorem modCourse_contexts : (s.modCourse i f).contexts = s.contexts := rfl
@[simp] theorem modCourse_launches : (s.modCourse i f).launches = s.launches := rfl
@[simp] theorem modCourse_partitions : (s.modCourse i f).partitions = s.partitions := rfl
@[simp] theorem modCourse_grants : (s.modCourse i f).grants = s.grants := rfl
@[simp] theorem modCourse_splits : (s.modCourse i f).splits = s.splits := rfl
@[simp] theorem modCourse_reservations : (s.modCourse i f).reservations = s.reservations := rfl
@[simp] theorem modCourse_mem : (s.modCourse i f).mem = s.mem := rfl
@[simp] theorem modCourse_hostMem : (s.modCourse i f).hostMem = s.hostMem := rfl
@[simp] theorem modCourse_lentMem : (s.modCourse i f).lentMem = s.lentMem := rfl
@[simp] theorem modCourse_badMem : (s.modCourse i f).badMem = s.badMem := rfl
@[simp] theorem modCourse_areas : (s.modCourse i f).areas = s.areas := rfl
@[simp] theorem modCourse_stamps : (s.modCourse i f).stamps = s.stamps := rfl
@[simp] theorem modCourse_writes : (s.modCourse i f).writes = s.writes := rfl
@[simp] theorem modCourse_sliceBase : (s.modCourse i f).sliceBase = s.sliceBase := rfl
@[simp] theorem modCourse_l1 : (s.modCourse i f).l1 = s.l1 := rfl
@[simp] theorem modCourse_tlb : (s.modCourse i f).tlb = s.tlb := rfl
@[simp] theorem modCourse_l2 : (s.modCourse i f).l2 = s.l2 := rfl
@[simp] theorem modCourse_remote : (s.modCourse i f).remote = s.remote := rfl
@[simp] theorem modCourse_holds : (s.modCourse i f).holds = s.holds := rfl
@[simp] theorem modCourse_delegated : (s.modCourse i f).delegated = s.delegated := rfl
@[simp] theorem modCourse_ways : (s.modCourse i f).ways = s.ways := rfl
@[simp] theorem modCourse_spools : (s.modCourse i f).spools = s.spools := rfl
@[simp] theorem modCourse_jobs : (s.modCourse i f).jobs = s.jobs := rfl
@[simp] theorem modCourse_tileOps : (s.modCourse i f).tileOps = s.tileOps := rfl
@[simp] theorem modCourse_nodes : (s.modCourse i f).nodes = s.nodes := rfl
@[simp] theorem modCourse_edges : (s.modCourse i f).edges = s.edges := rfl
@[simp] theorem modCourse_plies : (s.modCourse i f).plies = s.plies := rfl
@[simp] theorem modCourse_queues : (s.modCourse i f).queues = s.queues := rfl
@[simp] theorem modCourse_posted : (s.modCourse i f).posted = s.posted := rfl
@[simp] theorem modCourse_posts : (s.modCourse i f).posts = s.posts := rfl
@[simp] theorem modCourse_gangsws : (s.modCourse i f).gangsws = s.gangsws := rfl
@[simp] theorem modCourse_loans : (s.modCourse i f).loans = s.loans := rfl
@[simp] theorem modCourse_demotions : (s.modCourse i f).demotions = s.demotions := rfl
@[simp] theorem modCourse_lends : (s.modCourse i f).lends = s.lends := rfl
@[simp] theorem modCourse_node : (s.modCourse i f).node = s.node := rfl
@[simp] theorem modCourse_routes : (s.modCourse i f).routes = s.routes := rfl
@[simp] theorem modCourse_portsDown : (s.modCourse i f).portsDown = s.portsDown := rfl
@[simp] theorem modCourse_stacksDown : (s.modCourse i f).stacksDown = s.stacksDown := rfl
@[simp] theorem modCourse_linksDown : (s.modCourse i f).linksDown = s.linksDown := rfl
@[simp] theorem modCourse_image : (s.modCourse i f).image = s.image := rfl
@[simp] theorem modCourse_halted : (s.modCourse i f).halted = s.halted := rfl
@[simp] theorem modCourse_arrivals : (s.modCourse i f).arrivals = s.arrivals := rfl
@[simp] theorem modCourse_floors : (s.modCourse i f).floors = s.floors := rfl
@[simp] theorem modCourse_heldFor : (s.modCourse i f).heldFor = s.heldFor := rfl
@[simp] theorem modCourse_seqnos : (s.modCourse i f).seqnos = s.seqnos := rfl
@[simp] theorem modCourse_outstanding : (s.modCourse i f).outstanding = s.outstanding := rfl
@[simp] theorem modCourse_performed : (s.modCourse i f).performed = s.performed := rfl
@[simp] theorem modCourse_tokens : (s.modCourse i f).tokens = s.tokens := rfl
@[simp] theorem modCourse_throttle : (s.modCourse i f).throttle = s.throttle := rfl
@[simp] theorem modCourse_hpbudget : (s.modCourse i f).hpbudget = s.hpbudget := rfl
@[simp] theorem modCourse_mring : (s.modCourse i f).mring = s.mring := rfl
@[simp] theorem modCourse_cxlwin : (s.modCourse i f).cxlwin = s.cxlwin := rfl
@[simp] theorem modCourse_wfilt : (s.modCourse i f).wfilt = s.wfilt := rfl
@[simp] theorem modCourse_hostRegs : (s.modCourse i f).hostRegs = s.hostRegs := rfl
@[simp] theorem modCourse_boot : (s.modCourse i f).boot = s.boot := rfl
@[simp] theorem modCourse_needle : (s.modCourse i f).needle = s.needle := rfl
@[simp] theorem modCourse_standbyOk : (s.modCourse i f).standbyOk = s.standbyOk := rfl
@[simp] theorem modCourse_tableVersion : (s.modCourse i f).tableVersion = s.tableVersion := rfl
@[simp] theorem modCourse_patchNext : (s.modCourse i f).patchNext = s.patchNext := rfl
@[simp] theorem modCourse_patch : (s.modCourse i f).patch = s.patch := rfl
@[simp] theorem modCourse_fwPacket : (s.modCourse i f).fwPacket = s.fwPacket := rfl
@[simp] theorem modCourse_heldWrites : (s.modCourse i f).heldWrites = s.heldWrites := rfl
@[simp] theorem modCourse_hostLines : (s.modCourse i f).hostLines = s.hostLines := rfl
@[simp] theorem modCourse_hostRead : (s.modCourse i f).hostRead = s.hostRead := rfl
@[simp] theorem modCourse_deadNodes : (s.modCourse i f).deadNodes = s.deadNodes := rfl
end

/-! What State.modTeam leaves alone: every field but teams. -/

section
variable (s : State) (i : Nat) (f : Team → Team)
@[simp] theorem modTeam_clock : (s.modTeam i f).clock = s.clock := rfl
@[simp] theorem modTeam_agenda : (s.modTeam i f).agenda = s.agenda := rfl
@[simp] theorem modTeam_subj : (s.modTeam i f).subj = s.subj := rfl
@[simp] theorem modTeam_pkt : (s.modTeam i f).pkt = s.pkt := rfl
@[simp] theorem modTeam_pktQueue : (s.modTeam i f).pktQueue = s.pktQueue := rfl
@[simp] theorem modTeam_pktSlot : (s.modTeam i f).pktSlot = s.pktSlot := rfl
@[simp] theorem modTeam_cur : (s.modTeam i f).cur = s.cur := rfl
@[simp] theorem modTeam_lastScalar : (s.modTeam i f).lastScalar = s.lastScalar := rfl
@[simp] theorem modTeam_lastLane : (s.modTeam i f).lastLane = s.lastLane := rfl
@[simp] theorem modTeam_swiftAt : (s.modTeam i f).swiftAt = s.swiftAt := rfl
@[simp] theorem modTeam_hostClock : (s.modTeam i f).hostClock = s.hostClock := rfl
@[simp] theorem modTeam_raisedAt : (s.modTeam i f).raisedAt = s.raisedAt := rfl
@[simp] theorem modTeam_sentReply : (s.modTeam i f).sentReply = s.sentReply := rfl
@[simp] theorem modTeam_free : (s.modTeam i f).free = s.free := rfl
@[simp] theorem modTeam_courses : (s.modTeam i f).courses = s.courses := rfl
@[simp] theorem modTeam_contexts : (s.modTeam i f).contexts = s.contexts := rfl
@[simp] theorem modTeam_launches : (s.modTeam i f).launches = s.launches := rfl
@[simp] theorem modTeam_partitions : (s.modTeam i f).partitions = s.partitions := rfl
@[simp] theorem modTeam_grants : (s.modTeam i f).grants = s.grants := rfl
@[simp] theorem modTeam_splits : (s.modTeam i f).splits = s.splits := rfl
@[simp] theorem modTeam_reservations : (s.modTeam i f).reservations = s.reservations := rfl
@[simp] theorem modTeam_mem : (s.modTeam i f).mem = s.mem := rfl
@[simp] theorem modTeam_hostMem : (s.modTeam i f).hostMem = s.hostMem := rfl
@[simp] theorem modTeam_lentMem : (s.modTeam i f).lentMem = s.lentMem := rfl
@[simp] theorem modTeam_badMem : (s.modTeam i f).badMem = s.badMem := rfl
@[simp] theorem modTeam_areas : (s.modTeam i f).areas = s.areas := rfl
@[simp] theorem modTeam_stamps : (s.modTeam i f).stamps = s.stamps := rfl
@[simp] theorem modTeam_writes : (s.modTeam i f).writes = s.writes := rfl
@[simp] theorem modTeam_sliceBase : (s.modTeam i f).sliceBase = s.sliceBase := rfl
@[simp] theorem modTeam_l1 : (s.modTeam i f).l1 = s.l1 := rfl
@[simp] theorem modTeam_tlb : (s.modTeam i f).tlb = s.tlb := rfl
@[simp] theorem modTeam_l2 : (s.modTeam i f).l2 = s.l2 := rfl
@[simp] theorem modTeam_remote : (s.modTeam i f).remote = s.remote := rfl
@[simp] theorem modTeam_holds : (s.modTeam i f).holds = s.holds := rfl
@[simp] theorem modTeam_delegated : (s.modTeam i f).delegated = s.delegated := rfl
@[simp] theorem modTeam_ways : (s.modTeam i f).ways = s.ways := rfl
@[simp] theorem modTeam_spools : (s.modTeam i f).spools = s.spools := rfl
@[simp] theorem modTeam_jobs : (s.modTeam i f).jobs = s.jobs := rfl
@[simp] theorem modTeam_tileOps : (s.modTeam i f).tileOps = s.tileOps := rfl
@[simp] theorem modTeam_nodes : (s.modTeam i f).nodes = s.nodes := rfl
@[simp] theorem modTeam_edges : (s.modTeam i f).edges = s.edges := rfl
@[simp] theorem modTeam_plies : (s.modTeam i f).plies = s.plies := rfl
@[simp] theorem modTeam_queues : (s.modTeam i f).queues = s.queues := rfl
@[simp] theorem modTeam_posted : (s.modTeam i f).posted = s.posted := rfl
@[simp] theorem modTeam_posts : (s.modTeam i f).posts = s.posts := rfl
@[simp] theorem modTeam_gangsws : (s.modTeam i f).gangsws = s.gangsws := rfl
@[simp] theorem modTeam_loans : (s.modTeam i f).loans = s.loans := rfl
@[simp] theorem modTeam_demotions : (s.modTeam i f).demotions = s.demotions := rfl
@[simp] theorem modTeam_lends : (s.modTeam i f).lends = s.lends := rfl
@[simp] theorem modTeam_node : (s.modTeam i f).node = s.node := rfl
@[simp] theorem modTeam_routes : (s.modTeam i f).routes = s.routes := rfl
@[simp] theorem modTeam_portsDown : (s.modTeam i f).portsDown = s.portsDown := rfl
@[simp] theorem modTeam_stacksDown : (s.modTeam i f).stacksDown = s.stacksDown := rfl
@[simp] theorem modTeam_linksDown : (s.modTeam i f).linksDown = s.linksDown := rfl
@[simp] theorem modTeam_image : (s.modTeam i f).image = s.image := rfl
@[simp] theorem modTeam_halted : (s.modTeam i f).halted = s.halted := rfl
@[simp] theorem modTeam_arrivals : (s.modTeam i f).arrivals = s.arrivals := rfl
@[simp] theorem modTeam_floors : (s.modTeam i f).floors = s.floors := rfl
@[simp] theorem modTeam_heldFor : (s.modTeam i f).heldFor = s.heldFor := rfl
@[simp] theorem modTeam_seqnos : (s.modTeam i f).seqnos = s.seqnos := rfl
@[simp] theorem modTeam_outstanding : (s.modTeam i f).outstanding = s.outstanding := rfl
@[simp] theorem modTeam_performed : (s.modTeam i f).performed = s.performed := rfl
@[simp] theorem modTeam_tokens : (s.modTeam i f).tokens = s.tokens := rfl
@[simp] theorem modTeam_throttle : (s.modTeam i f).throttle = s.throttle := rfl
@[simp] theorem modTeam_hpbudget : (s.modTeam i f).hpbudget = s.hpbudget := rfl
@[simp] theorem modTeam_mring : (s.modTeam i f).mring = s.mring := rfl
@[simp] theorem modTeam_cxlwin : (s.modTeam i f).cxlwin = s.cxlwin := rfl
@[simp] theorem modTeam_wfilt : (s.modTeam i f).wfilt = s.wfilt := rfl
@[simp] theorem modTeam_hostRegs : (s.modTeam i f).hostRegs = s.hostRegs := rfl
@[simp] theorem modTeam_boot : (s.modTeam i f).boot = s.boot := rfl
@[simp] theorem modTeam_needle : (s.modTeam i f).needle = s.needle := rfl
@[simp] theorem modTeam_standbyOk : (s.modTeam i f).standbyOk = s.standbyOk := rfl
@[simp] theorem modTeam_tableVersion : (s.modTeam i f).tableVersion = s.tableVersion := rfl
@[simp] theorem modTeam_patchNext : (s.modTeam i f).patchNext = s.patchNext := rfl
@[simp] theorem modTeam_patch : (s.modTeam i f).patch = s.patch := rfl
@[simp] theorem modTeam_fwPacket : (s.modTeam i f).fwPacket = s.fwPacket := rfl
@[simp] theorem modTeam_heldWrites : (s.modTeam i f).heldWrites = s.heldWrites := rfl
@[simp] theorem modTeam_hostLines : (s.modTeam i f).hostLines = s.hostLines := rfl
@[simp] theorem modTeam_hostRead : (s.modTeam i f).hostRead = s.hostRead := rfl
@[simp] theorem modTeam_deadNodes : (s.modTeam i f).deadNodes = s.deadNodes := rfl
end

/-! What State.modCtx leaves alone: every field but contexts. -/

section
variable (s : State) (i : Nat) (f : Context → Context)
@[simp] theorem modCtx_clock : (s.modCtx i f).clock = s.clock := rfl
@[simp] theorem modCtx_agenda : (s.modCtx i f).agenda = s.agenda := rfl
@[simp] theorem modCtx_subj : (s.modCtx i f).subj = s.subj := rfl
@[simp] theorem modCtx_pkt : (s.modCtx i f).pkt = s.pkt := rfl
@[simp] theorem modCtx_pktQueue : (s.modCtx i f).pktQueue = s.pktQueue := rfl
@[simp] theorem modCtx_pktSlot : (s.modCtx i f).pktSlot = s.pktSlot := rfl
@[simp] theorem modCtx_cur : (s.modCtx i f).cur = s.cur := rfl
@[simp] theorem modCtx_lastScalar : (s.modCtx i f).lastScalar = s.lastScalar := rfl
@[simp] theorem modCtx_lastLane : (s.modCtx i f).lastLane = s.lastLane := rfl
@[simp] theorem modCtx_swiftAt : (s.modCtx i f).swiftAt = s.swiftAt := rfl
@[simp] theorem modCtx_hostClock : (s.modCtx i f).hostClock = s.hostClock := rfl
@[simp] theorem modCtx_raisedAt : (s.modCtx i f).raisedAt = s.raisedAt := rfl
@[simp] theorem modCtx_sentReply : (s.modCtx i f).sentReply = s.sentReply := rfl
@[simp] theorem modCtx_free : (s.modCtx i f).free = s.free := rfl
@[simp] theorem modCtx_courses : (s.modCtx i f).courses = s.courses := rfl
@[simp] theorem modCtx_teams : (s.modCtx i f).teams = s.teams := rfl
@[simp] theorem modCtx_launches : (s.modCtx i f).launches = s.launches := rfl
@[simp] theorem modCtx_partitions : (s.modCtx i f).partitions = s.partitions := rfl
@[simp] theorem modCtx_grants : (s.modCtx i f).grants = s.grants := rfl
@[simp] theorem modCtx_splits : (s.modCtx i f).splits = s.splits := rfl
@[simp] theorem modCtx_reservations : (s.modCtx i f).reservations = s.reservations := rfl
@[simp] theorem modCtx_mem : (s.modCtx i f).mem = s.mem := rfl
@[simp] theorem modCtx_hostMem : (s.modCtx i f).hostMem = s.hostMem := rfl
@[simp] theorem modCtx_lentMem : (s.modCtx i f).lentMem = s.lentMem := rfl
@[simp] theorem modCtx_badMem : (s.modCtx i f).badMem = s.badMem := rfl
@[simp] theorem modCtx_areas : (s.modCtx i f).areas = s.areas := rfl
@[simp] theorem modCtx_stamps : (s.modCtx i f).stamps = s.stamps := rfl
@[simp] theorem modCtx_writes : (s.modCtx i f).writes = s.writes := rfl
@[simp] theorem modCtx_sliceBase : (s.modCtx i f).sliceBase = s.sliceBase := rfl
@[simp] theorem modCtx_l1 : (s.modCtx i f).l1 = s.l1 := rfl
@[simp] theorem modCtx_tlb : (s.modCtx i f).tlb = s.tlb := rfl
@[simp] theorem modCtx_l2 : (s.modCtx i f).l2 = s.l2 := rfl
@[simp] theorem modCtx_remote : (s.modCtx i f).remote = s.remote := rfl
@[simp] theorem modCtx_holds : (s.modCtx i f).holds = s.holds := rfl
@[simp] theorem modCtx_delegated : (s.modCtx i f).delegated = s.delegated := rfl
@[simp] theorem modCtx_ways : (s.modCtx i f).ways = s.ways := rfl
@[simp] theorem modCtx_spools : (s.modCtx i f).spools = s.spools := rfl
@[simp] theorem modCtx_jobs : (s.modCtx i f).jobs = s.jobs := rfl
@[simp] theorem modCtx_tileOps : (s.modCtx i f).tileOps = s.tileOps := rfl
@[simp] theorem modCtx_nodes : (s.modCtx i f).nodes = s.nodes := rfl
@[simp] theorem modCtx_edges : (s.modCtx i f).edges = s.edges := rfl
@[simp] theorem modCtx_plies : (s.modCtx i f).plies = s.plies := rfl
@[simp] theorem modCtx_queues : (s.modCtx i f).queues = s.queues := rfl
@[simp] theorem modCtx_posted : (s.modCtx i f).posted = s.posted := rfl
@[simp] theorem modCtx_posts : (s.modCtx i f).posts = s.posts := rfl
@[simp] theorem modCtx_gangsws : (s.modCtx i f).gangsws = s.gangsws := rfl
@[simp] theorem modCtx_loans : (s.modCtx i f).loans = s.loans := rfl
@[simp] theorem modCtx_demotions : (s.modCtx i f).demotions = s.demotions := rfl
@[simp] theorem modCtx_lends : (s.modCtx i f).lends = s.lends := rfl
@[simp] theorem modCtx_node : (s.modCtx i f).node = s.node := rfl
@[simp] theorem modCtx_routes : (s.modCtx i f).routes = s.routes := rfl
@[simp] theorem modCtx_portsDown : (s.modCtx i f).portsDown = s.portsDown := rfl
@[simp] theorem modCtx_stacksDown : (s.modCtx i f).stacksDown = s.stacksDown := rfl
@[simp] theorem modCtx_linksDown : (s.modCtx i f).linksDown = s.linksDown := rfl
@[simp] theorem modCtx_image : (s.modCtx i f).image = s.image := rfl
@[simp] theorem modCtx_halted : (s.modCtx i f).halted = s.halted := rfl
@[simp] theorem modCtx_arrivals : (s.modCtx i f).arrivals = s.arrivals := rfl
@[simp] theorem modCtx_floors : (s.modCtx i f).floors = s.floors := rfl
@[simp] theorem modCtx_heldFor : (s.modCtx i f).heldFor = s.heldFor := rfl
@[simp] theorem modCtx_seqnos : (s.modCtx i f).seqnos = s.seqnos := rfl
@[simp] theorem modCtx_outstanding : (s.modCtx i f).outstanding = s.outstanding := rfl
@[simp] theorem modCtx_performed : (s.modCtx i f).performed = s.performed := rfl
@[simp] theorem modCtx_tokens : (s.modCtx i f).tokens = s.tokens := rfl
@[simp] theorem modCtx_throttle : (s.modCtx i f).throttle = s.throttle := rfl
@[simp] theorem modCtx_hpbudget : (s.modCtx i f).hpbudget = s.hpbudget := rfl
@[simp] theorem modCtx_mring : (s.modCtx i f).mring = s.mring := rfl
@[simp] theorem modCtx_cxlwin : (s.modCtx i f).cxlwin = s.cxlwin := rfl
@[simp] theorem modCtx_wfilt : (s.modCtx i f).wfilt = s.wfilt := rfl
@[simp] theorem modCtx_hostRegs : (s.modCtx i f).hostRegs = s.hostRegs := rfl
@[simp] theorem modCtx_boot : (s.modCtx i f).boot = s.boot := rfl
@[simp] theorem modCtx_needle : (s.modCtx i f).needle = s.needle := rfl
@[simp] theorem modCtx_standbyOk : (s.modCtx i f).standbyOk = s.standbyOk := rfl
@[simp] theorem modCtx_tableVersion : (s.modCtx i f).tableVersion = s.tableVersion := rfl
@[simp] theorem modCtx_patchNext : (s.modCtx i f).patchNext = s.patchNext := rfl
@[simp] theorem modCtx_patch : (s.modCtx i f).patch = s.patch := rfl
@[simp] theorem modCtx_fwPacket : (s.modCtx i f).fwPacket = s.fwPacket := rfl
@[simp] theorem modCtx_heldWrites : (s.modCtx i f).heldWrites = s.heldWrites := rfl
@[simp] theorem modCtx_hostLines : (s.modCtx i f).hostLines = s.hostLines := rfl
@[simp] theorem modCtx_hostRead : (s.modCtx i f).hostRead = s.hostRead := rfl
@[simp] theorem modCtx_deadNodes : (s.modCtx i f).deadNodes = s.deadNodes := rfl
end

/-! What State.modLaunch leaves alone: every field but launches. -/

section
variable (s : State) (i : Nat) (f : Launch → Launch)
@[simp] theorem modLaunch_clock : (s.modLaunch i f).clock = s.clock := rfl
@[simp] theorem modLaunch_agenda : (s.modLaunch i f).agenda = s.agenda := rfl
@[simp] theorem modLaunch_subj : (s.modLaunch i f).subj = s.subj := rfl
@[simp] theorem modLaunch_pkt : (s.modLaunch i f).pkt = s.pkt := rfl
@[simp] theorem modLaunch_pktQueue : (s.modLaunch i f).pktQueue = s.pktQueue := rfl
@[simp] theorem modLaunch_pktSlot : (s.modLaunch i f).pktSlot = s.pktSlot := rfl
@[simp] theorem modLaunch_cur : (s.modLaunch i f).cur = s.cur := rfl
@[simp] theorem modLaunch_lastScalar : (s.modLaunch i f).lastScalar = s.lastScalar := rfl
@[simp] theorem modLaunch_lastLane : (s.modLaunch i f).lastLane = s.lastLane := rfl
@[simp] theorem modLaunch_swiftAt : (s.modLaunch i f).swiftAt = s.swiftAt := rfl
@[simp] theorem modLaunch_hostClock : (s.modLaunch i f).hostClock = s.hostClock := rfl
@[simp] theorem modLaunch_raisedAt : (s.modLaunch i f).raisedAt = s.raisedAt := rfl
@[simp] theorem modLaunch_sentReply : (s.modLaunch i f).sentReply = s.sentReply := rfl
@[simp] theorem modLaunch_free : (s.modLaunch i f).free = s.free := rfl
@[simp] theorem modLaunch_courses : (s.modLaunch i f).courses = s.courses := rfl
@[simp] theorem modLaunch_teams : (s.modLaunch i f).teams = s.teams := rfl
@[simp] theorem modLaunch_contexts : (s.modLaunch i f).contexts = s.contexts := rfl
@[simp] theorem modLaunch_partitions : (s.modLaunch i f).partitions = s.partitions := rfl
@[simp] theorem modLaunch_grants : (s.modLaunch i f).grants = s.grants := rfl
@[simp] theorem modLaunch_splits : (s.modLaunch i f).splits = s.splits := rfl
@[simp] theorem modLaunch_reservations : (s.modLaunch i f).reservations = s.reservations := rfl
@[simp] theorem modLaunch_mem : (s.modLaunch i f).mem = s.mem := rfl
@[simp] theorem modLaunch_hostMem : (s.modLaunch i f).hostMem = s.hostMem := rfl
@[simp] theorem modLaunch_lentMem : (s.modLaunch i f).lentMem = s.lentMem := rfl
@[simp] theorem modLaunch_badMem : (s.modLaunch i f).badMem = s.badMem := rfl
@[simp] theorem modLaunch_areas : (s.modLaunch i f).areas = s.areas := rfl
@[simp] theorem modLaunch_stamps : (s.modLaunch i f).stamps = s.stamps := rfl
@[simp] theorem modLaunch_writes : (s.modLaunch i f).writes = s.writes := rfl
@[simp] theorem modLaunch_sliceBase : (s.modLaunch i f).sliceBase = s.sliceBase := rfl
@[simp] theorem modLaunch_l1 : (s.modLaunch i f).l1 = s.l1 := rfl
@[simp] theorem modLaunch_tlb : (s.modLaunch i f).tlb = s.tlb := rfl
@[simp] theorem modLaunch_l2 : (s.modLaunch i f).l2 = s.l2 := rfl
@[simp] theorem modLaunch_remote : (s.modLaunch i f).remote = s.remote := rfl
@[simp] theorem modLaunch_holds : (s.modLaunch i f).holds = s.holds := rfl
@[simp] theorem modLaunch_delegated : (s.modLaunch i f).delegated = s.delegated := rfl
@[simp] theorem modLaunch_ways : (s.modLaunch i f).ways = s.ways := rfl
@[simp] theorem modLaunch_spools : (s.modLaunch i f).spools = s.spools := rfl
@[simp] theorem modLaunch_jobs : (s.modLaunch i f).jobs = s.jobs := rfl
@[simp] theorem modLaunch_tileOps : (s.modLaunch i f).tileOps = s.tileOps := rfl
@[simp] theorem modLaunch_nodes : (s.modLaunch i f).nodes = s.nodes := rfl
@[simp] theorem modLaunch_edges : (s.modLaunch i f).edges = s.edges := rfl
@[simp] theorem modLaunch_plies : (s.modLaunch i f).plies = s.plies := rfl
@[simp] theorem modLaunch_queues : (s.modLaunch i f).queues = s.queues := rfl
@[simp] theorem modLaunch_posted : (s.modLaunch i f).posted = s.posted := rfl
@[simp] theorem modLaunch_posts : (s.modLaunch i f).posts = s.posts := rfl
@[simp] theorem modLaunch_gangsws : (s.modLaunch i f).gangsws = s.gangsws := rfl
@[simp] theorem modLaunch_loans : (s.modLaunch i f).loans = s.loans := rfl
@[simp] theorem modLaunch_demotions : (s.modLaunch i f).demotions = s.demotions := rfl
@[simp] theorem modLaunch_lends : (s.modLaunch i f).lends = s.lends := rfl
@[simp] theorem modLaunch_node : (s.modLaunch i f).node = s.node := rfl
@[simp] theorem modLaunch_routes : (s.modLaunch i f).routes = s.routes := rfl
@[simp] theorem modLaunch_portsDown : (s.modLaunch i f).portsDown = s.portsDown := rfl
@[simp] theorem modLaunch_stacksDown : (s.modLaunch i f).stacksDown = s.stacksDown := rfl
@[simp] theorem modLaunch_linksDown : (s.modLaunch i f).linksDown = s.linksDown := rfl
@[simp] theorem modLaunch_image : (s.modLaunch i f).image = s.image := rfl
@[simp] theorem modLaunch_halted : (s.modLaunch i f).halted = s.halted := rfl
@[simp] theorem modLaunch_arrivals : (s.modLaunch i f).arrivals = s.arrivals := rfl
@[simp] theorem modLaunch_floors : (s.modLaunch i f).floors = s.floors := rfl
@[simp] theorem modLaunch_heldFor : (s.modLaunch i f).heldFor = s.heldFor := rfl
@[simp] theorem modLaunch_seqnos : (s.modLaunch i f).seqnos = s.seqnos := rfl
@[simp] theorem modLaunch_outstanding : (s.modLaunch i f).outstanding = s.outstanding := rfl
@[simp] theorem modLaunch_performed : (s.modLaunch i f).performed = s.performed := rfl
@[simp] theorem modLaunch_tokens : (s.modLaunch i f).tokens = s.tokens := rfl
@[simp] theorem modLaunch_throttle : (s.modLaunch i f).throttle = s.throttle := rfl
@[simp] theorem modLaunch_hpbudget : (s.modLaunch i f).hpbudget = s.hpbudget := rfl
@[simp] theorem modLaunch_mring : (s.modLaunch i f).mring = s.mring := rfl
@[simp] theorem modLaunch_cxlwin : (s.modLaunch i f).cxlwin = s.cxlwin := rfl
@[simp] theorem modLaunch_wfilt : (s.modLaunch i f).wfilt = s.wfilt := rfl
@[simp] theorem modLaunch_hostRegs : (s.modLaunch i f).hostRegs = s.hostRegs := rfl
@[simp] theorem modLaunch_boot : (s.modLaunch i f).boot = s.boot := rfl
@[simp] theorem modLaunch_needle : (s.modLaunch i f).needle = s.needle := rfl
@[simp] theorem modLaunch_standbyOk : (s.modLaunch i f).standbyOk = s.standbyOk := rfl
@[simp] theorem modLaunch_tableVersion : (s.modLaunch i f).tableVersion = s.tableVersion := rfl
@[simp] theorem modLaunch_patchNext : (s.modLaunch i f).patchNext = s.patchNext := rfl
@[simp] theorem modLaunch_patch : (s.modLaunch i f).patch = s.patch := rfl
@[simp] theorem modLaunch_fwPacket : (s.modLaunch i f).fwPacket = s.fwPacket := rfl
@[simp] theorem modLaunch_heldWrites : (s.modLaunch i f).heldWrites = s.heldWrites := rfl
@[simp] theorem modLaunch_hostLines : (s.modLaunch i f).hostLines = s.hostLines := rfl
@[simp] theorem modLaunch_hostRead : (s.modLaunch i f).hostRead = s.hostRead := rfl
@[simp] theorem modLaunch_deadNodes : (s.modLaunch i f).deadNodes = s.deadNodes := rfl
end

/-! What State.modJob leaves alone: every field but jobs. -/

section
variable (s : State) (i : Nat) (f : Job → Job)
@[simp] theorem modJob_clock : (s.modJob i f).clock = s.clock := rfl
@[simp] theorem modJob_agenda : (s.modJob i f).agenda = s.agenda := rfl
@[simp] theorem modJob_subj : (s.modJob i f).subj = s.subj := rfl
@[simp] theorem modJob_pkt : (s.modJob i f).pkt = s.pkt := rfl
@[simp] theorem modJob_pktQueue : (s.modJob i f).pktQueue = s.pktQueue := rfl
@[simp] theorem modJob_pktSlot : (s.modJob i f).pktSlot = s.pktSlot := rfl
@[simp] theorem modJob_cur : (s.modJob i f).cur = s.cur := rfl
@[simp] theorem modJob_lastScalar : (s.modJob i f).lastScalar = s.lastScalar := rfl
@[simp] theorem modJob_lastLane : (s.modJob i f).lastLane = s.lastLane := rfl
@[simp] theorem modJob_swiftAt : (s.modJob i f).swiftAt = s.swiftAt := rfl
@[simp] theorem modJob_hostClock : (s.modJob i f).hostClock = s.hostClock := rfl
@[simp] theorem modJob_raisedAt : (s.modJob i f).raisedAt = s.raisedAt := rfl
@[simp] theorem modJob_sentReply : (s.modJob i f).sentReply = s.sentReply := rfl
@[simp] theorem modJob_free : (s.modJob i f).free = s.free := rfl
@[simp] theorem modJob_courses : (s.modJob i f).courses = s.courses := rfl
@[simp] theorem modJob_teams : (s.modJob i f).teams = s.teams := rfl
@[simp] theorem modJob_contexts : (s.modJob i f).contexts = s.contexts := rfl
@[simp] theorem modJob_launches : (s.modJob i f).launches = s.launches := rfl
@[simp] theorem modJob_partitions : (s.modJob i f).partitions = s.partitions := rfl
@[simp] theorem modJob_grants : (s.modJob i f).grants = s.grants := rfl
@[simp] theorem modJob_splits : (s.modJob i f).splits = s.splits := rfl
@[simp] theorem modJob_reservations : (s.modJob i f).reservations = s.reservations := rfl
@[simp] theorem modJob_mem : (s.modJob i f).mem = s.mem := rfl
@[simp] theorem modJob_hostMem : (s.modJob i f).hostMem = s.hostMem := rfl
@[simp] theorem modJob_lentMem : (s.modJob i f).lentMem = s.lentMem := rfl
@[simp] theorem modJob_badMem : (s.modJob i f).badMem = s.badMem := rfl
@[simp] theorem modJob_areas : (s.modJob i f).areas = s.areas := rfl
@[simp] theorem modJob_stamps : (s.modJob i f).stamps = s.stamps := rfl
@[simp] theorem modJob_writes : (s.modJob i f).writes = s.writes := rfl
@[simp] theorem modJob_sliceBase : (s.modJob i f).sliceBase = s.sliceBase := rfl
@[simp] theorem modJob_l1 : (s.modJob i f).l1 = s.l1 := rfl
@[simp] theorem modJob_tlb : (s.modJob i f).tlb = s.tlb := rfl
@[simp] theorem modJob_l2 : (s.modJob i f).l2 = s.l2 := rfl
@[simp] theorem modJob_remote : (s.modJob i f).remote = s.remote := rfl
@[simp] theorem modJob_holds : (s.modJob i f).holds = s.holds := rfl
@[simp] theorem modJob_delegated : (s.modJob i f).delegated = s.delegated := rfl
@[simp] theorem modJob_ways : (s.modJob i f).ways = s.ways := rfl
@[simp] theorem modJob_spools : (s.modJob i f).spools = s.spools := rfl
@[simp] theorem modJob_tileOps : (s.modJob i f).tileOps = s.tileOps := rfl
@[simp] theorem modJob_nodes : (s.modJob i f).nodes = s.nodes := rfl
@[simp] theorem modJob_edges : (s.modJob i f).edges = s.edges := rfl
@[simp] theorem modJob_plies : (s.modJob i f).plies = s.plies := rfl
@[simp] theorem modJob_queues : (s.modJob i f).queues = s.queues := rfl
@[simp] theorem modJob_posted : (s.modJob i f).posted = s.posted := rfl
@[simp] theorem modJob_posts : (s.modJob i f).posts = s.posts := rfl
@[simp] theorem modJob_gangsws : (s.modJob i f).gangsws = s.gangsws := rfl
@[simp] theorem modJob_loans : (s.modJob i f).loans = s.loans := rfl
@[simp] theorem modJob_demotions : (s.modJob i f).demotions = s.demotions := rfl
@[simp] theorem modJob_lends : (s.modJob i f).lends = s.lends := rfl
@[simp] theorem modJob_node : (s.modJob i f).node = s.node := rfl
@[simp] theorem modJob_routes : (s.modJob i f).routes = s.routes := rfl
@[simp] theorem modJob_portsDown : (s.modJob i f).portsDown = s.portsDown := rfl
@[simp] theorem modJob_stacksDown : (s.modJob i f).stacksDown = s.stacksDown := rfl
@[simp] theorem modJob_linksDown : (s.modJob i f).linksDown = s.linksDown := rfl
@[simp] theorem modJob_image : (s.modJob i f).image = s.image := rfl
@[simp] theorem modJob_halted : (s.modJob i f).halted = s.halted := rfl
@[simp] theorem modJob_arrivals : (s.modJob i f).arrivals = s.arrivals := rfl
@[simp] theorem modJob_floors : (s.modJob i f).floors = s.floors := rfl
@[simp] theorem modJob_heldFor : (s.modJob i f).heldFor = s.heldFor := rfl
@[simp] theorem modJob_seqnos : (s.modJob i f).seqnos = s.seqnos := rfl
@[simp] theorem modJob_outstanding : (s.modJob i f).outstanding = s.outstanding := rfl
@[simp] theorem modJob_performed : (s.modJob i f).performed = s.performed := rfl
@[simp] theorem modJob_tokens : (s.modJob i f).tokens = s.tokens := rfl
@[simp] theorem modJob_throttle : (s.modJob i f).throttle = s.throttle := rfl
@[simp] theorem modJob_hpbudget : (s.modJob i f).hpbudget = s.hpbudget := rfl
@[simp] theorem modJob_mring : (s.modJob i f).mring = s.mring := rfl
@[simp] theorem modJob_cxlwin : (s.modJob i f).cxlwin = s.cxlwin := rfl
@[simp] theorem modJob_wfilt : (s.modJob i f).wfilt = s.wfilt := rfl
@[simp] theorem modJob_hostRegs : (s.modJob i f).hostRegs = s.hostRegs := rfl
@[simp] theorem modJob_boot : (s.modJob i f).boot = s.boot := rfl
@[simp] theorem modJob_needle : (s.modJob i f).needle = s.needle := rfl
@[simp] theorem modJob_standbyOk : (s.modJob i f).standbyOk = s.standbyOk := rfl
@[simp] theorem modJob_tableVersion : (s.modJob i f).tableVersion = s.tableVersion := rfl
@[simp] theorem modJob_patchNext : (s.modJob i f).patchNext = s.patchNext := rfl
@[simp] theorem modJob_patch : (s.modJob i f).patch = s.patch := rfl
@[simp] theorem modJob_fwPacket : (s.modJob i f).fwPacket = s.fwPacket := rfl
@[simp] theorem modJob_heldWrites : (s.modJob i f).heldWrites = s.heldWrites := rfl
@[simp] theorem modJob_hostLines : (s.modJob i f).hostLines = s.hostLines := rfl
@[simp] theorem modJob_hostRead : (s.modJob i f).hostRead = s.hostRead := rfl
@[simp] theorem modJob_deadNodes : (s.modJob i f).deadNodes = s.deadNodes := rfl
end

/-! What State.modNode leaves alone: every field but nodes. -/

section
variable (s : State) (i : Nat) (f : NodeRun → NodeRun)
@[simp] theorem modNode_clock : (s.modNode i f).clock = s.clock := rfl
@[simp] theorem modNode_agenda : (s.modNode i f).agenda = s.agenda := rfl
@[simp] theorem modNode_subj : (s.modNode i f).subj = s.subj := rfl
@[simp] theorem modNode_pkt : (s.modNode i f).pkt = s.pkt := rfl
@[simp] theorem modNode_pktQueue : (s.modNode i f).pktQueue = s.pktQueue := rfl
@[simp] theorem modNode_pktSlot : (s.modNode i f).pktSlot = s.pktSlot := rfl
@[simp] theorem modNode_cur : (s.modNode i f).cur = s.cur := rfl
@[simp] theorem modNode_lastScalar : (s.modNode i f).lastScalar = s.lastScalar := rfl
@[simp] theorem modNode_lastLane : (s.modNode i f).lastLane = s.lastLane := rfl
@[simp] theorem modNode_swiftAt : (s.modNode i f).swiftAt = s.swiftAt := rfl
@[simp] theorem modNode_hostClock : (s.modNode i f).hostClock = s.hostClock := rfl
@[simp] theorem modNode_raisedAt : (s.modNode i f).raisedAt = s.raisedAt := rfl
@[simp] theorem modNode_sentReply : (s.modNode i f).sentReply = s.sentReply := rfl
@[simp] theorem modNode_free : (s.modNode i f).free = s.free := rfl
@[simp] theorem modNode_courses : (s.modNode i f).courses = s.courses := rfl
@[simp] theorem modNode_teams : (s.modNode i f).teams = s.teams := rfl
@[simp] theorem modNode_contexts : (s.modNode i f).contexts = s.contexts := rfl
@[simp] theorem modNode_launches : (s.modNode i f).launches = s.launches := rfl
@[simp] theorem modNode_partitions : (s.modNode i f).partitions = s.partitions := rfl
@[simp] theorem modNode_grants : (s.modNode i f).grants = s.grants := rfl
@[simp] theorem modNode_splits : (s.modNode i f).splits = s.splits := rfl
@[simp] theorem modNode_reservations : (s.modNode i f).reservations = s.reservations := rfl
@[simp] theorem modNode_mem : (s.modNode i f).mem = s.mem := rfl
@[simp] theorem modNode_hostMem : (s.modNode i f).hostMem = s.hostMem := rfl
@[simp] theorem modNode_lentMem : (s.modNode i f).lentMem = s.lentMem := rfl
@[simp] theorem modNode_badMem : (s.modNode i f).badMem = s.badMem := rfl
@[simp] theorem modNode_areas : (s.modNode i f).areas = s.areas := rfl
@[simp] theorem modNode_stamps : (s.modNode i f).stamps = s.stamps := rfl
@[simp] theorem modNode_writes : (s.modNode i f).writes = s.writes := rfl
@[simp] theorem modNode_sliceBase : (s.modNode i f).sliceBase = s.sliceBase := rfl
@[simp] theorem modNode_l1 : (s.modNode i f).l1 = s.l1 := rfl
@[simp] theorem modNode_tlb : (s.modNode i f).tlb = s.tlb := rfl
@[simp] theorem modNode_l2 : (s.modNode i f).l2 = s.l2 := rfl
@[simp] theorem modNode_remote : (s.modNode i f).remote = s.remote := rfl
@[simp] theorem modNode_holds : (s.modNode i f).holds = s.holds := rfl
@[simp] theorem modNode_delegated : (s.modNode i f).delegated = s.delegated := rfl
@[simp] theorem modNode_ways : (s.modNode i f).ways = s.ways := rfl
@[simp] theorem modNode_spools : (s.modNode i f).spools = s.spools := rfl
@[simp] theorem modNode_jobs : (s.modNode i f).jobs = s.jobs := rfl
@[simp] theorem modNode_tileOps : (s.modNode i f).tileOps = s.tileOps := rfl
@[simp] theorem modNode_edges : (s.modNode i f).edges = s.edges := rfl
@[simp] theorem modNode_plies : (s.modNode i f).plies = s.plies := rfl
@[simp] theorem modNode_queues : (s.modNode i f).queues = s.queues := rfl
@[simp] theorem modNode_posted : (s.modNode i f).posted = s.posted := rfl
@[simp] theorem modNode_posts : (s.modNode i f).posts = s.posts := rfl
@[simp] theorem modNode_gangsws : (s.modNode i f).gangsws = s.gangsws := rfl
@[simp] theorem modNode_loans : (s.modNode i f).loans = s.loans := rfl
@[simp] theorem modNode_demotions : (s.modNode i f).demotions = s.demotions := rfl
@[simp] theorem modNode_lends : (s.modNode i f).lends = s.lends := rfl
@[simp] theorem modNode_node : (s.modNode i f).node = s.node := rfl
@[simp] theorem modNode_routes : (s.modNode i f).routes = s.routes := rfl
@[simp] theorem modNode_portsDown : (s.modNode i f).portsDown = s.portsDown := rfl
@[simp] theorem modNode_stacksDown : (s.modNode i f).stacksDown = s.stacksDown := rfl
@[simp] theorem modNode_linksDown : (s.modNode i f).linksDown = s.linksDown := rfl
@[simp] theorem modNode_image : (s.modNode i f).image = s.image := rfl
@[simp] theorem modNode_halted : (s.modNode i f).halted = s.halted := rfl
@[simp] theorem modNode_arrivals : (s.modNode i f).arrivals = s.arrivals := rfl
@[simp] theorem modNode_floors : (s.modNode i f).floors = s.floors := rfl
@[simp] theorem modNode_heldFor : (s.modNode i f).heldFor = s.heldFor := rfl
@[simp] theorem modNode_seqnos : (s.modNode i f).seqnos = s.seqnos := rfl
@[simp] theorem modNode_outstanding : (s.modNode i f).outstanding = s.outstanding := rfl
@[simp] theorem modNode_performed : (s.modNode i f).performed = s.performed := rfl
@[simp] theorem modNode_tokens : (s.modNode i f).tokens = s.tokens := rfl
@[simp] theorem modNode_throttle : (s.modNode i f).throttle = s.throttle := rfl
@[simp] theorem modNode_hpbudget : (s.modNode i f).hpbudget = s.hpbudget := rfl
@[simp] theorem modNode_mring : (s.modNode i f).mring = s.mring := rfl
@[simp] theorem modNode_cxlwin : (s.modNode i f).cxlwin = s.cxlwin := rfl
@[simp] theorem modNode_wfilt : (s.modNode i f).wfilt = s.wfilt := rfl
@[simp] theorem modNode_hostRegs : (s.modNode i f).hostRegs = s.hostRegs := rfl
@[simp] theorem modNode_boot : (s.modNode i f).boot = s.boot := rfl
@[simp] theorem modNode_needle : (s.modNode i f).needle = s.needle := rfl
@[simp] theorem modNode_standbyOk : (s.modNode i f).standbyOk = s.standbyOk := rfl
@[simp] theorem modNode_tableVersion : (s.modNode i f).tableVersion = s.tableVersion := rfl
@[simp] theorem modNode_patchNext : (s.modNode i f).patchNext = s.patchNext := rfl
@[simp] theorem modNode_patch : (s.modNode i f).patch = s.patch := rfl
@[simp] theorem modNode_fwPacket : (s.modNode i f).fwPacket = s.fwPacket := rfl
@[simp] theorem modNode_heldWrites : (s.modNode i f).heldWrites = s.heldWrites := rfl
@[simp] theorem modNode_hostLines : (s.modNode i f).hostLines = s.hostLines := rfl
@[simp] theorem modNode_hostRead : (s.modNode i f).hostRead = s.hostRead := rfl
@[simp] theorem modNode_deadNodes : (s.modNode i f).deadNodes = s.deadNodes := rfl
end

/-! What State.modPly leaves alone: every field but plies. -/

section
variable (s : State) (i : Nat) (f : PlyRun → PlyRun)
@[simp] theorem modPly_clock : (s.modPly i f).clock = s.clock := rfl
@[simp] theorem modPly_agenda : (s.modPly i f).agenda = s.agenda := rfl
@[simp] theorem modPly_subj : (s.modPly i f).subj = s.subj := rfl
@[simp] theorem modPly_pkt : (s.modPly i f).pkt = s.pkt := rfl
@[simp] theorem modPly_pktQueue : (s.modPly i f).pktQueue = s.pktQueue := rfl
@[simp] theorem modPly_pktSlot : (s.modPly i f).pktSlot = s.pktSlot := rfl
@[simp] theorem modPly_cur : (s.modPly i f).cur = s.cur := rfl
@[simp] theorem modPly_lastScalar : (s.modPly i f).lastScalar = s.lastScalar := rfl
@[simp] theorem modPly_lastLane : (s.modPly i f).lastLane = s.lastLane := rfl
@[simp] theorem modPly_swiftAt : (s.modPly i f).swiftAt = s.swiftAt := rfl
@[simp] theorem modPly_hostClock : (s.modPly i f).hostClock = s.hostClock := rfl
@[simp] theorem modPly_raisedAt : (s.modPly i f).raisedAt = s.raisedAt := rfl
@[simp] theorem modPly_sentReply : (s.modPly i f).sentReply = s.sentReply := rfl
@[simp] theorem modPly_free : (s.modPly i f).free = s.free := rfl
@[simp] theorem modPly_courses : (s.modPly i f).courses = s.courses := rfl
@[simp] theorem modPly_teams : (s.modPly i f).teams = s.teams := rfl
@[simp] theorem modPly_contexts : (s.modPly i f).contexts = s.contexts := rfl
@[simp] theorem modPly_launches : (s.modPly i f).launches = s.launches := rfl
@[simp] theorem modPly_partitions : (s.modPly i f).partitions = s.partitions := rfl
@[simp] theorem modPly_grants : (s.modPly i f).grants = s.grants := rfl
@[simp] theorem modPly_splits : (s.modPly i f).splits = s.splits := rfl
@[simp] theorem modPly_reservations : (s.modPly i f).reservations = s.reservations := rfl
@[simp] theorem modPly_mem : (s.modPly i f).mem = s.mem := rfl
@[simp] theorem modPly_hostMem : (s.modPly i f).hostMem = s.hostMem := rfl
@[simp] theorem modPly_lentMem : (s.modPly i f).lentMem = s.lentMem := rfl
@[simp] theorem modPly_badMem : (s.modPly i f).badMem = s.badMem := rfl
@[simp] theorem modPly_areas : (s.modPly i f).areas = s.areas := rfl
@[simp] theorem modPly_stamps : (s.modPly i f).stamps = s.stamps := rfl
@[simp] theorem modPly_writes : (s.modPly i f).writes = s.writes := rfl
@[simp] theorem modPly_sliceBase : (s.modPly i f).sliceBase = s.sliceBase := rfl
@[simp] theorem modPly_l1 : (s.modPly i f).l1 = s.l1 := rfl
@[simp] theorem modPly_tlb : (s.modPly i f).tlb = s.tlb := rfl
@[simp] theorem modPly_l2 : (s.modPly i f).l2 = s.l2 := rfl
@[simp] theorem modPly_remote : (s.modPly i f).remote = s.remote := rfl
@[simp] theorem modPly_holds : (s.modPly i f).holds = s.holds := rfl
@[simp] theorem modPly_delegated : (s.modPly i f).delegated = s.delegated := rfl
@[simp] theorem modPly_ways : (s.modPly i f).ways = s.ways := rfl
@[simp] theorem modPly_spools : (s.modPly i f).spools = s.spools := rfl
@[simp] theorem modPly_jobs : (s.modPly i f).jobs = s.jobs := rfl
@[simp] theorem modPly_tileOps : (s.modPly i f).tileOps = s.tileOps := rfl
@[simp] theorem modPly_nodes : (s.modPly i f).nodes = s.nodes := rfl
@[simp] theorem modPly_edges : (s.modPly i f).edges = s.edges := rfl
@[simp] theorem modPly_queues : (s.modPly i f).queues = s.queues := rfl
@[simp] theorem modPly_posted : (s.modPly i f).posted = s.posted := rfl
@[simp] theorem modPly_posts : (s.modPly i f).posts = s.posts := rfl
@[simp] theorem modPly_gangsws : (s.modPly i f).gangsws = s.gangsws := rfl
@[simp] theorem modPly_loans : (s.modPly i f).loans = s.loans := rfl
@[simp] theorem modPly_demotions : (s.modPly i f).demotions = s.demotions := rfl
@[simp] theorem modPly_lends : (s.modPly i f).lends = s.lends := rfl
@[simp] theorem modPly_node : (s.modPly i f).node = s.node := rfl
@[simp] theorem modPly_routes : (s.modPly i f).routes = s.routes := rfl
@[simp] theorem modPly_portsDown : (s.modPly i f).portsDown = s.portsDown := rfl
@[simp] theorem modPly_stacksDown : (s.modPly i f).stacksDown = s.stacksDown := rfl
@[simp] theorem modPly_linksDown : (s.modPly i f).linksDown = s.linksDown := rfl
@[simp] theorem modPly_image : (s.modPly i f).image = s.image := rfl
@[simp] theorem modPly_halted : (s.modPly i f).halted = s.halted := rfl
@[simp] theorem modPly_arrivals : (s.modPly i f).arrivals = s.arrivals := rfl
@[simp] theorem modPly_floors : (s.modPly i f).floors = s.floors := rfl
@[simp] theorem modPly_heldFor : (s.modPly i f).heldFor = s.heldFor := rfl
@[simp] theorem modPly_seqnos : (s.modPly i f).seqnos = s.seqnos := rfl
@[simp] theorem modPly_outstanding : (s.modPly i f).outstanding = s.outstanding := rfl
@[simp] theorem modPly_performed : (s.modPly i f).performed = s.performed := rfl
@[simp] theorem modPly_tokens : (s.modPly i f).tokens = s.tokens := rfl
@[simp] theorem modPly_throttle : (s.modPly i f).throttle = s.throttle := rfl
@[simp] theorem modPly_hpbudget : (s.modPly i f).hpbudget = s.hpbudget := rfl
@[simp] theorem modPly_mring : (s.modPly i f).mring = s.mring := rfl
@[simp] theorem modPly_cxlwin : (s.modPly i f).cxlwin = s.cxlwin := rfl
@[simp] theorem modPly_wfilt : (s.modPly i f).wfilt = s.wfilt := rfl
@[simp] theorem modPly_hostRegs : (s.modPly i f).hostRegs = s.hostRegs := rfl
@[simp] theorem modPly_boot : (s.modPly i f).boot = s.boot := rfl
@[simp] theorem modPly_needle : (s.modPly i f).needle = s.needle := rfl
@[simp] theorem modPly_standbyOk : (s.modPly i f).standbyOk = s.standbyOk := rfl
@[simp] theorem modPly_tableVersion : (s.modPly i f).tableVersion = s.tableVersion := rfl
@[simp] theorem modPly_patchNext : (s.modPly i f).patchNext = s.patchNext := rfl
@[simp] theorem modPly_patch : (s.modPly i f).patch = s.patch := rfl
@[simp] theorem modPly_fwPacket : (s.modPly i f).fwPacket = s.fwPacket := rfl
@[simp] theorem modPly_heldWrites : (s.modPly i f).heldWrites = s.heldWrites := rfl
@[simp] theorem modPly_hostLines : (s.modPly i f).hostLines = s.hostLines := rfl
@[simp] theorem modPly_hostRead : (s.modPly i f).hostRead = s.hostRead := rfl
@[simp] theorem modPly_deadNodes : (s.modPly i f).deadNodes = s.deadNodes := rfl
end

/-! What State.modQueue leaves alone: every field but queues. -/

section
variable (s : State) (i : Nat) (f : Queue → Queue)
@[simp] theorem modQueue_clock : (s.modQueue i f).clock = s.clock := rfl
@[simp] theorem modQueue_agenda : (s.modQueue i f).agenda = s.agenda := rfl
@[simp] theorem modQueue_subj : (s.modQueue i f).subj = s.subj := rfl
@[simp] theorem modQueue_pkt : (s.modQueue i f).pkt = s.pkt := rfl
@[simp] theorem modQueue_pktQueue : (s.modQueue i f).pktQueue = s.pktQueue := rfl
@[simp] theorem modQueue_pktSlot : (s.modQueue i f).pktSlot = s.pktSlot := rfl
@[simp] theorem modQueue_cur : (s.modQueue i f).cur = s.cur := rfl
@[simp] theorem modQueue_lastScalar : (s.modQueue i f).lastScalar = s.lastScalar := rfl
@[simp] theorem modQueue_lastLane : (s.modQueue i f).lastLane = s.lastLane := rfl
@[simp] theorem modQueue_swiftAt : (s.modQueue i f).swiftAt = s.swiftAt := rfl
@[simp] theorem modQueue_hostClock : (s.modQueue i f).hostClock = s.hostClock := rfl
@[simp] theorem modQueue_raisedAt : (s.modQueue i f).raisedAt = s.raisedAt := rfl
@[simp] theorem modQueue_sentReply : (s.modQueue i f).sentReply = s.sentReply := rfl
@[simp] theorem modQueue_free : (s.modQueue i f).free = s.free := rfl
@[simp] theorem modQueue_courses : (s.modQueue i f).courses = s.courses := rfl
@[simp] theorem modQueue_teams : (s.modQueue i f).teams = s.teams := rfl
@[simp] theorem modQueue_contexts : (s.modQueue i f).contexts = s.contexts := rfl
@[simp] theorem modQueue_launches : (s.modQueue i f).launches = s.launches := rfl
@[simp] theorem modQueue_partitions : (s.modQueue i f).partitions = s.partitions := rfl
@[simp] theorem modQueue_grants : (s.modQueue i f).grants = s.grants := rfl
@[simp] theorem modQueue_splits : (s.modQueue i f).splits = s.splits := rfl
@[simp] theorem modQueue_reservations : (s.modQueue i f).reservations = s.reservations := rfl
@[simp] theorem modQueue_mem : (s.modQueue i f).mem = s.mem := rfl
@[simp] theorem modQueue_hostMem : (s.modQueue i f).hostMem = s.hostMem := rfl
@[simp] theorem modQueue_lentMem : (s.modQueue i f).lentMem = s.lentMem := rfl
@[simp] theorem modQueue_badMem : (s.modQueue i f).badMem = s.badMem := rfl
@[simp] theorem modQueue_areas : (s.modQueue i f).areas = s.areas := rfl
@[simp] theorem modQueue_stamps : (s.modQueue i f).stamps = s.stamps := rfl
@[simp] theorem modQueue_writes : (s.modQueue i f).writes = s.writes := rfl
@[simp] theorem modQueue_sliceBase : (s.modQueue i f).sliceBase = s.sliceBase := rfl
@[simp] theorem modQueue_l1 : (s.modQueue i f).l1 = s.l1 := rfl
@[simp] theorem modQueue_tlb : (s.modQueue i f).tlb = s.tlb := rfl
@[simp] theorem modQueue_l2 : (s.modQueue i f).l2 = s.l2 := rfl
@[simp] theorem modQueue_remote : (s.modQueue i f).remote = s.remote := rfl
@[simp] theorem modQueue_holds : (s.modQueue i f).holds = s.holds := rfl
@[simp] theorem modQueue_delegated : (s.modQueue i f).delegated = s.delegated := rfl
@[simp] theorem modQueue_ways : (s.modQueue i f).ways = s.ways := rfl
@[simp] theorem modQueue_spools : (s.modQueue i f).spools = s.spools := rfl
@[simp] theorem modQueue_jobs : (s.modQueue i f).jobs = s.jobs := rfl
@[simp] theorem modQueue_tileOps : (s.modQueue i f).tileOps = s.tileOps := rfl
@[simp] theorem modQueue_nodes : (s.modQueue i f).nodes = s.nodes := rfl
@[simp] theorem modQueue_edges : (s.modQueue i f).edges = s.edges := rfl
@[simp] theorem modQueue_plies : (s.modQueue i f).plies = s.plies := rfl
@[simp] theorem modQueue_posted : (s.modQueue i f).posted = s.posted := rfl
@[simp] theorem modQueue_posts : (s.modQueue i f).posts = s.posts := rfl
@[simp] theorem modQueue_gangsws : (s.modQueue i f).gangsws = s.gangsws := rfl
@[simp] theorem modQueue_loans : (s.modQueue i f).loans = s.loans := rfl
@[simp] theorem modQueue_demotions : (s.modQueue i f).demotions = s.demotions := rfl
@[simp] theorem modQueue_lends : (s.modQueue i f).lends = s.lends := rfl
@[simp] theorem modQueue_node : (s.modQueue i f).node = s.node := rfl
@[simp] theorem modQueue_routes : (s.modQueue i f).routes = s.routes := rfl
@[simp] theorem modQueue_portsDown : (s.modQueue i f).portsDown = s.portsDown := rfl
@[simp] theorem modQueue_stacksDown : (s.modQueue i f).stacksDown = s.stacksDown := rfl
@[simp] theorem modQueue_linksDown : (s.modQueue i f).linksDown = s.linksDown := rfl
@[simp] theorem modQueue_image : (s.modQueue i f).image = s.image := rfl
@[simp] theorem modQueue_halted : (s.modQueue i f).halted = s.halted := rfl
@[simp] theorem modQueue_arrivals : (s.modQueue i f).arrivals = s.arrivals := rfl
@[simp] theorem modQueue_floors : (s.modQueue i f).floors = s.floors := rfl
@[simp] theorem modQueue_heldFor : (s.modQueue i f).heldFor = s.heldFor := rfl
@[simp] theorem modQueue_seqnos : (s.modQueue i f).seqnos = s.seqnos := rfl
@[simp] theorem modQueue_outstanding : (s.modQueue i f).outstanding = s.outstanding := rfl
@[simp] theorem modQueue_performed : (s.modQueue i f).performed = s.performed := rfl
@[simp] theorem modQueue_tokens : (s.modQueue i f).tokens = s.tokens := rfl
@[simp] theorem modQueue_throttle : (s.modQueue i f).throttle = s.throttle := rfl
@[simp] theorem modQueue_hpbudget : (s.modQueue i f).hpbudget = s.hpbudget := rfl
@[simp] theorem modQueue_mring : (s.modQueue i f).mring = s.mring := rfl
@[simp] theorem modQueue_cxlwin : (s.modQueue i f).cxlwin = s.cxlwin := rfl
@[simp] theorem modQueue_wfilt : (s.modQueue i f).wfilt = s.wfilt := rfl
@[simp] theorem modQueue_hostRegs : (s.modQueue i f).hostRegs = s.hostRegs := rfl
@[simp] theorem modQueue_boot : (s.modQueue i f).boot = s.boot := rfl
@[simp] theorem modQueue_needle : (s.modQueue i f).needle = s.needle := rfl
@[simp] theorem modQueue_standbyOk : (s.modQueue i f).standbyOk = s.standbyOk := rfl
@[simp] theorem modQueue_tableVersion : (s.modQueue i f).tableVersion = s.tableVersion := rfl
@[simp] theorem modQueue_patchNext : (s.modQueue i f).patchNext = s.patchNext := rfl
@[simp] theorem modQueue_patch : (s.modQueue i f).patch = s.patch := rfl
@[simp] theorem modQueue_fwPacket : (s.modQueue i f).fwPacket = s.fwPacket := rfl
@[simp] theorem modQueue_heldWrites : (s.modQueue i f).heldWrites = s.heldWrites := rfl
@[simp] theorem modQueue_hostLines : (s.modQueue i f).hostLines = s.hostLines := rfl
@[simp] theorem modQueue_hostRead : (s.modQueue i f).hostRead = s.hostRead := rfl
@[simp] theorem modQueue_deadNodes : (s.modQueue i f).deadNodes = s.deadNodes := rfl
end

/-! What State.post leaves alone: every field but agenda. -/

section
variable (s : State) (x : Instr) (u : Subject)
@[simp] theorem post_clock : (s.post x u).clock = s.clock := rfl
@[simp] theorem post_subj : (s.post x u).subj = s.subj := rfl
@[simp] theorem post_pkt : (s.post x u).pkt = s.pkt := rfl
@[simp] theorem post_pktQueue : (s.post x u).pktQueue = s.pktQueue := rfl
@[simp] theorem post_pktSlot : (s.post x u).pktSlot = s.pktSlot := rfl
@[simp] theorem post_cur : (s.post x u).cur = s.cur := rfl
@[simp] theorem post_lastScalar : (s.post x u).lastScalar = s.lastScalar := rfl
@[simp] theorem post_lastLane : (s.post x u).lastLane = s.lastLane := rfl
@[simp] theorem post_swiftAt : (s.post x u).swiftAt = s.swiftAt := rfl
@[simp] theorem post_hostClock : (s.post x u).hostClock = s.hostClock := rfl
@[simp] theorem post_raisedAt : (s.post x u).raisedAt = s.raisedAt := rfl
@[simp] theorem post_sentReply : (s.post x u).sentReply = s.sentReply := rfl
@[simp] theorem post_free : (s.post x u).free = s.free := rfl
@[simp] theorem post_courses : (s.post x u).courses = s.courses := rfl
@[simp] theorem post_teams : (s.post x u).teams = s.teams := rfl
@[simp] theorem post_contexts : (s.post x u).contexts = s.contexts := rfl
@[simp] theorem post_launches : (s.post x u).launches = s.launches := rfl
@[simp] theorem post_partitions : (s.post x u).partitions = s.partitions := rfl
@[simp] theorem post_grants : (s.post x u).grants = s.grants := rfl
@[simp] theorem post_splits : (s.post x u).splits = s.splits := rfl
@[simp] theorem post_reservations : (s.post x u).reservations = s.reservations := rfl
@[simp] theorem post_mem : (s.post x u).mem = s.mem := rfl
@[simp] theorem post_hostMem : (s.post x u).hostMem = s.hostMem := rfl
@[simp] theorem post_lentMem : (s.post x u).lentMem = s.lentMem := rfl
@[simp] theorem post_badMem : (s.post x u).badMem = s.badMem := rfl
@[simp] theorem post_areas : (s.post x u).areas = s.areas := rfl
@[simp] theorem post_stamps : (s.post x u).stamps = s.stamps := rfl
@[simp] theorem post_writes : (s.post x u).writes = s.writes := rfl
@[simp] theorem post_sliceBase : (s.post x u).sliceBase = s.sliceBase := rfl
@[simp] theorem post_l1 : (s.post x u).l1 = s.l1 := rfl
@[simp] theorem post_tlb : (s.post x u).tlb = s.tlb := rfl
@[simp] theorem post_l2 : (s.post x u).l2 = s.l2 := rfl
@[simp] theorem post_remote : (s.post x u).remote = s.remote := rfl
@[simp] theorem post_holds : (s.post x u).holds = s.holds := rfl
@[simp] theorem post_delegated : (s.post x u).delegated = s.delegated := rfl
@[simp] theorem post_ways : (s.post x u).ways = s.ways := rfl
@[simp] theorem post_spools : (s.post x u).spools = s.spools := rfl
@[simp] theorem post_jobs : (s.post x u).jobs = s.jobs := rfl
@[simp] theorem post_tileOps : (s.post x u).tileOps = s.tileOps := rfl
@[simp] theorem post_nodes : (s.post x u).nodes = s.nodes := rfl
@[simp] theorem post_edges : (s.post x u).edges = s.edges := rfl
@[simp] theorem post_plies : (s.post x u).plies = s.plies := rfl
@[simp] theorem post_queues : (s.post x u).queues = s.queues := rfl
@[simp] theorem post_posted : (s.post x u).posted = s.posted := rfl
@[simp] theorem post_posts : (s.post x u).posts = s.posts := rfl
@[simp] theorem post_gangsws : (s.post x u).gangsws = s.gangsws := rfl
@[simp] theorem post_loans : (s.post x u).loans = s.loans := rfl
@[simp] theorem post_demotions : (s.post x u).demotions = s.demotions := rfl
@[simp] theorem post_lends : (s.post x u).lends = s.lends := rfl
@[simp] theorem post_node : (s.post x u).node = s.node := rfl
@[simp] theorem post_routes : (s.post x u).routes = s.routes := rfl
@[simp] theorem post_portsDown : (s.post x u).portsDown = s.portsDown := rfl
@[simp] theorem post_stacksDown : (s.post x u).stacksDown = s.stacksDown := rfl
@[simp] theorem post_linksDown : (s.post x u).linksDown = s.linksDown := rfl
@[simp] theorem post_image : (s.post x u).image = s.image := rfl
@[simp] theorem post_halted : (s.post x u).halted = s.halted := rfl
@[simp] theorem post_arrivals : (s.post x u).arrivals = s.arrivals := rfl
@[simp] theorem post_floors : (s.post x u).floors = s.floors := rfl
@[simp] theorem post_heldFor : (s.post x u).heldFor = s.heldFor := rfl
@[simp] theorem post_seqnos : (s.post x u).seqnos = s.seqnos := rfl
@[simp] theorem post_outstanding : (s.post x u).outstanding = s.outstanding := rfl
@[simp] theorem post_performed : (s.post x u).performed = s.performed := rfl
@[simp] theorem post_tokens : (s.post x u).tokens = s.tokens := rfl
@[simp] theorem post_throttle : (s.post x u).throttle = s.throttle := rfl
@[simp] theorem post_hpbudget : (s.post x u).hpbudget = s.hpbudget := rfl
@[simp] theorem post_mring : (s.post x u).mring = s.mring := rfl
@[simp] theorem post_cxlwin : (s.post x u).cxlwin = s.cxlwin := rfl
@[simp] theorem post_wfilt : (s.post x u).wfilt = s.wfilt := rfl
@[simp] theorem post_hostRegs : (s.post x u).hostRegs = s.hostRegs := rfl
@[simp] theorem post_boot : (s.post x u).boot = s.boot := rfl
@[simp] theorem post_needle : (s.post x u).needle = s.needle := rfl
@[simp] theorem post_standbyOk : (s.post x u).standbyOk = s.standbyOk := rfl
@[simp] theorem post_tableVersion : (s.post x u).tableVersion = s.tableVersion := rfl
@[simp] theorem post_patchNext : (s.post x u).patchNext = s.patchNext := rfl
@[simp] theorem post_patch : (s.post x u).patch = s.patch := rfl
@[simp] theorem post_fwPacket : (s.post x u).fwPacket = s.fwPacket := rfl
@[simp] theorem post_heldWrites : (s.post x u).heldWrites = s.heldWrites := rfl
@[simp] theorem post_hostLines : (s.post x u).hostLines = s.hostLines := rfl
@[simp] theorem post_hostRead : (s.post x u).hostRead = s.hostRead := rfl
@[simp] theorem post_deadNodes : (s.post x u).deadNodes = s.deadNodes := rfl
end

/-! x and a registers read back. -/

theorem set_getD_same {α : Type} (l : List α) (n : Nat) (v d : α) (h : n < l.length) : (l.set n v).getD n d = v := by
  rw [List.getD_eq_getElem?_getD, List.getElem?_set_self h, Option.getD_some]

theorem set_getD_ne {α : Type} (l : List α) (n m : Nat) (v d : α) (h : m ≠ n) : (l.set n v).getD m d = l.getD m d := by
  rw [List.getD_eq_getElem?_getD, List.getElem?_set_ne (Ne.symm h), List.getD_eq_getElem?_getD]

theorem padded_getD {α : Type} (l : List α) (n i : Nat) (v : α) : (l ++ List.replicate n v).getD i v = l.getD i v := by
  simp only [List.getD_eq_getElem?_getD, List.getElem?_append, List.getElem?_replicate]
  split
  · rfl
  · next h => split <;> simp [List.getElem?_eq_none (Nat.le_of_not_lt h)]

theorem x_setX (c : Core) (n : Nat) (v : Word) (h : n < 32) : (c.setX n v).x n = if n = 0 then 0 else v := by
  unfold Core.setX Core.x
  split
  · rfl
  · exact set_getD_same _ _ _ _ (by rw [List.length_append, List.length_replicate]; omega)

theorem x_setX_ne (c : Core) (n m : Nat) (v : Word) (h : m ≠ n) : (c.setX n v).x m = c.x m := by
  by_cases hn : n = 0
  · rw [Core.setX, if_pos hn]
  · rw [Core.setX, if_neg hn, Core.x, Core.x, set_getD_ne _ _ _ _ _ h, padded_getD]

theorem setX_eq (c : Core) (n : Nat) (v : Word) : c.setX n v = { c with xs := (c.setX n v).xs } := by
  unfold Core.setX; split <;> rfl

theorem cap_setCap (c : Core) (n : Nat) (v : Cap) (h : n < 16) : (c.setCap n v).cap n = v :=
  set_getD_same _ _ _ _ (by rw [List.length_append, List.length_replicate]; omega)

theorem cap_setCap_ne (c : Core) (n m : Nat) (v : Cap) (h : m ≠ n) : (c.setCap n v).cap m = c.cap m := by
  unfold Core.setCap Core.cap
  rw [set_getD_ne _ _ _ _ _ h, padded_getD]

/-! Changes of a course's core alone. -/

theorem modCore_onlyCore (s : State) (f : Core → Core) (h : Running s) : OnlyCore s (s.modCore f) := by
  refine ⟨⟨rfl, by simp, fun j hj => ?_⟩, ?_⟩
  · exact modCourse_other s s.cur j _ hj
  · rw [modCore_eq, modCourse_me s _ h]

theorem modCore_core (s : State) (f : Core → Core) (h : Running s) : (s.modCore f).me.core = f s.me.core := by
  rw [modCore_eq, modCourse_me s _ h]

theorem setX_pc (c : Core) (n : Nat) (v : Word) : (c.setX n v).pc = c.pc := by rw [setX_eq]

theorem inX_setX (c : Core) (d : BitVec 5) (v : Word) : (c.setX d.toNat v).x d.toNat = inX d v := by
  rw [x_setX _ _ _ d.isLt, inX]
  congr 1
  simp [BitVec.toNat_eq]

/-- A change of the current core that writes v to x[d] and moves the PC. -/
theorem givesX_modCore (s : State) (pc : Nat) (d : BitVec 5) (v : Word) (f : Core → Core) (h : Running s)
    (hf : f s.me.core = { s.me.core.setX d.toNat v with pc := pc }) : GivesX s pc d v (.next (s.modCore f)) := by
  refine ⟨_, rfl, ⟨modCore_onlyCore s _ h, ?_, fun n hn => ?_⟩, ?_, ?_⟩ <;> rw [modCore_core s _ h, hf]
  · rw [setX_eq]
  · exact x_setX_ne _ _ _ _ hn
  · exact inX_setX _ _ _

/-- A scalar word that writes v to x[d] and goes on (R73). -/
theorem scalarSet_goes (s : State) (d : BitVec 5) (v : Word) (h : Running s) :
    GivesX s (s.me.core.pc + 4) d v (s.scalarSet d v) :=
  givesX_modCore s _ d v _ h (by rw [setX_pc])

end Sys2Proof.Machine
end

