-- ==== Sys2Proof/Laws/Ops.lean ====
section
/-! SUPPORT. What the shared operations can do, said once: writes, waking, commits, checkpoints, credits and the end of a word
leave the bodies of courses and contexts, the management state and the canonical form of memory as they are. -/

namespace Sys2Proof.Machine

/-! The relation: what every shared operation below preserves. -/

/-- A course without its waits, held stores, checkpoint, shadow, clocks, record count, sent packets and the faults it has yet to meet. -/
def Course.body (c : Course) : Course :=
  { c with swait := none, lwait := none, swas := none, lwas := none, heldG := [], heldHint := [], heldLeaf := [], heldS := [], owed := [], unsynced := [],
           heldSince := 0, lclock := 0, wmax := 0, ckpt := {}, ckptAt := 0, shadow := [], rollbacks := 0, granted := none,
           grantBinds := false, recSeq := 0, sent := [], remoteBad := [],
           tileCopies := [], phase := if c.phase = .retired then .retired else .placed }

/-- A context without its charges, its publish table and its wake list. -/
def Context.body (x : Context) : Context := { x with charges := [], pub := [], wakes := [] }

/-- What only commands, events and the host change. -/
def State.managed (s : State) : List (Nat × Nat × BitVec 128) × List Partition × List (Nat × BitVec 16) × List Loan × List Lend ×
    Nat × BitVec 64 × List (BitVec 128) × List (BitVec 128) × List (Nat × BitVec 64) × Nat :=
  (s.grants, s.partitions, s.ways, s.loans, s.lends, s.hpbudget, s.mring, s.cxlwin, s.wfilt, s.hostRegs, s.node)

/-- t keeps from s the bodies of courses and contexts, the word being executed, the management state, and the canonical form of
the memories. -/
structure Mild (s t : State) : Prop where
  courses : t.courses.map Course.body = s.courses.map Course.body
  contexts : t.contexts.map Context.body = s.contexts.map Context.body
  cur : t.cur = s.cur
  managed : t.managed = s.managed
  memOk : s.memOk = true → t.memOk = true

theorem Mild.refl (s : State) : Mild s s := ⟨rfl, rfl, rfl, rfl, id⟩

theorem Mild.trans {s t u : State} (h : Mild s t) (k : Mild t u) : Mild s u :=
  ⟨k.courses.trans h.courses, k.contexts.trans h.contexts, k.cur.trans h.cur, k.managed.trans h.managed,
   fun m => k.memOk (h.memOk m)⟩

/-- A state that differs in none of the fields the relation looks at. -/
theorem Mild.of_eq {s t : State} (hc : t.courses = s.courses) (hx : t.contexts = s.contexts) (hu : t.cur = s.cur)
    (hm : t.managed = s.managed) (a : t.mem = s.mem) (b : t.hostMem = s.hostMem) (c : t.lentMem = s.lentMem) : Mild s t :=
  ⟨by rw [hc], by rw [hx], hu, hm, by simp only [State.memOk, a, b, c]; exact id⟩

theorem Mild.length {s t : State} (h : Mild s t) : t.courses.length = s.courses.length := by
  have := congrArg List.length h.courses
  simpa using this

theorem Mild.body {s t : State} (h : Mild s t) (j : Nat) : (t.course j).body = (s.course j).body := by
  have e (u : State) : (u.course j).body = (u.courses.map Course.body).getD j (Course.body {}) := by
    simp only [State.course, List.getD_eq_getElem?_getD, List.getElem?_map]
    cases u.courses[j]? <;> rfl
  rw [e t, e s, h.courses]

theorem Mild.core {s t : State} (h : Mild s t) (j : Nat) : (t.course j).core = (s.course j).core := by
  have e := congrArg Course.core (h.body j)
  exact e

theorem Mild.team {s t : State} (h : Mild s t) (j : Nat) : (t.course j).team = (s.course j).team := by
  have e := congrArg Course.team (h.body j)
  exact e

theorem Mild.ctx {s t : State} (h : Mild s t) (j : Nat) : (t.course j).ctx = (s.course j).ctx := by
  have e := congrArg Course.ctx (h.body j)
  exact e

theorem Mild.alive {s t : State} (h : Mild s t) (j : Nat) : (t.course j).alive = (s.course j).alive := by
  have e (c : Course) : c.alive = (c.body.phase != .retired) := by
    cases hp : c.phase <;> simp [Course.alive, Course.body, hp] <;> decide
  rw [e, e, h.body]

theorem Mild.running {s t : State} (h : Mild s t) (r : Running s) : Running t := by
  unfold Running at *; rw [h.cur, h.length]; exact r

theorem find_body (l : List Context) (n : Nat) :
    ((l.map Context.body).find? fun c => c.num == n) = (l.find? fun c => c.num == n).map Context.body := by
  induction l with
  | nil => rfl
  | cons x l ih =>
    have hn : x.body.num = x.num := rfl
    simp only [List.map_cons, List.find?_cons, hn, ih]
    cases x.num == n <;> rfl

theorem Mild.context {s t : State} (h : Mild s t) (n : Nat) : (t.context n).body = (s.context n).body := by
  have e (u : State) : (u.context n).body
      = (((u.contexts.map Context.body).find? fun c => c.num == n).getD { num := n, mode := .deleted }) := by
    rw [find_body, State.context]
    cases u.contexts.find? fun c => c.num == n <;> rfl
  rw [e t, e s, h.contexts]

theorem Mild.policy {s t : State} (h : Mild s t) (n : Nat) : (t.context n).policy = (s.context n).policy := by
  have e := congrArg Context.policy (h.context n)
  exact e

/-- A fold of mild operations is mild. -/
theorem Mild.foldl {α : Type} (l : List α) (f : State → α → State) (h : ∀ s a, Mild s (f s a)) (s : State) :
    Mild s (l.foldl f s) := by
  induction l generalizing s with
  | nil => exact Mild.refl s
  | cons a l ih => exact (h s a).trans (ih (f s a))

/-- A fold with a result beside the state. -/
theorem Mild.foldl_fst {α β : Type} (l : List α) (f : State × β → α → State × β) (h : ∀ r a, Mild r.1 (f r a).1)
    (r : State × β) : Mild r.1 (l.foldl f r).1 := by
  induction l generalizing r with
  | nil => exact Mild.refl r.1
  | cons a l ih => exact (h r a).trans (ih (f r a))

/-! Elementary updates. -/

theorem map_modify_body (l : List Course) (i : Nat) (f : Course → Course) (h : ∀ c, (f c).body = c.body) :
    (l.modify i f).map Course.body = l.map Course.body := by
  apply List.ext_getElem?
  intro j
  simp only [List.getElem?_map, List.getElem?_modify]
  cases l[j]? with
  | none => rfl
  | some c => by_cases hij : i = j <;> simp [hij, h]

theorem modCourse_mild (s : State) (i : Nat) (f : Course → Course) (h : ∀ c, (f c).body = c.body) :
    Mild s (s.modCourse i f) :=
  ⟨map_modify_body _ _ _ h, rfl, rfl, rfl, id⟩

theorem modCtx_mild (s : State) (n : Nat) (f : Context → Context) (h : ∀ x, (f x).body = x.body) :
    Mild s (s.modCtx n f) := by
  refine ⟨rfl, ?_, rfl, rfl, id⟩
  simp only [State.modCtx, List.map_map]
  apply List.map_congr_left
  intro x _
  simp only [Function.comp]
  split
  · exact h x
  · rfl

theorem modTeam_mild (s : State) (n : Nat) (f : Team → Team) : Mild s (s.modTeam n f) := ⟨rfl, rfl, rfl, rfl, id⟩

theorem post_mild (s : State) (i : Instr) (u : Subject) : Mild s (s.post i u) := ⟨rfl, rfl, rfl, rfl, id⟩

/-! Writes. -/

theorem locSet_mild (s : State) (loc : Nat) (b : Byte) : Mild s (s.locSet loc b) := by
  unfold State.locSet
  split
  · split
    · exact ⟨rfl, rfl, rfl, rfl, id⟩
    · exact ⟨rfl, rfl, rfl, rfl, fun m => by simp_all [State.memOk, Memory.set_wf]⟩
  · split
    · exact ⟨rfl, rfl, rfl, rfl, fun m => by simp_all [State.memOk, Memory.set_wf]⟩
    · exact ⟨rfl, rfl, rfl, rfl, fun m => by simp_all [State.memOk, Memory.set_wf]⟩

theorem setStamp_mild (s : State) (l w r : Nat) : Mild s (s.setStamp l w r) := by
  unfold State.setStamp
  simp only
  split <;> exact ⟨rfl, rfl, rfl, rfl, id⟩

theorem listWake_mild (s : State) (i : Nat) : Mild s (s.listWake i) := modCtx_mild _ _ _ fun _ => rfl

theorem wakeIf_mild (s : State) (p : Nat → Course → Wait → Bool) (run : Bool) : Mild s (s.wakeIf p run) := by
  unfold State.wakeIf
  refine Mild.foldl _ _ (fun s i => ?_) s
  have h : Mild s (s.modCourse i fun c =>
      { c.endWaits (p i c) with phase := if run && c.phase == .waiting then .running else c.phase }) := by
    refine modCourse_mild s i _ fun c => ?_
    cases hp : c.phase <;> cases run <;> simp [Course.body, Course.endWaits, hp]
  simp only
  split
  · exact h.trans (listWake_mild _ _)
  · exact h

theorem noticeLine_mild (s : State) (l : Nat) : Mild s (s.noticeLine l) := by
  unfold State.noticeLine
  refine Mild.trans ?_ (Mild.foldl _ _ (fun s q => post_mild s _ _) _)
  exact Mild.of_eq rfl rfl rfl rfl rfl rfl rfl

theorem wakeLine_mild (s : State) (l : Nat) : Mild s (s.wakeLine l) := (wakeIf_mild s _ _).trans (noticeLine_mild _ l)

theorem setSpools_mild (s : State) (l : List SpoolDesc) (w : List (Nat × Nat × Nat)) : Mild s { s with spools := l, writes := w } :=
  Mild.of_eq rfl rfl rfl rfl rfl rfl rfl

theorem locSets_mild (s : State) (cells : List Host.Cell) : Mild s (cells.foldl (fun s c => s.locSet c.1 c.2) s) :=
  Mild.foldl cells _ (fun s (c : Host.Cell) => locSet_mild s c.1 c.2) s

theorem writeLine_mild (s : State) (clk l : Nat) (cells : List Host.Cell) (wake : Bool) :
    Mild s (s.writeLine clk l cells wake).1 := by
  cases wake
  · exact ((setStamp_mild s l _ _).trans (locSets_mild _ cells)).trans (setSpools_mild _ _ _)
  · exact (((setStamp_mild s l _ _).trans (locSets_mild _ cells)).trans (setSpools_mild _ _ _)).trans (wakeLine_mild _ l)

theorem writeLocs_mild (s : State) (clk : Nat) (cells : List Host.Cell) (wake : Bool) :
    Mild s (s.writeLocs clk cells wake).1 := by
  refine Mild.foldl_fst _ _ (fun r l => ?_) (s, 0)
  exact writeLine_mild r.1 clk l _ wake

theorem setL2_mild (s : State) (l : List L2Line) : Mild s { s with l2 := l } := Mild.of_eq rfl rfl rfl rfl rfl rfl rfl

theorem l2Touch_mild (s : State) (l : Nat) (u : L2Use) : Mild s (s.l2Touch l u) := setL2_mild s _

theorem tlbPut_mild (s : State) (e : TlbEntry) (n : Nat) (p : TlbEntry → Bool) : Mild s (s.tlbPut e n p) := by
  unfold State.tlbPut
  split
  · exact Mild.refl s
  · exact Mild.of_eq rfl rfl rfl rfl rfl rfl rfl

theorem readLine_mild (s : State) (l clk : Nat) : Mild s (s.readLine l clk) := setStamp_mild s l _ _

theorem walkNote_mild (s : State) (w : Who) (va : Nat) : Mild s (s.walkNote w va) :=
  Mild.foldl _ _ (fun s _ => (l2Touch_mild s _ _).trans (readLine_mild _ _ _)) s

theorem tlbNote_mild (s : State) (w : Who) (va : Nat) : Mild s (s.tlbNote w va) := by
  unfold State.tlbNote
  split
  · exact Mild.refl s
  · split
    · exact ((walkNote_mild s w va).trans (tlbPut_mild _ _ _ _)).trans (tlbPut_mild _ _ _ _)
    · exact walkNote_mild s w va

theorem l2Access_mild (s : State) (ctx va line : Nat) (leaf : BitVec 64) (hint : Nat) (write : Bool) :
    Mild s (s.l2Access ctx va line leaf hint write) := by
  unfold State.l2Access
  simp only
  refine Mild.trans ?_ (l2Touch_mild _ _ _)
  split
  · exact Mild.of_eq rfl rfl rfl rfl rfl rfl rfl
  · exact Mild.refl s

theorem l2Range_mild (s : State) (w : Who) (ps : List (Nat × Nat × Nat)) (hint : Nat) (write : Bool) :
    Mild s (s.l2Range w ps hint write) := by
  refine Mild.foldl ps _ (fun s p => ?_) s
  split
  · exact (l2Access_mild s _ _ _ _ _ _).trans (tlbNote_mild _ _ _)
  · exact Mild.refl s

theorem moveWatch_mild (s : State) (t a b : Nat) : Mild s (s.moveWatch t a b) := by
  refine ⟨?_, rfl, rfl, rfl, id⟩
  simp only [State.moveWatch, List.map_map]
  apply List.map_congr_left
  intro c _
  simp only [Function.comp]
  split <;> rfl

theorem cloneAt_mild (s : State) (w : Who) (va : Nat) (e : BitVec 64) (log : Nat) : Mild s (s.cloneAt w va e log) := by
  unfold State.cloneAt
  split
  · exact Mild.refl s
  · simp only
    split
    · exact Mild.refl s
    · split
      · exact (((readLine_mild s _ _).trans (locSets_mild _ _)).trans (moveWatch_mild _ _ _ _)).trans
          (modCtx_mild _ _ _ fun _ => rfl)
      · exact modCtx_mild s _ _ fun x => rfl

theorem cloneLine_mild (s : State) (w : Who) (va : Nat) : Mild s (s.cloneLine w va) := by
  unfold State.cloneLine
  split
  · exact Mild.refl s
  · exact cloneAt_mild s w va _ _

theorem writeVA_mild (s t : State) (w : Who) (va m : Nat) (bytes : List Byte) (wake : Bool)
    (h : s.writeVA w va bytes wake = .ok (t, m)) : Mild s t := by
  unfold State.writeVA at h
  cases hl : s.locsOf w va bytes.length true with
  | error e => simp [hl, bind, Except.bind] at h
  | ok ps =>
    simp only [hl, bind, Except.bind, pure, Except.pure, Except.ok.injEq] at h
    have e : t = _ := (congrArg Prod.fst h).symm
    rw [e]
    exact ((Mild.foldl _ _ (fun s p => cloneLine_mild s w _) s).trans (l2Range_mild _ _ _ _ _)).trans (writeLocs_mild _ _ _ _)

theorem pokeAt_mild (s : State) (w : Who) (va : Nat) (bytes : List Byte) (wake : Bool) : Mild s (s.pokeAt w va bytes wake).1 := by
  unfold State.pokeAt
  cases h : s.writeVA w va bytes wake with
  | error e => exact Mild.refl s
  | ok r => exact writeVA_mild s r.1 w va r.2 bytes wake h

theorem pokeVA_mild (s : State) (w : Who) (va : Nat) (bytes : List Byte) (wake : Bool) : Mild s (s.pokeVA w va bytes wake) :=
  pokeAt_mild s w va bytes wake

/-! Commits and checkpoints. -/

theorem loanSent_mild (s : State) (i va line : Nat) : Mild s (s.loanSent i va line) := by
  unfold State.loanSent
  simp only
  split
  · exact Mild.refl s
  · have h (l : List (Nat × Nat)) : Mild s { s with seqnos := l } := Mild.of_eq rfl rfl rfl rfl rfl rfl rfl
    split
    · exact h _
    · exact (h _).trans (modCourse_mild _ _ _ fun _ => rfl)

theorem commitG_mild (s : State) (i : Nat) (p : Nat → Bool) : Mild s (s.commitG i p) := by
  unfold State.commitG
  simp only
  split
  · exact Mild.refl s
  · refine Mild.trans ?_ (modCourse_mild _ _ _ fun _ => rfl)
    refine Mild.trans ?_ (writeLocs_mild _ _ _ _)
    refine Mild.trans ?_ (Mild.foldl _ _ (fun s t => loanSent_mild s _ _ _) _)
    refine Mild.trans ?_ (Mild.foldl _ _ (fun s t => (l2Access_mild s _ _ _ _ _ _).trans (tlbNote_mild _ _ _)) _)
    exact Mild.foldl _ _ (fun s t => cloneAt_mild s _ _ _ _) s

theorem commitS_mild (s : State) (i : Nat) (p : Nat → Bool) : Mild s (s.commitS i p) := by
  unfold State.commitS
  simp only
  split
  · split
    · exact modCourse_mild _ _ _ fun _ => rfl
    · exact (modTeam_mild s _ _).trans (modCourse_mild _ _ _ fun _ => rfl)
  · exact modCourse_mild _ _ _ fun _ => rfl

theorem commit_mild (s : State) (i : Nat) : Mild s (s.commit i) := (commitG_mild s i _).trans (commitS_mild _ i _)

theorem checkpoint_mild (s : State) (i : Nat) : Mild s (s.checkpoint i) :=
  (commit_mild s i).trans (modCourse_mild _ _ _ fun _ => rfl)

theorem shadowWrites_mild (s : State) (i : Nat) (keys : List ShadowKey) : Mild s (s.shadowWrites i keys) := by
  unfold State.shadowWrites
  simp only
  split
  · exact Mild.refl s
  · split
    · exact (checkpoint_mild s i).trans (modCourse_mild _ _ _ fun _ => rfl)
    · exact modCourse_mild _ _ _ fun _ => rfl

theorem ifCheckpoint_mild (s : State) (i : Nat) (b : Bool) : Mild s (if b = true then s.checkpoint i else s) := by
  cases b
  · exact Mild.refl s
  · exact checkpoint_mild s i

theorem holdCells_mild (s : State) (i : Nat) (b : Bool) (cells : List Host.Cell) : Mild s (s.holdCells i b cells) := by
  unfold State.holdCells
  refine Mild.foldl _ _ (fun s l => ?_) s
  refine Mild.trans ?_ (modCourse_mild _ _ _ fun c => ?_)
  · cases b
    · exact (ifCheckpoint_mild s i _).trans (tlbNote_mild _ _ _)
    · exact ifCheckpoint_mild s i _
  · cases b <;> rfl

/-! Charges. -/

theorem schedule_mild (s : State) (c : Nat) : Mild s (s.schedule c) := by
  unfold State.schedule
  simp only
  split
  · exact post_mild s _ _
  · exact Mild.refl s

theorem charge_mild (s : State) (c : Nat) (l : List Charge) : Mild s (s.charge c l) := modCtx_mild s c _ fun _ => rfl

theorem keepCharges_mild (s : State) (i : Nat) (l : List Charge) : Mild s (s.keepCharges i l) := by
  unfold State.keepCharges
  split
  · exact modCourse_mild s i _ fun _ => rfl
  · exact charge_mild s _ l

theorem ifPost_mild (s : State) (b : Bool) (x : Instr) (u : Subject) : Mild s (if b = true then s.post x u else s) := by
  cases b
  · exact Mild.refl s
  · exact post_mild s x u

theorem credit_mild (s : State) (c : Nat) (l : List Charge) : Mild s (s.credit c l) := by
  unfold State.credit
  split
  · exact Mild.refl s
  · refine Mild.trans ?_ (schedule_mild _ c)
    refine Mild.trans ?_ (ifPost_mild _ _ _ _)
    exact modCtx_mild s c _ fun _ => rfl

theorem creditGranted_mild (s : State) (i : Nat) : Mild s (s.creditGranted i) := by
  unfold State.creditGranted
  split
  · exact Mild.refl s
  · refine Mild.trans ?_ (credit_mild _ _ _)
    refine Mild.trans (modCourse_mild s i (fun c => { c with granted := none, grantBinds := false }) fun _ => rfl) ?_
    split
    · exact wakeIf_mild _ _ _
    · exact Mild.refl _

/-! Loads. -/

/-! Records and traps. -/

theorem setRing_mild (s : State) (w : Who) (cap : Cap) (h : RingHdr) : Mild s (s.setRing w cap h).1 :=
  pokeAt_mild s _ _ _ _

theorem ringAlloc_mild (s t : State) (ctx clk : Nat) (cap : Cap) (h : RingHdr) (team : Option Nat) (r : RingRef) (w : Nat)
    (e : s.ringAlloc ctx clk cap h team = some (t, r, w)) : Mild s t := by
  unfold State.ringAlloc at e
  split at e
  · cases e
  · simp only [Option.some.injEq, Prod.mk.injEq] at e
    rw [← e.1]
    exact ((pokeAt_mild s _ _ _ _).trans (pokeAt_mild _ _ _ _ _)).trans (setRing_mild _ _ _ _)

theorem ringComplete_mild (s : State) (clk : Nat) (r : RingRef) (l : List Nat) (n : Nat) :
    Mild s (s.ringComplete clk r l n) := by
  unfold State.ringComplete
  split
  · exact Mild.refl s
  · split
    · exact setRing_mild s _ _ _
    · exact ((pokeAt_mild s _ _ _ _).trans (pokeAt_mild _ _ _ _ _)).trans (setRing_mild _ _ _ _)

theorem writeRecord_mild (s : State) (i : Nat) (f : FaultInfo) (b : Bool) (p q : Nat) : Mild s (s.writeRecord i f b p q) := by
  have h : Mild s (s.modCourse i fun c => { c with recSeq := c.recSeq + 1 }) := modCourse_mild s i _ fun _ => rfl
  unfold State.writeRecord
  simp only
  split
  · exact h
  · exact h.trans (pokeVA_mild _ _ _ _ _)

/-! Memory left alone. -/

/-- t holds the same memories as s. -/
def SameMem (s t : State) : Prop := t.mem = s.mem ∧ t.hostMem = s.hostMem ∧ t.lentMem = s.lentMem

theorem SameMem.trans {s t u : State} (h : SameMem s t) (k : SameMem t u) : SameMem s u :=
  ⟨k.1.trans h.1, k.2.1.trans h.2.1, k.2.2.trans h.2.2⟩

theorem SameMem.same {s t : State} (h : SameMem s t) : SameMemory s t :=
  ⟨fun a => by rw [h.1], fun a => by rw [h.2.1], fun a => by rw [h.2.2]⟩

theorem schedule_mem (s : State) (c : Nat) : SameMem s (s.schedule c) := by
  unfold State.schedule
  simp only
  split <;> exact ⟨rfl, rfl, rfl⟩

theorem credit_mem (s : State) (c : Nat) (l : List Charge) : SameMem s (s.credit c l) := by
  unfold State.credit
  split
  · exact ⟨rfl, rfl, rfl⟩
  · refine SameMem.trans ?_ (schedule_mem _ c)
    split <;> exact ⟨rfl, rfl, rfl⟩

theorem SameMem.foldl {α : Type} (l : List α) (f : State → α → State) (h : ∀ s a, SameMem s (f s a)) (s : State) :
    SameMem s (l.foldl f s) := by
  induction l generalizing s with
  | nil => exact ⟨rfl, rfl, rfl⟩
  | cons a l ih => exact (h s a).trans (ih (f s a))

theorem wakeIf_mem (s : State) (p : Nat → Course → Wait → Bool) (run : Bool) : SameMem s (s.wakeIf p run) := by
  unfold State.wakeIf
  refine SameMem.foldl _ _ (fun s i => ?_) s
  simp only
  split <;> exact ⟨rfl, rfl, rfl⟩

theorem creditGranted_mem (s : State) (i : Nat) : SameMem s (s.creditGranted i) := by
  unfold State.creditGranted
  split
  · exact ⟨rfl, rfl, rfl⟩
  · refine SameMem.trans ?_ (credit_mem _ _ _)
    split
    · exact SameMem.trans ⟨rfl, rfl, rfl⟩ (wakeIf_mem _ _ _)
    · exact ⟨rfl, rfl, rfl⟩

theorem shadowWrites_cases (s : State) (keys : List ShadowKey) : ∃ (empty full : Bool) (f : Course → Course),
    shadowFull s keys = (!empty && full)
    ∧ s.shadowWrites s.cur keys = if empty then s else (if full then s.checkpoint s.cur else s).modCourse s.cur f :=
  ⟨(keys.eraseDups.filter fun k => !s.me.shadow.contains k).isEmpty, _, _, Bool.and_assoc _ _ _, rfl⟩

theorem shadowWrites_mem (s : State) (keys : List ShadowKey) :
    SameMem (if shadowFull s keys then s.checkpoint s.cur else s) (s.shadowWrites s.cur keys) := by
  obtain ⟨empty, full, f, hf, hw⟩ := shadowWrites_cases s keys
  rw [hf, hw]
  cases empty <;> cases full <;> exact ⟨rfl, rfl, rfl⟩

/-! The end of a lane word. -/

theorem Mild.me_core {s t : State} (h : Mild s t) : t.me.core = s.me.core := by
  rw [State.me, h.cur]; exact h.core s.cur

theorem me_of_modCourse (s : State) (f : Course → Course) (h : Running s) : (s.modCourse s.cur f).me = f s.me :=
  modCourse_me s f h

theorem laneDone_core (s : State) (f : Core → Core) (h : Running s) : (s.laneDone f).me.core = f s.me.core.dropWord := by
  have h3 := creditGranted_mild s s.cur
  rw [← h3.me_core]
  unfold State.laneDone
  rw [modMe_eq, me_of_modCourse _ _ (h3.running h)]

theorem laneDone_mem (s : State) (f : Core → Core) : SameMem s (s.laneDone f) := creditGranted_mem s s.cur

theorem laneDone_cur (s : State) (f : Core → Core) : (s.laneDone f).cur = s.cur := (creditGranted_mild s s.cur).cur

theorem laneDone_other (s : State) (f : Core → Core) (j : Nat) (h : j ≠ s.cur) :
    ((s.laneDone f).course j).core = (s.course j).core := by
  have h3 := creditGranted_mild s s.cur
  unfold State.laneDone
  rw [modMe_eq, modCourse_other _ _ _ _ (by rw [h3.cur]; exact h), h3.core]

theorem laneDone_body (s : State) (f : Core → Core) (h : Running s) :
    (s.laneDone f).me.team = s.me.team ∧ (s.laneDone f).me.ctx = s.me.ctx := by
  have h3 := creditGranted_mild s s.cur
  have e : (s.creditGranted s.cur).me.team = s.me.team ∧ (s.creditGranted s.cur).me.ctx = s.me.ctx := by
    simp only [State.me, h3.cur]; exact ⟨h3.team _, h3.ctx _⟩
  unfold State.laneDone
  rw [modMe_eq, me_of_modCourse _ _ (h3.running h)]
  exact e

/-- What completing a lane word does (R64, R155): its effect on the registers follows the pop and the release queue's advance. -/
theorem finish_end (s : State) (e : Env) (keys : List ShadowKey) (f : Core → Core) (h : Running s) (he : e.after = none) :
    LaneEnd s (s.finish e keys none f) e keys f := by
  have h1 : Mild s (if keys.isEmpty then s else s.shadowWrites s.cur keys) := by
    split
    · exact Mild.refl s
    · exact shadowWrites_mild s _ _
  have m1 : SameMem (if shadowFull s keys then s.checkpoint s.cur else s)
      (if keys.isEmpty then s else s.shadowWrites s.cur keys) := by
    cases keys with
    | nil => exact ⟨rfl, rfl, rfl⟩
    | cons k ks => exact shadowWrites_mem s (k :: ks)
  have ef : s.finish e keys none f = (((if keys.isEmpty then s else s.shadowWrites s.cur keys).modCore fun c =>
      match e.queue with
      | none => c
      | some q => { c with queues := c.queues.modify q List.tail }).laneDone f) := by
    unfold State.finish
    rw [he]
    rfl
  rw [ef]
  generalize (if keys.isEmpty then s else s.shadowWrites s.cur keys) = s1 at h1 m1
  generalize hpop : (fun c : Core => match e.queue with
    | none => c | some q => { c with queues := c.queues.modify q List.tail }) = pop
  have r1 : Running s1 := h1.running h
  have r2 : Running (s1.modCore pop) := by unfold Running at *; rw [modCore_eq, modCourse_length]; exact r1
  have b2 : (s1.modCore pop).me.team = s.me.team ∧ (s1.modCore pop).me.ctx = s.me.ctx := by
    rw [modCore_eq, me_of_modCourse _ _ r1]
    simp only [State.me, h1.cur]
    exact ⟨h1.team _, h1.ctx _⟩
  have b3 := laneDone_body _ f r2
  have m3 := (m1.trans ⟨rfl, rfl, rfl⟩ : SameMem _ (s1.modCore pop)).trans (laneDone_mem _ f)
  refine ⟨?_, ?_, ?_, ?_, ?_, m3.1, m3.2.1, m3.2.2⟩
  · rw [laneDone_core _ f r2, modCore_core _ _ r1, h1.me_core, ← hpop]
    rfl
  · intro j hj
    have c1 : (s1.modCore pop).cur = s.cur := h1.cur
    rw [laneDone_other _ _ _ (by rw [c1]; exact hj), modCore_eq, modCourse_other _ _ _ _ (by rw [h1.cur]; exact hj), h1.core]
  · exact (laneDone_cur _ f).trans h1.cur
  · exact b3.1.trans b2.1
  · exact b3.2.trans b2.2

end Sys2Proof.Machine
end

