-- ==== Sys2Proof/Laws/Operands.lean ====
section
/-! SUPPORT. The operands and the unit-by-unit words: source lengths, what mapUnits computes, and the one spec lemma of mapWord. -/

namespace Sys2Proof.Machine

theorem padTo_length (n : Nat) (l : List Word) : (padTo n l).length = n := by
  induction n generalizing l with
  | zero => rfl
  | succ n ih => cases l <;> simp [padTo, ih]

/-- A source has a value for each of the 256 threads. -/
theorem source_length (c : Core) (r : RelRec) (q : List Word) (ty : Nat) (imm : BitVec 16) (code : BitVec 8) :
    (c.source r q ty imm code).length = 256 := by
  unfold Core.source
  simp only
  repeat' split
  all_goals first
    | exact padTo_length 256 _
    | exact List.length_replicate
    | exact (List.length_map _).trans List.length_range
    | (rw [List.length_append, List.length_append, List.length_append, padTo_length])

theorem mapUnits_vals (sel : Mask) (f : Word → Word → Word → Word → Word × Num.Flags) (t : Nat) (ds as bs cs : List Word) :
    (mapUnits sel f t ds as bs cs).1 = (List.range as.length).map fun i =>
      if sel.getLsbD (t + i) then (f (ds.getD i 0) (as.getD i 0) (bs.getD i 0) (cs.getD i 0)).1 else 0 := by
  induction as generalizing t ds bs cs with
  | nil => rfl
  | cons a as ih =>
    have shift (g : Nat → Word) : (List.range (as.length + 1)).map g = g 0 :: (List.range as.length).map fun i => g (i + 1) := by
      rw [List.range_succ_eq_map, List.map_cons, List.map_map]; rfl
    have tl (l : List Word) (i : Nat) : l.tail.getD i 0 = l.getD (i + 1) 0 := by
      cases l with
      | nil => rfl
      | cons x l => rfl
    have hd (l : List Word) : l.headD 0 = l.getD 0 0 := by cases l <;> rfl
    rw [List.length_cons, shift, mapUnits]
    split <;> rename_i h
    · simp only [Nat.add_zero, h, if_true, List.getD_cons_zero, ih, hd, tl, List.getD_cons_succ]
      congr 1
      apply List.map_congr_left
      intro i _
      rw [Nat.add_assoc, Nat.add_comm 1]
    · simp only [Nat.add_zero, h, List.getD_cons_succ, ih, tl]
      congr 1
      apply List.map_congr_left
      intro i _
      rw [Nat.add_assoc, Nat.add_comm 1]

theorem foldl_or (l : List Nat) (p : Nat → Bool) (g : Nat → Num.Flags) (a : Num.Flags) :
    l.foldl (fun acc t => if p t then acc ||| g t else acc) a
      = a ||| l.foldl (fun acc t => if p t then acc ||| g t else acc) 0 := by
  induction l generalizing a with
  | nil => simp
  | cons x l ih =>
    simp only [List.foldl_cons]
    rw [ih, ih (if p x then 0 ||| g x else 0)]
    split
    · simp [BitVec.or_assoc]
    · simp

theorem mapUnits_flags (sel : Mask) (f : Word → Word → Word → Word → Word × Num.Flags) (t : Nat) (ds as bs cs : List Word) :
    (mapUnits sel f t ds as bs cs).2 = (List.range as.length).foldl (fun acc i => if sel.getLsbD (t + i) then
      acc ||| (f (ds.getD i 0) (as.getD i 0) (bs.getD i 0) (cs.getD i 0)).2 else acc) 0 := by
  induction as generalizing t ds bs cs with
  | nil => rfl
  | cons a as ih =>
    have tl (l : List Word) (i : Nat) : l.tail.getD i 0 = l.getD (i + 1) 0 := by cases l <;> rfl
    have hd (l : List Word) : l.headD 0 = l.getD 0 0 := by cases l <;> rfl
    rw [List.length_cons, List.range_succ_eq_map, List.foldl_cons, List.foldl_map, mapUnits]
    have step : ∀ i, t + 1 + i = t + (i + 1) := fun i => by omega
    split <;> rename_i h
    · simp only [Nat.add_zero, h, if_true, ih, hd, tl, List.getD_cons_zero, step, Nat.succ_eq_add_one, List.getD_cons_succ]
      rw [foldl_or (a := 0 ||| _)]
      simp
    · simp only [Nat.add_zero, h, ih, tl, step, Nat.succ_eq_add_one, List.getD_cons_succ]
      rfl

theorem take_getD (l : List Word) (n i : Nat) (h : i < n) : (l.take n).getD i 0 = l.getD i 0 := by
  rw [List.getD_eq_getElem?_getD, List.getElem?_take_of_lt h, List.getD_eq_getElem?_getD]

theorem map_range_congr {α : Type} (n : Nat) (f g : Nat → α) (h : ∀ i, i < n → f i = g i) :
    (List.range n).map f = (List.range n).map g := by
  apply List.map_congr_left
  intro i hi
  exact h i (List.mem_range.mp hi)

theorem foldl_range_congr {α : Type} (n : Nat) (f g : α → Nat → α) (a : α) (h : ∀ b i, i < n → f b i = g b i) :
    (List.range n).foldl f a = (List.range n).foldl g a := by
  induction n generalizing a with
  | zero => rfl
  | succ n ih =>
    rw [List.range_succ, List.foldl_append, List.foldl_append, ih a fun b i hi => h b i (by omega)]
    exact h _ n (by omega)

/-- Writing a destination leaves the flags alone. -/
theorem writeD_fpflags (c : Core) (u : Bool) (code : BitVec 8) (m : Mask) (l : List Word) (bm : Word) :
    (c.writeD u code m l bm).fpflags = c.fpflags := by
  unfold Core.writeD
  split
  · rfl
  · split <;> rfl

theorem result_fpflags (c b : Core) (k : Nat) (u : Bool) (code : BitVec 8) (m : Mask) (l : List Word) (bm : Word) :
    (c.result b k u code m l bm).fpflags = c.fpflags := by
  unfold Core.result Core.openLook
  simp only
  split
  · exact writeD_fpflags c u code m l bm
  · exact writeD_fpflags c u code m l bm

/-- The sources a word reads, in the order it reads them. -/
def Sources.codes (r : Sources) (w : Single) : List (BitVec 8) :=
  (if r.a.isSome then [w.a] else []) ++ (if r.b.isSome then [w.b] else []) ++ (if r.c.isSome then [w.c] else [])
    ++ (if r.d then [w.d] else [])

/-- One word computed unit by unit (R136): where its sources can be read it completes, each executing unit writing f of the old D
and of A, B and C. -/
theorem mapWord_computes (s : State) (w : Single) (r : Sources) (f : Word → Word → Word → Word → Word × Num.Flags) (look : Bool)
    (bm : Word) (h : Running s) :
    Computes s w (r.codes w) look bm (.next (s.mapWord w r f look bm)) fun e t =>
      let v (code : BitVec 8) (ty : Option Nat) : Word := match ty with | some ty => e.unit ty w.imm code t | none => 0
      f (if r.d then v w.d (some 0) else 0) (v w.a r.a) (v w.b r.b) (v w.c r.c) := by
  intro e he ha
  refine ⟨_, rfl, ?_⟩
  obtain ⟨K, hK, hm⟩ : ∃ K : Core → Core, (∀ c, K c =
      let sel := units w.u (e.guard w.ng)
      let n := if w.u then 64 else 256
      let v (code : BitVec 8) (ty : Option Nat) : List Word :=
        match ty with | some ty => (e.src ty w.imm code).take n | none => []
      let va := if r.a.isSome then v w.a r.a else List.replicate n 0
      let out := mapUnits sel f 0 (if r.d then v w.d (some 0) else []) va (v w.b r.b) (v w.c r.c)
      let d := c.result e.me.core (if look then w.look.toNat else 0) w.u w.d sel out.1 bm
      { d with fpflags := d.fpflags ||| out.2 }) ∧ s.mapWord w r f look bm = s.finish e [keyOf w.d] none K := by
    refine ⟨_, fun _ => rfl, ?_⟩
    unfold State.mapWord
    simp only [Sources.codes] at he
    simp only [he] <;> rfl
  rw [hm]
  have fin := finish_end s e [keyOf w.d] K h ha
  refine ⟨fin.core.trans ?_, fin.others, fin.cur, fin.team, fin.ctx, fin.mem, fin.hostMem, fin.lentMem⟩
  rw [hK]
  generalize s.me.core.after e.queue = c
  have hn : (if w.u then 64 else 256) ≤ 256 := by split <;> omega
  generalize hN : (if w.u = true then 64 else 256) = n at hn
  let v (code : BitVec 8) (ty : Option Nat) : List Word :=
    match ty with | some ty => (e.src ty w.imm code).take n | none => []
  let u (t : Nat) (code : BitVec 8) (ty : Option Nat) : Word := match ty with | some ty => e.unit ty w.imm code t | none => 0
  have hv (code : BitVec 8) (ty : Option Nat) (t : Nat) (ht : t < n) : (v code ty).getD t 0 = u t code ty := by
    cases ty with
    | none => rfl
    | some ty => exact take_getD _ _ _ ht
  have hd (t : Nat) (ht : t < n) : (if r.d then v w.d (some 0) else []).getD t 0 = if r.d then u t w.d (some 0) else 0 := by
    split
    · exact hv w.d (some 0) t ht
    · rfl
  have hva (t : Nat) (ht : t < n) : (if r.a.isSome then v w.a r.a else List.replicate n 0).getD t 0 = u t w.a r.a := by
    cases hr : r.a with
    | none => simp [u, List.getD_eq_getElem?_getD, ht]
    | some ty => exact hv w.a (some ty) t ht
  have hla : (if r.a.isSome then v w.a r.a else List.replicate n 0).length = n := by
    cases hr : r.a with
    | none => simp
    | some ty =>
      simp only [Option.isSome_some, if_true, v, List.length_take, Env.src, source_length]
      omega
  have vals : (mapUnits (units w.u (e.guard w.ng)) f 0 (if r.d then v w.d (some 0) else [])
      (if r.a.isSome then v w.a r.a else List.replicate n 0) (v w.b r.b) (v w.c r.c)).1
      = (List.range n).map fun t => if (units w.u (e.guard w.ng)).getLsbD t then
          (f (if r.d then u t w.d (some 0) else 0) (u t w.a r.a) (u t w.b r.b) (u t w.c r.c)).1 else 0 := by
    rw [mapUnits_vals, hla]
    refine map_range_congr n _ _ fun t ht => ?_
    rw [Nat.zero_add, hd t ht, hva t ht, hv _ _ t ht, hv _ _ t ht]
  have flags : (mapUnits (units w.u (e.guard w.ng)) f 0 (if r.d then v w.d (some 0) else [])
      (if r.a.isSome then v w.a r.a else List.replicate n 0) (v w.b r.b) (v w.c r.c)).2
      = (List.range n).foldl (fun acc t => if (units w.u (e.guard w.ng)).getLsbD t then
          acc ||| (f (if r.d then u t w.d (some 0) else 0) (u t w.a r.a) (u t w.b r.b) (u t w.c r.c)).2 else acc) 0 := by
    rw [mapUnits_flags, hla]
    refine foldl_range_congr n _ _ _ fun b t ht => ?_
    rw [Nat.zero_add, hd t ht, hva t ht, hv _ _ t ht, hv _ _ t ht]
  simp only [Core.wrote, hN]
  rw [← vals, ← flags]
  simp only [result_fpflags]
  rfl

end Sys2Proof.Machine
end

