-- ==== Sys2Proof/Tests/Slice0.lean ====
section
/-! SUPPORT. Tests: words written out from the specification's encodings, ill-formed terms, single steps whose results the
specification gives, and for the statements about the model states that meet their hypotheses. -/

set_option Elab.async false

namespace Sys2Proof.Tests

open Sys2Proof Sys2Proof.Machine

/-! Decoding. Every word is written out from the bit fields of R35, R40 to R42 and R398 and the codes of R37, R38, R58, R59 and
R399. -/

/-- Every scalar word of the list is the instruction beside it. -/
def scalars (l : List (Nat × Instr)) : Bool := l.all fun p => match decodeScalar p.1 with | .ok i => i == p.2 | .error _ => false

/-- Every lane word of the list is the instruction beside it, under the widest allocation. -/
def lanes (l : List (Nat × Instr)) : Bool := l.all fun p => match decodeLane 192 p.1 with | .ok i => i == p.2 | .error _ => false

/-- Every packet of the list is the command beside it. -/
def packets (l : List (Nat × Instr)) : Bool := l.all fun p => match decodePacket p.1 with | .ok i => i.1 == p.2 | .error _ => false

/-- Why bits are no instruction. -/
def rejected {α : Type} (r : Except Reject α) : Option Reject := match r with | .ok _ => none | .error x => some x

/-- R34: the worked encodings of the specification, addi x7, x0, 1024, bne x1, x0, +1 and fadd.f32 v2, v0, v1. -/
theorem test_decode_worked :
    scalars [(0x04E00400, .addi 7 0 1024), (0x44200001, .bne 1 0 1)] = true ∧
    lanes [(0x080 * 2 ^ 78 + 2 * 2 ^ 74 + 0x02 * 2 ^ 66 + 0x00 * 2 ^ 58 + 0x01 * 2 ^ 50 + 0xF1 * 2 ^ 42,
      .fadd ⟨0, false, false, 2, 2, 0, 1, 0xF1, 0, 0, 0, false, 0, 0⟩)] = true := by decide +kernel

/-- R40, R58, R140 to R144: integer words. -/
theorem test_decode_integer : lanes
    [(0x00002020478BC40002480000, .iadd ⟨0,false,false,8,0x8,0x11,0xe2,0xf1,0x0,9,0,true,0,0x0⟩),
     (0x00006020478BC40002480000, .isub ⟨0,false,false,8,0x8,0x11,0xe2,0xf1,0x0,9,0,true,0,0x0⟩),
     (0x0000A020478BC40002480000, .imul ⟨0,false,false,8,0x8,0x11,0xe2,0xf1,0x0,9,0,true,0,0x0⟩),
     (0x0000C420478BC40000000000, .imulh ⟨0,false,false,1,0x8,0x11,0xe2,0xf1,0x0,0,0,false,0,0x0⟩),
     (0x00012820478B500002C00000, .imad ⟨0,false,false,10,0x8,0x11,0xe2,0xd4,0x0,11,0,false,0,0x0⟩),
     (0x01014020478BC40000000000, .imin ⟨0,false,true,0,0x8,0x11,0xe2,0xf1,0x0,0,0,false,0,0x0⟩),
     (0x01018020478BC40000000000, .imax ⟨0,false,true,0,0x8,0x11,0xe2,0xf1,0x0,0,0,false,0,0x0⟩),
     (0x0001E02047C7C40000080000, .iabs ⟨0,false,false,8,0x8,0x11,0xf1,0xf1,0x0,0,0,true,0,0x0⟩),
     (0x0002202047C7C40000080000, .ineg ⟨0,false,false,8,0x8,0x11,0xf1,0xf1,0x0,0,0,true,0,0x0⟩),
     (0x00024820478BC40000000000, .andLane ⟨0,false,false,2,0x8,0x11,0xe2,0xf1,0x0,0,0,false,0,0x0⟩),
     (0x00028820478BC40000000000, .orLane ⟨0,false,false,2,0x8,0x11,0xe2,0xf1,0x0,0,0,false,0,0x0⟩),
     (0x0002C820478BC40000000000, .xorLane ⟨0,false,false,2,0x8,0x11,0xe2,0xf1,0x0,0,0,false,0,0x0⟩),
     (0x00030C2047C7C40000000000, .not ⟨0,false,false,3,0x8,0x11,0xf1,0xf1,0x0,0,0,false,0,0x0⟩),
     (0x01034020478BC40000000000, .shlLane ⟨0,false,true,0,0x8,0x11,0xe2,0xf1,0x0,0,0,false,0,0x0⟩),
     (0x01038020478BC40000000000, .shrLane ⟨0,false,true,0,0x8,0x11,0xe2,0xf1,0x0,0,0,false,0,0x0⟩),
     (0x0103C020478BC40000000000, .sraLane ⟨0,false,true,0,0x8,0x11,0xe2,0xf1,0x0,0,0,false,0,0x0⟩),
     (0x01040020478BC40000000000, .rot ⟨0,false,true,0,0x8,0x11,0xe2,0xf1,0x0,0,0,false,0,0x0⟩),
     (0x00044020478BC40000000000, .bfe ⟨0,false,false,0,0x8,0x11,0xe2,0xf1,0x0,0,0,false,0,0x0⟩),
     (0x00048420478B500000000000, .bfi ⟨0,false,false,1,0x8,0x11,0xe2,0xd4,0x0,0,0,false,0,0x0⟩),
     (0x0004EC2047C7C40000000000, .popcLane ⟨0,false,false,11,0x8,0x11,0xf1,0xf1,0x0,0,0,false,0,0x0⟩),
     (0x00052C2047C7C40000000000, .clzLane ⟨0,false,false,11,0x8,0x11,0xf1,0xf1,0x0,0,0,false,0,0x0⟩),
     (0x00056C2047C7C40000000000, .brev ⟨0,false,false,11,0x8,0x11,0xf1,0xf1,0x0,0,0,false,0,0x0⟩),
     (0x00058C2047C7C40000000000, .mov ⟨0,false,false,3,0x8,0x11,0xf1,0xf1,0x0,0,0,false,0,0x0⟩),
     (0x0005F820478B500003C08000, .sel ⟨0,false,false,14,0x8,0x11,0xe2,0xd4,0x0,15,0,false,0,0x8000⟩),
     (0x00062820478B500000080001, .idp4 ⟨0,false,false,10,0x8,0x11,0xe2,0xd4,0x0,0,0,true,0,0x1⟩)] = true := by decide +kernel

/-- R40, R58, R145 to R153: float and special-function words. -/
theorem test_decode_float : lanes
    [(0x00200C20478BC40002100000, .fadd ⟨0,false,false,3,0x8,0x11,0xe2,0xf1,0x0,8,1,false,0,0x0⟩),
     (0x00204C20478BC40002100000, .fsub ⟨0,false,false,3,0x8,0x11,0xe2,0xf1,0x0,8,1,false,0,0x0⟩),
     (0x00208C20478BC40002100000, .fmul ⟨0,false,false,3,0x8,0x11,0xe2,0xf1,0x0,8,1,false,0,0x0⟩),
     (0x0020C820478B500000200003, .fma ⟨0,false,false,2,0x8,0x11,0xe2,0xd4,0x0,0,2,false,0,0x3⟩),
     (0x00211020478BC40000000001, .fmin ⟨0,false,false,4,0x8,0x11,0xe2,0xf1,0x0,0,0,false,0,0x1⟩),
     (0x00215020478BC40000000001, .fmax ⟨0,false,false,4,0x8,0x11,0xe2,0xf1,0x0,0,0,false,0,0x1⟩),
     (0x0021882047C7C40000000000, .fabs ⟨0,false,false,2,0x8,0x11,0xf1,0xf1,0x0,0,0,false,0,0x0⟩),
     (0x0021C82047C7C40000000000, .fneg ⟨0,false,false,2,0x8,0x11,0xf1,0xf1,0x0,0,0,false,0,0x0⟩),
     (0x00220820478BC40000000000, .fcpys ⟨0,false,false,2,0x8,0x11,0xe2,0xf1,0x0,0,0,false,0,0x0⟩),
     (0x0022482047C7C40000300001, .frnd ⟨0,false,false,2,0x8,0x11,0xf1,0xf1,0x0,0,3,false,0,0x1⟩),
     (0x0022882047C7C40000000000, .fclass ⟨0,false,false,2,0x8,0x11,0xf1,0xf1,0x0,0,0,false,0,0x0⟩),
     (0x0022CC20478B500000080000, .fdp2 ⟨0,false,false,3,0x8,0x11,0xe2,0xd4,0x0,0,0,true,0,0x0⟩),
     (0x1440082047C7C40000100000, .rcp ⟨5,false,false,2,0x8,0x11,0xf1,0xf1,0x0,0,1,false,0,0x0⟩),
     (0x3C40502047C7C40000000000, .rsq ⟨15,false,false,4,0x8,0x11,0xf1,0xf1,0x0,0,0,false,0,0x0⟩),
     (0x1440882047C7C40000100000, .sqrt ⟨5,false,false,2,0x8,0x11,0xf1,0xf1,0x0,0,1,false,0,0x0⟩),
     (0x3C40D02047C7C40000000000, .exp2 ⟨15,false,false,4,0x8,0x11,0xf1,0xf1,0x0,0,0,false,0,0x0⟩),
     (0x3C41102047C7C40000000000, .log2 ⟨15,false,false,4,0x8,0x11,0xf1,0xf1,0x0,0,0,false,0,0x0⟩),
     (0x3C41502047C7C40000000000, .sinp ⟨15,false,false,4,0x8,0x11,0xf1,0xf1,0x0,0,0,false,0,0x0⟩),
     (0x3C41902047C7C40000000000, .cosp ⟨15,false,false,4,0x8,0x11,0xf1,0xf1,0x0,0,0,false,0,0x0⟩),
     (0x3C41D02047C7C40000000000, .tanh ⟨15,false,false,4,0x8,0x11,0xf1,0xf1,0x0,0,0,false,0,0x0⟩)] = true := by decide +kernel

/-- R40, R58, R125 to R131, R157: conversion and predicate words. -/
theorem test_decode_convert : lanes
    [(0x0050082047C7C40000600003, .cvt ⟨0,false,false,2,0x8,0x11,0xf1,0xf1,0x0,1,2,false,0,0x3⟩),
     (0x00505420478BC40000400001, .pack ⟨0,false,false,5,0x8,0x11,0xe2,0xf1,0x0,1,0,false,0,0x1⟩),
     (0x0050B420478BC40000000001, .unpk ⟨0,false,false,13,0x8,0x11,0xe2,0xf1,0x0,0,0,false,0,0x1⟩),
     (0x0050C820478B500001C00000, .scacc ⟨0,false,false,2,0x8,0x11,0xe2,0xd4,0x0,7,0,false,0,0x0⟩),
     (0x00511420478BC40000C00007, .scale ⟨0,false,false,5,0x8,0x11,0xe2,0xf1,0x0,3,0,false,0,0x7⟩),
     (0x0051482047C7C40000000002, .bscl ⟨0,false,false,2,0x8,0x11,0xf1,0xf1,0x0,0,0,false,0,0x2⟩),
     (0x016007C4478BC40000000005, .push ⟨0,false,true,1,0xf1,0x11,0xe2,0xf1,0x0,0,0,false,0,0x5⟩),
     (0x006043C7A3C7C40000000000, .pushv ⟨0,false,false,0,0xf1,0xe8,0xf1,0xf1,0x0,0,0,false,0,0x0⟩),
     (0x006083C7C7C7C40000000000, .pinv ⟨0,false,false,0,0xf1,0xf1,0xf1,0xf1,0x0,0,0,false,0,0x0⟩),
     (0x0060C3C7C7C7C40000000000, .pop ⟨0,false,false,0,0xf1,0xf1,0xf1,0xf1,0x0,0,0,false,0,0x0⟩),
     (0x00610023C7C7C40000000000, .psav ⟨0,false,false,0,0x8,0xf1,0xf1,0xf1,0x0,0,0,false,0,0x0⟩),
     (0x006143C447C7C40000000000, .prst ⟨0,false,false,0,0xf1,0x11,0xf1,0xf1,0x0,0,0,false,0,0x0⟩),
     (0x006183C7C7C7C40000000000, .exit ⟨0,false,false,0,0xf1,0xf1,0xf1,0xf1,0x0,0,0,false,0,0x0⟩),
     (0x0061CBC4478BC40000000032, .vote ⟨0,false,false,2,0xf1,0x11,0xe2,0xf1,0x0,0,0,false,0,0x32⟩),
     (0x00620023C7C7C40000000003, .rqp ⟨0,false,false,0,0x8,0xf1,0xf1,0xf1,0x0,0,0,false,0,0x3⟩),
     (0x006243C7C7C7C40000000000, .nopl ⟨0,false,false,0,0xf1,0xf1,0xf1,0xf1,0x0,0,0,false,0,0x0⟩)] = true := by decide +kernel

/-- R40, R58, R157, R198: cross-lane, team and memory words. -/
theorem test_decode_cross : lanes
    [(0x0070002047C7500000000024, .shfl ⟨0,false,false,0,0x8,0x11,0xf1,0xd4,0x0,0,0,false,0,0x24⟩),
     (0x00704020478B53FFFC000000, .shfli ⟨0,false,false,0,0x8,0x11,0xe2,0xd4,0xffff,0,0,false,0,0x0⟩),
     (0x0070882047C7C40000100000, .redl ⟨0,false,false,2,0x8,0x11,0xf1,0xf1,0x0,0,1,false,0,0x0⟩),
     (0x0070C02047C750000000000B, .scanl ⟨0,false,false,0,0x8,0x11,0xf1,0xd4,0x0,0,0,false,0,0xb⟩),
     (0x0071002047C750000C000002, .dswp ⟨0,false,false,0,0x8,0x11,0xf1,0xd4,0x3,0,0,false,0,0x2⟩),
     (0x00714023C7C7C4001C000000, .graft ⟨0,false,false,0,0x8,0xf1,0xf1,0xf1,0x7,0,0,false,0,0x0⟩),
     (0x00718023C7C7C40024000000, .join ⟨0,false,false,0,0x8,0xf1,0xf1,0xf1,0x9,0,0,false,0,0x0⟩),
     (0x0071C023C7C7C40000000000, .leave ⟨0,false,false,0,0x8,0xf1,0xf1,0xf1,0x0,0,0,false,0,0x0⟩),
     (0x00720023C7C7C40000000002, .tmemb ⟨0,false,false,0,0x8,0xf1,0xf1,0xf1,0x0,0,0,false,0,0x2⟩),
     (0x1080002047C7C7FFF1C300C2, .ld ⟨4,false,false,0,0x8,0x11,0xf1,0xf1,0xfffc,7,0,false,3,0xc2⟩),
     (0x0080602047C7C40013C00011, .st ⟨0,false,false,8,0x8,0x11,0xf1,0xf1,0x4,15,0,false,0,0x11⟩),
     (0x0080942047C7C40020000003, .lds ⟨0,false,false,5,0x8,0x11,0xf1,0xf1,0x8,0,0,false,0,0x3⟩),
     (0x0080C82047C7C40020000024, .sts ⟨0,false,false,2,0x8,0x11,0xf1,0xf1,0x8,0,0,false,0,0x24⟩),
     (0x00810023878B8C0014C00002, .smap ⟨0,false,false,0,0x8,0xe1,0xe2,0xe3,0x5,3,0,false,0,0x2⟩),
     (0x00814023C7C7C4003C000001, .sunmap ⟨0,false,false,0,0x8,0xf1,0xf1,0xf1,0xf,0,0,false,0,0x1⟩),
     (0x008183C7C7C7C40008000000, .sflush ⟨0,false,false,0,0xf1,0xf1,0xf1,0xf1,0x2,0,0,false,0,0x0⟩),
     (0x0081C3C447C7C4010100001A, .pref ⟨0,false,false,0,0xf1,0x11,0xf1,0xf1,0x40,4,0,false,0,0x1a⟩),
     (0x0482002047C7C40101000004, .llock ⟨1,false,false,0,0x8,0x11,0xf1,0xf1,0x40,4,0,false,0,0x4⟩),
     (0x0482402047C7C40101000004, .lunlk ⟨1,false,false,0,0x8,0x11,0xf1,0xf1,0x40,4,0,false,0,0x4⟩)] = true := by decide +kernel

/-- R40, R58, R217, R225, R245, R267: atomics, barriers, spools and ordering words. -/
theorem test_decode_sync : lanes
    [(0x00980420478BC40011840308, .atom ⟨0,false,false,1,0x8,0x11,0xe2,0xf1,0x4,6,0,false,4,0x308⟩),
     (0x00984820478B500000010080, .atomc ⟨0,false,false,2,0x8,0x11,0xe2,0xd4,0x0,0,0,false,1,0x80⟩),
     (0x00988BC4478BC40000420002, .red ⟨0,false,false,2,0xf1,0x11,0xe2,0xf1,0x0,1,0,false,2,0x2⟩),
     (0x0098C020478BC400208300A3, .waitc ⟨0,false,false,0,0x8,0x11,0xe2,0xf1,0x8,2,0,false,3,0xa3⟩),
     (0x0099002047C7C40041440001, .binit ⟨0,false,false,0,0x8,0x11,0xf1,0xf1,0x10,5,0,false,4,0x1⟩),
     (0x00994020478BC40001400007, .barv ⟨0,false,false,0,0x8,0x11,0xe2,0xf1,0x0,5,0,false,0,0x7⟩),
     (0x0099802047C7C40041400000, .bwait ⟨0,false,false,0,0x8,0x11,0xf1,0xf1,0x10,5,0,false,0,0x0⟩),
     (0x0099C023C7C7C40041400000, .binv ⟨0,false,false,0,0x8,0xf1,0xf1,0xf1,0x10,5,0,false,0,0x0⟩),
     (0x009A03C7C7C7C40000000000, .tbar ⟨0,false,false,0,0xf1,0xf1,0xf1,0xf1,0x0,0,0,false,0,0x0⟩),
     (0x00A80423C7C7C401038301C4, .spinit ⟨0,false,false,1,0x8,0xf1,0xf1,0xf1,0x40,14,0,false,3,0x1c4⟩),
     (0x00A84023C7C7C40001400001, .enq ⟨0,false,false,0,0x8,0xf1,0xf1,0xf1,0x0,5,0,false,0,0x1⟩),
     (0x00A88823C7C7C40101400002, .deq ⟨0,false,false,2,0x8,0xf1,0xf1,0xf1,0x40,5,0,false,0,0x2⟩),
     (0x00A8C023C7C7C4000140000B, .enqt ⟨0,false,false,0,0x8,0xf1,0xf1,0xf1,0x0,5,0,false,0,0xb⟩),
     (0x00A90023C7C7C4000140000B, .deqt ⟨0,false,false,0,0x8,0xf1,0xf1,0xf1,0x0,5,0,false,0,0xb⟩),
     (0x00A94023C7C7C40001400004, .spqry ⟨0,false,false,0,0x8,0xf1,0xf1,0xf1,0x0,5,0,false,0,0x4⟩),
     (0x00A98023C7C7C40001400000, .spfls ⟨0,false,false,0,0x8,0xf1,0xf1,0xf1,0x0,5,0,false,0,0x0⟩),
     (0x00B003C7C7C7C40000010000, .fence ⟨0,false,false,0,0xf1,0xf1,0xf1,0xf1,0x0,0,0,false,1,0x0⟩),
     (0x00B043C7C7C7C40000010000, .acq ⟨0,false,false,0,0xf1,0xf1,0xf1,0xf1,0x0,0,0,false,1,0x0⟩),
     (0x00B083C7C7C7C40000010000, .rel ⟨0,false,false,0,0xf1,0xf1,0xf1,0xf1,0x0,0,0,false,1,0x0⟩),
     (0x00B0C3C7C7C7C40003020003, .acqr ⟨0,false,false,0,0xf1,0xf1,0xf1,0xf1,0x0,12,0,false,2,0x3⟩),
     (0x00B103C7C7C7C40003020003, .relr ⟨0,false,false,0,0xf1,0xf1,0xf1,0xf1,0x0,12,0,false,2,0x3⟩),
     (0x00B14023C7C7C40000C00001, .shdw ⟨0,false,false,0,0x8,0xf1,0xf1,0xf1,0x0,3,0,false,0,0x1⟩),
     (0x00B18023C7C7C40000C40001, .publ ⟨0,false,false,0,0x8,0xf1,0xf1,0xf1,0x0,3,0,false,4,0x1⟩)] = true := by decide +kernel

/-- R40, R58, R360, R378: system and remote words. -/
theorem test_decode_system : lanes
    [(0x00B803C7C7C7C448D0000000, .trap ⟨0,false,false,0,0xf1,0xf1,0xf1,0xf1,0x1234,0,0,false,0,0x0⟩),
     (0x00B843C7C7C7C448D0000000, .brk ⟨0,false,false,0,0xf1,0xf1,0xf1,0xf1,0x1234,0,0,false,0,0x0⟩),
     (0x00B883C7C7C7C40000000000, .ckpt ⟨0,false,false,0,0xf1,0xf1,0xf1,0xf1,0x0,0,0,false,0,0x0⟩),
     (0x00B8C02047C7C4000000002F, .vqry ⟨0,false,false,0,0x8,0x11,0xf1,0xf1,0x0,0,0,false,0,0x2f⟩),
     (0x00B90023C7C7C40148000000, .srdl ⟨0,false,false,0,0x8,0xf1,0xf1,0xf1,0x52,0,0,false,0,0x0⟩),
     (0x00C00420478BC40010C40040, .rld ⟨0,false,false,1,0x8,0x11,0xe2,0xf1,0x4,3,0,false,4,0x40⟩),
     (0x00C06C20478BC40000C40080, .rst ⟨0,false,false,11,0x8,0x11,0xe2,0xf1,0x0,3,0,false,4,0x80⟩),
     (0x00C08820478B500000C40009, .ratom ⟨0,false,false,2,0x8,0x11,0xe2,0xd4,0x0,3,0,false,4,0x9⟩),
     (0x00C0C02047B7C40000C40082, .mcast ⟨0,false,false,0,0x8,0x11,0xed,0xf1,0x0,3,0,false,4,0x82⟩),
     (0x00C10420478BC40000C40000, .rspr ⟨0,false,false,1,0x8,0x11,0xe2,0xf1,0x0,3,0,false,4,0x0⟩),
     (0x00C14023C78BC40000040000, .lseq ⟨0,false,false,0,0x8,0xf1,0xe2,0xf1,0x0,0,0,false,4,0x0⟩),
     (0x00C1802047C7C40020C40004, .tierq ⟨0,false,false,0,0x8,0x11,0xf1,0xf1,0x8,3,0,false,4,0x4⟩),
     (0x00C1C023C78BC40190040000, .evwait ⟨0,false,false,0,0x8,0xf1,0xe2,0xf1,0x64,0,0,false,4,0x0⟩)] = true := by decide +kernel

/-- R42, R58, R285, R319: engine words. -/
theorem test_decode_engine : lanes
    [(0x83403408E4F1000003C00000, .cpy ⟨0,3,4,0x8,0xe4,0xf1,0x0,0x3c00000⟩),
     (0x834134F1E4E7000000046000, .cpym ⟨0,3,4,0xf1,0xe4,0xe7,0x0,0x46000⟩),
     (0x83420408E4EF000000200000, .cpyr ⟨0,0,4,0x8,0xe4,0xef,0x0,0x200000⟩),
     (0x83431008E1E4340000101900, .cpyf ⟨0,1,0,0x8,0xe1,0xe4,0x3400,0x101900⟩),
     (0x83442008F1F1001000000004, .crinit ⟨0,2,0,0x8,0xf1,0xf1,0x10,0x4⟩),
     (0x8345200811F1000000000000, .await ⟨0,2,0,0x8,0x11,0xf1,0x0,0x0⟩),
     (0x83462008E3F1000000000000, .rslot ⟨0,2,0,0x8,0xe3,0xf1,0x0,0x0⟩),
     (0x83472B08ECF1000000000000, .node ⟨0,2,11,0x8,0xec,0xf1,0x0,0x0⟩),
     (0x8348F0F1F1F1000000000000, .arm ⟨0,15,0,0xf1,0xf1,0xf1,0x0,0x0⟩),
     (0x83492008F1F1000088000000, .ply ⟨0,2,0,0x8,0xf1,0xf1,0x0,0x88000000⟩),
     (0x834A2008E1F1BEEF00004000, .adpf ⟨0,2,0,0x8,0xe1,0xf1,0xbeef,0x4000⟩),
     (0x838000F1E1E234000050094C, .mma ⟨0,0,0,0xf1,0xe1,0xe2,0x3400,0x50094c⟩),
     (0x838100F1F111AB1000000084, .mmas ⟨0,0,0,0xf1,0xf1,0x11,0xab10,0x84⟩),
     (0x838200F1E1DCEE0000000020, .mmg ⟨0,0,0,0xf1,0xe1,0xdc,0xee00,0x20⟩),
     (0x838300F110E2C00000700002, .pln ⟨0,0,0,0xf1,0x10,0xe2,0xc000,0x700002⟩),
     (0x838430F1E1F1FFC000000008, .mlda ⟨0,3,0,0xf1,0xe1,0xf1,0xffc0,0x8⟩),
     (0x838500F1F1F1004080000004, .msta ⟨0,0,0,0xf1,0xf1,0xf1,0x40,0x80000004⟩),
     (0x838600F1F1F100000000000F, .mzro ⟨0,0,0,0xf1,0xf1,0xf1,0x0,0xf⟩),
     (0x838700F1F1F1000000000000, .mrel ⟨0,0,0,0xf1,0xf1,0xf1,0x0,0x0⟩),
     (0x838800F1F1F100000000000F, .mwait ⟨0,0,0,0xf1,0xf1,0xf1,0x0,0xf⟩)] = true := by decide +kernel

/-- R41, R59: pair words, each operation in slot P and in slot Q. -/
theorem test_decode_pair : lanes
    [(0x401420444BC443B091314F10, .iaddPair ⟨false,false,5,8,0x11,0x12,0xf1,0⟩ .or ⟨false,true,3,9,0x13,0x14,0xf1,0⟩),
     (0x403420444BC4443091314F10, .isubPair ⟨false,false,5,8,0x11,0x12,0xf1,0⟩ .xor ⟨false,true,3,9,0x13,0x14,0xf1,0⟩),
     (0x405420444BC444D091314F10, .imulPair ⟨false,false,5,8,0x11,0x12,0xf1,0⟩ .shl ⟨false,true,5,9,0x13,0x14,0xf1,0⟩),
     (0x407420444B94455091314F10, .imadPair ⟨false,false,5,8,0x11,0x12,0xe5,0⟩ .shr ⟨false,true,5,9,0x13,0x14,0xf1,0⟩),
     (0x409420444BC445D091314F10, .iminPair ⟨false,false,5,8,0x11,0x12,0xf1,0⟩ .sra ⟨false,true,5,9,0x13,0x14,0xf1,0⟩),
     (0x40B420444BC44630913F1F10, .imaxPair ⟨false,false,5,8,0x11,0x12,0xf1,0⟩ .mov ⟨false,true,3,9,0x13,0xf1,0xf1,0⟩),
     (0x40CC20444BC446B091314E50, .andPair ⟨false,false,3,8,0x11,0x12,0xf1,0⟩ .sel ⟨false,true,3,9,0x13,0x14,0xe5,0⟩),
     (0x40EC20444BC4472091314F14, .orPair ⟨false,false,3,8,0x11,0x12,0xf1,0⟩ .fadd ⟨false,true,2,9,0x13,0x14,0xf1,1⟩),
     (0x410C20444BC447A091314F14, .xorPair ⟨false,false,3,8,0x11,0x12,0xf1,0⟩ .fsub ⟨false,true,2,9,0x13,0x14,0xf1,1⟩),
     (0x413420444BC4482091314F14, .shlPair ⟨false,false,5,8,0x11,0x12,0xf1,0⟩ .fmul ⟨false,true,2,9,0x13,0x14,0xf1,1⟩),
     (0x415420444BC448A091314E54, .shrPair ⟨false,false,5,8,0x11,0x12,0xf1,0⟩ .fma ⟨false,true,2,9,0x13,0x14,0xe5,1⟩),
     (0x417420444BC4492091314F10, .sraPair ⟨false,false,5,8,0x11,0x12,0xf1,0⟩ .fmin ⟨false,true,2,9,0x13,0x14,0xf1,0⟩),
     (0x418C2047C7C449A091314F10, .movPair ⟨false,false,3,8,0x11,0xf1,0xf1,0⟩ .fmax ⟨false,true,2,9,0x13,0x14,0xf1,0⟩),
     (0x41AC20444B944A20913F1F10, .selPair ⟨false,false,3,8,0x11,0x12,0xe5,0⟩ .fabs ⟨false,true,2,9,0x13,0xf1,0xf1,0⟩),
     (0x41C820444BC54AA0913F1F10, .faddPair ⟨false,false,2,8,0x11,0x12,0xf1,1⟩ .fneg ⟨false,true,2,9,0x13,0xf1,0xf1,0⟩),
     (0x41E820444BC5405091314F10, .fsubPair ⟨false,false,2,8,0x11,0x12,0xf1,1⟩ .iadd ⟨false,true,5,9,0x13,0x14,0xf1,0⟩),
     (0x420820444BC540D091314F10, .fmulPair ⟨false,false,2,8,0x11,0x12,0xf1,1⟩ .isub ⟨false,true,5,9,0x13,0x14,0xf1,0⟩),
     (0x422820444B95415091314F10, .fmaPair ⟨false,false,2,8,0x11,0x12,0xe5,1⟩ .imul ⟨false,true,5,9,0x13,0x14,0xf1,0⟩),
     (0x424820444BC441D091314E50, .fminPair ⟨false,false,2,8,0x11,0x12,0xf1,0⟩ .imad ⟨false,true,5,9,0x13,0x14,0xe5,0⟩),
     (0x426820444BC4425091314F10, .fmaxPair ⟨false,false,2,8,0x11,0x12,0xf1,0⟩ .imin ⟨false,true,5,9,0x13,0x14,0xf1,0⟩),
     (0x42882047C7C442D091314F10, .fabsPair ⟨false,false,2,8,0x11,0xf1,0xf1,0⟩ .imax ⟨false,true,5,9,0x13,0x14,0xf1,0⟩),
     (0x42A82047C7C4433091314F10, .fnegPair ⟨false,false,2,8,0x11,0xf1,0xf1,0⟩ .and ⟨false,true,3,9,0x13,0x14,0xf1,0⟩)] = true := by decide +kernel

/-- R35, R38: the SR group. -/
theorem test_decode_scalar_registers : scalars
    [(0x0131F000, .add 9 17 30),
     (0x0131F001, .sub 9 17 30),
     (0x0131F002, .and 9 17 30),
     (0x0131F003, .or 9 17 30),
     (0x0131F004, .xor 9 17 30),
     (0x0131F005, .shl 9 17 30),
     (0x0131F006, .shr 9 17 30),
     (0x0131F007, .sra 9 17 30),
     (0x0131F008, .mul 9 17 30),
     (0x0131F009, .mulh 9 17 30),
     (0x0131F00A, .mulhn 9 17 30),
     (0x0131F00B, .divn 9 17 30),
     (0x0131F00C, .remn 9 17 30),
     (0x0131F00D, .min 9 17 30),
     (0x0131F00E, .max 9 17 30),
     (0x0131F00F, .minn 9 17 30),
     (0x0131F010, .maxn 9 17 30),
     (0x0131F011, .slt 9 17 30),
     (0x0131F012, .sltn 9 17 30),
     (0x0131F013, .seq 9 17 30),
     (0x01310014, .clz 9 17),
     (0x01310015, .popc 9 17)] = true := by decide +kernel

/-- R35, R37: immediates, branches and jumps. -/
theorem test_decode_scalar_immediates : scalars
    [(0x05318001, .addi 9 17 0x8001),
     (0x09318001, .andi 9 17 0x8001),
     (0x0D318001, .ori 9 17 0x8001),
     (0x11318001, .xori 9 17 0x8001),
     (0x1531001F, .shli 9 17 31),
     (0x1931001F, .shri 9 17 31),
     (0x1D31001F, .srai 9 17 31),
     (0x2131FFFE, .slti 9 17 0xFFFE),
     (0x25310005, .sltni 9 17 5),
     (0x2920ABCD, .lui 9 0xABCD),
     (0x2D31FFFF, .muli 9 17 0xFFFF),
     (0x33E70000, .jr 31 7),
     (0x3560FFFD, .loop 11 0xFFFD),
     (0x41318000, .beq 9 17 0x8000),
     (0x45318000, .bne 9 17 0x8000),
     (0x49318000, .blt 9 17 0x8000),
     (0x4D318000, .bge 9 17 0x8000),
     (0x51318000, .bltn 9 17 0x8000),
     (0x55318000, .bgen 9 17 0x8000),
     (0x5BFFFFFE, .j 0x3FFFFFE),
     (0x5C000005, .jal 5)] = true := by decide +kernel

/-- R35 to R37: the lane, queue, memory, capability and system words. -/
theorem test_decode_scalar_system : scalars
    [(0x60110010, .lrun 17 0x10),
     (0x64110003, .ljmp 17 3),
     (0x68000000, .lsync),
     (0x6D200000, .xrq 9),
     (0x71EEC800, .qfeed 15 14 25),
     (0x75E00000, .qhalt 15),
     (0x792F0000, .qstat 9 15),
     (0x812FFFFC, .xld 9 15 0xFFFC),
     (0x852F0004, .xst 9 15 4),
     (0x89CF0010, .cld 14 15 16),
     (0x8DCF0010, .cst 14 15 16),
     (0x91CFE000, .cbnd 14 15 28),
     (0x95CFF800, .cperm 14 15 31),
     (0x992F0004, .cget 9 15 4),
     (0x9DCF0000, .cmov 14 15),
     (0xA1200052, .srd 9 0x52),
     (0xA4110020, .swr 17 0x20),
     (0xA800ABCD, .strap 0xABCD),
     (0xAC000000, .sexit),
     (0xB12F00BA, .xwait 9 15 0xBA),
     (0xB8000000, .nop)] = true := by decide +kernel

/-- R398, R399: every command, by OPC, with the CAPV bits it needs. -/
theorem test_decode_packets : packets
    [(0x01 + 3 * 2 ^ 16, .launch), (0x02 + 1 * 2 ^ 16, .armnode), (0x03 + 1 * 2 ^ 16, .plyrun), (0x04 + 2 ^ 19, .mark),
     (0x20 + 23 * 2 ^ 8 + 0xFFFFFF * 2 ^ 32, .part), (0x21 + 63 * 2 ^ 8 + 3 * 2 ^ 16, .ctxnew), (0x22 + 5 * 2 ^ 8, .ctxdel),
     (0x23 + 2 ^ 32, .ptroot), (0x24 + 2 ^ 128, .tlbinv), (0x25 + 63 * 2 ^ 32 + 7 * 2 ^ 64 + 2 ^ 128, .grant),
     (0x26 + 1 * 2 ^ 16 + 255 * 2 ^ 32 + 9 * 2 ^ 64, .qreg), (0x27 + 9 * 2 ^ 64, .qunreg), (0x28 + 2 ^ 32 + 2 ^ 64, .setp),
     (0x29 + 2 ^ 32 + 0xFFFF * 2 ^ 64, .ways), (0x2A + 255 * 2 ^ 32, .pubt), (0x2B, .loanLend), (0x2B + 1 * 2 ^ 32, .loanMap),
     (0x2B + 2 * 2 ^ 32, .loanRecall), (0x2B + 3 * 2 ^ 32, .loanEnd), (0x2C, .preempt), (0x2D, .resume),
     (0x2E, .faultansRetry), (0x2E + 1 * 2 ^ 64, .faultansResume), (0x2E + 2 * 2 ^ 64, .faultansKill), (0x2F + 2 ^ 32, .gangsw),
     (0x30 + 3 * 2 ^ 32, .query), (0x38 + 2 ^ 128, .fwupd), (0x39 + 2 ^ 128, .attest)] = true := by decide +kernel

/-- R398, R400: a packet's fields, and the offsets of its faults: an unassigned OPC, a CAPV bit not allowed, the reserved bits 22
and 27, and a field that must be zero. -/
theorem test_packet_fields :
    (decodePacket (0x20 + 23 * 2 ^ 8 + 2 ^ 19 + 7 * 2 ^ 24 + 0xABCDEF * 2 ^ 32 + 0x80000001 * 2 ^ 64)).toOption
      = some (.part, { tgt := 23, capv := 0, fence := true, tick := false, sysc := false, prio := 7, arg0 := 0xABCDEF,
                       arg1 := 0x80000001, f0 := 0, f1 := 0, f2 := 0 })
    ∧ [0x05, 0x04 + 2 ^ 16, 0x04 + 2 ^ 22, 0x04 + 2 ^ 27, 0x04 + 2 ^ 128].map (fun w => rejected (decodePacket w))
        = [some (.badPacket 0), some (.badPacket 2), some (.badPacket 2), some (.badPacket 3), some (.badPacket 16)] := by
  decide +kernel

/-- R60, R61: scalar words that are no instructions, one for each detail. -/
theorem test_illegal_scalars :
    [0x38000000, 0x00000016, 0x82100000, 0x74100000, 0x0000F814, 0xAC000001, 0x14000020, 0x98000005, 0xA000000D, 0xA4000000].map
        (fun w => rejected (decodeScalar w)) = [1, 1, 2, 3, 3, 3, 4, 4, 4, 4].map fun d => some (.ills d) := by decide +kernel

/-! Well-formedness: an ill-formed term for each check. -/

/-- A word whose unused fields are as R43 asks. -/
def word (ty : BitVec 4) (d a b c : BitVec 8) (mod : BitVec 16 := 0) (imm : BitVec 16 := 0) (sel : BitVec 4 := 0)
    (scope : BitVec 3 := 0) : Single := ⟨0, false, false, ty, d, a, b, c, imm, sel, 0, false, scope, mod⟩

/-- Every instruction of the list breaks the detail beside it, for a launch of 64 registers. -/
def breaks (l : List (Nat × Instr)) : Bool := l.all fun p => Legal.detail 64 p.2 == some p.1 && !p.2.wf 64

/-- The scalar range checks (R36, R37, R69, R92). -/
theorem test_illformed_scalar : breaks
    [(4, .cget 1 2 5), (4, .qfeed 1 2 26), (4, .cbnd 1 2 29), (4, .srd 1 0x00D), (4, .swr 1 0x000), (3, .xwait 1 2 0x100),
     (4, .xwait 1 2 0x50), (4, .xwait 1 2 0x04)] = true := by decide +kernel

/-- The checks of R44, R61 and R137 that the arithmetic classes share. -/
theorem test_illformed_arithmetic :
    let w := word 0 1 2 3 0xF1
    breaks
    [(3, .iadd { w with imm := 1 }), (3, .iadd { w with sel := 1 }), (3, .iadd { w with sel := 8 }), (3, .iadd { w with mod := 1 }),
     (3, .imulh { w with sat := true }), (3, .iadd { w with mod := 0x8000 }), (4, .iadd { w with a := 64 }),
     (4, .iadd { w with b := 0xF6 }), (4, .iadd { w with d := 0xC0 }), (4, .iadd { w with d := 0xD0 }), (4, .iadd { w with d := 64 }),
     (5, .iadd { w with ty := 2 }), (5, .iadd { w with rnd := 1 }), (5, .iadd { w with scope := 1 }),
     (5, .bscl (let x := word 2 1 2 0xF1 0xF1; { x with u := true })), (7, .iadd { w with a := 0xC0, b := 0xC1 }),
     (5, .iabs { w with ty := 1, b := 0xF1 }), (5, .idp4 { w with ty := 0, c := 4 }), (3, .idp4 { w with ty := 10, c := 4, mod := 2 }),
     (5, .fadd w), (5, .fdp2 { w with ty := 2, c := 4 }), (3, .fma { w with ty := 2, c := 4, mod := 4 }),
     (3, .rcp { w with ty := 2, b := 0xF1, sel := 9 }), (5, .rcp { w with ty := 5, b := 0xF1 })] = true := by decide +kernel

/-- The checks of the conversion, predicate, cross-lane and team classes (R125, R157). -/
theorem test_illformed_converting : breaks
    [(3, .cvt (word 2 1 2 0xF1 0xF1 0x13)), (3, .cvt (word 2 1 2 0xF1 0xF1 3 0 2)), (5, .cvt (word 2 1 2 0xF1 0xF1 2)),
     (5, .pack (word 2 1 2 3 0xF1)), (3, .pack (word 5 1 2 3 0xF1 0 0 2)), (5, .unpk (word 0 1 2 3 0xF1)), (3, .scacc (word 2 1 2 3 4 2)),
     (3, .scacc (word 2 1 2 3 4 1 0 1)), (3, .scale (word 5 1 2 3 0xF1 0 0 4)), (5, .scale (word 0 1 2 3 0xF1)),
     (3, .bscl (word 2 1 2 0xF1 0xF1 3)), (3, .push (word 0 0xF1 1 2 0xF1 6)), (3, .vote (word 0 0xF1 1 2 0xF1 0x40)),
     (4, .pushv (word 0 0xF1 0xE9 0xF1 0xF1)), (5, .pop (word 1 0xF1 0xF1 0xF1 0xF1)), (3, .prst (word 0 0xF1 0xF0 0xF1 0xF1 0 1)),
     (3, .rqp (word 0 1 0xF1 0xF1 0xF1 4)), (4, .rqp (word 0 0xD0 0xF1 0xF1 0xF1)), (3, .shfl (word 0 1 2 0xF1 3 0x11)),
     (3, .shfl (word 0 1 2 0xF1 3 4)), (3, .redl (word 0 1 2 0xF1 0xF1 8)), (5, .scanl (let w := word 0 1 2 0xF1 3; { w with rnd := 1 })),
     (3, .dswp (word 0 1 2 0xF1 3 3)), (3, .join (word 0 1 0xF1 0xF1 0xF1)), (3, .tmemb (word 0 1 0xF1 0xF1 0xF1 3))] = true := by
  decide +kernel

/-- The checks of the memory, atomic, synchronisation and spool classes (R198, R215, R217, R225, R245, R267). -/
theorem test_illformed_memory : breaks
    [(3, .ld (word 0 1 2 0xF1 0xF1 5)), (3, .ld (word 0 1 2 0xF1 0xF1 0x60)), (5, .ld (word 8 1 2 0xF1 0xF1 0x20)),
     (5, .ld (word 12 1 2 0xF1 0xF1)), (4, .ld (word 0 63 2 0xF1 0xF1 0x20)), (5, .ld (word 0 1 2 0xF1 0xF1 0 0 0 3)),
     (4, .ld (word 0 1 0xF0 0xF1 0xF1)), (3, .lds (word 0 1 2 0xF1 0xF1 8)), (3, .lds (word 0 1 2 0xF1 0xF1 0 0 1)),
     (3, .st (word 0 1 2 0xF1 0xF1 0x100)), (3, .smap (word 0 1 0xE1 0xE2 0xE3 3)), (4, .smap (word 0 1 4 0xE2 0xE3)),
     (3, .sunmap (word 0 1 0xF1 0xF1 0xF1 0 16)), (3, .sflush (word 0 0xF1 0xF1 0xF1 0xF1 2)), (3, .pref (word 0 0xF1 1 0xF1 0xF1 0x20)),
     (3, .llock (word 0 1 2 0xF1 0xF1 5)), (3, .atom (word 0 1 2 3 0xF1 9 0 0 2)), (5, .atom (word 2 1 2 3 0xF1 3 0 0 2)),
     (5, .atom (word 0 1 2 3 0xF1 0 0 0 1)), (5, .atom (word 0 1 2 3 0xF1 0x80 0 0 2)), (3, .atomc (word 0 1 2 3 4 1 0 0 2)),
     (3, .waitc (word 0 1 2 3 0xF1 4)), (5, .waitc (word 0 1 2 3 0xF1 0x80)), (5, .binit (word 0 1 2 0xF1 0xF1 0 0 0 1)),
     (3, .barv (word 0 1 2 3 0xF1 8)), (4, .bwait (word 0 0xD1 2 0xF1 0xF1)), (5, .tbar (word 0 0xF1 0xF1 0xF1 0xF1 0 0 0 1)),
     (3, .spinit (word 0 1 0xF1 0xF1 0xF1 (25 * 8) 0 0 3)), (3, .spinit (word 0 1 0xF1 0xF1 0xF1 0 0 15 3)),
     (5, .spinit (word 0 1 0xF1 0xF1 0xF1)), (3, .enq (word 0 1 0xF1 0xF1 0xF1 5)), (4, .deq (word 0 61 0xF1 0xF1 0xF1 2)),
     (3, .spqry (word 0 1 0xF1 0xF1 0xF1 5)), (5, .spfls (word 1 1 0xF1 0xF1 0xF1)), (5, .fence (word 0 0xF1 0xF1 0xF1 0xF1)),
     (3, .acqr (word 0 0xF1 0xF1 0xF1 0xF1 3 0 13 2)), (5, .relr (word 0 0xF1 0xF1 0xF1 0xF1 0 0 0 1)),
     (5, .publ (word 0 1 0xF1 0xF1 0xF1))] = true := by decide +kernel

/-- The checks of the system, remote, copy, chart and matrix classes (R284, R285, R319, R320, R360, R378). -/
theorem test_illformed_engine :
    let e : Eng := ⟨0, 1, 2, 3, 0xE1, 0xF1, 0, 0⟩
    breaks
    [(4, .srdl (word 0 1 0xF1 0xF1 0xF1 0 0x053)), (3, .vqry (word 0 1 2 0xF1 0xF1 0x30)), (5, .rld (word 0 1 2 3 0xF1 0 0 0 3)),
     (3, .ratom (word 0 1 2 3 4 0x80 0 0 4)), (4, .mcast (word 0 1 2 0xEE 0xF1 0 0 0 4)), (3, .rspr (word 0 1 2 3 0xF1 1 0 0 4)),
     (3, .lseq (word 0 1 0xF1 2 0xF1 1 0 0 4)), (3, .tierq (word 0 1 2 0xF1 0xF1 5 0 0 4)), (3, .evwait (word 0 1 0xF1 2 0xF1 0 0 1 4)),
     (3, .cpy { e with ex := 2 ^ 19 }), (3, .cpy { e with ex := 15 * 2 ^ 13 }), (5, .cpy { e with ex := 2 ^ 18 }),
     (4, .cpy { e with s1 := 0xEE }), (3, .cpy { e with ex := 2 ^ 20 }), (4, .cpym { e with s2 := 1 }),
     (3, .cpyr { e with s2 := 0xE4, ex := 2 ^ 20 }), (3, .cpyf { e with eb := 0, s2 := 0xE4, imm := 0x3400, ex := 2 ^ 20 }),
     (5, .cpyf { e with eb := 0, s2 := 0xE4, imm := 0x3700, ex := 2 ^ 20 + 2 ^ 6 }), (3, .crinit { e with eb := 0, s1 := 0xF1, imm := 17, ex := 3 }),
     (5, .crinit { e with eb := 0, s1 := 0xF1, ex := 2 }), (4, .await { e with eb := 0, d := 0xF1 }), (4, .await { e with eb := 0, s1 := 0xF0 }),
     (3, .node { e with eb := 12 }), (3, .arm { e with eb := 0, s1 := 0xF1, ex := 1 }), (3, .ply { e with eb := 0, s1 := 0xF1, ex := 1 }),
     (3, .adpf { e with eb := 0, ex := 2 ^ 20 }), (3, .mma ⟨0, 0, 0, 0xF1, 0xF1, 0xF1, 0x3300, 0⟩),
     (5, .mma ⟨0, 0, 0, 0xF1, 0xF1, 0xF1, 0x3700, 16⟩), (4, .mmg ⟨0, 0, 0, 0xF1, 0xF1, 0xDD, 0x3300, 16⟩),
     (3, .mmas ⟨0, 0, 0, 0xF1, 0xF1, 1, 0x3301, 16⟩), (3, .pln ⟨0, 0, 0, 0xF1, 1, 0xF1, 0x3000, 3⟩),
     (3, .mlda ⟨0, 1, 0, 0xF1, 0xF1, 0xF1, 0, 0x80000000⟩), (3, .mzro ⟨0, 0, 0, 0xF1, 0xF1, 0xF1, 0, 0⟩),
     (3, .mrel ⟨0, 0, 0, 0xF1, 0xF1, 0xF1, 0, 1⟩)] = true := by decide +kernel

/-- The checks of the pair format (R55, R57). -/
theorem test_illformed_pair :
    let p : Slot := ⟨false, false, 0, 1, 4, 5, 0xF1, 0⟩
    let q : Slot := ⟨false, false, 0, 2, 6, 7, 0xF1, 0⟩
    breaks
    [(4, .iaddPair { p with a := 0xF0 } .iadd q), (4, .iaddPair { p with d := 0xF1 } .iadd q), (5, .iaddPair { p with pty := 2 } .iadd q),
     (5, .iaddPair p .fadd q), (5, .iaddPair { p with rnd := 1 } .iadd q), (6, .iaddPair p .iadd { q with d := 5 }),
     (6, .iaddPair p .iadd { q with a := 1 }), (6, .iaddPair { p with b := 8 } .iadd { q with a := 12, b := 7 }),
     (6, .iaddPair { p with a := 0xC0 } .iadd { q with a := 0xC1 })] = true := by decide +kernel

/-! States that meet the hypotheses of the statements. -/

/-- A charge on an account of cluster 0. -/
def charge0 (acct ns : Nat) : Charge := { cluster := 0, acct := acct, ns := ns }

/-- A machine past its boot with one course of a context, its registers c; tenant 0 is granted its whole address range. -/
def at_ (c : Core) : State :=
  { State.reset.withContext.withCourse c with grants := [(0, 0, mkCap 0 0x3F (2 ^ 40 - 1) 0x7F 0)] }

/-- A scalar stream: x1 = 1, x2 = 2, x3 = 0x80000000, and the PC at byte 100 of its section of 65,536. -/
def scalarCore : Core :=
  { startCore with pc := 100, xs := [0, 1, 2, 0x80000000], caps := [mkCap 0 0 256 0x7F 0x1000, 0, mkCap 5 0 64 3 0x2000] }

/-- The machine with that scalar stream. -/
def scalarAt : State := at_ scalarCore

/-- The state after a next outcome has a property. -/
def after (o : Out) (p : State → Bool) : Bool := match o with | .next t => p t | .fault _ => false | .refused _ => false

/-- The word issues without marks, and its issue has a property. -/
def issues (s : State) (g : Mask) (reads : List (BitVec 8 × Mask)) (p : Env → Bool) : Bool :=
  match s.issue g reads with | .ok e => e.after.isNone && p e | .error _ => false

/-- Running, of the statements about every word. -/
theorem witness_running : Running scalarAt := by unfold Running; decide +kernel

/-- ScalarTransfers: targets at both ends of the section (byte 0, and the last word) on either side of each condition, an aligned
JR, and LOOP at 2 and at 1. -/
theorem witness_transfers :
    let pc := scalarAt.me.core.pc
    let first : Int := pc + 4 + 4 * (BitVec.ofInt 16 (-26)).toInt
    let last : Int := pc + 4 + 4 * (16357 : BitVec 26).toInt
    inSection scalarAt first ∧ inSection scalarAt last ∧ first = 0 ∧ last = 65532
    ∧ scalarAt.x 1 ≠ scalarAt.x 2 ∧ scalarAt.x 4 = scalarAt.x 0 ∧ (scalarAt.x 3).toInt < (scalarAt.x 1).toInt
    ∧ (scalarAt.x 1).toInt ≤ (scalarAt.x 2).toInt ∧ (scalarAt.x 1).toNat < (scalarAt.x 3).toNat
    ∧ (scalarAt.x 4).toNat % 4 = 0 ∧ inSection scalarAt (scalarAt.x 4).toNat ∧ scalarAt.x 2 - 1 ≠ 0 ∧ scalarAt.x 1 = 1 := by
  unfold inSection; decide +kernel

/-- ScalarTraps: targets one word past each end on either side of each condition, an unaligned JR, an LRUN of 4,097 words, one of a word
beyond the section and an LJMP to the first index beyond it, and a use that fails its check. -/
theorem witness_scalar_traps :
    let pc := scalarAt.me.core.pc
    let words := capLen scalarAt.me.lcode / 12
    4096 < (scalarAt.x 1 + (4096 : BitVec 16).setWidth 32).toNat
    ∧ words < (at_ { scalarCore with rp := 5461 }).me.core.rp + (scalarAt.x 1 + (0 : BitVec 16).setWidth 32).toNat
    ∧ words ≤ (scalarAt.x 0 + (5461 : BitVec 16).setWidth 32).toNat
    ∧ (scalarAt.x 3).toInt < (scalarAt.x 1).toInt ∧ (scalarAt.x 1).toNat < (scalarAt.x 3).toNat ∧ (scalarAt.x 1).toInt ≤ (scalarAt.x 1).toInt ∧
    ¬inSection scalarAt (pc + 4 + 4 * (BitVec.ofInt 16 (-27)).toInt) ∧ ¬inSection scalarAt (pc + 4 + 4 * (16358 : BitVec 26).toInt)
    ∧ (scalarAt.x 2).toNat % 4 ≠ 0 ∧ (scalarAt.x 3).toNat % 4 = 0 ∧ ¬inSection scalarAt (scalarAt.x 3).toNat
    ∧ (scalarAt.useErr scalarAt.me.who (scalarAt.me.core.cap 0) 0 1 (0x1000 + 256) 4 4 false).isSome = true
    ∧ (scalarAt.useErr scalarAt.me.who (scalarAt.me.core.cap 1) 0 2 0 16 16 true).isSome = true := by
  unfold inSection; decide +kernel

/-- ScalarLaneControl: an LRUN of the whole section and of 4,096 words with room, an LJMP to the last index, no words pending, and a
return queue with an entry. -/
theorem witness_lane_control :
    let s := at_ { scalarCore with retq := [7] }
    let k := s.me.core
    capLen s.me.lcode / 12 = 5461 ∧ k.rp + 4096 ≤ 5461 ∧ k.relq.length ≠ 16 ∧ k.pending + 4096 ≤ 4096
    ∧ (s.x 1 + (4095 : BitVec 16).setWidth 32).toNat = 4096 ∧ (s.x 0 + (0 : BitVec 16).setWidth 32).toNat = 0
    ∧ (s.x 0 + (5460 : BitVec 16).setWidth 32).toNat < 5461 ∧ k.pending = 0 ∧ s.me.wordFlags = []
    ∧ k.retq = [7] := by decide +kernel

/-- ScalarFeeds: a descriptor in x25 to x31 at the bounds of its counts, the active slot free and taken, and a queue that may halt. -/
theorem witness_feeds :
    let d : FeedDesc := { cap := 0, start := 0, tstr := 4, count0 := 1, str0 := 0, count1 := 1, str1 := 0, flags := 2 }
    let s := at_ { scalarCore with xs := List.replicate 25 0 ++ [0, 4, 0x1000000, 4, 0x1000000, 0, 0x3E],
                                   feeds := [{ active := some d }] ++ List.replicate 15 {} }
    let k := s.me.core
    (25 : BitVec 5).toNat ≤ 25 ∧ (3 : BitVec 4).toNat < s.me.nq ∧ (k.x 27).toNat ≤ 2 ^ 24 ∧ (k.x 29).toNat ≤ 2 ^ 24
    ∧ (k.x 31).toNat % 4 ≠ 3 ∧ (k.x 31).toNat < 64 ∧ capLen (k.cap 0) ≠ 0 ∧ capKind (k.cap 0) = 0 ∧ capPerm (k.cap 0) &&& 1 ≠ 0
    ∧ (k.feeds.getD 0 {}).active.isSome ∧ ¬((k.feeds.getD 0 {}).active.isSome ∧ (k.feeds.getD 0 {}).waiting.isSome)
    ∧ (k.feeds.getD 3 {}).active.isSome = false ∧ k.pending = 0 := by decide +kernel

/-- ScalarCapabilityOps: a narrowing to the whole range of an ordinary capability with D, and the selectors 0 and 4. -/
theorem witness_capability_ops :
    let s := at_ { scalarCore with xs := [0, 0, 0, 256, 0] }
    let k := s.me.core
    let c := k.cap 0
    capLen c ≠ 0 ∧ capKind c = 0 ∧ capPerm c &&& 16 ≠ 0
    ∧ (k.x 1).toNat + 2 ^ 32 * (k.x 2).toNat + ((k.x 3).toNat + 2 ^ 32 * (k.x 4).toNat) = capLen c
    ∧ (0 : BitVec 16).toNat ≤ 4 ∧ (4 : BitVec 16).toNat ≤ 4 := by decide +kernel

/-- ScalarLoads and ScalarStores: the last word and the last 16 bytes of a capability readable and writable, a capability in memory
that validates and one that does not, and a store-hold area with room and one that is full. -/
theorem witness_scalar_memory :
    let s := scalarAt.put (2 ^ 30 + 0x1010) (leBytes 16 (6 * 2 ^ 120 + 2 ^ 70))
    let c := s.me
    let cap := c.core.cap 0
    let good (s : State) (ea : Int) (n perm : Nat) (write : Bool) : Prop := s.useErr c.who cap 0 perm ea n n write = none
    good s (0x1000 + 252) 4 1 false ∧ good s (0x1000 + 252) 4 2 true ∧ good s (0x1000 + 240) 16 1 false
    ∧ (s.loadVA c 0x1010 16).toOption = some (leBytes 16 (6 * 2 ^ 120 + 2 ^ 70)) ∧ (s.loadVA c 0x1020 16).toOption = some (leBytes 16 0)
    ∧ s.badLoad c 0x1010 16 = false
    ∧ s.validate (s.context c.ctx).tenant (BitVec.ofNat 128 (leNat (leBytes 16 0))) = none
    ∧ (s.validate (s.context c.ctx).tenant (BitVec.ofNat 128 (6 * 2 ^ 120 + 2 ^ 70))).isSome = true
    ∧ (64 ≤ c.heldCount || 512 ≤ s.coreHeld c.place) = false ∧ c.inFlight = false
    ∧ (let full := s.modMe fun c => { c with heldG := (List.range 64).map fun k => ⟨64 * k, 0⟩ }
       64 ≤ full.me.heldCount) := by decide +kernel

/-- ScalarTrapExitWait: words pending and none, an XWAIT word whose condition holds and one whose does not, acquiring and not. -/
theorem witness_scalar_wait :
    let s := scalarAt.put (2 ^ 30 + 0x1000) [2, 0, 0, 0]
    let c := s.me
    let cap := c.core.cap 0
    s.useErr c.who cap 0 4 (capBase cap) 4 4 false = none
    ∧ ((s.homeRead c.who (capBase cap) 4).toOption.map fun r => r.1) = some [2, 0, 0, 0] ∧ s.badVA c.who (capBase cap) 4 = false
    ∧ (BitVec.ofNat 32 (leNat [2, 0, 0, 0]) == s.x 2) = true ∧ (BitVec.ofNat 32 (leNat [2, 0, 0, 0]) == s.x 1) = false
    ∧ (8 : BitVec 16).getLsbD 3 = true ∧ (0 : BitVec 16).getLsbD 3 = false ∧ c.inFlight = false ∧ c.core.pending = 0
    ∧ (at_ { scalarCore with pending := 1 }).me.core.pending ≠ 0 := by decide +kernel

/-- A context whose traps are all posted, its fault ring of two slots at tenant address 0x4000. -/
def postingAt : State :=
  let ring : Cap := mkCap 5 0 128 3 0x4000
  (scalarAt.modCtx 0 fun c => { c with policy := 0xFFFFFFFF, faultRing := ring }).put (2 ^ 30 + 0x4000)
    (ringBytes { stale := 0, rp := 0, wp := 0, alloc := 0, gen := 0, scope := 4, caplog := 1, magic := 0x5C05 })

/-- TrapDelivery: a trap that kills the default team of its course, and one that a ring with a free slot takes. -/
theorem witness_trap_delivery :
    let f : FaultInfo := { cause := 3 }
    0 < scalarAt.courses.length ∧ (scalarAt.course 0).alive = true ∧ (scalarAt.context 0).policy.getLsbD f.cause = false
    ∧ (scalarAt.course 0).team.isSome
    ∧ (let s := postingAt
       let s1 := (((s.creditGranted 0).checkpoint 0).writeRecord 0 f false ((s.creditGranted 0).checkpoint 0 |>.course 0).phase.code 0).modCourse 0
         fun c => { c with sfault := none }
       let s2 := s1.modCourse 0 fun c => { c with trapped := some { info := f } }
       let x := s1.context (s1.course 0).ctx
       x.policy.getLsbD f.cause = true ∧ capLen x.faultRing ≠ 0
       ∧ (match s2.ringHdr 0 x.faultRing with
          | .ok h => h.ok x.faultRing && (s2.ringAlloc 0 0 x.faultRing h).isSome
          | .error _ => false) = true) := by decide +kernel

/-- TrapReturn: a trapped course. -/
theorem witness_trap_return :
    let s := scalarAt.modCourse 0 fun c => { c with trapped := some { info := { cause := 19, scalar := true }, entry := some 0 } }
    0 < s.courses.length ∧ (s.course 0).trapped = some { info := { cause := 19, scalar := true }, entry := some 0, source := 0 }
    ∧ ({ cause := 19, scalar := true } : FaultInfo).later = false := by decide +kernel

/-- CheckpointAndRollback: a lone held byte of a page that may be written, a lone held scratch byte of a team's window, and a held
byte owed from before the checkpoint. -/
theorem witness_checkpoint :
    let g := scalarAt.modMe fun c => { c with heldG := [⟨0x1001, 5⟩], owed := [⟨0x1001, 5⟩] }
    let w := (scalarAt.modTeam 0 fun t => { t with size := 4096 }).modMe fun c => { c with heldS := [⟨65, 6⟩] }
    (match g.heldXlat g.me 0x1001 1 with
     | some x => decide (x.loc < lentBase) && x.loc % 64 == 0x1001 % 64 && !x.leaf.getLsbD 11 | none => false) = true
    ∧ g.memOk = true ∧ g.hostLines = [] ∧ g.heldWrites = [] ∧ 0 < g.courses.length ∧ g.me.owed = g.me.heldG
    ∧ w.me.team = some 0 ∧ 0 < w.teams.length ∧ 65 < (w.team 0).size ∧ (w.team 0).released.contains (65 / 64) = false
    ∧ Memory.wf (w.team 0).scratch = true ∧ (w.checkpoint 0).team 0 != w.team 0 := by decide +kernel

/-! Lane words. -/

/-- A v register of a function of the thread. -/
def vr (f : Nat → Nat) : VReg := { vals := (List.range 256).map fun t => BitVec.ofNat 32 (f t) }

/-- A released lane word of a course with the live threads of a mask: v0 holds the thread number, v1 four times it, v2 seven, v3
zero, v4 0xFFFFFF (this device's own node number); the captured x registers hold 0, 64, 128 and 64, and a0 to a5 capabilities with every permission: 4,096 bytes at 0x1000, a
spool block at 0x3000 and 64 bytes for its slots at 0x3100, a barrier object at 0x1000, a chart of 128 bytes at 0x5000 and a ring of
two slots at 0x4000. -/
def laneCore (live : Mask) : Core :=
  { startCore with
    live := live, preds := [live], pending := 1,
    relq := [{ first := 0, count := 1, xs := [0, 64, 128, 64], caps :=
      [mkCap 0 0 4096 0x7F 0x1000, mkCap 1 0 64 0x7F 0x3000, mkCap 0 0 64 0x7F 0x3100, mkCap 3 0 16 0x7F 0x1000,
       mkCap 2 0 128 0x7F 0x5000, mkCap 5 0 128 0x7F 0x4000] }],
    vregs := [vr id, vr (4 * ·), vr fun _ => 7, vr fun _ => 0, vr fun _ => 0xFFFFFF] }

/-- Three live threads. -/
def three : Mask := 7

/-- The machine with that lane stream. -/
def laneAt : State := at_ (laneCore three)

/-- LaneIntegerWords, LaneFloatWords, LaneSpecialFunctionWords, LanePairWords, LaneConversionWords: sources that can be read, a v
register, a queue with an entry and a g register, in a full and in a partial mask, per thread and per group; the narrowing and the
widening CVT; both kinds of SCACC. -/
theorem witness_unit_words :
    let q := at_ { laneCore (BitVec.allOnes 256) with queues := [[{ vals := [] }]] ++ List.replicate 15 [] }
    issues laneAt three ([0, 1, 2].map fun c => (c, units false three)) (fun _ => true) = true
    ∧ issues q (BitVec.allOnes 256) ([0xC0, 0xD1, 2, 3].map fun c => (c, units true (BitVec.allOnes 256))) (fun _ => true) = true
    ∧ issues laneAt three ([0xF1, 0xE1, 0xF0, 3].map fun c => (c, units true three)) (fun _ => true) = true
    ∧ Legal.count 2 ≤ Legal.count 5 ∧ Legal.count 2 < Legal.count 5 ∧ (1 : BitVec 16).toNat % 4 = 1 ∧ (0 : BitVec 16).toNat % 4 ≠ 1 := by
  decide +kernel

/-- LaneOperands: each range of codes at its bounds, and a selection of pass-0 threads. -/
theorem witness_operands :
    (191 : BitVec 8).toNat < 192 ∧ 0xC0 ≤ (0xC0 : BitVec 8).toNat ∧ (0xCF : BitVec 8).toNat < 0xD0 ∧ 0xD0 ≤ (0xD0 : BitVec 8).toNat
    ∧ (0xDF : BitVec 8).toNat < 0xE0 ∧ 0xE0 < (0xE1 : BitVec 8).toNat ∧ (0xEF : BitVec 8).toNat < 0xF0
    ∧ (∀ t, t < 256 → 64 ≤ t → (BitVec.ofNat 256 (2 ^ 64 - 1)).getLsbD t = false) ∧ (laneCore three).looks = [] := by decide +kernel

/-- LanePredicateWords: a stack with room for one push, a full one, one of two entries and one of one, and PRST counts 0, 1, 16 and 17. -/
theorem witness_predicates :
    let full := at_ { laneCore three with preds := List.replicate 15 three }
    full.me.core.preds.length < 16 ∧ issues full three [(0, three), (1, three)] (fun _ => true) = true
    ∧ issues full 0 [] (fun _ => true) = true ∧ 16 ≤ (List.replicate 16 three).length
    ∧ (at_ { laneCore three with preds := [1, three] }).me.core.preds = [1, three] ∧ laneAt.me.core.preds.length ≤ 1
    ∧ (let s := at_ { laneCore three with vregs := [vr fun _ => 0x10003, vr fun _ => 0x100000, vr fun _ => 3, vr fun _ => 0x110000] }
       issues s three [(0, BitVec.allOnes 256)] (fun e => (e.unit 0 0 0 0).toNat / 2 ^ 16 % 32 == 1) = true
       ∧ issues s three [(1, BitVec.allOnes 256)] (fun e => (e.unit 0 0 1 0).toNat / 2 ^ 16 % 32 == 16) = true
       ∧ issues s three [(2, BitVec.allOnes 256)] (fun e => (e.unit 0 0 2 0).toNat / 2 ^ 16 % 32 == 0) = true
       ∧ issues s three [(3, BitVec.allOnes 256)] (fun e => (e.unit 0 0 3 0).toNat / 2 ^ 16 % 32 == 17) = true) := by decide +kernel

/-- LaneReturnQueueWords: a return queue with exactly eight places left, one with seven, one with none, and one with none after
SEXIT. -/
theorem witness_return_queue :
    let with_ (n : Nat) (ended : Bool) : State := at_ { laneCore three with retq := List.replicate n 0, ended := ended }
    (with_ 24 false).me.core.retq.length + 8 ≤ 32 ∧ (with_ 31 false).me.core.retq.length + 1 ≤ 32
    ∧ ¬(with_ 32 false).me.core.retq.length + 1 ≤ 32 ∧ (with_ 32 false).me.core.ended = false ∧ (with_ 32 true).me.core.ended = true
    ∧ ¬(with_ 25 false).me.core.retq.length + 8 ≤ 32 ∧ (0 : BitVec 16).toNat / 16 % 4 = 0
    ∧ ([with_ 25 false, with_ 32 false, with_ 32 true].all fun s => issues s three [(0, three), (1, three)] fun _ => true) = true
    ∧ issues (with_ 32 false) three [(0, three)] (fun _ => true) = true
    ∧ issues (with_ 24 false) three [(0, three), (1, three)] (fun _ => true) = true := by decide +kernel

/-- LanePermuteWords and LaneReduceScanWords: sources that can be read; the first threads of each pass for an exclusive scan. -/
theorem witness_cross_lane :
    let rd := permuteReads three fun t => some (t / 64 * 64 + (t + 1) % 64)
    let first : Mask := maskOf 256 fun t => three.getLsbD t && !(List.range (t % 64)).any fun l => three.getLsbD (t / 64 * 64 + l)
    issues laneAt three [(0, rd.2), (1, rd.1)] (fun _ => true) = true
    ∧ issues laneAt three [(0, rd.2), (1, rd.1), (2, three)] (fun _ => true) = true
    ∧ issues laneAt three [(0, three), (1, first)] (fun _ => true) = true ∧ first = 1
    ∧ issues laneAt three [(0, three), (1, three)] (fun _ => true) = true
    ∧ ((0 : BitVec 4).toNat ≠ 2 ∧ (0 : BitVec 16).toNat % 8 = 0) := by decide +kernel

/-- Two courses on one core, the second with index 1 and parked at the first word since clock 5, of one team. -/
def pairAt (more : List Team) : State :=
  let s := laneAt
  let c := { s.course 0 with core := { laneCore three with ended := true } }
  let d := { c with index := 1, parked := some 5, core := { laneCore 0x38 with ended := true } }
  { s with courses := [c, d], teams := s.teams ++ more }

/-- LaneTeamWords: a team of the course's own key, a key of another team, a free key with 15 teams on the core and with 16, and a
course in no team. -/
theorem witness_teams :
    let t (k : Nat) : Team := { key := k, isDefault := false }
    let own := (laneAt.modTeam 0 fun m => { m with key := 9, isDefault := false })
    let few := { laneAt with teams := [t 0] ++ (List.range 14).map fun k => t (k + 2) }
    let many := { laneAt with teams := [t 0] ++ (List.range 15).map fun k => t (k + 2) }
    issues laneAt 0 [] (fun _ => true) = true
    ∧ own.me.team = some 0 ∧ (own.team 0).key = 9 ∧ (own.team 0).isDefault = false
    ∧ few.teamByKey few.me 15 = some 14 ∧ (few.team 14).arrived = [] ∧ (few.team 14).gathering = [] ∧ (few.releaseEnter 0 1).2 = none
    ∧ few.leaveWaits 0 = false ∧ laneAt.leaveWaits 0 = false ∧ (laneAt.releaseEnter 0 1).2 = none
    ∧ few.teamByKey few.me 99 = none ∧ (few.teamsAt few.me.place).length = 15 ∧ (few.team 0).key ≠ 99
    ∧ many.teamByKey many.me 99 = none ∧ (many.teamsAt many.me.place).length = 16
    ∧ laneAt.me.team.isSome ∧ (laneAt.modMe fun c => { c with team := none }).me.team = none := by decide +kernel

/-- LaneGraft: a status left behind, no partner, and a parked partner that fits and one that does not, of either index; cores whose
live threads fill 256 exactly. -/
theorem witness_graft :
    let s := pairAt []
    let w := s.modCourse 1 fun c => { c with core := { c.core with relq := [{ first := 1, count := 1, xs := [], caps := [] }] } }
    let partner (s : State) := s.earliestParked (s.parkedAt 0 s.me.core.lanePc)
    (laneAt.modMe fun c => { c with graftStatus := some 2 }).me.graftStatus = some 2 ∧ partner laneAt = none ∧ partner w = none
    ∧ partner s = some 1 ∧ graftNofit (s.course 0) (s.course 1) = false ∧ (s.course 1).wordFlags = []
    ∧ (let f := s.modCourse 1 fun c => { c with wordFlags := [(5, 1)] }
       partner f = some 1 ∧ graftNofit (f.course 0) (f.course 1) = false ∧ (f.course 1).wordFlags ≠ [])
    ∧ (let big := s.modCourse 0 fun c => { c with core := laneCore (BitVec.allOnes 256) }
       partner big = some 1 ∧ graftNofit (big.course 0) (big.course 1) = true)
    ∧ (let low := { s with cur := 1, courses := [{ s.course 0 with parked := some 5 }, { s.course 1 with parked := none }] }
       partner low = some 0 ∧ (low.course 0).index < low.me.index ∧ graftNofit (low.course 0) (low.course 1) = false)
    ∧ (threadsOf (laneCore (BitVec.ofNat 256 (2 ^ 255 - 1))).live).length + (threadsOf (laneCore 1).live).length = 256 := by
  decide +kernel

/-- LaneTeamBarrier: no team; a course the barrier has let leave; one that arrives; and the last arrival. -/
theorem witness_team_barrier :
    let s := pairAt []
    let left := s.modMe fun c => { c with core := { c.core with atBarrier := true } }
    let last := s.modTeam 0 fun t => { t with arrived := [0, 1] }
    issues s 0 [] (fun _ => true) = true ∧ (s.modMe fun c => { c with team := none }).me.team = none
    ∧ left.me.team = some 0 ∧ left.me.core.atBarrier = true ∧ (left.team 0).arrived.contains 0 = false
    ∧ s.me.core.atBarrier = false ∧ (s.releaseEnter 0 1).2 = none
    ∧ 0 < last.teams.length ∧ (last.team 0).arrived ≠ [] ∧ last.members 0 = [0, 1] := by decide +kernel

/-! Memory, atomics and ordering. -/

/-- A team with a window of 4,096 bytes whose first 256 are written, on laneAt. -/
def windowAt : State :=
  laneAt.modTeam 0 fun t => { t with size := 4096, written := (List.range 4).map fun k => (k, BitVec.allOnes 64) }

/-- Some bytes of tenant address a of laneAt's context. -/
def laneWith (a : Nat) (bytes : List Byte) : State := laneAt.put (2 ^ 30 + a) bytes

/-- LaneLoad and LaneStore: three threads whose words fit (the last at the end of the capability), one that does not, room in the
store-hold area for the lines, and a release that need not wait. -/
theorem witness_load_store :
    let s := laneAt
    let c := s.me
    let cap := mkCap 0 0 4096 0x7F 0x1000
    let fits (o : Int) : Bool := [0, 1, 2].all fun t => (s.useErr c.who cap 0 1 (0x1000 + 4 * (t : Nat) + o) 4 4 false).isNone
    issues s three [(1, three)] (fun e => e.rel.caps.getD 0 0 == cap && (e.guard false) == three
      && (List.range 3).all fun t => (e.unit 1 0 1 t).toNat == 4 * t) = true
    ∧ fits 0 = true ∧ fits 4084 = true ∧ fits 4088 = false
    ∧ issues s three [(1, three), (0, three)] (fun _ => true) = true
    ∧ (s.useErr c.who cap 0 10 0x1000 4 4 true).isNone = true ∧ (s.useErr c.who cap 0 2 0x1FFC 4 4 true).isNone = true
    ∧ c.heldCount + 64 ≤ 64 ∧ s.coreHeld c.place + 64 ≤ 512 ∧ (s.releaseEnter 0 3).2 = none
    ∧ shadowFull s [keyOf 3] = false
    ∧ (issues s three [(1, three)] fun e =>
        (s.globalAccs c (e.guard false) cap (ordPerm (word 0 3 1 0xF1 0xF1 0 4088) 1) (e.src 1 0 1) 1 4088 4 4 false).any fun a =>
          match a.err with | some (.cap _) => true | _ => false) = true := by decide +kernel

/-- LaneScratchWords: aligned addresses inside the window (the last word of it) and outside. -/
theorem witness_scratch :
    let s := windowAt
    let c := s.me
    issues s three [(1, three)] (fun _ => true) = true ∧ issues s three [(1, three), (0, three)] (fun _ => true) = true
    ∧ (s.window c).violates c.heldS 8 4 false = false ∧ (s.window c).violates c.heldS 4092 4 true = false
    ∧ (s.window c).violates c.heldS 4096 4 true = true ∧ (8 : Int) % 4 = 0 ∧ s.fills c [0, 4, 8] = [] := by decide +kernel

/-- LaneStashWords: a free slot, a slot in use, a range that overlaps and one beyond the window, an unmap and a flush that find
what they need. -/
theorem witness_stash :
    let s := windowAt.modTeam 0 fun t => { t with stash := [(3, { scr := 0, va := 0x1000, len := 64, mode := 0 })] }
    let c := s.me
    let cap := mkCap 0 0 4096 0x7F 0x1000
    let tm := s.team 0
    issues s 0 [] (fun e => (e.x 0xE1).toNat == 64 && (e.x 0xE2).toNat == 128 && (e.x 0xE3).toNat == 64) = true
    ∧ s.me.team = some 0 ∧ 0 < s.teams.length ∧ 64 % 64 = 0 ∧ 128 % 64 = 0
    ∧ s.useErr c.who cap 0 3 (0x1000 + 128) 64 1 true = none ∧ s.useErr c.who cap 0 1 (0x1000 + 128) 64 1 false = none
    ∧ 64 + 64 ≤ tm.size ∧ (windowAt.modTeam 0 fun t => { t with size := 127 }).me.team = some 0 ∧ 127 < 64 + 64
    ∧ (tm.stash.lookup 3).isSome ∧ (tm.stash.lookup 4).isNone
    ∧ (tm.stash.any fun x => 64 < x.2.scr + x.2.len && x.2.scr < 64 + 64) = false
    ∧ ((s.modTeam 0 fun t => { t with stash := [(3, { scr := 64, va := 0x1000, len := 64, mode := 0 })] }).team 0).stash.any
        (fun x => 64 < x.2.scr + x.2.len && x.2.scr < 64 + 64) = true
    ∧ (s.commitS 0 fun a => 0 ≤ a && a < 64).flushErr 0 (fun n _ => n == 3) three = none
    ∧ (s.commitS 0 fun _ => true).flushErr 0 (fun n _ => n == 3) three = none := by decide +kernel

/-- LaneCacheWords: lines under a readable capability, of a course in a team, one of them locked. -/
theorem witness_cache :
    let s := laneAt.modTeam 0 fun t => { t with locks := [(2 ^ 30 + 0x1000) / 64] }
    let c := s.me
    let cap := mkCap 0 0 4096 0x7F 0x1000
    issues s three [(1, three)] (fun _ => true) = true ∧ c.team = some 0 ∧ 0 < s.teams.length
    ∧ s.useErr c.who cap 0 1 0x1000 64 1 false = none ∧ s.useErr c.who cap 0 1 0x1FC0 64 1 false = none
    ∧ (s.team 0).locks.Nodup ∧ (s.team 0).locks.contains ((2 ^ 30 + 0x1000) / 64) = true
    ∧ ((s.translate c.who 0x1000).toOption.map fun x => x.loc / 64) = some ((2 ^ 30 + 0x1000) / 64) := by decide +kernel

/-- AtomicStep: an aligned word of a page that may be written, before and after its cluster takes the line. -/
theorem witness_atomic_step :
    let s := laneAt
    (0 = 0 ∨ 0 = 1)
    ∧ (let good (t : State) : Bool := match t.translate s.me.who 0x1FFC true 4 with
         | .ok x => x.loc == 2 ^ 30 + 0x1FFC && x.log == 30 && !x.leaf.getLsbD 11 && (x.leaf == (s.walk 0 0x1FFC).toOption.elim 0 (·.1))
         | .error _ => false
       good s = true ∧ good (s.takeHold (clusterOf s.me.place) ((2 ^ 30 + 0x1FFC) / 64)) = true)
    ∧ 0x1FFC % 4 = 0 ∧ s.memOk = true ∧ s.heldWrites = [] ∧ s.hostLines = [] := by decide +kernel

/-- LaneAtomicWords: global words that pass, scratch words that pass, sources read, and a release that need not wait. -/
theorem witness_atomic_words :
    let s := windowAt
    let c := s.me
    let cap := mkCap 0 0 4096 0x7F 0x1000
    issues s three [(1, three), (0, three)] (fun _ => true) = true ∧ issues s three [(1, three), (0, three), (2, three)] (fun _ => true) = true
    ∧ s.useErr c.who cap 0 12 0x1000 4 4 true = none ∧ s.useErr c.who cap 0 4 0x1FFC 4 4 true = none ∧ s.badLoad c 0x1000 4 = false
    ∧ s.gateStop (s.atomCharge c 3 [0x1000, 0x1004, 0x1008]) = none
    ∧ (s.window c).violates c.heldS 8 4 true = false ∧ (s.window c).violates c.heldS 8 4 false = false ∧ s.fills c [0, 4, 8] = []
    ∧ (s.releaseEnter 0 4).2 = none := by decide +kernel

/-- LaneConditionWait: no active thread; a word that satisfies its condition and one that does not. -/
theorem witness_condition_wait :
    let s := laneWith 0x1000 [7, 0, 0, 0]
    let c := s.me
    issues (at_ { laneCore three with preds := [0] }) 0 [(3, 0), (2, 0)] (fun e => e.guard false == 0) = true
    ∧ issues s three [(3, 1), (2, 1)] (fun e => e.guard false == three && (e.unit 0 0 2 0).toNat == 7) = true
    ∧ s.useErr c.who (mkCap 0 0 4096 0x7F 0x1000) 0 4 0x1000 4 4 false = none ∧ s.badVA c.who 0x1000 4 = false
    ∧ ((s.homeRead c.who 0x1000 4).toOption.map fun r => r.1) = some [7, 0, 0, 0]
    ∧ (BitVec.ofNat 32 (leNat [7, 0, 0, 0]) == (7 : Word)) = true := by decide +kernel

/-- A barrier object of 16 bytes at 0x1000, expecting two, of generation 9. -/
def barrierAt (o : BarObj) : State := laneWith 0x1000 (barBytes o)

/-- LaneBarrierWords: an open object one arrival short and one two short, a closed one, tags current and stale, a generation that has
ended and one that has not. -/
theorem witness_barriers :
    let o : BarObj := { barOf (List.replicate 16 0) with expect := 2, arrived := 1, gen := 9, state := 1, scope := 3 }
    let found (o : BarObj) : Bool :=
      let s := barrierAt o
      match s.issue three [(2, 1)] with
      | .error _ => false
      | .ok e =>
        match s.barAt s.me e (word 0 3 2 0xF1 0xF1 0 0 3) with
        | .error _ => false
        | .ok b => barOf b.old == o && (s.gateStop (s.class4 s.me b.va)).isNone
    found o = true ∧ found { o with state := 0 } = true ∧ o.expect ≤ o.arrived + 1 ∧ ({ o with arrived := 0 } : BarObj).arrived + 1 < o.expect
    ∧ o.valid = true ∧ ({ o with state := 0 } : BarObj).valid = false ∧ (List.replicate 16 (0 : Byte)).length = 16 ∧ o.expect < 2 ^ 32
    ∧ o.gen < 256 ∧ o.scope < 8 ∧ o.state < 4 ∧ o.stale ≤ 0xFFFF
    ∧ ((barrierAt o).releaseEnter 0 3).2 = none ∧ (barrierAt o).me.core.arrivedGen = none
    ∧ issues (barrierAt o) three [] (fun _ => true) = true ∧ issues (barrierAt o) three [(2, 1), (3, 1)] (fun _ => true) = true
    ∧ (255 + 1) % 256 = 0 := by decide +kernel

/-- LaneOrderingWords: words that issue, releases and region releases that need not wait, regions of memory capabilities. -/
theorem witness_ordering :
    let s := laneAt.modMe fun c => { c with heldG := [⟨0x1000, 5⟩] }
    issues s 0 [] (fun e => regionsOf e (word 0 0xF1 0xF1 0xF1 0xF1 0 0 0 3) == [(0x1000, 4096)]
      && !regionKindBad e (word 0 0xF1 0xF1 0xF1 0xF1 0 0 0 3)) = true
    ∧ (s.releaseEnter 0 1).2 = none ∧ (s.releaseEnter 0 4).2 = none ∧ s.regionWait 0 3 [(0x1000, 4096)] = none := by decide +kernel

/-- LanePublishWords: a buffer closed and open, owned by the course's team and by another, and an address that names none. -/
theorem witness_publish :
    let p : Pub := { vbase := 0x1000, vlen := 4096 }
    let with_ (p : Pub) : State :=
      (laneAt.modCtx 0 fun c => { c with pub := [(0, p)] }).put 0x1000 (leBytes 8 (0x80000003 + 2 ^ 11))
    let named (s : State) (p : Option Pub) : Bool :=
      match s.issue 0 [] with
      | .error _ => false
      | .ok e =>
        match s.bufAt e (word 0 3 0xF1 0xF1 0xF1) with
        | .error _ => false
        | .ok b => b.buf.map (·.2) == p && (s.gateStop (s.class4 s.me b.va)).isNone
    let mine : Pub := { p with isOpen := true, team := 0 }
    named (with_ p) (some p) = true ∧ named (with_ mine) (some mine) = true ∧ named laneAt none = true
    ∧ named (with_ { mine with team := 1 }) (some { mine with team := 1 }) = true
    ∧ (with_ p).contexts.any (fun x => x.num == 0) = true ∧ (with_ p).me.heldG = []
    ∧ named ((with_ p).modMe fun c => { c with heldG := [⟨0x1000, 5⟩] }) (some p) = true ∧ (with_ p).me.team = some 0
    ∧ ((with_ mine).releaseEnter 0 3).2 = none ∧ (with_ mine).bufferWrites 0 mine = false := by decide +kernel

/-! Spools, remote words and engines. -/

/-- laneAt with a sound spool block of 16 one-word slots, its counters given. -/
def spoolAt (head tail free : Nat) : State :=
  laneWith 0x3000 (let l := spoolInitBytes 0 4 3 false (mkCap 0 0 64 0x7F 0x3100)
    l.take 4 ++ leBytes 4 head ++ leBytes 4 tail ++ leBytes 4 free ++ l.drop 16)

/-- The course's block is found, and a property of it holds. -/
def spoolFound (s : State) (p : Env → SpoolAt → Bool) : Bool :=
  match s.issue 0 [] with
  | .error _ => false
  | .ok e => match s.spoolAt e (word 0 3 0xF1 0xF1 0xF1 0 0 1 3) with | .error _ => false | .ok b => e.after.isNone && p e b

/-- LaneSpoolBlockWords: a sound block, its slots readable and writable, its image writable, a descriptor cached and none. -/
theorem witness_spool_blocks :
    let s := spoolAt 3 5 14
    let slots := mkCap 0 0 64 0x7F 0x3100
    spoolFound s (fun e b => (s.gateStop [s.spoolCharge s.me b.va]).isNone && (s.spoolBad 0 b.bytes).isNone && !s.spoolCached 0 b.loc
      && e.rel.caps.getD 2 0 == slots && leNat b.bytes / 2 ^ 132 % 2 == 0
      && ((s.spoolSend (s.spoolCharge s.me b.va) b).writeVA s.me.who b.va (spoolInitBytes 0 4 3 false slots)).toOption.isSome
      && (s.spoolCache 0 0 b.loc).spools.any (fun d => d.line == b.loc / 64)) = true
    ∧ s.useErr s.me.who slots 0 3 0x3100 (2 ^ 4 * (4 * 2 ^ 0)) (4 * 2 ^ 0) true = none ∧ (s.releaseEnter 0 1).2 = none ∧ (s.releaseEnter 0 4).2 = none
    ∧ s.slotsBad 0 (spoolOf (spoolInitBytes 0 4 3 false slots)) = false := by decide +kernel

/-- LaneSpoolMoves: room for exactly the elements of three threads and for fewer, an element count to match, and an empty spool. -/
theorem witness_spool_moves :
    let opens (s : State) (p : State → SpoolBlk → SpoolAt → Bool) : Bool :=
      match s.issue three [(0, three)] with
      | .error _ => false
      | .ok e => match s.spoolOpen e (word 0 3 0xF1 0xF1 0xF1 0 0 1 3) with
        | .inl _ => false
        | .inr (s1, b, _) => e.after.isNone && p s1 (spoolOf b.bytes) b
    opens (spoolAt 3 16 3) (fun s1 k b => k.esize == 0 && k.free == 3 && 3 ≤ 2 ^ k.caplog
      && (s1.slotErr s1.me k k.tail 3 true b.mask).isNone && (s1.releaseEnter 0 k.scope).2.isNone) = true
    ∧ opens (spoolAt 3 6 13) (fun s1 k b => k.tail - k.head == 3 && (s1.slotErr s1.me k k.head 3 false b.mask).isNone) = true
    ∧ opens (spoolAt 3 17 2) (fun _ k _ => k.free < 3) = true ∧ opens (spoolAt 3 3 16) (fun _ k _ => k.tail - k.head == 0) = true
    ∧ laneAt.me.core.preds.length < 16 ∧ issues laneAt three [] (fun _ => true) = true
    ∧ (8 : BitVec 16).getLsbD 3 = true := by decide +kernel

/-- LaneSystemWords: active threads and none, debugging enabled and not, and the classes of VQRY around each bound. -/
theorem witness_system :
    issues laneAt 0 [] (fun e => e.guard false == three) = true
    ∧ issues (at_ { laneCore three with preds := [0] }) 0 [] (fun e => e.guard false == 0) = true
    ∧ (laneAt.context 0).debug = false ∧ ((laneAt.modCtx 0 fun c => { c with debug := true }).context 0).debug = true
    ∧ issues laneAt three [(0, three)] (fun e => (e.guard false).getLsbD 2) = true
    ∧ laneAt.eNew 0 (itemCharge laneAt.me 2 0) [] ≤ (laneAt.context 0).vbnd
    ∧ laneAt.eNew 0 (itemCharge laneAt.me 3 0) [] ≤ (laneAt.context 0).vbnd
    ∧ (laneAt.modCtx 0 fun c => { c with vbnd := 1 }).eNew 0 (itemCharge laneAt.me 2 0) [] > 1 := by decide +kernel

/-- laneAt with a route to node 7. -/
def routedAt : State := { laneAt with routes := [7] }

/-- LaneRemoteWords: accesses of other nodes and of this device, whose packets and results there is room for. -/
theorem witness_remote :
    let s := routedAt
    let c := s.me
    let cap := mkCap 0 0 4096 0x7F 0x1000
    let node (code : BitVec 8) (e : Env) (t : Nat) : Nat := (e.unit 0 0 code t).toNat
    let sound (s : State) (e : Env) (code : BitVec 8) (perm : Nat) (write : Bool) : Bool :=
      let l := s.remoteAccs c three cap perm (e.src 1 0 1) 1 0 4 (node code e) write
      l.all (fun a => a.err.isNone) && !l.isEmpty && !s.packetsFull (groupAccs (node code e) (l.filter fun a => node code e a.t != 0xFFFFFF))
    s.me.inFlight = false ∧ s.gateStop (remoteCharge s.me) = none
    ∧ issues s three [(1, three), (2, three)] (fun e => sound s e 2 1 false) = true
    ∧ issues s three [(1, three), (4, three)] (fun e => sound s e 4 1 false) = true
    ∧ issues s three [(1, three), (2, three), (3, three)] (fun e => sound s e 2 4 true) = true
    ∧ issues s three [(1, three), (2, three), (0, three)] (fun e => sound s e 2 2 true && sound s e 2 6 true) = true
    ∧ s.resultsIn 0 = true ∧ (∀ b, b ∈ c.remoteBad → b.word ≠ s.free) ∧ (s.releaseEnter 0 4).2 = none
    ∧ s.nodeOk 7 = true ∧ (7 : Nat) ≠ 0xFFFFFF
    ∧ (let one := { at_ (laneCore 1) with routes := [7] }
       issues one 1 [(1, 1), (4, 1)] (fun e => e.guard false == BitVec.ofNat 256 (2 ^ 0)
         && ((one.commitG 0 fun x => 0x1000 / 64 == x / 64).homeRead c.who 0x1000 4).toOption.isSome
         && !(one.commitG 0 fun x => 0x1000 / 64 == x / 64).badVA c.who 0x1000 4) = true)
    ∧ issues (at_ { laneCore three with preds := [0] }) 0 [(1, 0), (2, 0)] (fun e => e.guard false == 0) = true := by decide +kernel

/-- LaneTierWords: packets to a node with each outcome, an address that translates and one that does not, a demotion count equal
to B and not, and a wait begun before. -/
theorem witness_tiers :
    let sent (o : PktOutcome) : State := routedAt.modMe fun c => { c with sent := [{ node := 7, seqno := 0, outcome := o }] }
    let s := routedAt
    s.gateStop (remoteCharge s.me) = none ∧ s.nodeOk (7 : Word).toNat = true
    ∧ issues s three [(2, 1)] (fun e => (e.unit 0 0 2 0).toNat == 7) = true
    ∧ ((sent .unknown).me.sent.map (·.outcome), (sent .indet).me.sent.map (·.outcome), (sent .dropped).me.sent.map (·.outcome),
       (sent .done).me.sent.map (·.outcome)) = ([.unknown], [.indet], [.dropped], [.done])
    ∧ capCheck (mkCap 0 0 4096 0x7F 0x1000) 0 0 0x1FFF 1 1 = none ∧ (s.leafFor s.me.who 0x1000).toOption.isSome
    ∧ (s.leafFor s.me.who (2 ^ 31)).toOption.isNone ∧ (s.context 0).demotions ≠ 7
    ∧ ((s.modCtx 0 fun c => { c with demotions := 7 }).context 0).demotions = 7 ∧ s.me.timedOut = false ∧ s.me.lwas = none
    ∧ ((s.modMe fun c => { c with lwas := some { kind := .event, limit := some 10 } }).me.lwas.map fun w => (w.kind, w.limit))
        = some (.event, some 10) := by decide +kernel

/-- LaneCopyWords: a first slice, a further one of a job that gathers, a list of members, a follow-on with its operands, each charged
within the bound; an ADPF that is taken and one that is dropped. -/
theorem witness_copies :
    let s := windowAt
    let copy : Eng := ⟨0, 0, 0, 3, 0xE1, 0xE1, 0, 2 ^ 20⟩
    let ring : Eng := { copy with ex := 2 ^ 27 + 5 * 2 ^ 28 }
    let ringed := laneAt.put (2 ^ 30 + 0x4000)
      (ringBytes { stale := 0, rp := 0, wp := 0, alloc := 0, gen := 0, scope := 4, caplog := 1, magic := 0x5C05 })
    let issue (s : State) (p : Env → Bool) : Bool := match s.engIssue [] with | .ok e => e.after.isNone && p e | .error _ => false
    issue s (fun e => ((s.copyPart e copy true).toOption.map (·.len)) == some 64) = true
    ∧ issue s (fun e => (s.copyBar e copy).toOption == some none && ((s.copyRing e copy).toOption.map (·.2)) == some none) = true
    ∧ issue ringed (fun e => (((ringed.copyRing e ring).toOption.bind (·.2)).map (·.slot)) == some 0) = true
    ∧ s.collective = none ∧ s.engineLoad 0 < 256 ∧ s.gateStop [charge0 0 (64 + 4)] = none ∧ s.gate 0 0 [charge0 0 68] false = .pass
    ∧ (let g := (s.modTeam 0 fun t => { t with gathering := [(0, [])] })
       let g := { g with jobs := [{ kind := .cpy, ctx := 0, gathering := true }] }
       g.collective = some 0 ∧ (g.jobs[0]?).map (·.ring) = some none ∧ g.gateStop [charge0 0 4] = none)
    ∧ issue laneAt (fun e => ((laneAt.copySource e copy).toOption.map (·.1)) == some 64) = true
    ∧ laneAt.useErr laneAt.me.who (mkCap 0 0 4096 0x7F 0x1000) 0 1 0x1000 (32 * 32) 32 false = none ∧ 0 + 32 ≤ 256
    ∧ ((laneAt.modCtx 0 fun c => { c with priv := true }).context 0).priv = true ∧ laneAt.noContext = false
    ∧ laneAt.firstBad laneAt.me.who 0x1000 64 false = none ∧ laneAt.adpfBusy 0 0 64 = false
    ∧ (laneAt.modCtx 0 fun c => { c with vbnd := 1, vmode := true }).gate 0 0 [charge0 0 68] false ≠ .pass := by decide +kernel

/-- A chart node of a state at 0x5000, in a window for tiles: 64 KiB of which 4 KiB are written. -/
def nodeAt (state : Nat) : State :=
  (laneWith 0x5000 (leBytes 128 (0x5C0D + 2 ^ 28 * state))).modTeam 0 fun t =>
    { t with size := 65536, written := (List.range 64).map fun k => (k, BitVec.allOnes 64) }

/-- LaneChartWords: a ring with a written record, with one awaited and with none, and one whose slots lie on an absent page; a node idle, running and armed; a ply word. -/
theorem witness_charts :
    let hdr (alloc wp : Nat) : RingHdr :=
      { stale := 0, rp := 0, wp := wp, alloc := alloc, gen := 0, scope := 4, caplog := 1, magic := 0x5C05 }
    let ringed (alloc wp : Nat) : State := laneWith 0x4000 (ringBytes (hdr alloc wp))
    let cap := mkCap 5 0 128 0x7F 0x4000
    let chart := mkCap 2 0 128 0x7F 0x5000
    let fits (s : State) : Bool := (s.ringHdr 0 cap (some 0)).toOption.any (·.ok cap) && (s.ringErr cap 6 three).isNone
      && (s.ringErr cap 5 three).isNone && (s.gateStop (s.class4 s.me 0x4000)).isNone && (s.releaseEnter 0 4).2.isNone
    fits (ringed 1 1) = true ∧ fits (ringed 1 0) = true ∧ fits (ringed 0 0) = true
    ∧ issues (ringed 1 1) three [] (fun _ => true) = true ∧ (ringed 1 1).slotCheck cap 5 0 (hdr 1 1) three = none
    ∧ (let edge := laneAt.put (2 ^ 31 - 64) (ringBytes (hdr 1 1))
       let far := mkCap 5 0 128 0x7F (2 ^ 30 - 64)
       (edge.ringHdr 0 far (some 0)).toOption = some (hdr 1 1) ∧ (hdr 1 1).ok far = true ∧ (edge.ringErr far 5 three).isNone = true
       ∧ (edge.slotCheck far 5 0 (hdr 1 1) three).isSome = true)
    ∧ sub32 0 0 < sub32 1 0 ∧ sub32 0 0 ≤ sub32 0 0 ∧ ((ringed 1 1).readWord laneAt.me.who 0x4040).toOption.isSome
    ∧ ([0, 1, 2, 3].map fun k => ((nodeAt k).readVA laneAt.me.who 0x5000 8).toOption.map fun b => leNat b / 2 ^ 28 % 16)
        = [some 0, some 1, some 2, some 3]
    ∧ laneAt.useErr laneAt.me.who chart 2 6 0x5000 128 128 true = none ∧ laneAt.useErr laneAt.me.who chart 2 4 0x5000 128 128 true = none
    ∧ laneAt.useErr laneAt.me.who chart 2 1 0x5000 64 1 false = none ∧ laneAt.gateStop [charge0 17 120] = none
    ∧ (laneAt.releaseEnter 0 3).2 = none := by decide +kernel

/-- LaneTileWords: operands aligned and written, room in the array's queue, a bound context of four tiles and none, an operation of a
tile in progress and none, and the ends of MLDA and MSTA. -/
theorem witness_tiles :
    let s := nodeAt 0
    let op : TileOp := { course := 0, ctx := 0, team := 0, place := 0, z := 1, ta := 14, tb := 14, pb := 2, rz := false, aoff := 0,
                         boffs := [2048], charge := 16 + (5 * 2 + 6) / 7 }
    let cap := mkCap 0 0 4096 0x7F 0x1000
    issues s three [] (fun _ => true) = true ∧ issues s three [(0, maskOf 256 fun t => t % 64 / 32 == 0)] (fun _ => true) = true
    ∧ issues s three ([0xD0, 0xD1, 0xD2, 0xD3].map fun r => (r, 1)) (fun _ => true) = true
    ∧ s.noContext = false
    ∧ (let bound : Course := { s.course 0 with mctx := some { tiles := List.replicate 4 {} } }
       { s with courses := s.courses ++ [bound, bound] }.noContext = true)
    ∧ (s.tileOps.filter fun o => o.course == 0).length < 16
    ∧ (op.ranges.all fun r => decide (r.1 % 512 = 0) && !(s.window s.me).violates s.me.heldS r.1 r.2 false) = true ∧ op.ranges.length = 2
    ∧ s.gateStop [charge0 (arAcct 0) op.charge] true = none ∧ s.gateStop [] true = none ∧ s.gateStop [] false = none
    ∧ (s.window s.me).violates s.me.heldS 0 4096 true = false ∧ (s.window s.me).violates s.me.heldS 0 4096 false = false
    ∧ s.fills s.me ((List.range 65).map fun k => 0 + min (64 * k) 4095) = []
    ∧ s.useErr s.me.who cap 0 1 0x1000 4096 4 false = none ∧ s.useErr s.me.who cap 0 2 0x1000 4096 4 true = none
    ∧ (s.loadVA s.me 0x1000 4096).toOption.isSome ∧ (s.me.tile 0).bad = []
    ∧ ({ s with tileOps := [op] }.tileOps.any fun o => o.course == 0 && 2 ^ 1 / 2 ^ o.z % 2 == 1) = true
    ∧ (s.modMe fun c => { c with mctx := some { tiles := List.replicate 4 {} } }).me.mctx = some { tiles := List.replicate 4 {} } := by
  decide +kernel

/-! More states, for the clauses of the statements about memory, ordering, spools and copies. -/

/-- laneAt with a copy of its course under way, whose writes are not performed. -/
def copyingAt (s : State) : State :=
  { s with jobs := [{ kind := .cpy, ctx := 0, course := some 0, parts :=
      [{ src := .global 0 0x1000, dst := .global 0 0x1800, len := 64, outLen := 64, course := some 0 }] }] }

/-- LaneGraft: a donor whose engine writes are not performed. -/
theorem witness_graft_wait :
    let s := pairAt []
    let w := { s with jobs := [{ kind := .cpy, ctx := 0, course := some 1, parts :=
      [{ src := .global 0 0x1000, dst := .global 0 0x1800, len := 64, outLen := 64, course := some 1 }] }] }
    graftNofit (w.course 0) (w.course 1) = false ∧ (w.releaseEnter 1 1).2 = some (.wait { kind := .writes })
    ∧ (s.releaseEnter 1 1).2 = none := by decide +kernel

/-- LaneStashWords: a slot whose line the host has not given back, and one that the host does not hold. -/
theorem witness_stash_held :
    let s := windowAt.modTeam 0 fun t => { t with stash := [(0, { scr := 0, va := 0x1000, len := 64, mode := 0 })] }
    let held : State := { s with heldWrites := [(5, [])] }
    let r (s : State) := (s.commitS 0 fun a => 0 ≤ a && a < 64).stashFlush 0 (fun n _ => n == 0) s.me.lclock
    (r s).1.heldWrites = [] ∧ (r held).1.heldWrites ≠ []
    ∧ (held.commitS 0 fun a => 0 ≤ a && a < 64).flushErr 0 (fun n _ => n == 0) three = none := by decide +kernel

/-- LaneCacheWords: a hint that reads its operand, and one whose queue is empty with its feed active. -/
theorem witness_hint :
    let fed := at_ { laneCore three with feeds := [{ active := some ⟨0, 0, 0, 1, 0, 1, 0, 0, 0⟩ }] }
    (laneAt.issueHint three 1).toOption.isSome = true
    ∧ (match fed.issueHint three 0xC0 with | .error x => x == .wait { kind := .feed } | .ok _ => false) = true := by decide +kernel

/-- LaneAtomicWords: one thread on a line of this device that no held store is for. -/
theorem witness_one_atomic :
    let s := at_ (laneCore 1)
    let c := s.me
    let s1 := s.commitG 0 fun a => 0x1000 / 64 == a / 64
    issues s 1 [(1, 1), (0, 1)] (fun e => (e.unit 1 0 1 0).toNat == 0) = true ∧ issues s 1 [(1, 1), (0, 1), (2, 1)] (fun _ => true) = true
    ∧ s1.me.heldG = [] ∧ s1.lostAt c { t := 0, addr := 0x1000 } = none ∧ s1.loanPackets c [{ t := 0, addr := 0x1000 }] = s1
    ∧ s.heldWrites = [] ∧ s.hostLines = [] ∧ s.memOk = true ∧ s.badWord c 8 = false
    ∧ (match s1.translate c.who 0x1000 true 4 with
       | .ok y => decide (y.loc < lentBase) && !y.leaf.getLsbD 11 && y.loc % 64 == 0x1000 % 64 | .error _ => false) = true := by
  decide +kernel

/-- LaneBarrierWords: a team with eight enrolments elsewhere and with none, a tag of another generation, and the object after the
release. -/
theorem witness_barrier_release :
    let o : BarObj := { barOf (List.replicate 16 0) with expect := 2, arrived := 1, gen := 9, state := 1, scope := 3 }
    let b := barrierAt o
    let full := b.modTeam 0 fun t => { t with enrols := (List.range 8).map fun k => { ctx := 0, va := 0x2000 + 16 * k, gen := 0 } }
    let p := b.releasePrep 0 3
    let found (s : State) : Bool :=
      match b.issue three [(2, 1), (3, 1)] with
      | .error _ => false
      | .ok e => ((s.barAt b.me e (word 0 3 2 3 0xF1 0 0 3)).toOption.map fun x => barOf x.old) == some o
        && (e.unit 0 0 3 0).toNat % 256 != o.gen
    found p = true ∧ p.gateStop (p.class4 b.me 0x1000) = none
    ∧ full.me.team = some 0 ∧ 8 ≤ (full.liveEnrols 0).length ∧ (b.liveEnrols 0).length = 0
    ∧ ((full.liveEnrols 0).all fun x => x != { ctx := 0, va := 0x1000, gen := 9 }) = true := by decide +kernel

/-- LaneOrderingWords: a release that waits for a copy, and a region release outside and over its destination. -/
theorem witness_releases :
    let s := laneAt.modMe fun c => { c with heldG := [⟨0x1000, 5⟩] }
    ((copyingAt s).releaseEnter 0 3).2 = some (.wait { kind := .writes })
    ∧ (s.regionEnter 0 3 [(0x1000, 4096)]).2 = none ∧ ((copyingAt s).regionEnter 0 3 [(0x1000, 64)]).2 = none := by decide +kernel

/-- LanePublishWords: the gate after the owner's release. -/
theorem witness_publish_release :
    let p : Pub := { vbase := 0x1000, vlen := 4096, isOpen := true, team := 0 }
    let s := (laneAt.modCtx 0 fun c => { c with pub := [(0, p)] }).put 0x1000 (leBytes 8 (0x80000003 + 2 ^ 11))
    let entered := s.releaseEnter 0 3
    entered.2 = none ∧ entered.1.bufferWrites 0 p = false ∧ entered.1.gateStop (entered.1.class4 s.me 0x1000) = none := by decide +kernel

/-- LaneSpoolBlockWords, LaneSpoolMoves: a block at its home, one stopped at the gate, one that is poisoned, and a move as it stands
after its release. -/
theorem witness_spool_home :
    let s := spoolAt 3 5 14
    let shut := s.modCtx 0 fun c => { c with vbnd := 1, vmode := true }
    let reach (s : State) (e : Env) (b : SpoolAt) : Option Bool :=
      match s.spoolReach e (word 0 3 0xF1 0xF1 0xF1 0 0 1 3) b with | .inl _ => none | .inr l => some l
    spoolFound s (fun e b => reach s e b == some false
      && (let p := s.releasePrep 0 1
          reach p e b == some false && (p.spoolAt e (word 0 3 0xF1 0xF1 0xF1 0 0 1 3)).toOption.isSome
            && (p.context 0).tenant == (s.context 0).tenant)) = true
    ∧ spoolFound shut (fun e b => reach shut e b == none && (shut.gateStop [shut.spoolCharge shut.me b.va]).isSome) = true
    ∧ spoolFound laneAt (fun _ b => (laneAt.spoolBad 0 b.bytes).isSome && !laneAt.spoolCached 0 b.loc) = true
    ∧ (match s.issue three [(0, three)] with
       | .error _ => false
       | .ok e => match (s.releaseEnter 0 1).1.spoolOpen e (word 0 3 0xF1 0xF1 0xF1 0 0 1 3) with | .inr (_, _, l) => !l | .inl _ => false)
        = true := by decide +kernel

/-- LaneRemoteWords: no line of another device to be read, and a cached copy that the free choice lets the word use; one thread that
reads this device's own node. -/
theorem witness_remote_cached :
    let r : RemoteCopy := { tenant := 0, node := 7, va := 0x1000, bytes := [1, 2, 3, 4], wts := 0, lease := 100, filled := 0 }
    let s : State := { routedAt with remote := [r], l2 := [{ line := remoteLine 7 0x1000, slice := 0, way := 0, tenant := 0, evp := 0, stamp := 0 }] }
    let none' := at_ { laneCore three with preds := [0] }
    (s.pick (remoteLine 7 0x1000) = true → s.remoteCopy s.me 7 0x1000 4 = some r)
    ∧ s.resultsIn 0 = true ∧ s.me.remoteBad = []
    ∧ none'.remoteAccs none'.me 0 (mkCap 0 0 4096 0x7F 0x1000) 1 [] 1 0 4 (fun _ => 7) false = [] := by
  refine ⟨fun h => ?_, by decide +kernel, by decide +kernel, by decide +kernel⟩
  unfold State.remoteCopy
  rw [List.find?_cons]
  rw [h]
  decide +kernel

/-- LaneCopyWords: a copy that DISCARD has stopped, reports of a first issue and of a reissue, and a destination inside and outside
an unpublished shadow. -/
theorem witness_copy_again :
    let s := windowAt
    let again := { s with jobs := [{ kind := .cpy, ctx := 0, course := some 0, reissue := true }] }
    let open' := s.modCtx 0 fun c => { c with pub := [(0, { isOpen := true, team := 0, vbase := 0x1000, vlen := 4096 })] }
    let copy : Eng := ⟨0, 0, 0, 3, 0xE1, 0xE1, 0, 2 ^ 20⟩
    s.stopped .cpy = none ∧ again.stopped .cpy = some 0 ∧ (again.jobs[0]?).map (·.ring) = some none
    ∧ (match s.engIssue [] with
       | .ok e => ((s.copyReport e copy none).toOption.map fun x => (x.2.1, x.2.2)) == some (none, none)
           && ((again.copyReport e copy (some 0)).toOption.map fun x => (x.2.1, x.2.2)) == some (none, none)
       | .error _ => false) = true
    ∧ open'.inShadow open'.me (.global 0 0x1000) 4096 = true ∧ open'.inShadow open'.me (.global 0 0x1040) 4096 = false
    ∧ s.inShadow s.me (.global 0 0x1000) 64 = false ∧ again.gateStop [charge0 0 68] = none := by decide +kernel

/-- LaneChartWords: the header and the gate after the course's release. -/
theorem witness_chart_release :
    let s := laneWith 0x4000
      (ringBytes { stale := 0, rp := 0, wp := 1, alloc := 1, gen := 0, scope := 4, caplog := 1, magic := 0x5C05 })
    let cap := mkCap 5 0 128 0x7F 0x4000
    let r := (s.releaseEnter 0 4).1
    (r.ringHdr 0 cap (some 0)).toOption.any (·.ok cap) = true ∧ r.gateStop (r.class4 s.me 0x4000) = none
    ∧ (let n := nodeAt 1
       let q := ((n.commit 0).releaseEnter 0 3).1
       ((q.releaseClock 0).readVA (n.commit 0).me.who 0x5000 128).toOption.isSome = true
       ∧ q.gateStop [charge0 17 120] = none ∧ ((n.commit 0).releaseEnter 0 3).2 = none) := by decide +kernel

/-- LaneTileWords: ranges of the window that no line is mapped to. -/
theorem witness_tile_fills :
    let s := nodeAt 0
    (s.fillRanges [(0, 2048), (2048, 2048)] three).toOption.isSome = true ∧ (s.fillRange 0 4096 three).toOption.isSome = true := by
  decide +kernel

/-- LaneRemoteWords: an MCAST to node 7 alone, and one to node 7 and this device. -/
theorem witness_multicast :
    let core (xs : List Word) : Core := { laneCore three with relq := [{ first := 0, count := 1, xs := xs, caps := [mkCap 0 0 4096 0x7F 0x1000] }] }
    let cast (xs : List Word) (local' : Bool) : Bool :=
      let s : State := { at_ (core xs) with routes := [7] }
      issues s three [(1, three), (0, three)] fun e =>
        let nodes := (List.range (e.x 0xE2).toNat).map fun k => (e.x 0xE1 + BitVec.ofNat 32 k * e.x 0xE3).toNat
        let l := s.castAccs s.me three (e.cap 0) (e.src 1 0 1) 1 0 4 nodes
        let groups := (nodes.filter fun n => n != 0xFFFFFF).flatMap fun n => groupAccs (fun _ => n) l
        decide (1 ≤ nodes.length) && decide (nodes.length ≤ 32) && nodes.all s.nodeOk && nodes.contains 0xFFFFFF == local'
          && l.all (fun a => a.err.isNone) && l.length == 3 && !s.packetsFull groups && groups.length == 1
          && (s.releaseEnter 0 4).2.isNone && (s.releaseEnter 0 4).1.gateStop (remoteCharge s.me) == none
          && s.gateStop (remoteCharge s.me) == none
    cast [0, 7, 1, 0] false = true ∧ cast [0, 7, 2, 0xFFFFF8] true = true := by decide +kernel

/-! Events and commands: states in which an event is due and states in which it is not, and packets in the packet register. -/

/-- The state whose subject is number n. -/
def about (s : State) (n : Nat) : State := { s with subj := { num := n } }

/-- The state's only course waits, on its lane stream. -/
def waiting (w : Wait) : State := laneAt.modMe fun c => { c with lwait := some w, phase := .waiting }

/-- CourseEvents: every event of a course due, at the first cycle it is due, and a cycle before. -/
theorem witness_course_events :
    let us (n : Nat) : Nat := 1400 * n
    let clk (t : Nat) (s : State) : State := { s with clock := t }
    let flying := laneAt.modMe fun c => { c with inFlight := true }
    let done := laneAt.modMe fun c => { c with core := { c.core with ended := true, pending := 0 } }
    let feed : FeedDesc := { cap := mkCap 0 0 4096 0x7F 0x1000, start := 0, tstr := 4, count0 := 1, str0 := 0, count1 := 1, str1 := 0, flags := 2 }
    let fed := laneAt.modMe fun c => { c with core := { c.core with feeds := [{ active := some feed }] } }
    let hold := { laneAt with holds := [{ line := 5, cluster := 0, used := 0 }] }
    let held := laneAt.modMe fun c => { c with heldG := [⟨0x1000, 5⟩] }
    let poll := waiting { kind := .word }
    let ev := waiting { kind := .event, limit := some 10 }
    let park := laneAt.modMe fun c => { c with parked := some 10 }
    let dog := waiting { kind := .word }
    let gate := waiting { kind := .gate }
    flying.wordDue 0 = true ∧ laneAt.wordDue 0 = false ∧ done.retireDue 0 = true ∧ laneAt.retireDue 0 = false
    ∧ (fed.course 0).core.feeds.getD 0 {} = { active := some feed } ∧ fed.feedDue 0 0 = true
    ∧ (clk (us 2) hold).holdDue 5 = true ∧ (clk (us 2 - 1) hold).holdDue 5 = false
    ∧ (clk (us 2) held).heldDue 0 = true ∧ (clk (us 2 - 1) held).heldDue 0 = false
    ∧ (clk (us 1) poll).repollDue 0 = true ∧ (clk (us 1 - 1) poll).repollDue 0 = false
    ∧ (clk 10 ev).evwaitDue 0 = true ∧ (clk 9 ev).evwaitDue 0 = false ∧ (clk 10 park).parkDue 0 = true ∧ (clk 9 park).parkDue 0 = false
    ∧ (let w := dog.modMe fun c => { c with core := { c.core with ended := true } }
       (clk (2 ^ 60) (w.modMe fun c => { c with swait := some { kind := .word } })).watchdogDue 0 = true ∧ w.watchdogDue 0 = false)
    ∧ (gate.context 0).mode = .active ∧ (gate.course 0).lwait = some { kind := .gate } ∧ (gate.course 0).alive = true
    ∧ gate.gate 0 0 [] false = .pass ∧ gate.courses.length = 1
    ∧ (let later : Course := { gate.course 0 with lwait := some { kind := .gate, since := 3 } }
       let two : State := { gate with courses := [later, gate.course 0] }
       two.courses.length = 2 ∧ (two.course 1).lwait = some { kind := .gate } ∧ (two.course 0).lwait = some { kind := .gate, since := 3 })
    ∧ (gate.modCtx 0 fun c => { c with vbnd := 1 }).gate 0 0 [charge0 1 500] false = .vbig
    ∧ (gate.modCtx 0 fun c => { c with vbnd := (gate.eAlone 0 [charge0 1 500] []), vmode := true, charges := [charge0 1 500] }).gate 0 0
        [charge0 1 500] false = .vbnd
    ∧ ((gate.modCtx 0 fun c => { c with vbnd := (gate.eAlone 0 [charge0 1 500] []) , charges := [charge0 1 500] }).gate 0 0 [charge0 1 500] false) = .stall
    ∧ (gate.modCtx 0 fun c => { c with mode := .vacated }).contexts.all (fun x => x.mode != .active) = true := by decide +kernel

/-- EngineEvents: a copy with a slice to move, one whose slices have all moved, one on another device, and a follow-on. -/
theorem witness_copy_events :
    let p : Part := { src := .global 0 0x1000, dst := .global 0 0x1100, len := 4, outLen := 4, clk := 0, course := some 0 }
    let job : Job := { kind := .cpy, ctx := 0, parts := [p] }
    let s := { laneAt with jobs := [job] }
    let away := { laneAt with jobs := [{ job with kind := .cpyr, parts := [{ p with node := some 7, gate := some 1 }] }] }
    (s.jobs[0]?).map (fun j => j.parts.findIdx? fun p => !p.done) = some (some 0) ∧ s.mayMove 0 job = true
    ∧ s.partLeaves (job.who p) p = false
    ∧ ((s.partSource (job.who p) p).toOption).map (·.2.1) = some (List.replicate 4 0) ∧ s.firstBad (job.who p) 0x1100 4 true = none
    ∧ (s.writeVA (job.who p) 0x1100 [0, 0, 0, 0]).toOption.isSome ∧ s.jobs[1]? = none
    ∧ ({ laneAt with jobs := [{ job with parts := [{ p with done := true }] }] }.jobs[0]?).map (fun j => j.parts.findIdx? fun p => !p.done) = some none
    ∧ (away.jobs[0]?).map (fun j => (j.finished, (j.parts.map fun p => (p.done, p.node, p.gate)))) = some (false, [(false, some 7, some 1)])
    ∧ ({ laneAt with
        jobs := [{ job with kind := .cpyf, follow := 1, parts := [{ p with done := true }] }],
        tileOps := [{ course := 0, ctx := 0, team := 0, place := 0, z := 1, ta := 14, tb := 14, pb := 2, rz := false, aoff := 0, boffs := [2048], job := some 0,
                      ready := false }] } : State).followDue 0 = true ∧ s.followDue 0 = false := by decide +kernel

/-- EngineEvents: a tile operation to start and to end, a token idle, a node, a ply, a launch and a fault record to complete. -/
theorem witness_engine_events :
    let op : TileOp := { course := 0, ctx := 0, team := 0, place := 0, z := 1, ta := 14, tb := 14, pb := 2, rz := false, aoff := 0, boffs := [2048] }
    let tiled (o : TileOp) : State :=
      { laneAt.modMe (fun c => { c with mctx := some { tiles := List.replicate 4 {} } }) with tileOps := [o] }
    let node : NodeRun := { ctx := 0, va := 0x5000, ready := true }
    let ply : PlyRun := { ctx := 0, ended := true, report := some (.packet 0 0) }
    (tiled op).tileStarts 0 = true ∧ laneAt.tileStarts 0 = false ∧ ((tiled op).team 0).alive = true ∧ op.job = none
    ∧ (tiled { op with started := true }).engineRuns 0 0 = true ∧ ((tiled op).course 0).phase ≠ .retired
    ∧ ((tiled op).course 0).mctx = some { tiles := List.replicate 4 {} }
    ∧ ({ laneAt with splits := laneAt.splits.map fun p => { p with token := true } } : State).tokenIdle 0 = true ∧ laneAt.tokenIdle 0 = false
    ∧ ({ laneAt with nodes := [node] } : State).nodeDue 0 = true ∧ ({ laneAt with nodes := [{ node with started := true, ended := true }] } : State).nodeDue 0 = true
    ∧ laneAt.nodeDue 0 = false ∧ ({ laneAt with plies := [ply] }.plies[0]?).map (fun p => (p.ended, p.finished, p.cause)) = some (true, false, 0)
    ∧ laneAt.launchDone 0 = false ∧ (laneAt.modLaunch 0 fun l => { l with retired := 1 }).launchDone 0 = true
    ∧ (laneAt.launch? 0).map (fun l => (l.report, l.killed, l.tick)) = some (.packet 0 0, none, false)
    ∧ laneAt.postDue 0 = false
    ∧ ({ postingAt with posts := [{ ctx := 0, cause := 18 }] } : State).postDue 0 = true ∧ State.reset.boot < 5 ∧ 5 ≤ laneAt.boot := by decide +kernel

/-- A submission ring of context 0 at tenant address 0x6000 with two slots, one packet written and none taken. -/
def ringAt : State :=
  ({ laneAt with queues := [{ num := 3, ctx := 0, base := 0x6000, caplog := 1, ready := true, deficit := 1 }], swiftAt := 3 } : State).put (2 ^ 30 + 0x6000)
    (leBytes 12 (0x5C11 + 2 ^ 16 * 1 + 2 ^ 64 * 1))

/-- EngineEvents and SchedulerEvents: the ring above is served, its header is sound and it has a packet; rings that may be mapped and
unmapped. -/
theorem witness_rings :
    let s := ringAt
    (s.queue? s.swiftAt).map Queue.served = some true ∧ (s.queue? 3).map (·.deficit) = some 1
    ∧ ((s.queue? 3).any fun q => (s.subHdr q).toOption.any fun h =>
        h.magic == 0x5C11 && h.caplog == q.caplog && decide (sub32 h.wptr q.done ≤ 2 ^ q.caplog) && h.wptr != q.rptr) = true
    ∧ s.queue? 4 = none ∧ s.mappedCount < 1024
    ∧ (({ s with queues := s.queues.map fun q => { q with mapped := false } } : State).queue? 3).map (fun q => (q.closing, q.mapped)) = some (false, false)
    ∧ (s.queue? 3).map s.mayUnmap = some false
    ∧ (let idle : State := { laneAt with queues := [{ num := 3, ctx := 0, base := 0x6000 }], clock := 2 ^ 40 }
       (idle.queue? 3).map idle.mayUnmap = some true) := by decide +kernel

/-- A launch of context 0 whose one gang waits for a core. -/
def queuedAt : State :=
  let s := laneAt.modLaunch 0 fun l => { l with placed := 0, blockedSince := some 0 }
  { s with courses := [], splits := [], launches := s.launches }

/-- SchedulerEvents: a head that can be placed, that ages, a tick, the phases of a vacate and a gang switch, swapping and the
needles. -/
theorem witness_scheduler_events :
    let s := queuedAt
    let ticked := s.modLaunch 0 fun l => { l with held := true, tickAt := some 0 }
    let vacating := laneAt.modCtx 0 fun c => { c with mode := .vacating }
    let gang : GangSw := { outgoing := 0, incoming := 1, tick := 0, queue := mgmtRing, slot := 0 }
    let two : State := { laneAt with contexts := laneAt.contexts ++ [{ num := 1, mode := .vacated }], gangsws := [gang] }
    let stopped := two.modCtx 0 fun c => { c with mode := .vacated, tickp := 1000 }
    let asleep := waiting { kind := .word }
    s.heads 0 = [0] ∧ laneAt.heads 0 = [] ∧ (s.launch? 0).map (·.placed) = some 0
    ∧ ((s.launch? 0).map fun l => (s.chooseCores 0 l (s.nextGang 0)).isSome) = some true
    ∧ (laneAt.launch? 0).map (·.placed) = some 1
    ∧ ({ s with clock := 2 ^ 40 } : State).ageDue 0 = true ∧ s.ageDue 0 = false ∧ s.clustersFor 0 none = [0]
    ∧ ticked.tickDue 0 = true ∧ s.tickDue 0 = false
    ∧ (laneAt.context 0).mode = .active ∧ (vacating.context 0).mode ≠ .active ∧ vacating.saveDue 0 = true ∧ laneAt.saveDue 0 = false
    ∧ ({ two with clock := 2 ^ 40 } : State).switchDue 0 = true ∧ laneAt.switchDue 0 = false
    ∧ ({ (vacating.modCtx 0 fun c => { c with vacateEst := 4 * c.vbnd + 1 }) with
          clock := 2 ^ 60, gangsws := [{ gang with requested := some 0 }] } : State).ceilingDue 0 = true ∧ laneAt.ceilingDue 0 = false
    ∧ ({ stopped with clock := 2 ^ 40, gangsws := [{ gang with requested := some 0, finished := some 0 }] } : State).incomingDue 0 = true
    ∧ laneAt.incomingDue 0 = false ∧ (stopped.context 1).mode = .vacated ∧ 0 ≤ tickCycle (stopped.context 0) 0
    ∧ asleep.mayswapOut 0 = true ∧ laneAt.mayswapOut 0 = false ∧ laneAt.swapInDue 0 = false
    ∧ ((laneAt.modMe fun c => { c with phase := .swapped }).modCtx 0 fun x => { x with wakes := [0] }).swapInDue 0 = true
    ∧ ({ laneAt with standbyOk := true } : State).standbyOk = true ∧ laneAt.takeoverDue = false
    ∧ ({ laneAt with standbyOk := true, patchNext := some [], fwPacket := some (0, 0) } : State).takeoverDue = true := by decide +kernel

/-- A packet of a read or a write that course 0 has sent to node 7, awaiting its acknowledgement. -/
def packetOf (writes : Bool) : Outstanding :=
  { node := 7, seqno := 0, course := 0, packet := { source := 0, target := 7, seqno := 0, tenant := 0, clock := 0, op := .read, accs := [] },
    writes := writes, result := true, word := 0, pc := 0, sentAt := 0, firstSent := 0 }

/-- FabricEvents: a request already performed, refused and covered; a packet at each stage of its timeouts; lines, loans and regions
lent in every state the events ask for. -/
theorem witness_fabric_events :
    let us (n : Nat) : Nat := 1400 * n
    let acc : RemoteAcc := { thread := 3, addr := 0x1000, size := 4, data := [], cmp := 0 }
    let ask (a : RemoteAcc) : State :=
      { laneAt with subj := { request := { source := 7, target := 0, seqno := 0, tenant := 0, clock := 0, op := .read, accs := [a] } } }
    let o := packetOf true
    let flies (o : Outstanding) (t : Nat) : State := { laneAt with outstanding := [o], clock := t }
    let lto := laneAt.ltoOf o
    let loan (st t : Nat) : State := { laneAt with loans := [{ index := 2, state := st, term := 8, recalledAt := 0 }], clock := t, portsDown := 1 }
    let lent (t : Nat) : State := { laneAt with lends := [{ index := 2, term := 8, recalled := true }], clock := t }
    ({ laneAt with performed := [{ source := 7, seqno := 0, reply := State.reset.sentReply }] } : State).performed.any
      (fun p => p.source == 7 && p.seqno == 0) = true ∧ remoteWrites .write = true
    ∧ (ask acc).lentRegion 0 = none ∧ (ask acc).tenantCtx 0 = some 0 ∧ (ask acc).tenantCtx 9 = none
    ∧ (ask acc).covered 0 .read acc = true ∧ (ask acc).firstBad { ctx := 0, clk := 0 } 0x1000 4 false = none
    ∧ (ask acc).covered 9 .read acc = false ∧ ({ ask acc with grants := [] } : State).covered 0 .read acc = false
    ∧ (flies o 0).packetOut o.key 0 = some o ∧ laneAt.packetOut 7 0 = none
    ∧ (flies o (us 20)).resendDue o = true ∧ (flies o (us 20 - 1)).resendDue o = false
    ∧ lto - 1 < 0 + lto ∧ o.paged = false ∧ o.asked = false ∧ o.writes = true ∧ (packetOf false).writes = false
    ∧ 5 ∉ laneAt.delegated ∧ 5 * 64 < hostBase ∧ hostBase ≤ (hostBase / 64) * 64 ∧ ({ laneAt with delegated := [5] } : State).delegated = [5]
    ∧ (loan 1 (1400000 * 2)).renewDue ((loan 1 0).loan 2) = true ∧ (loan 1 (1400000 * 2 - 1)).renewDue ((loan 1 0).loan 2) = false
    ∧ (loan 1 (1400000 * 8)).lostDue ((loan 1 0).loan 2) = true ∧ (loan 1 (1400000 * 8 - 1)).lostDue ((loan 1 0).loan 2) = false
    ∧ ((loan 2 0).loan 2).state = 2 ∧ ((loan 2 0).loan 2).deadline < 2 ^ 60 ∧ (loan 2 0).clock ≤ ((loan 2 0).loan 2).deadline
    ∧ ((loan 1 0).loan 2).state ≠ 2 ∧ (loan 2 0).portsDown ≠ 0 ∧ laneAt.portsDown = 0
    ∧ (lent (1400000 * 16)).reuseDue { index := 2, term := 8 } = true ∧ (lent (1400000 * 16 - 1)).reuseDue { index := 2, term := 8 } = false := by
  decide +kernel

/-- HostEvents: budgets at the ends of the range and outside it, register offsets at the ends of their windows, ranges the host reaches
and does not, and the temperatures around the two thresholds. -/
theorem witness_host_events :
    let s := { laneAt with cxlwin := List.replicate 16 0, wfilt := List.replicate 16 0 }
    (1600 % 50 = 0 ∧ 2400 % 50 = 0 ∧ 0x0F / 8 * 8 = 8 ∧ 7 / 8 * 8 = 0 ∧ 0x400 = 0x407 / 8 * 8)
    ∧ 0x1F0 / 8 * 8 = 0x100 + 16 * 15 ∧ 15 < s.cxlwin.length ∧ 0x3E0 / 8 * 8 = 0x200 + 32 * 15 ∧ 15 < s.wfilt.length
    ∧ hostReach (12 * 10 ^ 9 - 4) 4 = true ∧ hostReach (12 * 10 ^ 9 - 4) 5 = false ∧ 12 * 10 ^ 9 - 4 + 4 ≤ hostBase
    ∧ laneAt.heldWrites = [] ∧ laneAt.memOk = true ∧ hostReach (2 ^ 34 * 31) 64 = true ∧ hostReach (2 ^ 34 * 32) 1 = false
    ∧ (100 < 101 ∧ 94 < 95 ∧ 95 ≤ 95 ∧ 100 ≤ 100) ∧ (ringAt.queue? 3).any (fun q => q.mapped && !q.inHost) = true
    ∧ (({ ringAt with queues := ringAt.queues.map fun q => { q with host := true, line := hostBase / 64, num := mgmtRing } } : State).queue? mgmtRing).any
        (fun q => q.mapped && q.inHost) = true := by decide +kernel

/-- A packet's fields. -/
def packet (tgt : BitVec 8) (arg0 arg1 : Word) (f0 : BitVec 128) (f1 : BitVec 128 := 0) (f2 : BitVec 128 := 0) : Packet :=
  { tgt := tgt, capv := 0, fence := false, tick := false, sysc := false, prio := 0, arg0 := arg0, arg1 := arg1, f0 := f0, f1 := f1, f2 := f2 }

/-- laneAt with a packet of queue q, slot 0, in the packet register. -/
def commanded (q : Queue) (p : Packet) : State := { laneAt with queues := [q], pktQueue := q.num, pktSlot := 0, pkt := p }

/-- The ring of context 0 with one packet taken. -/
def ring3 : Queue := { num := 3, ctx := 0, base := 0x6000, caplog := 1, taken := [{ slot := 0 }] }

/-- ContextCommands: a launch that is formed and one that is not, a chart node and a ply descriptor that pass their checks and one
that does not, and a packet that is the head of its queue. -/
theorem witness_context_commands :
    let code : Cap := mkCap 4 0 0xC00 pX 0x2000
    let desc := mkCap 4 0 64 1 0x8000
    let args := mkCap 0 0 64 1 0x9000
    let s := commanded ring3 (packet 0 1 0 desc args)
    let formed (s : State) (n : Nat) : Except LaunchErr Launch :=
      s.formLaunch { ctx := 0, report := .packet 3 0, desc := desc, args := args, recs := 0, ncourse := n, lastn := 0, arrival := 0, pin := none,
                     prio := 0, sysc := false, tick := false, queue := 3, clock := 0 }
    let good := s.put (2 ^ 30 + 0x8000) (leBytes 64 (8 + 2 ^ 99 + code.toNat * 2 ^ 256 + code.toNat * 2 ^ 384))
    s.ringCtx.map (·.num) = some 0 ∧ (commanded { ring3 with ctx := 9 } (packet 0 0 0 0)).ringCtx = none
    ∧ (formed s 0).toOption.isNone ∧ (formed good 1).toOption.map (fun l => (l.regs, l.cpt, l.lastn)) = some (8, 1, 256)
    ∧ 2 ^ 15 ≤ (0x8000 : Word).toNat ∧ (0x7FFF : Word).toNat < 2 ^ 15
    ∧ s.capErr 0 (mkCap 2 0 128 4 0x5000) 2 4 128 128 = none ∧ (s.frontRead 0 0x5000 128).toOption.isSome
    ∧ (s.capErr 0 (mkCap 2 0 127 4 0x5000) 2 4 128 128).isSome ∧ s.capErr 0 (mkCap 2 0 64 1 0x5000) 2 1 64 1 = none
    ∧ (s.queue? 3).map (·.taken) = some [{ slot := 0 }] := by decide +kernel

/-- The management ring with one packet taken. -/
def ringM : Queue := { num := mgmtRing, ctx := 64, base := 0x40000000, taken := [{ slot := 0 }] }

/-- SetupCommands: arguments that are taken and refused, at the ends of their ranges. -/
theorem witness_setup_commands :
    let s := commanded ringM (packet 0 0 0 0)
    let free : State := { s with courses := [] }
    let save := mkCap 0 0 52428800 3 0x10000
    let none' := commanded ringM (packet 63 0 0 0)
    let held := s.modMe fun c => { c with heldG := [⟨0x1000, 5⟩] }
    (24 ≤ 24 ∧ 23 < 24) ∧ s.partRefused 23 1 0 = true ∧ free.partRefused 23 2 2 = false
    ∧ (∀ x, x ∈ s.contexts → x.num = 63 → x.mode = .deleted) ∧ (s.partition? 0).isSome ∧ s.validate 0 save = none ∧ s.validate 0 0 = none
    ∧ saveAreaOk save (clusterCount 1) = true ∧ saveAreaOk (mkCap 0 0 52428799 3 0x10000) (clusterCount 1) = false
    ∧ Config.vceil ≤ Config.vceil ∧ Config.vceil < Config.vceil + 1
    ∧ none'.target false = none ∧ none'.target true = none ∧ (s.target false).map (·.num) = some 0 ∧ (s.target true).map (·.num) = some 0
    ∧ s.physReason 0 (2 ^ 21) (2 ^ 21) = none ∧ s.physReason 0 (2 ^ 34) (2 ^ 21) ≠ none
    ∧ (s.modMe fun c => { c with inFlight := true }).me.inFlight = true ∧ (s.ctxCourses 0) = [0] ∧ held.me.heldG ≠ [] ∧ s.me.heldG = []
    ∧ s.inFilter 0 0 = true ∧ s.inFilter 0 (mkCap 0 0x3F 4096 0x7F 0) = false ∧ grantCovers 0 (s.grantEntry 0 0) = false
    ∧ grantCovers (s.grantEntry 0 0) (s.grantEntry 0 0) = true ∧ s.residents 0 = [0] ∧ s.residents 9 = []
    ∧ dataCap (mkCap 0 0 128 3 0x6000) 3 = true ∧ s.queue? 9 = none ∧ (s.translate { ctx := 0 } 0x6000 true).toOption.isSome
    ∧ ({ s with queues := s.queues ++ [ring3] } : State).queue? 3 = some ring3 ∧ ring3.taken ≠ []
    ∧ (s.target false).any (fun x => setpRange x 0 1 && !setpRange x 0 0 && setpRange x 0 Config.vceil && !setpRange x 8 0x7FFFFFFF) = true
    ∧ 65536 % 65536 = 0 ∧ 65535 % 65536 ≠ 0 := by decide +kernel

/-- OperationCommands: loans lent, mapped, recalled and ended, in every state; contexts in each mode; an entry that waits for its
answer; a QUERY of each set; images and report ranges inside the device's memory and outside it. -/
theorem witness_operation_commands :
    let s := commanded ringM (packet 0 0 0 0)
    let e : BitVec 128 := BitVec.ofNat 128 (1 + 8 * 2 ^ 64)
    let l := loanOf 2 e
    let spare : State := { s with partitions := [{ num := 0, clusters := 1, groups := 1 }] }
    let away := s.modCtx 0 fun c => { c with mode := .vacated }
    let two : State := { s with contexts := s.contexts ++ [{ num := 1 }] }
    let asked : State := ({ s with posted := [{ ctx := 0, entry := 0, source := 0, course := some 0 }] } : State).modMe fun c =>
      { c with trapped := some { info := { cause := 19, scalar := true }, entry := some 0 } }
    (4096 ≤ 4096 ∧ 4095 < 4096) ∧ loanEntryOk e = true ∧ loanEntryOk 0 = false
    ∧ l.inTime = true ∧ ({ l with size := 65535 } : Loan).inTime = false ∧ spare.reserveSpace l ≠ none
    ∧ ({ spare with partitions := [{ num := 0, clusters := 1, groups := 0xFFFFFFFF }] } : State).reserveSpace l = none
    ∧ (s.loan 2).state ≠ 1 ∧ (s.loan 2).state ≠ 2
    ∧ ({ s with lends := [{ index := 2, reusable := true }] } : State).lends.any (fun m => m.index == 2 && m.reusable) = true
    ∧ ({ s with loans := [{ index := 2, state := 2 }] } : State).loans.any (fun m => m.index == 2) = true
    ∧ (s.target false).map (·.mode) = some .active ∧ (away.target false).map (·.mode) = some .vacated ∧ away.canResume 0 = true
    ∧ ((s.modCtx 0 fun c => { c with mode := .vacating }).target false).map (·.mode) = some .vacating
    ∧ (let p : Split := { place := 0, ctx := 0, reg := 6, qbuf := 1, loc := 0, ckpt := 1 }
       (({ away with splits := [{ p with ctx := 1 }] } : State).modCtx 0 fun c => { c with savedSplits := [p] }).canResume 0 = false)
    ∧ two.contexts.any (fun c => c.num == 1 && c.mode == .active) = true ∧ two.gangsws = [] ∧ ((two.modCtx 0 fun c => { c with tickp := 1000 }).context 0).tickp ≠ 0
    ∧ (asked.openEntry 0 0).map (·.source) = some 0 ∧ s.openEntry 0 0 = none ∧ (asked.course 0).trapped.isSome
    ∧ inGroup (12 * 10 ^ 9 - 4) 4 = true ∧ inGroup (12 * 10 ^ 9 - 3) 4 = false ∧ inGroup 0 3749 = true ∧ inGroup (2 ^ 34 * 32) 3749 = false
    ∧ ({ s with standbyOk := true } : State).standbyOk = true ∧ s.standbyOk = false := by decide +kernel

/-- StepRunsDecoded: words of both streams that decode and that do not, a packet that begins, and one thing, several and nothing
that may happen. -/
theorem witness_step :
    let s := State.reset.withFetchWord 32 0x04E00400
    let v := State.reset.withFetchWord 96 (0x189 * 2 ^ 78 + 0xF1F1F1F1 * 2 ^ 42)
    let m := State.reset.withFetchWord 512 0x80004
    s.me.core.pc + 4 ≤ capLen s.me.scode ∧ s.badVA s.me.who (capBase s.me.scode + s.me.core.pc) 4 = false
    ∧ ((s.readVA s.me.who (capBase s.me.scode + s.me.core.pc) 4).toOption.map leNat) = some 0x04E00400
    ∧ rejected (decodeScalar 0x38000000) = some (.ills 1) ∧ rejected (decodeLane 192 (3 * 2 ^ 94)) = some (.illl 1)
    ∧ 12 * v.me.core.lanePc + 12 ≤ capLen v.me.lcode ∧ v.badVA v.me.who (capBase v.me.lcode) 12 = false
    ∧ ((v.readVA v.me.who (capBase v.me.lcode) 12).toOption.map leNat) = some (0x189 * 2 ^ 78 + 0xF1F1F1F1 * 2 ^ 42)
    ∧ (match m.beginPacket 0 with | .command i _ => i == .mark | _ => false) = true
    ∧ s.actions = [.scalar 0] ∧ State.reset.actions = [.event .deviceReset { num := 0 }]
    ∧ ({ State.reset with boot := 5 } : State).actions = [] ∧ 1 < ({ s with boot := 0 } : State).actions.length := by decide +kernel

/-- DecodeEncode: well-formed instructions of every format, and a packet that R399 admits. -/
theorem witness_encode :
    (.addi 31 31 0xFFFF : Instr).wf 8 = true ∧ (.iadd (word 0 63 0 63 0xF1) : Instr).wf 64 = true
    ∧ (.arm ⟨0, 15, 0, 0xF1, 0xF1, 0xF1, 0, 0⟩ : Instr).wf 8 = true
    ∧ encodePacket .mark (packet 0 0 0 0) = some 4
    ∧ (Enc.pktRule (4 % 256) (packet 0 0 0 0)).toOption.any (fun r => r.cmd == .mark && (Enc.pktFault r (packet 0 0 0 0)).isNone) = true := by
  decide +kernel

/-- StepKeepsMemoryForm: the machine after reset and with memory in use has the form, and steps. -/
theorem witness_memory_form :
    State.reset.memOk = true ∧ (State.reset.withFetchWord 32 0x04E00400).memOk = true
    ∧ after ((State.reset.withFetchWord 32 0x04E00400).perform (.scalar 0)) (fun t => t.me.core.x 7 == 1024) = true := by decide +kernel

/-! More states, for the clauses of the statements about events, commands and steps. -/

/-- CourseEvents: words of both kinds whose results are in, a feed element inside its capability, and a resident course. -/
theorem witness_word_complete :
    let flying (w : Nat) : State := (State.reset.withFetchWord 96 w).modMe fun c => { c with inFlight := true, core := { c.core with pending := 1 } }
    let word (w : Nat) (p : Instr → Bool) : Bool := match (flying w).fetchLane (flying w).me with | .word i => p i | .stop _ => false
    (flying 0x00C00420478BC40010C40040).wordDue 0 = true
    ∧ word 0x00C00420478BC40010C40040 (fun i => match i with | .rld _ => true | _ => false) = true
    ∧ word 0x00C08820478B500000C40009 (fun i => match i with | .ratom _ => true | _ => false) = true
    ∧ ((laneAt.loadVA laneAt.me 0x1000 4 (laneAt.unseen laneAt.me 0x1000 0)).toOption.isSome) = true
    ∧ laneAt.badLoad laneAt.me 0x1000 4 (laneAt.unseen laneAt.me 0x1000 0) = false ∧ (laneAt.course 0).isResident = true := by decide +kernel

/-- SchedulerEvents: a head whose launch has no bad capability, and a gang switch that lost its context. -/
theorem witness_head_start :
    let s := queuedAt.modLaunch 0 fun l => { l with args := mkCap 0 0 64 1 0x9000 }
    s.groupErrs 0 = [] ∧ s.heads 0 = [0] ∧ (s.launch? 0).map (·.placed) = some 0
    ∧ ((s.launch? 0).map fun l => ((s.growReservation 0 l (s.nextGang 0)).chooseCores 0 l (s.nextGang 0)).isSome) = some true
    ∧ (let g : GangSw := { outgoing := 0, incoming := 1, tick := 0, queue := mgmtRing, slot := 0, requested := some 0, finished := some 0, lost := true }
       let two : State := { laneAt with clock := 2 ^ 40, contexts := laneAt.contexts ++ [{ num := 1, mode := .vacated }], gangsws := [g] }
       (two.modCtx 0 fun c => { c with mode := .lost, tickp := 1000 }).incomingDue 0 = true) := by decide +kernel

/-- FabricEvents, SetupCommands: no launch is about to complete. -/
theorem witness_no_launch_done : ∀ i, State.reset.launchDone i = false := by
  intro i
  have h : State.reset.launches = [] := rfl
  simp [State.launchDone, State.launch?, h]

/-- FabricEvents: a borrower's request, and a port's question about a number that nothing has performed. -/
theorem witness_borrower :
    let acc : RemoteAcc := { thread := 3, addr := 0x1000, size := 4, data := [], cmp := 0 }
    let ask (l : List RemoteAcc) (op : RemoteOp) (tenant : Nat) : State :=
      { laneAt with
        lends := [{ index := 2, size := 1, term := 8 }]
        subj := { request := { source := 7, target := 0, seqno := 0, tenant := tenant, clock := 0, op := op, accs := l } } }
    ((ask [acc] .read (2 ^ 16 + 2)).lentRegion (2 ^ 16 + 2)).map (·.index) = some 2 ∧ (ask [] .write 0).performed = []
    ∧ (ask [] .write 0).subj.request.accs = [] ∧ remoteWrites (ask [] .write 0).subj.request.op = true := by decide +kernel

/-- SetupCommands: a store that its page no longer takes stays held. -/
theorem witness_tlbinv_held :
    let s := (commanded ringM (packet 0 0 0 0)).modMe fun c => { c with heldG := [⟨2 ^ 31, 5⟩] }
    ((s.checkpoint 0).course 0).heldG ≠ [] ∧ (s.course 0).inFlight = false ∧ s.me.heldG ≠ [] := by decide +kernel

/-- OperationCommands: an entry about a trap that is not a later fault. -/
theorem witness_answer :
    let s : State := ({ laneAt with posted := [{ ctx := 0, entry := 0, source := 0, course := some 0 }] } : State).modMe fun c =>
      { c with trapped := some { info := { cause := 19, scalar := true }, entry := some 0 } }
    (s.openEntry 0 0).map (fun e => (e.source, e.course)) = some (0, some 0) ∧ 0 < s.courses.length
    ∧ (s.course 0).trapped.map (fun t => t.info.later) = some false := by decide +kernel

/-- StepRunsDecoded: clocks due and not due, and a state whose agenda is not empty. -/
theorem witness_clock_due :
    let s := State.reset.withFetchWord 32 0x04E00400
    s.raiseDue = false ∧ ({ s with clock := 1400 } : State).raiseDue = true ∧ ({ s with clock := 1399 } : State).raiseDue = false
    ∧ ({ s with agenda := [.event .gangPlace {}] } : State).agenda = [.event .gangPlace {}]
    ∧ State.reset.raiseDue = false ∧ ({ State.reset with boot := 5 } : State).raiseDue = false
    ∧ ({ State.reset with boot := 0 } : State).raiseDue = false := by decide +kernel

/-! States for the clauses about the flags of packets, clones, spools met twice, poisoned tiles, landings, ages and puts. -/

/-- LanePublishWords: a cloned buffer whose lines can be copied, and one whose second line has no page. -/
theorem witness_clone_fault :
    let p (v n : Nat) : Pub := { vbase := v, vlen := n, isOpen := true, team := 0, clone := true }
    let at' (v n : Nat) : State :=
      ((at_ { laneCore three with relq := [{ first := 0, count := 1, xs := [], caps := [mkCap 0 0 n 0x7F v] }] }).modCtx 0 fun c =>
        { c with pub := [(0, p v n)] }).put 0x1000 (leBytes 8 (0x80000003 + 2 ^ 11))
    let bad (v n : Nat) : Option Nat :=
      match (at' v n).issue 0 [] with
      | .error _ => some 0
      | .ok e => match (at' v n).bufAt e (word 0 3 0xF1 0xF1 0xF1) with
        | .error _ => some 1
        | .ok b =>
          let r := (at' v n).releaseEnter 0 3
          if b.buf.map (·.2) != some (p v n) || r.2.isSome || r.1.bufferWrites 0 (p v n) || (r.1.gateStop (r.1.class4 (at' v n).me v)).isSome then some 2
          else (r.1.cloneErr (r.1.course r.1.cur) (p v n)).map (·.1)
    bad 0x1000 4096 = none ∧ bad (2 ^ 30 - 64) 128 = some (2 ^ 30) := by decide +kernel

/-- LaneSpoolMoves: an ENQ that finds room before its release and after it, and one whose own stores to the block leave too little. -/
theorem witness_spool_twice :
    let w : Single := word 0 1 0xF1 0xF1 0xF1 0 0 1
    let meets (s : State) (last : Bool) : Bool :=
      match s.issue three [(0, three)] with
      | .error _ => false
      | .ok e => match s.spoolOpen e w with
        | .inl _ => false
        | .inr (f, b, _) =>
          let k := spoolOf b.bytes
          let r := f.releaseEnter 0 k.scope
          e.after.isNone && k.esize == 0 && decide (3 ≤ k.free) && (f.slotErr f.me k k.tail 3 true b.mask).isNone && r.2.isNone
            && match r.1.spoolOpen e w with
              | .inl _ => false
              | .inr (s1, b1, lost) =>
                let k1 := spoolOf b1.bytes
                !lost && k1.esize == 0 && decide (3 ≤ 2 ^ k1.caplog) && decide (k1.free < 3) == last
                  && (s1.slotErr s1.me k1 k1.tail 3 true b1.mask).isNone
    let held : Memory := [⟨0x3008, 17⟩, ⟨0x3009, 0⟩, ⟨0x300A, 0⟩, ⟨0x300B, 0⟩, ⟨0x300C, 2⟩, ⟨0x300D, 0⟩, ⟨0x300E, 0⟩, ⟨0x300F, 0⟩]
    meets (spoolAt 3 16 3) false = true ∧ meets ((spoolAt 3 16 3).modMe fun c => { c with heldG := held }) true = true := by decide +kernel

/-- LaneRemoteWords: an atomic on this device alone, none of whose accesses a link loses. -/
theorem witness_own_atomic :
    let s := laneAt
    let c := s.me
    issues s three [(1, three), (4, three), (2, three)] (fun e =>
      let l := s.remoteAccs c (e.guard false) (mkCap 0 0 4096 0x7F 0x1000) 4 (e.src 1 0 1) 1 0 4 (fun t => (e.unit 0 0 4 t).toNat) true
      let s1 := s.commitG 0 fun a => l.any fun b => b.addr.toNat / 64 == a / 64
      l.length == 3 && l.all (fun a => a.err.isNone && (e.unit 0 0 4 a.t).toNat == 0xFFFFFF && (s1.lostAt c a).isNone
        && !s.badVA c.who a.addr.toNat 4)) = true := by decide +kernel

/-- LaneCopyWords: a copy that had finished before its word was rolled back. -/
theorem witness_copy_finished :
    let s := windowAt
    let done : State := { s with jobs := [{ kind := .cpy, ctx := 0, course := some 0, reissue := true, finished := true }] }
    done.collective = none ∧ done.stopped .cpy = some 0 ∧ (done.jobs[0]?).map (fun j => (j.ring, j.finished)) = some (none, true) := by
  decide +kernel

/-- LaneChartWords: an armed node whose work is a barrier object that is there, and one whose object has no page. -/
theorem witness_barrier_node :
    let node (va : Nat) : State := (nodeAt 1).put (2 ^ 30 + 0x5000)
      (leBytes 32 (0x5C0D + 2 ^ 16 * 3 + 2 ^ 28 + 2 ^ 128 * (mkCap 3 0 16 0x7F va).toNat))
    let named (va : Nat) : Option Bool :=
      let n := node va
      let h := n.commit 0
      let q := (h.releaseEnter 0 3).1.releaseClock 0
      let aw : Who := { h.me.who with clk := q.me.lclock }
      match q.readVA aw 0x5000 128 with
      | .error _ => none
      | .ok b =>
        let work : Cap := BitVec.ofNat 128 (leNat ((b.drop 16).take 16))
        if leNat b / 2 ^ 16 % 256 == 3 && leNat b / 2 ^ 28 % 16 == 1 && (q.capErr 0 work 3 4 16 16).isNone && capBase work == va then
          some (q.readVA { aw with team := none } (capBase work) 16).toOption.isSome
        else none
    named 0x1000 = some true ∧ named (2 ^ 31) = some false := by decide +kernel

/-- LaneTileWords: a tile poisoned where its shadow copy is sound, and one with no shadow copy; each may be stored. -/
theorem witness_tile_poison :
    let tile : Tile := { vals := List.replicate 1024 0, bad := [5] }
    let s (copies : List (Nat × Tile)) : State := (nodeAt 0).modMe fun c =>
      { c with mctx := some { tiles := [tile, {}, {}, {}] }, tileCopies := copies }
    let clean (l : List (Nat × Tile)) : Bool := match ((s l).commit 0).me.tileCopies.lookup 0 with
      | some old => ((s l).me.tile 0).bad.all fun i => !old.bad.contains i | none => false
    let h := (s []).commit 0
    clean [] = false ∧ clean [(0, { vals := [] })] = true ∧ (h.me.tile 0).bad ≠ [] ∧ h.noContext = false
    ∧ h.useErr h.me.who (mkCap 0 0 4096 0x7F 0x1000) 0 2 0x1000 4096 4 true = none
    ∧ (h.window h.me).violates h.me.heldS 0 4096 true = false := by decide +kernel

/-- EngineEvents: a member that has landed and whose gate may be written, before and after the host gives its line back. -/
theorem witness_landed :
    let p : Part := { src := .global 0 0x1000, dst := .global 0 0x1100, len := 4, outLen := 4, clk := 0, course := some 0, gate := some 0x1200,
                      gated := true, landing := some 4 }
    let job : Job := { kind := .cpyr, ctx := 0, parts := [p] }
    let s := { laneAt with jobs := [job] }
    s.mayMove 0 job = true ∧ s.partReady p = true ∧ s.heldWrites = [] ∧ s.firstBad (job.who p) 0x1200 4 true = none
    ∧ job.parts.findIdx? s.partReady = some 0
    ∧ job.parts.findIdx? ({ s with heldWrites := [(5, [])] } : State).partReady = none := by decide +kernel

/-- SchedulerEvents: a head whose AGE is over and one whose AGE is not; a gang switch to a context that was not vacated; a queue that
waits for a place. -/
theorem witness_ages :
    let s := queuedAt
    let late : State := { s with clock := 2 ^ 40 }
    let gang : GangSw := { outgoing := 0, incoming := 1, tick := 0, queue := mgmtRing, slot := 0, requested := some 0, finished := some 0 }
    let two : State := { laneAt with clock := 2 ^ 40, contexts := laneAt.contexts ++ [{ num := 1, mode := .active }], gangsws := [gang] }
    s.heads 0 = [0] ∧ s.ageDue 0 = false ∧ late.heads 0 = [0] ∧ late.ageDue 0 = true
    ∧ (two.modCtx 0 fun c => { c with mode := .vacated, tickp := 1000 }).incomingDue 0 = true := by decide +kernel

/-- FabricEvents: contributions to be merged. -/
theorem witness_merge_request :
    let acc (t : Nat) : RemoteAcc := { thread := t, addr := 0x1000, size := 4, data := [1, 0, 0, 0], cmp := 0 }
    let s : State := { laneAt with subj := { request := { source := 7, target := 0, seqno := 0, tenant := 0, clock := 0, op := .merge 0, accs := [acc 1, acc 2] } } }
    s.tenantCtx 0 = some 0 ∧ s.lentRegion 0 = none ∧ remoteWrites (.merge 0) = true ∧ s.performed = []
    ∧ ([acc 1, acc 2].all fun a => s.covered 0 (.merge 0) a && (s.firstBad { ctx := 0, clk := 0 } a.addr a.size true).isNone) = true := by decide +kernel

/-- ContextCommands: a node that can be armed, one whose line has no page beside a packet for it, and a MARK behind a launch that is not
fully placed. -/
theorem witness_arm_packet :
    let s := { commanded ring3 (packet 0 0 0 (mkCap 2 0 128 4 0x5000)) with mem := (nodeAt 1).mem }
    let bar := { s with mem := ((nodeAt 1).put (2 ^ 30 + 0x5000)
      (leBytes 32 (0x5C0D + 2 ^ 16 * 3 + 2 ^ 28 + 2 ^ 128 * (mkCap 3 0 16 0x7F (2 ^ 31)).toNat))).mem }
    let step (s : State) : Option Bool := match (s.frontNote 0 0x5000 128).armNode { ctx := 0, clk := s.packetClock } 0x5000 [] with
      | .armed _ _ => some true | .page (.xltf _) _ => some false | .page _ _ => none
    s.ringCtx.map (·.num) = some 0 ∧ s.capErr 0 s.pkt.f0 2 4 128 128 = none ∧ (s.frontRead 0 0x5000 128).toOption.isSome
    ∧ step s = some true ∧ step bar = some false := by decide +kernel

/-- ContextCommands: a MARK behind a launch that is not fully placed. -/
theorem witness_mark_waits :
    let q : Queue := { num := 3, ctx := 0, base := 0x6000, caplog := 1, taken := [{ slot := 0, arrival := 9 }] }
    let s : State := ({ laneAt with queues := [q] } : State).put (2 ^ 30 + 0x6040) [4]
    s.packetHead q { slot := 0, arrival := 9 } % 256 = 4 ∧ s.packetHead q { slot := 0, arrival := 9 } / 2 ^ 19 % 2 = 0
    ∧ ((s.modLaunch 0 fun l => { l with placed := 0, queue := 3 }).launches.any fun l =>
        l.queue == 3 && !l.finished && decide (l.placed < l.gangs) && decide (l.arrival < 9)) = true := by decide +kernel

/-- OperationCommands: a report whose lines the host does not hold, holds, and has not yet given back; a space that a loan has, and a
free one; a physical range that is lent out. -/
theorem witness_puts :
    let s := commanded ringM (packet 0 0 0 0)
    let l := loanOf 2 (BitVec.ofNat 128 (1 + 8 * 2 ^ 64))
    let line (k : Nat) : Bool := decide ((0x40 / 64 ≤ k) ∧ 64 * k < 0x40 + 3685)
    s.heldWrites = [] ∧ s.hostLines = [] ∧ line 1 = true ∧ line 58 = true ∧ line 59 = false
    ∧ ({ s with hostLines := [58] } : State).heldWrites = [] ∧ ({ s with hostLines := [58] } : State).hostLines.any line = true
    ∧ ({ s with heldWrites := [(64 * 58, [])] } : State).heldWrites.any (fun w => line (w.1 / 64)) = true
    ∧ s.spaceTaken 4096 false l.lbase l.bytes = false
    ∧ ({ s with demotions := [{ dest := false, space := l.lbase, bytes := l.bytes, ctxs := [0] }] } : State).spaceTaken 4096 false l.lbase l.bytes = true
    ∧ s.lentOut 0 3749 = false ∧ ({ s with lends := [{ index := 2, base := 0, size := 1 }] } : State).lentOut 0 3749 = true := by decide +kernel

/-- StepRunsDecoded: sections whose pages lie on the device, under a capability with M and under one without. -/
theorem witness_fetch_here :
    let s := State.reset.withFetchWord 32 0x04E00400
    let v := State.reset.withFetchWord 96 (0x189 * 2 ^ 78 + 0xF1F1F1F1 * 2 ^ 42)
    s.leavesDevice s.me.who (capBase s.me.scode + s.me.core.pc) 4 = false ∧ v.leavesDevice v.me.who (capBase v.me.lcode) 12 = false
    ∧ capPerm (mkCap 4 0 16 0x7F 0x1000) &&& 8 ≠ 0 := by decide +kernel

/-! Single steps. The expected results are worked out by hand from the rules named. -/

/-- laneAt with two v registers given, v0 and v1. -/
def laneOf (f g : Nat → Nat) : State := at_ { laneCore three with vregs := [vr f, vr g] }

/-- Thread t's element of register d after an outcome. -/
def elemAfter (o : Out) (d : BitVec 8) (t : Nat) (v : Word) : Bool := after o fun s => s.me.core.elem d t == v

/-- R73: ADD wraps, DIVN and REMN by zero, MULH of negative numbers, and x0 discards. -/
theorem test_scalar_arithmetic :
    let s := at_ { startCore with xs := [0, 0xFFFFFFFF, 1, 7] }
    after (exec (.add 4 1 2) s) (fun t => t.me.core.x 4 == 0 && t.me.core.pc == 4) = true
    ∧ after (exec (.divn 4 3 0) s) (fun t => t.me.core.x 4 == 0xFFFFFFFF) = true ∧ after (exec (.remn 4 3 0) s) (fun t => t.me.core.x 4 == 7) = true
    ∧ after (exec (.mulh 4 1 3) s) (fun t => t.me.core.x 4 == 0xFFFFFFFF) = true ∧ after (exec (.addi 0 3 1) s) (fun t => t.me.core.x 0 == 0) = true
    ∧ after (exec (.sra 4 1 3) s) (fun t => t.me.core.x 4 == 0xFFFFFFFF) = true ∧ after (exec (.slti 4 1 0) s) (fun t => t.me.core.x 4 == 1) = true := by
  decide +kernel

/-- R76 to R78: J adds the offset to the next word, JR x1, x1 goes to the old x1 and links, LOOP from 0 wraps and branches. -/
theorem test_scalar_transfers :
    let s := at_ { startCore with pc := 100, xs := [0, 400, 0] }
    after (exec (.j (BitVec.ofInt 26 (-3))) s) (fun t => t.me.core.pc == 92) = true
    ∧ after (exec (.jr 1 1) s) (fun t => t.me.core.pc == 400 && t.me.core.x 1 == 104) = true
    ∧ after (exec (.loop 2 2) s) (fun t => t.me.core.pc == 112 && t.me.core.x 2 == 0xFFFFFFFF) = true := by decide +kernel

/-- R79: LRUN captures x0 to x15 and a0 to a15 as they stand, advances RP and counts its words. -/
theorem test_lrun :
    let s := at_ { startCore with xs := [0, 3], rp := 5 }
    after (exec (.lrun 1 1) s) (fun t => t.me.core.rp == 9 && t.me.core.pending == 4
      && t.me.core.relq.map (fun r => (r.first, r.count, r.xs.getD 1 0)) == [(5, 4, 3)]) = true := by decide +kernel

/-- R102, R103: CBND beyond its source traps with CAPF, the course's team being killed; CPERM cannot add a permission. -/
theorem test_capabilities :
    let s := at_ { startCore with xs := [0, 0, 0, 257, 0, 0x7F], caps := [mkCap 0 0 256 pD 0x1000] }
    after (exec (.cbnd 1 0 1) s) (fun t => t.me.phase == .retired) = true
    ∧ after (exec (.cperm 1 0 5) s) (fun t => capPerm (t.me.core.cap 1) == pD) = true := by decide +kernel

/-- R140, R144, R48: i8 additions saturate element by element, a shift amount is taken modulo the width, and inactive threads keep
their elements. -/
theorem test_lane_integer :
    let s := laneOf (fun _ => 0x7F80FF01) (fun _ => 0x01FF0121)
    elemAfter (exec (.iadd { word 10 0 0 1 0xF1 with sat := true }) s) 0 2 0x7F800022 = true
    ∧ elemAfter (exec (.iadd (word 10 0 0 1 0xF1)) s) 0 2 0x807F0022 = true
    ∧ elemAfter (exec (.shrLane (word 0 0 0 1 0xF1)) s) 0 0 (0x7F80FF01 >>> 1) = true
    ∧ elemAfter (exec (.iadd (word 10 0 0 1 0xF1)) s) 0 3 0x7F80FF01 = true := by decide +kernel

/-- R115, R145: 1 + 2^-24 rounds to even, and up with RND 11; infinity less infinity is the default NaN with NV; a subnormal sum. -/
theorem test_lane_float :
    let s := laneOf (fun _ => 0x3F800000) (fun _ => 0x33800000)
    elemAfter (exec (.fadd (word 2 3 0 1 0xF1)) s) 3 0 0x3F800000 = true
    ∧ elemAfter (exec (.fadd { word 2 3 0 1 0xF1 with rnd := 3 }) s) 3 0 0x3F800001 = true
    ∧ (let t := laneOf (fun _ => 0x7F800000) (fun _ => 0x7F800000)
       after (exec (.fsub (word 2 3 0 1 0xF1)) t) (fun u => u.me.core.elem 3 0 == 0x7FC00000 && u.me.core.fpflags == Num.NV) = true)
    ∧ elemAfter (exec (.fadd (word 2 3 0 1 0xF1)) (laneOf (fun _ => 1) (fun _ => 0x007FFFFF))) 3 0 0x00800000 = true := by decide +kernel

/-- R56: both slots of a pair word read before either writes. -/
theorem test_pair_swap :
    let s := laneOf (fun _ => 5) (fun _ => 9)
    let p (d a : BitVec 8) : Slot := ⟨false, false, 0, d, a, 0xF1, 0xF1, 0⟩
    after (exec (.movPair (p 1 0) .mov (p 0 1)) s) (fun t => t.me.core.elem 0 0 == 9 && t.me.core.elem 1 0 == 5) = true := by decide +kernel

/-- R156 to R161: PUSH takes the active threads that satisfy, PINV the others, EXIT removes its threads from the live mask. -/
theorem test_predicates :
    let s := laneOf id (fun _ => 1)
    after (exec (.push (word 1 0xF1 0 1 0xF1 2)) s) (fun t => t.me.core.preds == [1, 7]) = true
    ∧ (let d := at_ { laneCore three with preds := [1, 7] }
       after (exec (.pinv (word 0 0xF1 0xF1 0xF1 0xF1)) d) (fun t => t.me.core.preds == [6, 7]) = true
       ∧ after (exec (.exit (word 0 0xF1 0xF1 0xF1 0xF1)) d) (fun t => t.me.core.live == 6 && t.me.core.preds == [0, 6]) = true) := by
  decide +kernel

/-- R164, R168, R171, R172: a ballot, a shift by one lane with C where the source is not active, a sum over the pass, and an
exclusive scan that starts from C. -/
theorem test_cross_lane :
    let s := laneOf (fun t => t + 1) (fun _ => 50)
    after (exec (.vote (word 1 0xF1 0 1 0xF1 0x34)) s) (fun t => t.me.core.retq == [0]) = true
    ∧ after (exec (.vote (word 1 0xF1 0 1 0xF1 0x02)) s) (fun t => t.me.core.retq == [7, 0, 0, 0, 0, 0, 0, 0]) = true
    ∧ after (exec (.shfl (word 0 3 0 0xF1 1 1)) s) (fun t => (List.range 3).map (t.me.core.elem 3 ·) == [2, 3, 50]) = true
    ∧ elemAfter (exec (.redl (word 1 3 0 0xF1 0xF1 0)) s) 3 2 6 = true
    ∧ after (exec (.scanl (word 1 3 0 0xF1 1 8)) s) (fun t => (List.range 3).map (t.me.core.elem 3 ·) == [50, 1, 3]) = true := by decide +kernel

/-- R104, R195, R199: a store is held by its course, least significant byte first, and memory does not have it yet. -/
theorem test_memory :
    let s := laneOf (4 * ·) (fun t => 0x11223300 + t)
    after (exec (.st (word 0 1 0 0xF1 0xF1)) s) (fun t =>
      (t.mem.get (2 ^ 30 + 0x1003) == 0) && heldGet t.me.heldG 0x1003 == some 0x11
        && heldGet t.me.heldG 0x1004 == some 0x01 && heldGet t.me.heldG 0x100C == none) = true := by
  decide +kernel

/-- R193: a store one word beyond the window switches its thread off and marks it; the others store. -/
theorem test_scratch_violation :
    let s := (laneOf (fun t => 4088 + 4 * t) (fun _ => 9)).modTeam 0 fun t => { t with size := 4096 }
    after (exec (.sts (word 0 1 0 0xF1 0xF1)) s) (fun t => t.me.core.live == 3 && t.me.core.faultMask == 4
      && heldGet t.me.heldS 4092 == some 9 && (heldGet t.me.heldS 4096).isNone) = true := by decide +kernel

/-- R218 to R220: three threads add to one word in thread order; each gets the value before its own. -/
theorem test_atomic :
    let s := laneOf (fun _ => 0) (fun _ => 5)
    after (exec (.atom (word 1 3 0 1 0xF1 0 0 0 3)) s) (fun t =>
      (List.range 3).map (t.me.core.elem 3 ·) == [0, 5, 10] && t.mem.get (2 ^ 30 + 0x1000) == 15) = true := by decide +kernel

/-- R228: the second of two arrivals ends the generation and empties the count. -/
theorem test_barrier :
    let o : BarObj := { barOf (List.replicate 16 0) with expect := 2, arrived := 1, gen := 9, state := 1, scope := 3 }
    after (exec (.barv (word 0 3 0xF1 0xF1 0xF1 0 0 3)) (barrierAt o)) (fun t =>
      t.me.core.elem 3 0 == 0x900 && (let n := barOf ((List.range 16).map fun k => t.mem.get (2 ^ 30 + 0x1000 + k)); n.gen == 10 && n.arrived == 0)) = true := by
  decide +kernel

/-- R270: ENQ of three threads puts their elements into the spool's slots in thread order. -/
theorem test_spool :
    let s := (spoolAt 0 0 16)
    after (exec (.enq (word 0 1 0xF1 0xF1 0xF1 0 0 1)) s) (fun t =>
      (List.range 3).map (fun k => t.mem.get (2 ^ 30 + 0x3100 + 4 * k)) == [0, 4, 8]) = true := by
  decide +kernel

/-- R353: a trap in a context without a fault ring kills the team; TRAP with no active thread does nothing. -/
theorem test_trap :
    after (exec (.trap (word 0 0xF1 0xF1 0xF1 0xF1 0 7)) laneAt) (fun t => t.me.phase == .retired) = true
    ∧ after (exec (.trap (word 0 0xF1 0xF1 0xF1 0xF1 0 7)) (at_ { laneCore three with preds := [0] })) (fun t => t.me.core.pending == 0
        && t.me.phase == .running) = true := by decide +kernel

/-- R400: MARK retires its packet, and DONE moves over it. -/
theorem test_mark :
    after (exec .mark (commanded ring3 (packet 0 0 0 0))) (fun t => (t.queue? 3).map (fun q => (q.done, q.taken)) == some (1, [])) = true := by
  decide +kernel

/-- ScalarRegisterOps, ScalarImmediateOps: the words of their decoding clauses at the ends of their ranges. -/
theorem witness_scalar_rejects :
    rejected (decodeScalar 22) = some (.ills 1) ∧ rejected (decodeScalar (2 ^ 26 - 1)) = some (.ills 1)
    ∧ rejected (decodeScalar (20 + 2 ^ 11)) = some (.ills 3) ∧ rejected (decodeScalar (21 + 31 * 2 ^ 11)) = some (.ills 3)
    ∧ rejected (decodeScalar (5 * 2 ^ 26 + 32)) = some (.ills 4) ∧ rejected (decodeScalar (8 * 2 ^ 26 - 1)) = some (.ills 4)
    ∧ rejected (decodeScalar (10 * 2 ^ 26 + 2 ^ 16)) = some (.ills 3) := by decide +kernel

end Sys2Proof.Tests
end

section
/-! SUPPORT. What a read of memory leaves behind: timestamps, caches and translations, and no byte and no course. -/

namespace Sys2Proof.Machine

/-- t differs from s at most in what reads of memory leave behind: stash copies, leases, caches and translations (R110, R210, R242),
and the note of a line the host may hold (R431). -/
def Reads (s t : State) : Prop :=
  t = { s with teams := t.teams, stamps := t.stamps, sliceBase := t.sliceBase, l1 := t.l1, tlb := t.tlb, l2 := t.l2,
               heldFor := t.heldFor }

theorem Reads.refl (s : State) : Reads s s := rfl

theorem Reads.trans {s t u : State} (h : Reads s t) (k : Reads t u) : Reads s u := by
  unfold Reads at *
  rw [k, h]

theorem Reads.foldl {α : Type} (l : List α) (f : State → α → State) (h : ∀ s a, Reads s (f s a)) (s : State) :
    Reads s (l.foldl f s) := by
  induction l generalizing s with
  | nil => exact Reads.refl s
  | cons a l ih => exact (h s a).trans (ih (f s a))

theorem Reads.foldl_snd {α β : Type} (l : List α) (f : β × State → α → β × State) (h : ∀ r a, Reads r.2 (f r a).2)
    (r : β × State) : Reads r.2 (l.foldl f r).2 := by
  induction l generalizing r with
  | nil => exact Reads.refl r.2
  | cons a l ih => exact (h r a).trans (ih (f r a))

theorem Reads.courses {s t : State} (h : Reads s t) : t.courses = s.courses := by
  unfold Reads at h
  rw [h]

theorem Reads.course {s t : State} (h : Reads s t) (j : Nat) : t.course j = s.course j := by
  rw [State.course, h.courses, State.course]

theorem Reads.cur {s t : State} (h : Reads s t) : t.cur = s.cur := by
  unfold Reads at h
  rw [h]

theorem Reads.sameMem {s t : State} (h : Reads s t) : SameMem s t := by
  unfold Reads at h
  rw [h]
  exact ⟨rfl, rfl, rfl⟩

theorem setStamp_reads (s : State) (l w r : Nat) : Reads s (s.setStamp l w r) := rfl

theorem readLine_reads (s : State) (l clk : Nat) : Reads s (s.readLine l clk) := setStamp_reads s l _ _

theorem l2Touch_reads (s : State) (l : Nat) (u : L2Use) : Reads s (s.l2Touch l u) := rfl

theorem tlbPut_reads (s : State) (e : TlbEntry) (n : Nat) (p : TlbEntry → Bool) : Reads s (s.tlbPut e n p) := by
  unfold State.tlbPut
  split <;> rfl

theorem walkNote_reads (s : State) (w : Who) (va : Nat) : Reads s (s.walkNote w va) :=
  Reads.foldl _ _ (fun s _ => (l2Touch_reads s _ _).trans (readLine_reads _ _ _)) s

theorem tlbNote_reads (s : State) (w : Who) (va : Nat) : Reads s (s.tlbNote w va) := by
  unfold State.tlbNote
  split
  · exact Reads.refl s
  · split
    · exact ((walkNote_reads s w va).trans (tlbPut_reads _ _ _ _)).trans (tlbPut_reads _ _ _ _)
    · exact walkNote_reads s w va

theorem l2Access_reads (s : State) (ctx va line : Nat) (leaf : BitVec 64) (hint : Nat) (write : Bool) :
    Reads s (s.l2Access ctx va line leaf hint write) := by
  unfold State.l2Access
  simp only
  refine Reads.trans ?_ (l2Touch_reads _ _ _)
  split <;> rfl

theorem l2Range_reads (s : State) (w : Who) (ps : List (Nat × Nat × Nat)) (hint : Nat) (write : Bool) :
    Reads s (s.l2Range w ps hint write) := by
  refine Reads.foldl ps _ (fun s p => ?_) s
  split
  · exact (l2Access_reads s _ _ _ _ _ _).trans (tlbNote_reads _ _ _)
  · exact Reads.refl s

theorem l1Put_reads (s : State) (l : L1Line) : Reads s (s.l1Put l) := by
  unfold State.l1Put
  simp only
  split <;> rfl

theorem forget_reads (s : State) (w : Who) (line wts : Nat) : Reads s (s.forget w line wts) := by
  unfold State.forget
  simp only
  split
  · rfl
  · split <;> rfl

theorem noteHome_reads (s : State) (w : Who) (va n : Nat) : Reads s (s.noteHome w va n) := by
  unfold State.noteHome State.homeRead
  cases s.locsOf w va n false with
  | error e => exact Reads.refl s
  | ok ps =>
    exact (l2Range_reads s w ps 0 false).trans
      (Reads.foldl_snd _ _ (fun r line => (setStamp_reads r.2 _ _ _).trans (forget_reads _ _ _ _)) (0, s.l2Range w ps 0 false))

theorem ringNote_reads (s : State) (q : Queue) (off : Nat) : Reads s (s.ringNote q off) := by
  unfold State.ringNote
  split
  · exact readLine_reads s _ _
  · exact noteHome_reads s _ _ _

end Sys2Proof.Machine
end

section
/-! PROOFS. The machine after reset and a course at its start (O59). -/

namespace Sys2Proof.Machine

theorem SameMem.refl (s : State) : SameMem s s := ⟨rfl, rfl, rfl⟩

theorem onesMask_getLsbD (n t : Nat) (h : t < 256) : (BitVec.ofNat 256 (2 ^ n - 1)).getLsbD t = decide (t < n) := by
  rw [BitVec.getLsbD_ofNat, Nat.testBit_two_pow_sub_one]
  simp [h]

theorem threads_eq (l : Launch) (k : Nat) : l.threads k = if k + 1 = l.ncourse then l.lastn else 256 := by
  simp [Launch.threads]

/-- x1 of a starting course is its index; every other x register reads zero (R20). -/
theorem launchCourse_x (l : Launch) (i k place team clock j : Nat) :
    (l.course i k place team clock).core.x j = if j = 1 then BitVec.ofNat 32 k else 0 := by
  match j with
  | 0 | 1 | 2 | n + 3 => rfl

/-- Beyond a0 and a1 every a register of a starting course is null (R20). -/
theorem launchCourse_cap (l : Launch) (i k place team clock j : Nat) (h : 2 ≤ j) :
    (l.course i k place team clock).core.cap j = 0 := by
  match j, h with
  | n + 2, _ => rfl

theorem launchCourse_live (l : Launch) (i k place team clock t : Nat) (h : t < 256) :
    (l.course i k place team clock).core.live.getLsbD t = decide (t < if k + 1 = l.ncourse then l.lastn else 256) := by
  rw [← threads_eq]
  exact onesMask_getLsbD _ t h

/-- Settles O59: the reset state and a placed course are literals, read field by field. -/
theorem resetAndStart : Obligations.ResetAndStart := by
  refine ⟨rfl, rfl, rfl, rfl, rfl, rfl, rfl, rfl, fun l i k place team clock => ?_⟩
  refine ⟨launchCourse_x l i k place team clock 1, fun j hj => ?_, rfl, rfl, ?_, fun v t => rfl, rfl, rfl, rfl, rfl, ?_, rfl, rfl, rfl, rfl⟩
  · exact (launchCourse_x l i k place team clock j).trans (if_neg hj)
  · exact fun j hj => launchCourse_cap l i k place team clock j hj
  · exact fun t ht => launchCourse_live l i k place team clock t ht

end Sys2Proof.Machine
end

section
/-! PROOFS. A step runs the decoded instruction (O56): what a fetch finds, what settling and ticking leave alone, and which of the
things that may happen a step does. -/

namespace Sys2Proof.Machine

/-! Fetching (R34, R61). -/

/-- The bytes of a word that lies in its section, on the device or in a section with M, and whose bytes are sound. -/
theorem codeBytes_ok (s : State) (c : Course) (sect : Cap) (off n : Nat) (b : List Byte) (hlen : off + n ≤ capLen sect)
    (hdev : capPerm sect &&& 8 ≠ 0 ∨ s.leavesDevice c.who (capBase sect + off) n = false)
    (hbad : s.badVA c.who (capBase sect + off) n = false) (hread : s.readVA c.who (capBase sect + off) n = .ok b) :
    s.codeBytes c sect off n = .ok b := by
  have hm : ¬((capPerm sect &&& pM == 0 && s.leavesDevice c.who (capBase sect + off) n) = true) := by
    rcases hdev with h | h <;> simp [pM, h]
  simp only [State.codeBytes]
  rw [if_neg (by omega), if_neg hm, if_neg (by simp [hbad]), hread]

theorem fetchScalar_word (s : State) (c : Course) (b : List Byte) (i : Instr) (h : s.codeBytes c c.scode c.core.pc 4 = .ok b)
    (hi : decodeScalar (leNat b) = .ok i) : s.fetchScalar c = .word i := by
  unfold State.fetchScalar
  simp only [h, hi]

theorem fetchScalar_illegal (s : State) (c : Course) (b : List Byte) (d : Nat) (h : s.codeBytes c c.scode c.core.pc 4 = .ok b)
    (hd : decodeScalar (leNat b) = .error (.ills d)) : s.fetchScalar c = .stop (.trap { cause := 1, detail := d }) := by
  unfold State.fetchScalar
  simp only [h, hd]
  rfl

theorem fetchLane_word (s : State) (c : Course) (b : List Byte) (i : Instr)
    (h : s.codeBytes c c.lcode (12 * c.core.lanePc) 12 = .ok b) (hi : decodeLane c.regs (leNat b) = .ok i) :
    s.fetchLane c = .word i := by
  unfold State.fetchLane
  simp only [h, hi]

theorem fetchLane_illegal (s : State) (c : Course) (b : List Byte) (d : Nat)
    (h : s.codeBytes c c.lcode (12 * c.core.lanePc) 12 = .ok b) (hd : decodeLane c.regs (leNat b) = .error (.illl d)) :
    s.fetchLane c = .stop (.trap { cause := 2, detail := d }) := by
  unfold State.fetchLane
  simp only [h, hd]
  rfl

theorem runScalar_of_word (s : State) (i : Instr) (h : s.fetchScalar s.me = .word i) :
    s.runScalar = exec i (s.noteFetch s.me s.me.scode s.me.core.pc 4) := by
  unfold State.runScalar
  rw [h]

theorem runScalar_of_stop (s : State) (x : Stop) (h : s.fetchScalar s.me = .stop x) : s.runScalar = .next (s.scalarStop x) := by
  unfold State.runScalar
  rw [h]

theorem runLane_of_word (s : State) (i : Instr) (h : s.fetchLane s.me = .word i) :
    s.runLane = exec i (s.noteFetch s.me s.me.lcode (12 * s.me.core.lanePc) 12) := by
  unfold State.runLane
  rw [h]

theorem runLane_of_stop (s : State) (x : Stop) (h : s.fetchLane s.me = .stop x) : s.runLane = .next (s.stop x) := by
  unfold State.runLane
  rw [h]

/-! Settling and ticking (R27). -/

theorem settled_core (scalar : Bool) (c : Course) : (c.settled scalar).core = c.core := by
  unfold Course.settled
  cases scalar <;> cases c.phase <;> rfl

theorem idled_core (c : Course) : c.idled.core = c.core := by
  unfold Course.idled
  cases c.phase <;> rfl

/-- A view of a course that an update of one course keeps. -/
theorem modCourse_view {α : Type} (v : Course → α) (s : State) (i j : Nat) (f : Course → Course) (h : ∀ c, v (f c) = v c) :
    v ((s.modCourse i f).course j) = v (s.course j) := by
  by_cases hi : i < s.courses.length
  · rw [modCourse_course s i j f hi]
    split
    · next e => rw [h, e]
    · rfl
  · rw [State.modCourse, List.modify_eq_self (by omega)]

theorem settleOut_next (n : Nat) (scalar : Bool) (o : Out) (t : State) (h : settleOut n scalar o = .next t) :
    ∃ u, o = .next u ∧ SameMemory u t ∧ ∀ j, (t.course j).core = (u.course j).core := by
  cases o with
  | next u =>
    cases h
    exact ⟨u, rfl, (SameMem.refl u).same, fun j => modCourse_view Course.core u n j _ (settled_core scalar)⟩
  | fault f => cases h
  | refused r => cases h

/-- A course of a list mapped by a function that keeps the blank course's view. -/
theorem course_map {α : Type} (s t : State) (f : Course → Course) (v : Course → α) (ht : t.courses = s.courses.map f)
    (hv : ∀ c, v (f c) = v c) (j : Nat) : v (t.course j) = v (s.course j) := by
  simp only [State.course, ht, List.getD_eq_getElem?_getD, List.getElem?_map]
  cases s.courses[j]? with
  | none => rfl
  | some c => exact hv c

theorem tickOut_next (o : Out) (t : State) (h : tickOut o = .next t) : ∃ u, o = .next u ∧ SameMemory u t ∧ u.clock ≤ t.clock
    ∧ t.free = u.free + 1 ∧ ∀ j, (t.course j).core = (u.course j).core := by
  cases o with
  | next u =>
    cases h
    exact ⟨u, rfl, (SameMem.refl u).same, Nat.le_add_right _ _, rfl, course_map u u.tick Course.idled Course.core rfl idled_core⟩
  | fault f => cases h
  | refused r => cases h

/-! Packets (R396 to R400). -/

theorem packetCheck_ok (mgmt : Bool) (w : Nat) (r : Instr × Packet) (h : packetCheck mgmt w = .ok r) : decodePacket w = .ok r := by
  unfold packetCheck at h
  extract_lets listed at h
  split at h
  · cases h
  · split at h
    · cases h
    · cases hd : decodePacket w with
      | ok r' => simpa [hd] using h
      | error e => cases e <;> simp [hd] at h

/-- A packet that begins a command decodes to it, from the 64 bytes of the next slot of its queue. -/
theorem beginPacket_command (s : State) (n : Nat) (i : Instr) (r : State) (h : s.beginPacket n = .command i r) :
    ∃ q slot b, s.queue? n = some q ∧ s.nextPacket q = some slot
      ∧ (s.modQueue n fun q => { q with taken := q.taken.map fun t => if t.slot == slot then { t with begun := true } else t }).ringRead q
          (packetOff q slot) 64 = .ok b
      ∧ decodePacket (leNat b) = .ok (i, r.pkt) := by
  unfold State.beginPacket at h
  split at h
  · cases h
  · next q hq =>
    split at h
    · cases h
    · next slot hslot =>
      simp only at h
      split at h
      · cases h
      · cases h
      · next b hb =>
        split at h
        · cases h
        · next i' p hp =>
          cases h
          exact ⟨q, slot, b, hq, hslot, hb, packetCheck_ok _ _ _ hp⟩

/-! Which of the things that may happen a step does (R241, log 7). -/

theorem step_of_raiseDue (s : State) (h : s.raiseDue = true) : step s = tickOut (exec .lclockAdvance { s with subj := {} }) := by
  simp [step, State.choices, h, State.perform]

theorem choices_of_not_raiseDue (s : State) (h : s.raiseDue = false) : s.choices = s.actions := by
  simp [State.choices, h]

theorem step_of_single (s : State) (a : Action) (h : s.raiseDue = false) (ha : s.actions = [a]) : step s = tickOut (s.perform a) := by
  simp [step, choices_of_not_raiseDue s h, ha]

theorem step_of_none (s : State) (h : s.raiseDue = false) (ha : s.actions = []) : step s = .next s.tick := by
  simp [step, choices_of_not_raiseDue s h, ha]

theorem step_does_an_action (s : State) (h : s.raiseDue = false) (ha : s.actions ≠ []) :
    ∃ a, a ∈ s.actions ∧ step s = tickOut (s.perform a) := by
  match hl : s.actions with
  | [] => exact absurd hl ha
  | [a] => exact ⟨a, List.mem_singleton.mpr rfl, step_of_single s a h hl⟩
  | a :: b :: l =>
    have hlt : Config.choice s.free % (l.length + 2) < (a :: b :: l).length := Nat.mod_lt _ (by omega)
    refine ⟨(a :: b :: l).getD (Config.choice s.free % (l.length + 2)) a, ?_, ?_⟩
    · rw [List.getD_eq_getElem?_getD, List.getElem?_eq_getElem hlt, Option.getD_some]
      exact List.getElem_mem hlt
    · simp only [step, choices_of_not_raiseDue s h, hl]

theorem perform_due (s : State) (i : Instr) (subj : Subject) (rest : List Due) (h : s.agenda = .event i subj :: rest) :
    s.perform .due = exec i { s with agenda := rest, subj := subj } := by
  unfold State.perform
  simp only [h]

theorem perform_packet (s : State) (n : Nat) (i : Instr) (r : State) (h : s.beginPacket n = .command i r) :
    s.perform (.packet n) = exec i r := by
  simp only [State.perform, State.runPacket, h]

theorem perform_scalar (s : State) (n : Nat) (b : List Byte) :
    let r : State := { s with cur := n, lastScalar := issuedAt s.lastScalar (s.course n).place n }
    r.codeBytes r.me r.me.scode r.me.core.pc 4 = .ok b →
    (∀ i, decodeScalar (leNat b) = .ok i →
      s.perform (.scalar n) = settleOut n true (exec i (r.noteHome r.me.who (capBase r.me.scode + r.me.core.pc) 4)))
    ∧ (∀ d, decodeScalar (leNat b) = .error (.ills d) →
      s.perform (.scalar n) = .next ((r.scalarStop (.trap { cause := 1, detail := d })).settle n true)) := by
  intro r hb
  refine ⟨fun i hi => ?_, fun d hd => ?_⟩
  · exact congrArg (settleOut n true) (runScalar_of_word r i (fetchScalar_word r r.me b i hb hi))
  · exact congrArg (settleOut n true) (runScalar_of_stop r _ (fetchScalar_illegal r r.me b d hb hd))

theorem perform_lane (s : State) (n : Nat) (b : List Byte) :
    let r : State := { s with cur := n, lastLane := issuedAt s.lastLane (s.course n).place n }
    r.codeBytes r.me r.me.lcode (12 * r.me.core.lanePc) 12 = .ok b →
    (∀ i, decodeLane r.me.regs (leNat b) = .ok i →
      s.perform (.lane n) = settleOut n false (exec i (r.noteHome r.me.who (capBase r.me.lcode + 12 * r.me.core.lanePc) 12)))
    ∧ (∀ d, decodeLane r.me.regs (leNat b) = .error (.illl d) →
      s.perform (.lane n) = .next ((r.stop (.trap { cause := 2, detail := d })).settle n false)) := by
  intro r hb
  refine ⟨fun i hi => ?_, fun d hd => ?_⟩
  · exact congrArg (settleOut n false) (runLane_of_word r i (fetchLane_word r r.me b i hb hi))
  · exact congrArg (settleOut n false) (runLane_of_stop r _ (fetchLane_illegal r r.me b d hb hd))

/-- Settles O56: a fetch finds the decoded word, and each thing that may happen is performed by the meaning it names. -/
theorem stepRunsDecoded : Obligations.StepRunsDecoded := by
  intro s
  refine ⟨?_, ?_, ?_, settleOut_next, perform_packet s, beginPacket_command s, fun i subj => rfl, perform_due s, step_of_raiseDue s,
    step_of_single s, step_does_an_action s, step_of_none s, tickOut_next⟩
  · intro n b r c va hlen hdev hbad hread
    exact perform_scalar s n b (codeBytes_ok r c _ _ _ b hlen hdev hbad hread)
  · intro n b r c va hlen hdev hbad hread
    exact perform_lane s n b (codeBytes_ok r c _ _ _ b hlen hdev hbad hread)
  · intro w va n
    have h := noteHome_reads s w va n
    exact ⟨h.sameMem.same, h.courses, h.cur⟩

end Sys2Proof.Machine
end

section
/-! SUPPORT. What writes, commits, checkpoints, credits and wake-ups leave alone beside the bodies that Mild keeps: the clock, the
launches, the reservations and the gang switches, and every course's state but for its waking (R27). -/

namespace Sys2Proof.Machine

/-- What a wake-up, a commit and a checkpoint leave of a course: its body, and its state but for Waiting turned Running. -/
def Course.frame (c : Course) : Course := { c.body with phase := if c.phase = .waiting then .running else c.phase }

/-- What a rollback leaves of a course as well: whose it is, where it lies, and its state but for Waiting turned Running. -/
def Course.stay (c : Course) : Nat × Nat × Nat × Nat × Phase :=
  (c.ctx, c.launch, c.index, c.place, if c.phase = .waiting then .running else c.phase)

/-- What none of the operations below writes. -/
def State.fixed (s : State) : Nat × Nat × Nat × List Launch × List Reservation × List GangSw :=
  (s.clock, s.free, s.cur, s.launches, s.reservations, s.gangsws)

/-- t keeps from s the fixed part, the bodies of the contexts, and a view of each course. -/
structure Still {α : Type} (v : Course → α) (s t : State) : Prop where
  fixed : t.fixed = s.fixed
  contexts : t.contexts.map Context.body = s.contexts.map Context.body
  courses : t.courses.map v = s.courses.map v

section
variable {α : Type} {v : Course → α}

theorem Still.refl (s : State) : Still v s s := ⟨rfl, rfl, rfl⟩

theorem Still.trans {s t u : State} (h : Still v s t) (k : Still v t u) : Still v s u :=
  ⟨k.fixed.trans h.fixed, k.contexts.trans h.contexts, k.courses.trans h.courses⟩

theorem Still.ite {c : Prop} [Decidable c] {s t u : State} (h : Still v s t) (k : Still v s u) : Still v s (if c then t else u) := by
  split
  · exact h
  · exact k

theorem Still.foldl {β : Type} (l : List β) (f : State → β → State) (h : ∀ s a, Still v s (f s a)) (s : State) :
    Still v s (l.foldl f s) := by
  induction l generalizing s with
  | nil => exact Still.refl s
  | cons a l ih => exact (h s a).trans (ih (f s a))

theorem Still.foldl_fst {β γ : Type} (l : List β) (f : State × γ → β → State × γ) (h : ∀ r a, Still v r.1 (f r a).1)
    (r : State × γ) : Still v r.1 (l.foldl f r).1 := by
  induction l generalizing r with
  | nil => exact Still.refl r.1
  | cons a l ih => exact (h r a).trans (ih (f r a))

/-- A coarser view of the courses is kept too. -/
theorem Still.coarser {β : Type} {w : Course → β} {s t : State} (h : Still v s t) (g : α → β) (hg : ∀ c, w c = g (v c)) :
    Still w s t := by
  refine ⟨h.fixed, h.contexts, ?_⟩
  have e (l : List Course) : l.map w = (l.map v).map g := by
    rw [List.map_map]
    exact List.map_congr_left fun c _ => hg c
  rw [e, e, h.courses]

/-- A state whose fixed part, contexts and courses are those of s. -/
theorem Still.of_eq {s t : State} (hf : t.fixed = s.fixed) (hx : t.contexts = s.contexts) (hc : t.courses = s.courses) :
    Still v s t := ⟨hf, by rw [hx], by rw [hc]⟩

theorem Still.of_reads {s t : State} (h : Reads s t) : Still v s t := by
  unfold Reads at h
  rw [h]
  exact ⟨rfl, rfl, rfl⟩

theorem Still.length {s t : State} (h : Still v s t) : t.courses.length = s.courses.length := by
  simpa using congrArg List.length h.courses

theorem Still.clock {s t : State} (h : Still v s t) : t.clock = s.clock := congrArg Prod.fst h.fixed

theorem Still.reservations {s t : State} (h : Still v s t) : t.reservations = s.reservations :=
  congrArg (fun f => f.2.2.2.2.1) h.fixed

theorem Still.view {s t : State} (h : Still v s t) (j : Nat) : v (t.course j) = v (s.course j) := by
  have e (u : State) : v (u.course j) = (u.courses.map v).getD j (v {}) := by
    simp only [State.course, List.getD_eq_getElem?_getD, List.getElem?_map]
    cases u.courses[j]? <;> rfl
  rw [e t, e s, h.courses]

theorem context_body (s : State) (n : Nat) :
    (s.context n).body = ((s.contexts.map Context.body).find? fun c => c.num == n).getD { num := n, mode := .deleted } := by
  rw [find_body, State.context]
  cases s.contexts.find? fun c => c.num == n <;> rfl

theorem Still.context {s t : State} (h : Still v s t) (n : Nat) : (t.context n).body = (s.context n).body := by
  rw [context_body, context_body, h.contexts]

theorem Still.vacateAt {s t : State} (h : Still v s t) (n : Nat) : (t.context n).vacateAt = (s.context n).vacateAt := by
  have e := congrArg Context.vacateAt (h.context n)
  exact e

theorem Still.vacateEst {s t : State} (h : Still v s t) (n : Nat) : (t.context n).vacateEst = (s.context n).vacateEst := by
  have e := congrArg Context.vacateEst (h.context n)
  exact e

theorem map_modify_view (l : List Course) (i : Nat) (f : Course → Course) (h : ∀ c, v (f c) = v c) :
    (l.modify i f).map v = l.map v := by
  apply List.ext_getElem?
  intro j
  simp only [List.getElem?_map, List.getElem?_modify]
  cases l[j]? with
  | none => rfl
  | some c => by_cases hij : i = j <;> simp [hij, h]

theorem modCourse_still (s : State) (i : Nat) (f : Course → Course) (h : ∀ c, v (f c) = v c) : Still v s (s.modCourse i f) :=
  ⟨rfl, rfl, map_modify_view _ _ _ h⟩

theorem modCtx_still (s : State) (n : Nat) (f : Context → Context) (h : ∀ x, (f x).body = x.body) : Still v s (s.modCtx n f) := by
  refine ⟨rfl, ?_, rfl⟩
  simp only [State.modCtx, List.map_map]
  apply List.map_congr_left
  intro x _
  simp only [Function.comp]
  split
  · exact h x
  · rfl

theorem modTeam_still (s : State) (t : Nat) (f : Team → Team) : Still v s (s.modTeam t f) := ⟨rfl, rfl, rfl⟩

theorem post_still (s : State) (i : Instr) (u : Subject) : Still v s (s.post i u) := ⟨rfl, rfl, rfl⟩

theorem setSpools_still (s : State) (l : List SpoolDesc) (w : List (Nat × Nat × Nat)) :
    Still v s { s with spools := l, writes := w } := ⟨rfl, rfl, rfl⟩

end

theorem Still.core {s t : State} (h : Still Course.frame s t) (j : Nat) : (t.course j).core = (s.course j).core := by
  have e := congrArg Course.core (h.view j)
  exact e

/-- What keeps the frames keeps what a rollback keeps. -/
theorem Still.stays {s t : State} (h : Still Course.frame s t) : Still Course.stay s t := by
  refine h.coarser Course.stay fun c => ?_
  cases hp : c.phase <;> simp [Course.stay, Course.frame, Course.body, hp]

theorem Still.phase {s t : State} (h : Still Course.stay s t) (j : Nat) :
    (if (t.course j).phase = .waiting then Phase.running else (t.course j).phase)
      = if (s.course j).phase = .waiting then Phase.running else (s.course j).phase :=
  congrArg (fun f => f.2.2.2.2) (h.view j)

/-- A course that is out of its core stays so. -/
theorem Still.phase_eq {s t : State} (h : Still Course.stay s t) (j : Nat) {p : Phase} (hw : p ≠ .waiting) (hr : p ≠ .running)
    (hp : (s.course j).phase = p) : (t.course j).phase = p := by
  have e := h.phase j
  rw [hp, if_neg hw] at e
  split at e
  · exact absurd e.symm hr
  · exact e

/-! Waking (R28, R223, R401). -/

theorem listWake_still {α : Type} {v : Course → α} (s : State) (i : Nat) : Still v s (s.listWake i) := modCtx_still s _ _ fun _ => rfl

theorem wakeIf_still (s : State) (p : Nat → Course → Wait → Bool) (run : Bool) : Still Course.frame s (s.wakeIf p run) := by
  unfold State.wakeIf
  refine Still.foldl _ _ (fun s i => ?_) s
  have h : Still Course.frame s (s.modCourse i fun c =>
      { c.endWaits (p i c) with phase := if run && c.phase == .waiting then .running else c.phase }) := by
    refine modCourse_still s i _ fun c => ?_
    cases hp : c.phase <;> cases run <;> simp [Course.frame, Course.body, Course.endWaits, hp]
  simp only
  split
  · exact h.trans (listWake_still _ _)
  · exact h

theorem noticeLine_still (s : State) (l : Nat) : Still Course.frame s (s.noticeLine l) := by
  unfold State.noticeLine
  refine Still.trans ?_ (Still.foldl _ _ (fun s q => post_still s _ _) _)
  exact Still.of_eq rfl rfl rfl

theorem wakeLine_still (s : State) (l : Nat) : Still Course.frame s (s.wakeLine l) :=
  (wakeIf_still s _ _).trans (noticeLine_still _ l)

/-! Writes (R242, R251). -/

theorem locSet_still (s : State) (loc : Nat) (b : Byte) : Still Course.frame s (s.locSet loc b) := by
  unfold State.locSet
  split
  · split <;> exact Still.of_eq rfl rfl rfl
  · split <;> exact Still.of_eq rfl rfl rfl

theorem locSets_still (s : State) (cells : List Host.Cell) : Still Course.frame s (cells.foldl (fun s c => s.locSet c.1 c.2) s) :=
  Still.foldl cells _ (fun s (c : Host.Cell) => locSet_still s c.1 c.2) s

theorem writeLine_still (s : State) (clk l : Nat) (cells : List Host.Cell) (wake : Bool) :
    Still Course.frame s (s.writeLine clk l cells wake).1 := by
  have h (w : Nat) : Still Course.frame s (cells.foldl (fun s c => s.locSet c.1 c.2) (s.setStamp l w w)) :=
    (Still.of_reads (setStamp_reads s l w w)).trans (locSets_still _ cells)
  cases wake
  · exact (h _).trans (setSpools_still _ _ _)
  · exact ((h _).trans (setSpools_still _ _ _)).trans (wakeLine_still _ l)

theorem writeLocs_still (s : State) (clk : Nat) (cells : List Host.Cell) (wake : Bool) :
    Still Course.frame s (s.writeLocs clk cells wake).1 := by
  refine Still.foldl_fst _ _ (fun r l => ?_) (s, 0)
  exact writeLine_still r.1 clk l _ wake

theorem moveWatch_still (s : State) (t a b : Nat) : Still Course.frame s (s.moveWatch t a b) := by
  refine ⟨rfl, rfl, ?_⟩
  simp only [State.moveWatch, List.map_map]
  apply List.map_congr_left
  intro c _
  simp only [Function.comp]
  split <;> rfl

theorem cloneAt_still (s : State) (w : Who) (va : Nat) (e : BitVec 64) (log : Nat) : Still Course.frame s (s.cloneAt w va e log) := by
  unfold State.cloneAt
  split
  · exact Still.refl s
  · simp only
    split
    · exact Still.refl s
    · split
      · exact (((Still.of_reads (readLine_reads s _ _)).trans (locSets_still _ _)).trans (moveWatch_still _ _ _ _)).trans
          (modCtx_still _ _ _ fun _ => rfl)
      · exact modCtx_still s _ _ fun x => rfl

theorem cloneLine_still (s : State) (w : Who) (va : Nat) : Still Course.frame s (s.cloneLine w va) := by
  unfold State.cloneLine
  split
  · exact Still.refl s
  · exact cloneAt_still s w va _ _

theorem writeVA_still (s t : State) (w : Who) (va m : Nat) (bytes : List Byte) (wake : Bool)
    (h : s.writeVA w va bytes wake = .ok (t, m)) : Still Course.frame s t := by
  unfold State.writeVA at h
  cases hl : s.locsOf w va bytes.length true with
  | error e => simp [hl, bind, Except.bind] at h
  | ok ps =>
    simp only [hl, bind, Except.bind, pure, Except.pure, Except.ok.injEq] at h
    have e : t = _ := (congrArg Prod.fst h).symm
    rw [e]
    exact ((Still.foldl _ _ (fun s p => cloneLine_still s w _) s).trans (Still.of_reads (l2Range_reads _ _ _ _ _))).trans
      (writeLocs_still _ _ _ _)

theorem pokeAt_still (s : State) (w : Who) (va : Nat) (bytes : List Byte) (wake : Bool) :
    Still Course.frame s (s.pokeAt w va bytes wake).1 := by
  unfold State.pokeAt
  cases h : s.writeVA w va bytes wake with
  | error e => exact Still.refl s
  | ok r => exact writeVA_still s r.1 w va r.2 bytes wake h

theorem pokeVA_still (s : State) (w : Who) (va : Nat) (bytes : List Byte) (wake : Bool) :
    Still Course.frame s (s.pokeVA w va bytes wake) := pokeAt_still s w va bytes wake

/-! Commits and checkpoints (R181, R182). -/

theorem loanSent_still (s : State) (i va line : Nat) : Still Course.frame s (s.loanSent i va line) := by
  unfold State.loanSent
  simp only
  split
  · exact Still.refl s
  · split
    · exact Still.of_eq rfl rfl rfl
    · refine Still.trans ?_ (modCourse_still _ _ _ fun _ => rfl)
      exact Still.of_eq rfl rfl rfl

theorem commitG_still (s : State) (i : Nat) (p : Nat → Bool) : Still Course.frame s (s.commitG i p) := by
  unfold State.commitG
  simp only
  split
  · exact Still.refl s
  · refine Still.trans ?_ (modCourse_still _ _ _ fun _ => rfl)
    refine Still.trans ?_ (writeLocs_still _ _ _ _)
    refine Still.trans ?_ (Still.foldl _ _ (fun s t => loanSent_still s _ _ _) _)
    refine Still.trans ?_
      (Still.foldl _ _ (fun s t => Still.of_reads ((l2Access_reads s _ _ _ _ _ _).trans (tlbNote_reads _ _ _))) _)
    exact Still.foldl _ _ (fun s t => cloneAt_still s _ _ _ _) s

theorem commitS_still (s : State) (i : Nat) (p : Nat → Bool) : Still Course.frame s (s.commitS i p) := by
  unfold State.commitS
  simp only
  refine Still.trans ?_ (modCourse_still _ _ _ fun _ => rfl)
  split
  · split <;> exact Still.of_eq rfl rfl rfl
  · exact Still.refl s

theorem commit_still (s : State) (i : Nat) : Still Course.frame s (s.commit i) := (commitG_still s i _).trans (commitS_still _ i _)

theorem checkpoint_still (s : State) (i : Nat) : Still Course.frame s (s.checkpoint i) :=
  (commit_still s i).trans (modCourse_still _ _ _ fun _ => rfl)

/-! Charges (R337, R344). -/

theorem schedule_still {α : Type} {v : Course → α} (s : State) (c : Nat) : Still v s (s.schedule c) := by
  unfold State.schedule
  simp only
  split
  · exact Still.of_eq rfl rfl rfl
  · exact Still.refl s

theorem credit_still {α : Type} {v : Course → α} (s : State) (c : Nat) (l : List Charge) : Still v s (s.credit c l) := by
  unfold State.credit
  split
  · exact Still.refl s
  · refine Still.trans ?_ (schedule_still _ c)
    refine Still.trans (modCtx_still s c (fun x => { x with charges := l.foldl (fun l c => l.erase c) x.charges }) fun _ => rfl) ?_
    split
    · exact Still.of_eq rfl rfl rfl
    · exact Still.refl _

theorem creditGranted_still (s : State) (i : Nat) : Still Course.frame s (s.creditGranted i) := by
  unfold State.creditGranted
  split
  · exact Still.refl s
  · refine Still.trans ?_ (credit_still _ _ _)
    refine Still.trans (modCourse_still s i (fun c => { c with granted := none, grantBinds := false }) fun _ => rfl) ?_
    split
    · exact wakeIf_still _ _ _
    · exact Still.refl _

/-! Rings and records (R288, R354). -/

theorem ringComplete_still (s : State) (clk : Nat) (r : RingRef) (l : List Nat) (n : Nat) :
    Still Course.frame s (s.ringComplete clk r l n) := by
  unfold State.ringComplete
  split
  · exact Still.refl s
  · split
    · exact pokeAt_still s _ _ _ _
    · exact ((pokeAt_still s _ _ _ _).trans (pokeAt_still _ _ _ _ _)).trans (pokeAt_still _ _ _ _ _)

theorem writeRecord_still (s : State) (i : Nat) (f : FaultInfo) (b : Bool) (p q : Nat) :
    Still Course.frame s (s.writeRecord i f b p q) := by
  have h : Still Course.frame s (s.modCourse i fun c => { c with recSeq := c.recSeq + 1 }) := modCourse_still s i _ fun _ => rfl
  unfold State.writeRecord
  simp only
  split
  · exact h
  · exact h.trans (pokeVA_still _ _ _ _ _)

/-! The stash's write-back (R204). -/

theorem loanStores_still (s : State) (w : Who) (i : Nat) (vas : List Nat) : Still Course.frame s (s.loanStores w i vas) := by
  refine Still.foldl _ _ (fun s l => ?_) s
  split
  · exact loanSent_still s _ _ _
  · exact Still.refl s

theorem raiseMembers_still (s : State) (t w : Nat) : Still Course.frame s (s.raiseMembers t w) := by
  refine ⟨rfl, rfl, ?_⟩
  simp only [State.raiseMembers, List.map_map]
  apply List.map_congr_left
  intro c _
  simp only [Function.comp]
  split <;> rfl

theorem stashFlush_still (s : State) (t : Nat) (p : Nat → Nat → Bool) (clk : Nat) (sender : Option Nat) :
    Still Course.frame s (s.stashFlush t p clk sender).1 := by
  unfold State.stashFlush
  refine Still.trans (Still.foldl_fst _ _ (fun r q => ?_) (s, 0)) (raiseMembers_still _ t _)
  simp only
  refine Still.trans ?_ (modTeam_still _ t _)
  refine Still.trans (loanStores_still r.1 _ _ _) (Still.foldl_fst _ _ (fun r off => ?_) (_, r.2, []))
  split
  · exact Still.refl _
  · split
    · exact Still.refl _
    · split
      · next h => exact writeVA_still r.1 _ _ _ _ _ _ h
      · exact Still.refl _

theorem stashBack_still (s : State) (t : Nat) : Still Course.frame s (s.stashBack t) := stashFlush_still s t _ _ _

end Sys2Proof.Machine
end

section
/-! SUPPORT. Rings, sorted lists, contexts and the save of a context: what the scheduler's operations find and leave. -/

namespace Sys2Proof.Machine

/-! An event whose condition is a Bool. -/

/-- An event that is not due leaves the machine as it is. -/
theorem notDue_next {b : Bool} (h : b = false) (s t : State) : (.next (if (!b) = true then s else t) : Out) = .next s := by
  rw [h]; rfl

theorem due_next {b : Bool} (h : b = true) (s t : State) : (.next (if (!b) = true then s else t) : Out) = .next t := by
  rw [h]; rfl

/-! Submission rings (R401). -/

/-- The first member that satisfies a condition, in a list whose members that do are changed. -/
theorem find?_map_if {α : Type} (p : α → Bool) (f : α → α) (hf : ∀ x, p x = true → p (f x) = true) (l : List α) :
    (l.map fun x => if p x then f x else x).find? p = (l.find? p).map f := by
  induction l with
  | nil => rfl
  | cons x l ih =>
    cases hx : p x with
    | true => simp [hx, hf x hx]
    | false => simp [hx, ih]

theorem queue?_modQueue (s : State) (n : Nat) (f : Queue → Queue) (hf : ∀ q, (f q).num = q.num) :
    (s.modQueue n f).queue? n = (s.queue? n).map f :=
  find?_map_if (fun q : Queue => q.num == n) f (fun q hq => by rw [hf]; exact hq) s.queues

theorem mappedCount_modQueue (s : State) (n : Nat) (f : Queue → Queue) (hf : ∀ q, (f q).num = q.num)
    (hm : ∀ q, (f q).mapped = q.mapped) : (s.modQueue n f).mappedCount = s.mappedCount := by
  simp only [State.mappedCount, State.modQueue, List.filter_map, List.length_map]
  congr 2
  funext q
  simp only [Function.comp]
  split <;> simp [hf, hm]

/-- Mapping a queue changes the queues alone. -/
theorem mapQueue_eq (s : State) (n : Nat) : s.mapQueue n = { s with queues := (s.mapQueue n).queues } := by
  unfold State.mapQueue
  simp only
  split
  · rfl
  · split
    · rfl
    · split <;> rfl

theorem mapWaiting_eq (s : State) : s.mapWaiting = { s with queues := s.mapWaiting.queues } := by
  unfold State.mapWaiting
  split
  · exact mapQueue_eq s _
  · rfl

/-- A queue that is not mapped is mapped, ready, while a place is free (R401). -/
theorem mapQueue_maps (s : State) (n : Nat) (q : Queue) (hq : s.queue? n = some q) (hm : q.mapped = false)
    (hc : s.mappedCount < 1024) :
    (s.mapQueue n).queue? n = some { q with ready := true, mapped := true } := by
  let r := s.modQueue n fun q => { q with ready := true }
  have hr : r.queue? n = some { q with ready := true } := by
    rw [queue?_modQueue s n _ (by intro _; rfl), hq, Option.map_some]
  have hrc : r.mappedCount < 1024 := by
    rw [mappedCount_modQueue s n _ (by intro _; rfl) (by intro _; rfl)]
    exact hc
  have e : s.mapQueue n = r.modQueue n fun q => { q with mapped := true } := by
    show (if (r.queue? n).any (·.mapped) then r else if r.mappedCount < 1024 then _ else _) = _
    rw [hr, if_neg (by simp [hm]), if_pos hrc]
  rw [e, queue?_modQueue r n _ (by intro _; rfl), hr, Option.map_some]

/-- What a second reading of an unmapped ring leads to: it is mapped again, or a queue that waits takes its place (R401). -/
theorem unmapNext_eq (s : State) (q : Queue) (n : Nat) : (if s.ringEmpty q then s.mapWaiting else s.mapQueue n)
    = { s with queues := (if s.ringEmpty q then s.mapWaiting else s.mapQueue n).queues } := by
  split
  · exact mapWaiting_eq s
  · exact mapQueue_eq s n

/-! Lists sorted by a key. -/

theorem insertBy_perm (k : Nat → Nat) (x : Nat) (l : List Nat) : (insertBy k x l).Perm (x :: l) := by
  induction l with
  | nil => exact List.Perm.refl _
  | cons y ys ih =>
    unfold insertBy
    split
    · exact List.Perm.refl _
    · exact (ih.cons y).trans (List.Perm.swap x y ys)

theorem insertAll_perm (k : Nat → Nat) (l acc : List Nat) : (l.foldl (fun r x => insertBy k x r) acc).Perm (acc ++ l) := by
  induction l generalizing acc with
  | nil => simp
  | cons x l ih => exact (ih _).trans (((insertBy_perm k x acc).append_right l).trans List.perm_middle.symm)

theorem sortBy_perm (k : Nat → Nat) (l : List Nat) : (sortBy k l).Perm l := insertAll_perm k l []

/-- A number is put before those of a larger key and behind the others. -/
theorem insertBy_pairwise (k : Nat → Nat) (r : Nat → Nat → Prop) (ht : ∀ a b c, r a b → r b c → r a c) (x : Nat) (l : List Nat)
    (hlt : ∀ y ∈ l, k x < k y → r x y) (hge : ∀ y ∈ l, ¬k x < k y → r y x) (hp : l.Pairwise r) :
    (insertBy k x l).Pairwise r := by
  induction l with
  | nil => exact List.pairwise_singleton r x
  | cons y ys ih =>
    obtain ⟨hy, hys⟩ := List.pairwise_cons.mp hp
    unfold insertBy
    split
    · next h =>
      have hxy := hlt y List.mem_cons_self h
      refine List.pairwise_cons.mpr ⟨fun z hz => ?_, hp⟩
      rcases List.mem_cons.mp hz with rfl | hz
      · exact hxy
      · exact ht _ _ _ hxy (hy z hz)
    · next h =>
      refine List.pairwise_cons.mpr ⟨fun z hz => ?_, ih (fun z hz => hlt z (List.mem_cons_of_mem y hz))
        (fun z hz => hge z (List.mem_cons_of_mem y hz)) hys⟩
      rcases List.mem_cons.mp ((insertBy_perm k x ys).mem_iff.mp hz) with rfl | hz
      · exact hge y List.mem_cons_self h
      · exact hy z hz

/-- Keys rise along a sorted list. -/
theorem sortBy_sorted (k : Nat → Nat) (l : List Nat) : (sortBy k l).Pairwise fun a b => k a ≤ k b := by
  have h (l acc : List Nat) (ha : acc.Pairwise fun a b => k a ≤ k b) :
      (l.foldl (fun r x => insertBy k x r) acc).Pairwise fun a b => k a ≤ k b := by
    induction l generalizing acc with
    | nil => exact ha
    | cons x l ih =>
      exact ih _ (insertBy_pairwise k (fun a b => k a ≤ k b) (fun _ _ _ => Nat.le_trans) x acc
        (fun _ _ h => Nat.le_of_lt h) (fun _ _ h => Nat.le_of_not_lt h) ha)
  exact h l [] List.Pairwise.nil

/-- The number whose key lies below that of every other comes first. -/
theorem sortBy_head (k : Nat → Nat) (l : List Nat) (i : Nat) (hi : i ∈ l) (hmin : ∀ j ∈ l, j = i ∨ k i < k j) :
    (sortBy k l).head? = some i := by
  have hmem (j : Nat) : j ∈ sortBy k l ↔ j ∈ l := (sortBy_perm k l).mem_iff
  have hs := sortBy_sorted k l
  cases hl : sortBy k l with
  | nil =>
    have := (hmem i).mpr hi
    simp [hl] at this
  | cons a rest =>
    rw [hl] at hs
    have ha : k a ≤ k i := by
      rcases List.mem_cons.mp (hl ▸ (hmem i).mpr hi) with rfl | h
      · exact Nat.le_refl _
      · exact (List.pairwise_cons.mp hs).1 i h
    rcases hmin a ((hmem a).mp (hl ▸ List.mem_cons_self)) with rfl | h
    · rfl
    · omega

/-! Contexts by their numbers. -/

/-- The numbers of the contexts, in order. -/
def State.ctxNums (s : State) : List Nat := s.contexts.map Context.num

theorem mem_ctxNums_of_find (s : State) (n : Nat) (x : Context) (h : s.contexts.find? (fun c => c.num == n) = some x) :
    n ∈ s.ctxNums := by
  have hn := List.find?_some h
  exact List.mem_map.mpr ⟨x, List.mem_of_find?_eq_some h, by simpa using hn⟩

theorem ctxNums_of_bodies {s t : State} (h : t.contexts.map Context.body = s.contexts.map Context.body) : t.ctxNums = s.ctxNums := by
  have e (u : State) : u.ctxNums = (u.contexts.map Context.body).map Context.num := by
    rw [List.map_map]
    exact List.map_congr_left fun _ _ => rfl
  rw [e, e, h]

theorem Still.ctxNums {α : Type} {v : Course → α} {s t : State} (h : Still v s t) : t.ctxNums = s.ctxNums :=
  ctxNums_of_bodies h.contexts

theorem modCtx_ctxNums (s : State) (n : Nat) (f : Context → Context) (hf : ∀ x, (f x).num = x.num) :
    (s.modCtx n f).ctxNums = s.ctxNums := by
  simp only [State.ctxNums, State.modCtx, List.map_map]
  apply List.map_congr_left
  intro x _
  simp only [Function.comp]
  split
  · exact hf x
  · rfl

theorem context_modCtx (s : State) (n : Nat) (f : Context → Context) (hf : ∀ x, (f x).num = x.num) (h : n ∈ s.ctxNums) :
    (s.modCtx n f).context n = f (s.context n) := by
  have key := find?_map_if (fun c : Context => c.num == n) f (fun c hc => by rw [hf]; exact hc) s.contexts
  obtain ⟨x, hx, hn⟩ := List.mem_map.mp h
  obtain ⟨y, hy⟩ := Option.isSome_iff_exists.mp (List.find?_isSome (p := fun c : Context => c.num == n).mpr ⟨x, hx, by simp [hn]⟩)
  simp only [State.context, State.modCtx, key, hy, Option.map_some, Option.getD_some]

theorem context_of_find (s : State) (n : Nat) (x : Context) (h : s.contexts.find? (fun c => c.num == n) = some x) : s.context n = x := by
  rw [State.context, h, Option.getD_some]

/-- A scheduling event enters the agenda alone. -/
theorem schedule_eq (s : State) (c : Nat) : s.schedule c = { s with agenda := (s.schedule c).agenda } := by
  unfold State.schedule
  simp only
  split <;> rfl

theorem schedule_context (s : State) (c n : Nat) : (s.schedule c).context n = s.context n := by
  rw [schedule_eq]; rfl

theorem schedule_course (s : State) (c j : Nat) : (s.schedule c).course j = s.course j := by
  rw [schedule_eq]; rfl

theorem mem_modGangsw (s : State) (x : Nat) (f : GangSw → GangSw) (g : GangSw) (hg : g ∈ (s.modGangsw x f).gangsws)
    (ho : g.outgoing = x) : ∃ h ∈ s.gangsws, g = f h := by
  obtain ⟨h, hh, e⟩ := List.mem_map.mp hg
  refine ⟨h, hh, ?_⟩
  split at e
  · exact e.symm
  · next hn => rw [← e] at ho; simp [ho] at hn

/-! Packets and plies that end (R305, R400). -/

theorem ringWrite_still (s : State) (q : Queue) (clk off : Nat) (bytes : List Byte) :
    Still Course.frame s (s.ringWrite q clk off bytes) := by
  unfold State.ringWrite
  split
  · split
    · exact Still.refl s
    · exact writeLocs_still s _ _ _
  · exact pokeVA_still s _ _ _ _

theorem modQueue_still {α : Type} {v : Course → α} (s : State) (n : Nat) (f : Queue → Queue) : Still v s (s.modQueue n f) :=
  ⟨rfl, rfl, rfl⟩

theorem modPly_still {α : Type} {v : Course → α} (s : State) (k : Nat) (f : PlyRun → PlyRun) : Still v s (s.modPly k f) :=
  ⟨rfl, rfl, rfl⟩

theorem modNode_still {α : Type} {v : Course → α} (s : State) (k : Nat) (f : NodeRun → NodeRun) : Still v s (s.modNode k f) :=
  ⟨rfl, rfl, rfl⟩

theorem retirePacket_still (s : State) (n slot status result clk : Nat) :
    Still Course.frame s (s.retirePacket n slot status result clk) := by
  unfold State.retirePacket
  split
  · exact Still.refl s
  · next q _ =>
    extract_lets s1 taken k q' s2 s3
    have h1 : Still Course.frame s s1 := ringWrite_still s q _ _ _
    have h2 : Still Course.frame s1 s2 := modQueue_still s1 n _
    have h3 : Still Course.frame s2 s3 := Still.ite (Still.refl s2) (ringWrite_still s2 q' _ _ _)
    have h4 : Still Course.frame s3 { s3 with tableVersion := s3.tableVersion + 1 } := Still.of_eq rfl rfl rfl
    exact ((h1.trans h2).trans h3).trans (Still.ite h4 (Still.refl s3))

theorem creditPly_still (s : State) (k : Nat) : Still Course.frame s (s.creditPly k) := by
  unfold State.creditPly
  split
  · exact Still.refl s
  · exact (modPly_still s k _).trans (credit_still _ _ _)

theorem endPly_still (s : State) (k : Nat) : Still Course.frame s (s.endPly k) := by
  unfold State.endPly
  split
  · exact Still.refl s
  · next p _ =>
    split
    · exact Still.refl s
    · simp only
      have hring (t : State) : Still Course.frame t (match p.ring with
          | some r => t.ringComplete p.clock r (recordWords p.status 6 p.subs p.bytes p.perf p.fail 0 0) (p.cause % 256)
          | none => t) := by
        split
        · exact ringComplete_still t _ _ _ _
        · exact Still.refl t
      refine ((creditPly_still s k).trans (modPly_still _ k fun p => { p with finished := true })).trans ?_
      cases p.report with
      | none => exact hring _
      | some r =>
        cases r with
        | packet q slot =>
          refine (hring _).trans (Still.ite ?_ (Still.ite ?_ ?_))
          · exact retirePacket_still _ _ _ _ _ _
          · exact retirePacket_still _ _ _ _ _ _
          · exact retirePacket_still _ _ _ _ _ _
        | node n => exact (hring _).trans (modNode_still _ _ _)
        | ply run sub => exact hring _

end Sys2Proof.Machine
end

section
/-! SUPPORT. Placements and completions that come before a vacate request, rollbacks, and the save of a context. -/

namespace Sys2Proof.Machine

/-! Operations that add courses (R20, R406): what they keep of the ones there are. -/

/-- t has the clock, the contexts and the courses of s, with more courses behind them; each old course keeps its core. -/
structure Grows (s t : State) : Prop where
  clock : t.clock = s.clock
  contexts : t.contexts.map Context.body = s.contexts.map Context.body
  cores : ∃ more, t.courses.map Course.core = s.courses.map Course.core ++ more

theorem Grows.of_still {s t : State} (h : Still Course.frame s t) : Grows s t := by
  have hc : Still Course.core s t := h.coarser Course.core fun _ => rfl
  exact ⟨h.clock, h.contexts, [], by rw [hc.courses, List.append_nil]⟩

/-- A state with the clock, contexts and courses of s. -/
theorem Grows.of_eq {s t : State} (hk : t.clock = s.clock) (hx : t.contexts = s.contexts) (hc : t.courses = s.courses) : Grows s t :=
  ⟨hk, by rw [hx], [], by rw [hc, List.append_nil]⟩

theorem Grows.refl (s : State) : Grows s s := Grows.of_eq rfl rfl rfl

theorem Grows.trans {s t u : State} (h : Grows s t) (k : Grows t u) : Grows s u := by
  obtain ⟨more, hm⟩ := h.cores
  obtain ⟨more', hm'⟩ := k.cores
  exact ⟨k.clock.trans h.clock, k.contexts.trans h.contexts, more ++ more', by rw [hm', hm, List.append_assoc]⟩

theorem Grows.foldl {α : Type} (l : List α) (f : State → α → State) (h : ∀ s a, Grows s (f s a)) (s : State) :
    Grows s (l.foldl f s) := by
  induction l generalizing s with
  | nil => exact Grows.refl s
  | cons a l ih => exact (h s a).trans (ih (f s a))

theorem Grows.ite {c : Prop} [Decidable c] {s t u : State} (h : Grows s t) (k : Grows s u) : Grows s (if c then t else u) := by
  split
  · exact h
  · exact k

theorem Grows.ctxNums {s t : State} (h : Grows s t) : t.ctxNums = s.ctxNums := ctxNums_of_bodies h.contexts

theorem Grows.core {s t : State} (h : Grows s t) (j : Nat) (hj : j < s.courses.length) : (t.course j).core = (s.course j).core := by
  obtain ⟨more, hm⟩ := h.cores
  have e (u : State) : (u.course j).core = (u.courses.map Course.core).getD j {} := by
    simp only [State.course, List.getD_eq_getElem?_getD, List.getElem?_map]
    cases u.courses[j]? <;> rfl
  have hlen : j < (s.courses.map Course.core).length := by rw [List.length_map]; exact hj
  rw [e, e, hm, List.getD_eq_getElem?_getD, List.getElem?_append_left hlen, ← List.getD_eq_getElem?_getD]

theorem modLaunch_grows (s : State) (i : Nat) (f : Launch → Launch) : Grows s (s.modLaunch i f) := Grows.of_eq rfl rfl rfl

theorem schedule_grows (s : State) (c : Nat) : Grows s (s.schedule c) := Grows.of_still (schedule_still s c)

theorem retirePacket_grows (s : State) (n slot status result clk : Nat) : Grows s (s.retirePacket n slot status result clk) :=
  Grows.of_still (retirePacket_still s n slot status result clk)

theorem failNode_grows (s : State) (k cause : Nat) : Grows s (s.failNode k cause) := Grows.of_eq rfl rfl rfl

theorem failPly_grows (s : State) (k fail cause detail : Nat) : Grows s (s.failPly k fail cause detail) := Grows.of_eq rfl rfl rfl

theorem newJob_grows (s : State) (j : Job) : Grows s (s.newJob j).1 := Grows.of_eq rfl rfl rfl

theorem modPly_grows (s : State) (k : Nat) (f : PlyRun → PlyRun) : Grows s (s.modPly k f) := Grows.of_eq rfl rfl rfl

theorem reserveFor_eq (s : State) (i : Nat) : s.reserveFor i = { s with reservations := (s.reserveFor i).reservations } := by
  unfold State.reserveFor
  split
  · rfl
  · simp only
    split <;> rfl

theorem reserveFor_grows (s : State) (i : Nat) : Grows s (s.reserveFor i) := by
  rw [reserveFor_eq]
  exact Grows.of_eq rfl rfl rfl

theorem ageHeads_grows (s : State) (l : List Nat) : Grows s (s.ageHeads l) := by
  unfold State.ageHeads
  simp only
  split
  · exact reserveFor_grows s _
  · exact Grows.refl s

theorem rejectLaunch_grows (s : State) (i : Nat) (errs : List (Nat × Nat × Nat)) : Grows s (s.rejectLaunch i errs) := by
  unfold State.rejectLaunch
  split
  · exact Grows.refl s
  · exact Grows.refl s
  · next l j field detail rest _ =>
    extract_lets s1
    have h1 : Grows s s1 := Grows.of_eq rfl rfl rfl
    refine h1.trans ?_
    split
    · exact (modLaunch_grows s1 _ _).trans (retirePacket_grows _ _ _ _ _ _)
    · exact (modLaunch_grows s1 _ _).trans (failNode_grows _ _ _)
    · exact (Grows.foldl _ _ (fun s j => modLaunch_grows s j _) s1).trans (failPly_grows _ _ _ _ _)

theorem l1Trim_grows (s : State) (place : Nat) : Grows s (s.l1Trim place) := Grows.of_eq rfl rfl rfl

theorem placeTeam_grows (s : State) (i place : Nat) (idx : List Nat) : Grows s (s.placeTeam i place idx) := by
  unfold State.placeTeam
  split
  · exact Grows.refl s
  · extract_lets slots d splits t fresh s1
    have h1 : Grows s s1 := ⟨rfl, rfl, _, List.map_append⟩
    exact h1.trans (Grows.ite (l1Trim_grows s1 place) (Grows.refl s1))

theorem startCopies_grows (s : State) (run : Nat) : Grows s (s.startCopies run) := by
  unfold State.startCopies
  split
  · exact Grows.refl s
  · exact (Grows.foldl _ _ (fun s c => newJob_grows s _) s).trans (modPly_grows _ run _)

theorem placeGang_grows (s : State) (i : Nat) (l : Launch) (teams : List (Nat × List Nat)) (cores : List Nat) :
    Grows s (s.placeGang i l teams cores) := by
  unfold State.placeGang
  extract_lets s1 s2 s3 s4
  have h1 : Grows s s1 := Grows.foldl _ _ (fun s t => placeTeam_grows s _ _ _) s
  have h2 : Grows s1 s2 := Grows.of_eq rfl rfl rfl
  have h3 : Grows s2 s3 := Grows.foldl _ _ (fun s j => modLaunch_grows s j _) s2
  have h4 : Grows s3 s4 := by
    show Grows s3 (match l.report with | .ply run _ => s3.startCopies run | .packet _ _ | .node _ => s3)
    split
    · exact startCopies_grows s3 _
    · exact Grows.refl s3
    · exact Grows.refl s3
  exact (((h1.trans h2).trans h3).trans h4).trans (schedule_grows s4 _)

theorem considerHeads_grows (l : List Nat) (s : State) : Grows s (s.considerHeads l) := by
  induction l generalizing s with
  | nil => exact Grows.refl s
  | cons i rest ih =>
    unfold State.considerHeads
    split
    · exact ih s
    · next l _ =>
      extract_lets errs teams s1
      refine Grows.ite ((rejectLaunch_grows s i errs).trans (schedule_grows _ _)) ?_
      have h1 : Grows s s1 := Grows.of_eq rfl rfl rfl
      refine h1.trans ?_
      split
      · exact placeGang_grows s1 _ _ _ _
      · exact (modLaunch_grows s1 _ _).trans (ih _)

theorem placeHeads_grows (s : State) (part : Nat) : Grows s (s.placeHeads part) :=
  (ageHeads_grows s _).trans (considerHeads_grows _ _)

theorem endLaunch_grows (s : State) (i : Nat) : Grows s (s.endLaunch i) := by
  unfold State.endLaunch
  split
  · exact Grows.refl s
  · extract_lets clk s1
    have h1 : Grows s s1 := modLaunch_grows s i _
    refine h1.trans ?_
    split
    · split <;> exact retirePacket_grows s1 _ _ _ _ _
    · exact Grows.of_eq rfl rfl rfl
    · exact Grows.of_eq rfl rfl rfl

theorem placeDue_grows (s : State) (x : Nat) : Grows s (s.placeDue x) :=
  Grows.foldl _ _ (fun s _ => placeHeads_grows s _) s

theorem completeDue_grows (s : State) (x : Nat) : Grows s (s.completeDue x) := by
  unfold State.completeDue
  refine (Grows.foldl _ _ (fun s i => ?_) s).trans (Grows.foldl _ _ (fun s k => ?_) _)
  · exact Grows.ite (endLaunch_grows s i) (Grows.refl s)
  · exact Grows.ite (Grows.of_still (endPly_still s k)) (Grows.refl s)

/-- What falls in the cycle of a vacate request keeps the clock, the contexts and the cores there are (R410). -/
theorem settleDue_grows (s : State) (x : Nat) : Grows s (s.settleDue x) := (placeDue_grows s x).trans (completeDue_grows _ x)

/-! A vacate request (R341, R347, R408). -/

theorem creditAll_still (l : List Nat) (s : State) : Still Course.frame s (l.foldl State.creditGranted s) :=
  Still.foldl l _ creditGranted_still s

theorem creditAll_mem (l : List Nat) (s : State) : SameMem s (l.foldl State.creditGranted s) :=
  SameMem.foldl l _ creditGranted_mem s

theorem requestVacate_inactive (s : State) (x : Nat) (h : (s.context x).mode ≠ .active) : s.requestVacate x = s := by
  unfold State.requestVacate
  exact if_pos (by simpa using h)

/-- The vacate request of an active context: the granted charges are credited, the reservations dropped and the context marked. -/
theorem requestVacate_active (s : State) (x : Nat) (h : (s.context x).mode = .active) :
    ∃ (r : State) (f : Context → Context), r = (s.ctxCourses x).foldl State.creditGranted (s.settleDue x)
      ∧ s.requestVacate x = (r.dropReservations x).modCtx x f
      ∧ ∀ c, (f c).num = c.num ∧ (f c).mode = .vacating ∧ (f c).vacateAt = r.clock := by
  unfold State.requestVacate
  rw [if_neg (by simp [h])]
  exact ⟨_, _, rfl, rfl, fun c => ⟨rfl, rfl, rfl⟩⟩

end Sys2Proof.Machine
end

section
/-! SUPPORT. Rollbacks, and the save of a context and of a swapped course (R184, R347, R349). -/

namespace Sys2Proof.Machine

/-! Rollbacks (R184). -/

theorem modJob_still {α : Type} {v : Course → α} (s : State) (k : Nat) (f : Job → Job) : Still v s (s.modJob k f) := ⟨rfl, rfl, rfl⟩

theorem stopCopy_still (s : State) (k : Nat) (j : Job) (again : Part → Bool) : Still Course.frame s (s.stopCopy k j again) := by
  unfold State.stopCopy
  extract_lets gone kept team chs moved s1 mine s2
  refine Still.ite (Still.refl s) ?_
  have h1 : Still Course.frame s s1 := modJob_still s k _
  have h2 : Still Course.frame s1 s2 := by
    clear_value s1 team
    cases team
    · exact Still.refl s1
    · exact modTeam_still s1 _ _
  exact (h1.trans h2).trans (credit_still s2 _ _)

theorem undoCopies_still (s : State) (i : Nat) : Still Course.frame s (s.undoCopies i) := by
  refine Still.foldl _ _ (fun s k => ?_) s
  split
  · exact stopCopy_still s k _ _
  · exact Still.refl s

/-- A rollback moves no course and takes none out of its state but a Waiting one, which runs. -/
theorem restore_still (s : State) (i : Nat) : Still Course.stay s (s.restore i) := by
  unfold State.restore
  refine ((creditGranted_still s i).stays.trans (undoCopies_still _ i).stays).trans ?_
  refine modCourse_still _ i _ fun c => ?_
  cases hp : c.phase <;> simp [Course.stay, hp]

/-! The save of one course (R347, R349). -/

/-- A course saved as of a checkpoint, before it is marked: only waits and what a checkpoint records have changed. -/
theorem saveCourse_split (s : State) (i opt : Nat) : ∃ r : State, Still Course.stay s r ∧ ∃ f : Course → Course,
    (∀ c, (f c).phase = .vacated) ∧ (∀ c, (f c).ctx = c.ctx) ∧ Still Course.frame (r.modCourse i f) (s.saveCourse i opt) := by
  unfold State.saveCourse
  extract_lets c prior r
  have hr : Still Course.stay s r := by
    refine Still.ite ?_ (Still.ite (Still.refl s) (Still.ite ?_ ?_))
    · refine Still.trans ?_ (checkpoint_still _ i).stays
      exact modCourse_still s i _ fun _ => rfl
    · refine (restore_still s i).trans ?_
      exact modCourse_still _ i _ fun _ => rfl
    · refine Still.trans ?_ (checkpoint_still _ i).stays
      exact modCourse_still s i _ fun _ => rfl
  refine ⟨r, hr, fun c => { c with phase := .vacated, prior := prior, option := opt }, fun _ => rfl, fun _ => rfl, ?_⟩
  exact Still.ite (Still.refl _) (writeRecord_still _ _ _ _ _ _)

/-- The save of a course keeps the fixed part, the contexts, and whose each course is. -/
theorem saveCourse_still (s : State) (i opt : Nat) : Still Course.ctx s (s.saveCourse i opt) := by
  obtain ⟨r, hr, f, -, hc, hs⟩ := saveCourse_split s i opt
  exact ((hr.coarser Prod.fst fun _ => rfl).trans (modCourse_still r i f hc)).trans (hs.coarser Course.ctx fun _ => rfl)

theorem saveCourse_vacates (s : State) (i opt : Nat) (h : i < s.courses.length) : ((s.saveCourse i opt).course i).phase = .vacated := by
  obtain ⟨r, hr, f, hf, -, hs⟩ := saveCourse_split s i opt
  refine hs.stays.phase_eq i (by decide) (by decide) ?_
  rw [modCourse_same r i f (by rw [hr.length]; exact h), hf]

theorem saveCourse_keeps_vacated (s : State) (i opt j : Nat) (h : (s.course j).phase = .vacated) :
    ((s.saveCourse i opt).course j).phase = .vacated := by
  by_cases hi : i < s.courses.length ∧ j = i
  · obtain ⟨hi, rfl⟩ := hi
    exact saveCourse_vacates s j opt hi
  · obtain ⟨r, hr, f, hf, -, hs⟩ := saveCourse_split s i opt
    refine hs.stays.phase_eq j (by decide) (by decide) ?_
    have hr' := hr.phase_eq j (by decide) (by decide) h
    by_cases hj : j = i
    · rw [State.modCourse, List.modify_eq_self (by rw [hr.length]; omega)]
      exact hr'
    · rw [modCourse_other r i j f hj]
      exact hr'

/-- Of the courses saved one after the other, with options that may depend on the state, each is vacated in the end. -/
theorem saveCourses_vacate (opt : State → Nat → Nat) (l : List Nat) (s : State) (i : Nat) (hi : i < s.courses.length)
    (h : i ∈ l ∨ (s.course i).phase = .vacated) :
    ((l.foldl (fun s i => s.saveCourse i (opt s i)) s).course i).phase = .vacated := by
  induction l generalizing s with
  | nil => exact h.resolve_left (by simp)
  | cons a l ih =>
    refine ih _ (by rw [(saveCourse_still s a _).length]; exact hi) ?_
    rcases h with h | h
    · rcases List.mem_cons.mp h with rfl | h
      · exact .inr (saveCourse_vacates s i _ hi)
      · exact .inl h
    · exact .inr (saveCourse_keeps_vacated s a _ i h)

/-! The save of a context (R204, R216, R277, R349). -/

theorem setAreas_still {α : Type} {v : Course → α} (s : State) (areas : List SaveArea) (lines : List Nat)
    (writes : List (Nat × List Byte)) (notes : List HeldFor) :
    Still v s { s with areas := areas, hostLines := lines, heldWrites := writes, heldFor := notes } := ⟨rfl, rfl, rfl⟩

theorem saveRange_still (s : State) (x cluster : Nat) (course : Option Nat) (va n : Nat) :
    Still Course.frame s (s.saveRange x cluster course va n) :=
  (setAreas_still s _ _ _ _).trans (wakeIf_still _ _ _)

theorem returnHolds_still (s : State) (clusters : List Nat) : Still Course.frame s (s.returnHolds clusters) := by
  unfold State.returnHolds
  have h (left : List HoldLine) : Still Course.frame s { s with holds := left } := Still.of_eq rfl rfl rfl
  exact (h _).trans (wakeIf_still _ _ _)

theorem dropCopies_still (s : State) (x cluster : Nat) : Still Course.frame s (s.dropCopies x cluster) := by
  refine Still.foldl _ _ (fun s k => ?_) s
  split
  · exact Still.ite (stopCopy_still s k _ _) (Still.refl s)
  · exact Still.refl s

/-- The save of a context, between the save of its courses and the note of the splits it leaves. -/
theorem saveContext_split (s : State) (x : Nat) : ∃ (opt : State → Nat → Nat) (r : State) (f : Context → Context),
    Still Course.frame ((s.ctxCourses x).foldl (fun s i => s.saveCourse i (opt s i)) s) r
    ∧ (∀ p, p ∈ r.splits → p.ctx ≠ x) ∧ (∀ c, f c = { c with savedSplits := (f c).savedSplits })
    ∧ s.saveContext x = r.modCtx x f := by
  unfold State.saveContext
  extract_lets opts s1 s2 s3 s4 s5 mine s6
  have h2 : Still Course.frame s1 s2 := Still.foldl _ _ stashBack_still s1
  have h3 : Still Course.frame s2 s3 := Still.foldl _ _ (fun s (o : Nat × Nat) => dropCopies_still s x o.1) s2
  have h4 : Still Course.frame s3 s4 := returnHolds_still s3 _
  have h5 : Still Course.frame s4 s5 := Still.foldl opts _ (fun s (o : Nat × Nat) => saveRange_still s x o.1 none _ _) s4
  have h6 : Still Course.frame s5 s6 := Still.of_eq rfl rfl rfl
  refine ⟨fun s i => (opts.lookup (clusterOf (s.course i).place)).getD 1, s6, _, (((h2.trans h3).trans h4).trans h5).trans h6,
    fun p hp => ?_, fun _ => rfl, rfl⟩
  simpa using (List.mem_filter.mp hp).2

/-- The save of a context keeps the clock, the gang switches, whose each course is, and of the context all but the splits it notes. -/
theorem saveContext_keeps (s : State) (x : Nat) : (s.saveContext x).fixed = s.fixed
    ∧ (s.saveContext x).ctxNums = s.ctxNums
    ∧ (x ∈ s.ctxNums → ((s.saveContext x).context x).vacateAt = (s.context x).vacateAt
        ∧ ((s.saveContext x).context x).vacateEst = (s.context x).vacateEst)
    ∧ (∀ p, p ∈ (s.saveContext x).splits → p.ctx ≠ x) := by
  obtain ⟨opt, r, f, hr, hsplits, hf, e⟩ := saveContext_split s x
  have hsave : Still Course.ctx s ((s.ctxCourses x).foldl (fun s i => s.saveCourse i (opt s i)) s) :=
    Still.foldl _ _ (fun s i => saveCourse_still s i _) s
  have h : Still Course.ctx s r := hsave.trans (hr.coarser Course.ctx fun _ => rfl)
  have hnum (c : Context) : (f c).num = c.num := by rw [hf]
  rw [e]
  refine ⟨h.fixed, (modCtx_ctxNums r x f hnum).trans h.ctxNums, fun hx => ?_, hsplits⟩
  rw [context_modCtx r x f hnum (by rw [h.ctxNums]; exact hx), hf]
  exact ⟨h.vacateAt x, h.vacateEst x⟩

/-- Every living course of a saved context is Vacated (R347). -/
theorem saveContext_vacates (s : State) (x i : Nat) (hi : i < s.courses.length) (hx : (s.course i).ctx = x)
    (ha : (s.course i).alive = true) : ((s.saveContext x).course i).phase = .vacated := by
  obtain ⟨opt, r, f, hr, -, -, e⟩ := saveContext_split s x
  have hmem : i ∈ s.ctxCourses x := List.mem_filter.mpr ⟨List.mem_range.mpr hi, by simp [hx, ha]⟩
  rw [e]
  exact hr.stays.phase_eq i (by decide) (by decide) (saveCourses_vacate opt _ s i hi (.inl hmem))

end Sys2Proof.Machine
end

section
/-! PROOFS. The events of the scheduler and of the needles (O50). -/

namespace Sys2Proof.Machine

/-! Rings (R401). -/

theorem queueNotify_none (s : State) (h : s.queue? s.subj.num = none) : exec .queueNotify s = .next s := by
  show execQueueNotify s = _
  simp [execQueueNotify, h]

theorem queueUnmap_none (s : State) (h : s.queue? s.subj.num = none) : exec .queueUnmap s = .next s := by
  show execQueueUnmap s = _
  simp [execQueueUnmap, h]

theorem queueNotify_some (s : State) (q : Queue) (h : s.queue? s.subj.num = some q) :
    exec .queueNotify s = .next (if q.closing = true then s else s.mapQueue s.subj.num) := by
  show execQueueNotify s = _
  cases hc : q.closing <;> simp [execQueueNotify, h, hc]

theorem queueUnmap_some (s : State) (q : Queue) (h : s.queue? s.subj.num = some q) :
    exec .queueUnmap s = .next (if (!s.mayUnmap q) = true then s else
      let s1 := (s.ringNote q 0).modQueue s.subj.num fun q => { q with mapped := false, ready := false }
      if s1.ringEmpty q then s1.mapWaiting else s1.mapQueue s.subj.num) := by
  show execQueueUnmap s = _
  unfold execQueueUnmap
  simp only [h]

/-- Unmapping touches queues and what a read leaves behind: no byte and no course (R401). -/
theorem unmap_frame (s : State) (q : Queue) (n : Nat) :
    let s1 := (s.ringNote q 0).modQueue n fun q => { q with mapped := false, ready := false }
    let t := if s1.ringEmpty q then s1.mapWaiting else s1.mapQueue n
    SameMemory s t ∧ t.courses = s.courses := by
  intro s1 t
  have hn := ringNote_reads s q 0
  have e : t = { s1 with queues := t.queues } := unmapNext_eq s1 q n
  rw [e]
  exact ⟨hn.sameMem.same, hn.courses⟩

/-! Placement (R406, R408, R411). -/

/-- A head's key in the order of the reservations that are due: when its AGE was over (R408). -/
def State.dueSince (s : State) (i : Nat) : Nat :=
  match s.launch? i with
  | some l => l.blockedSince.getD 0 + cyclesOfUs (s.context l.ctx).age
  | none => 0

theorem ageHeads_eq (s : State) (l : List Nat) : s.ageHeads l
    = ((sortBy s.dueSince (l.filter s.ageDue)).head?.map s.reserveFor).getD s := by
  show (match (sortBy s.dueSince (l.filter s.ageDue)).head? with | some i => s.reserveFor i | none => s) = _
  cases (sortBy s.dueSince (l.filter s.ageDue)).head? <;> rfl

theorem ageHeads_none (s : State) (l : List Nat) (h : ∀ i, i ∈ l → s.ageDue i = false) : s.ageHeads l = s := by
  have e : l.filter s.ageDue = [] := List.filter_eq_nil_iff.mpr fun i hi => by simp [h i hi]
  rw [ageHeads_eq, e]
  rfl

/-- Of the heads whose AGE is over the one due longest reserves (R408). -/
theorem ageHeads_first (s : State) (l : List Nat) (i : Nat) (hi : i ∈ l) (hd : s.ageDue i = true)
    (hmin : ∀ j, j ∈ l → s.ageDue j = true → j = i ∨ s.dueSince i < s.dueSince j) : s.ageHeads l = s.reserveFor i := by
  have hhead : (sortBy s.dueSince (l.filter s.ageDue)).head? = some i := by
    refine sortBy_head _ _ i (List.mem_filter.mpr ⟨hi, hd⟩) fun j hj => ?_
    obtain ⟨hjl, hjd⟩ := List.mem_filter.mp hj
    exact hmin j hjl hjd
  rw [ageHeads_eq, hhead]
  rfl

/-- A first head that is not rejected and finds cores is placed (R406). -/
theorem considerHeads_places (s : State) (i : Nat) (rest : List Nat) (l : Launch) (cores : List Nat) (hl : s.launch? i = some l)
    (herr : l.placed = 0 → s.groupErrs i = [])
    (hc : (s.growReservation i l (s.nextGang i)).chooseCores i l (s.nextGang i) = some cores) :
    s.considerHeads (i :: rest) = (s.growReservation i l (s.nextGang i)).placeGang i l (s.nextGang i) cores := by
  have he : (if l.placed == 0 then s.groupErrs i else []) = [] := by
    split
    · next h => exact herr (by simpa using h)
    · rfl
  rw [State.considerHeads]
  simp only [hl, he, hc]
  rfl

theorem gangPlace_eq (s : State) : exec .gangPlace s
    = .next ((s.ageHeads (s.heads s.subj.num)).considerHeads ((s.ageHeads (s.heads s.subj.num)).heads s.subj.num)) := rfl

theorem gangPlace_places (s : State) (i : Nat) (rest : List Nat) (l : Launch) (cores : List Nat)
    (hh : s.heads s.subj.num = i :: rest) (hage : ∀ j, j ∈ s.heads s.subj.num → s.ageDue j = false) (hl : s.launch? i = some l)
    (herr : l.placed = 0 → s.groupErrs i = [])
    (hc : (s.growReservation i l (s.nextGang i)).chooseCores i l (s.nextGang i) = some cores) :
    exec .gangPlace s = .next ((s.growReservation i l (s.nextGang i)).placeGang i l (s.nextGang i) cores) := by
  rw [gangPlace_eq, ageHeads_none s _ hage, hh, considerHeads_places s i rest l cores hl herr hc]

theorem gangPlace_no_heads (s : State) (h : s.heads s.subj.num = []) : exec .gangPlace s = .next s := by
  rw [gangPlace_eq, h, ageHeads_none s [] (by simp), h]
  rfl

/-- The longer of the best list so far and that of k. -/
def longer (f : Nat → List Nat) (b : Option (Nat × List Nat)) (k : Nat) : Option (Nat × List Nat) :=
  match b with
  | none => some (k, f k)
  | some x => if x.2.length < (f k).length then some (k, f k) else some x

/-- The fold over a list finds a member of it whose list is longest, once it has one. -/
theorem longer_fold (f : Nat → List Nat) (l : List Nat) (b : Nat) :
    ∃ k, (k = b ∨ k ∈ l) ∧ l.foldl (longer f) (some (b, f b)) = some (k, f k)
    ∧ ∀ j, j = b ∨ j ∈ l → (f j).length ≤ (f k).length := by
  induction l generalizing b with
  | nil => exact ⟨b, .inl rfl, rfl, by simp⟩
  | cons a l ih =>
    by_cases h : (f b).length < (f a).length
    · obtain ⟨k, hk, e, hmax⟩ := ih a
      refine ⟨k, .inr (List.mem_cons.mpr hk), by simp [longer, h, e], fun j hj => ?_⟩
      rcases hj with rfl | hj
      · exact Nat.le_of_lt (Nat.lt_of_lt_of_le h (hmax a (.inl rfl)))
      · exact hmax j (List.mem_cons.mp hj)
    · obtain ⟨k, hk, e, hmax⟩ := ih b
      refine ⟨k, hk.imp id (List.mem_cons_of_mem a), by simp [longer, h, e], fun j hj => ?_⟩
      rcases hj with rfl | hj
      · exact hmax j (.inl rfl)
      · rcases List.mem_cons.mp hj with rfl | hj
        · exact Nat.le_trans (Nat.le_of_not_lt h) (hmax b (.inl rfl))
        · exact hmax j (.inr hj)

theorem longest_of_ne_nil (f : Nat → List Nat) (l : List Nat) (h : l ≠ []) : ∃ k, k ∈ l ∧ l.foldl (longer f) none = some (k, f k)
    ∧ ∀ j, j ∈ l → (f j).length ≤ (f k).length := by
  cases l with
  | nil => exact absurd rfl h
  | cons a l =>
    obtain ⟨k, hk, e, hmax⟩ := longer_fold f l a
    exact ⟨k, List.mem_cons.mpr hk, e, fun j hj => hmax j (List.mem_cons.mp hj)⟩

/-- A head reserves in a cluster with the most eligible cores (R408). -/
theorem reserveFor_reservation (s : State) (i : Nat) (l : Launch) (hl : s.launch? i = some l) (h : s.clustersFor l.ctx l.pin ≠ []) :
    ∃ r, (s.reserveFor i).reservations = s.reservations ++ [r] ∧ r.launch = i ∧ r.partition = (s.context l.ctx).partition
      ∧ r.cluster ∈ s.clustersFor l.ctx l.pin
      ∧ r.cores = (s.eligibleIn i l.ctx r.cluster (s.nextGang i)).take (s.nextGang i).length
      ∧ ∀ k, k ∈ s.clustersFor l.ctx l.pin →
          (s.eligibleIn i l.ctx k (s.nextGang i)).length ≤ (s.eligibleIn i l.ctx r.cluster (s.nextGang i)).length := by
  obtain ⟨k, hk, e, hmax⟩ := longest_of_ne_nil (fun k => s.eligibleIn i l.ctx k (s.nextGang i)) _ h
  let r : Reservation := { partition := (s.context l.ctx).partition, launch := i, cluster := k,
                           cores := (s.eligibleIn i l.ctx k (s.nextGang i)).take (s.nextGang i).length }
  refine ⟨r, ?_, rfl, rfl, hk, rfl, hmax⟩
  unfold State.reserveFor
  simp only [hl]
  split
  · next hnone => exact absurd (e.symm.trans hnone) (by simp)
  · next k' cores hsome =>
    obtain ⟨rfl, rfl⟩ := Prod.mk.inj (Option.some.inj (e.symm.trans hsome))
    rfl

theorem reservationAge_eq (s : State) (l : Launch) (hl : s.launch? s.subj.num = some l) :
    exec .reservationAge s = .next (if (!s.ageDue s.subj.num) = true then s else (s.reserveFor s.subj.num).schedule l.ctx) := by
  show execReservationAge s = _
  unfold execReservationAge
  simp only [hl]

theorem reservationAge_idle (s : State) (h : s.ageDue s.subj.num = false) : exec .reservationAge s = .next s := by
  cases hl : s.launch? s.subj.num with
  | none =>
    show execReservationAge s = _
    unfold execReservationAge
    simp only [hl]
  | some l => rw [reservationAge_eq s l hl, h]; rfl

theorem reservationAge_reserves (s : State) (l : Launch) (h : s.ageDue s.subj.num = true) (hl : s.launch? s.subj.num = some l) :
    ∃ t, exec .reservationAge s = .next t ∧ SameMemory s t ∧ t.courses = s.courses
      ∧ t.reservations = (s.reserveFor s.subj.num).reservations := by
  refine ⟨_, (reservationAge_eq s l hl).trans (due_next h _ _), ?_⟩
  rw [schedule_eq, reserveFor_eq]
  exact ⟨(SameMem.refl s).same, rfl, rfl⟩

/-! Vacating (R341, R347, R408, R410). -/

theorem vacateRequest_inactive (s : State) (h : (s.context s.subj.num).mode ≠ .active) : exec .vacateRequest s = .next s :=
  congrArg Host.Outcome.next (requestVacate_inactive s _ h)

/-- The vacate request of an active context: after what falls in its cycle, the context is Vacating, no byte and no register changes,
and reservations only go. -/
theorem requestVacate_spec (s : State) (n : Nat) (h : (s.context n).mode = .active) (hn : n ∈ s.ctxNums) :
    SameMemory (s.settleDue n) (s.requestVacate n)
    ∧ ((s.requestVacate n).context n).mode = .vacating ∧ ((s.requestVacate n).context n).vacateAt = s.clock
    ∧ (∀ j, ((s.requestVacate n).course j).core = ((s.settleDue n).course j).core)
    ∧ (∀ j, j < s.courses.length → ((s.requestVacate n).course j).core = (s.course j).core)
    ∧ ∀ r, r ∈ (s.requestVacate n).reservations → r ∈ (s.settleDue n).reservations := by
  obtain ⟨r, f, hr, e, hf⟩ := requestVacate_active s n h
  have hg := settleDue_grows s n
  have hs : Still Course.frame (s.settleDue n) r := hr ▸ creditAll_still _ _
  have hm : SameMem (s.settleDue n) r := hr ▸ creditAll_mem _ _
  have hnums : (r.dropReservations n).ctxNums = s.ctxNums := hs.ctxNums.trans hg.ctxNums
  have hctx : (s.requestVacate n).context n = f ((r.dropReservations n).context n) := by
    rw [e, context_modCtx _ n f (fun c => (hf c).1) (by rw [hnums]; exact hn)]
  have hcore (j : Nat) : ((s.requestVacate n).course j).core = ((s.settleDue n).course j).core := by
    rw [e]
    exact hs.core j
  refine ⟨?_, ?_, ?_, hcore, fun j hj => (hcore j).trans (hg.core j hj), fun x hx => ?_⟩
  · rw [e]
    exact hm.same
  · rw [hctx]
    exact (hf _).2.1
  · rw [hctx, (hf _).2.2, hs.clock, hg.clock]
  · rw [e] at hx
    rw [← hs.reservations]
    exact (List.mem_filter.mp hx).1

theorem placeDue_nothing (s : State) (n : Nat) (h : ∀ u, .event .gangPlace u ∉ s.agenda) : s.placeDue n = s := by
  have e : (s.agenda.filter fun d => d == .event .gangPlace { num := (s.context n).partition }) = [] :=
    List.filter_eq_nil_iff.mpr fun d hd hp => h _ ((by simpa using hp : d = _) ▸ hd)
  unfold State.placeDue
  simp only [e, List.foldl_nil]

/-! Saving (R341, R342, R347, R349, R351). -/

/-- SAVE_COMPLETE once it is due: the context is Vacated, its courses with it, and %vmeas is the time since the request. -/
theorem saveComplete_spec (s : State) (x : Context) (h : s.saveDue s.subj.num = true)
    (hx : s.contexts.find? (fun c => c.num == s.subj.num) = some x) :
    ∃ t, exec .saveComplete s = .next t ∧ (t.context s.subj.num).mode = .vacated
      ∧ (t.context s.subj.num).vmeas = min (5 * (s.clock - x.vacateAt) / 7) x.vacateEst
      ∧ (∀ p, p ∈ t.splits → p.ctx ≠ s.subj.num) ∧ ∀ i, i < s.courses.length → (s.course i).ctx = s.subj.num →
          (s.course i).alive = true → (t.course i).phase = .vacated := by
  obtain ⟨hfix, hnums, hctx, hsplits⟩ := saveContext_keeps s s.subj.num
  have hn := mem_ctxNums_of_find s _ x hx
  obtain ⟨hat, hest⟩ := hctx hn
  rw [context_of_find s _ x hx] at hat hest
  have hclock : (s.saveContext s.subj.num).clock = s.clock := congrArg Prod.fst hfix
  refine ⟨_, due_next h _ _, ?_⟩
  simp only [schedule_context, schedule_course]
  have hc (f : Context → Context) (hf : ∀ c, (f c).num = c.num) (g : GangSw → GangSw) :
      ((((s.saveContext s.subj.num).modCtx s.subj.num f).modGangsw s.subj.num g).context s.subj.num)
        = f ((s.saveContext s.subj.num).context s.subj.num) :=
    context_modCtx (s.saveContext s.subj.num) _ f hf (by rw [hnums]; exact hn)
  rw [hc _ (by intro _; rfl), schedule_eq]
  refine ⟨rfl, ?_, hsplits, fun i hi hci ha => saveContext_vacates s _ i hi hci ha⟩
  simp only [hclock, hat, hest]

end Sys2Proof.Machine
end

section
/-! PROOFS. Gang switches, the ceiling of a vacate, swapping and the needles (O50). -/

namespace Sys2Proof.Machine

/-! Gang switches (R351, R412). -/

theorem requestVacate_mem (s : State) (n : Nat) :
    SameMem (if (s.context n).mode = .active then s.settleDue n else s) (s.requestVacate n) := by
  split
  · next h =>
    obtain ⟨r, f, hr, e, -⟩ := requestVacate_active s n h
    rw [e]
    exact (hr ▸ creditAll_mem _ _ : SameMem (s.settleDue n) r)
  · next h =>
    rw [requestVacate_inactive s n h]
    exact SameMem.refl s

/-- An update of a context after which a field of it has a value, which the blank context of an unused number has too. -/
theorem context_modCtx_field {α : Type} (s : State) (n : Nat) (f : Context → Context) (v : Context → α) (a : α)
    (hf : ∀ x, (f x).num = x.num) (hv : ∀ x, v (f x) = a) (h0 : v { num := n, mode := .deleted } = a) :
    v ((s.modCtx n f).context n) = a := by
  have key := find?_map_if (fun c : Context => c.num == n) f (fun c hc => by rw [hf]; exact hc) s.contexts
  simp only [State.context, State.modCtx, key]
  cases s.contexts.find? fun c => c.num == n with
  | none => exact h0
  | some x => exact hv x

theorem gangswVacate_spec (s : State) (h : s.switchDue s.subj.num = true) :
    let n := s.subj.num
    ∃ t, exec .gangswVacate s = .next t ∧ SameMemory (if (s.context n).mode = .active then s.settleDue n else s) t
      ∧ (t.context n).debt = 0 ∧ ∀ g, g ∈ t.gangsws → g.outgoing = n → g.requested = some s.clock := by
  intro n
  refine ⟨_, due_next h _ _, (requestVacate_mem s n).same, ?_, fun g hg ho => ?_⟩
  · exact context_modCtx_field (s.requestVacate n) n (fun c => { c with debt := 0 }) Context.debt 0 (fun _ => rfl) (fun _ => rfl) rfl
  · obtain ⟨g', -, rfl⟩ := mem_modGangsw _ n _ g hg ho
    rfl

/-- A vacate past its ceiling: the context and its gang switch are lost, its tile operations gone (R351). -/
theorem vacateCeiling_spec (s : State) (x : Context) (h : s.ceilingDue s.subj.num = true)
    (hx : s.contexts.find? (fun c => c.num == s.subj.num) = some x) :
    let n := s.subj.num
    ∃ t, exec .vacateCeiling s = .next t ∧ (t.context n).mode = .lost
      ∧ (∀ g, g ∈ t.gangsws → g.outgoing = n → g.lost = true) ∧ ∀ o, o ∈ t.tileOps → o.ctx ≠ n := by
  intro n
  refine ⟨_, due_next h _ _, ?_⟩
  extract_lets s1 s2 s3 s4 s5
  have hn1 : s1.ctxNums = s.ctxNums := modCtx_ctxNums s n _ fun _ => rfl
  have hn2 : s2.ctxNums = s1.ctxNums := (saveContext_keeps s1 n).2.1
  have h3 : Still Course.frame s2 s3 := Still.foldl _ _ (fun s i => writeRecord_still s i _ _ _ _) s2
  have hn : n ∈ s5.ctxNums := by
    have e : s5.ctxNums = s3.ctxNums := rfl
    rw [e, h3.ctxNums, hn2, hn1]
    exact mem_ctxNums_of_find s n x hx
  rw [schedule_context, context_modCtx s5 n _ (by intro _; rfl) hn, schedule_eq]
  refine ⟨rfl, fun g hg ho => ?_, fun o ho => ?_⟩
  · obtain ⟨g', -, rfl⟩ := mem_modGangsw s4 n _ g hg ho
    rfl
  · simpa using (List.mem_filter.mp ho).2

/-- How the packet of a gang switch retires: LOST, DONE, or VOVER with the overrun; a loss and an overrun are posted first (R412). -/
def State.gangswEnds (s : State) (n : Nat) (g : GangSw) (overrun : Nat) : State :=
  if g.lost then (s.postFault { ctx := n, cause := 22, source := 6, addr := overrun }).retirePacket g.queue g.slot 6 0 0
  else if overrun = 0 then s.retirePacket g.queue g.slot 1 0 0
  else (s.postFault { ctx := n, cause := 0, source := 6, addr := overrun }).retirePacket g.queue g.slot 7 (min overrun 0xFFFFFF) 0

theorem gangswEnds_eq (s : State) (n : Nat) (g : GangSw) (overrun : Nat) : s.gangswEnds n g overrun =
    (let r := if overrun == 0 && !g.lost then s
      else s.postFault { ctx := n, cause := if g.lost then cLOST else 0, source := 6, addr := overrun }
     if g.lost then r.retirePacket g.queue g.slot 6 0 0
     else if overrun == 0 then r.retirePacket g.queue g.slot 1 0 0
     else r.retirePacket g.queue g.slot 7 (min overrun 0xFFFFFF) 0) := by
  unfold State.gangswEnds
  cases g.lost with
  | true => simp [cLOST]
  | false => by_cases ho : overrun = 0 <;> simp [ho]

theorem gangswIncomingStart_spec (s : State) (g : GangSw) (h : s.incomingDue s.subj.num = true) (hg : s.gangsw? s.subj.num = some g) :
    let n := s.subj.num
    let overrun := (5 * (g.finished.getD 0 - tickCycle (s.context n) g.tick) + 6) / 7
    let s0 : State := { s with gangsws := s.gangsws.filter fun h => h.outgoing != n }
    let s1 := (if (s.context g.incoming).mode = .vacated then s0.resumeContext g.incoming else s0).modCtx n fun c =>
      { c with debt := c.debt + overrun }
    exec .gangswIncomingStart s = .next (s1.gangswEnds n g overrun) := by
  intro n overrun s0 s1
  have hm : (if ((s.context g.incoming).mode == .vacated) = true then s0.resumeContext g.incoming else s0)
      = if (s.context g.incoming).mode = .vacated then s0.resumeContext g.incoming else s0 := by
    simp only [beq_iff_eq]
  refine (due_next h _ _).trans (congrArg Host.Outcome.next ?_)
  rw [gangswEnds_eq]
  simp only [s1, ← hm, hg]
  rfl

/-! Swapping (R27, R28, R346, R349). -/

/-- SWAP_OUT of a course that may leave its core: it is Swapped, and no register changes. -/
theorem swapOut_spec (s : State) (h : s.mayswapOut s.subj.num = true) (hn : s.subj.num < s.courses.length) :
    let n := s.subj.num
    ∃ t, exec .swapOut s = .next t ∧ (t.course n).phase = .swapped ∧ ∀ j, (t.course j).core = (s.course j).core := by
  intro n
  refine ⟨_, due_next h _ _, ?_⟩
  extract_lets c s1 s2 s3 s4
  have h1 : Still Course.frame s s1 := (creditGranted_still s n).trans (commit_still _ n)
  have h2 : Still Course.frame s1 s2 := by
    show Still Course.frame s1 (match c.team with | some t => s1.stashBack t | none => s1)
    split
    · exact stashBack_still s1 _
    · exact Still.refl s1
  have h3 : Still Course.frame s2 s3 := saveRange_still s2 _ _ _ _ _
  have h4 : Still Course.frame s3 s4 := Still.ite (listWake_still s3 n) (Still.refl s3)
  have hs : Still Course.frame s s4 := ((h1.trans h2).trans h3).trans h4
  simp only [schedule_course]
  refine ⟨?_, fun j => ?_⟩
  · rw [modCourse_same s4 n _ (by rw [hs.length]; exact hn)]
  · rw [modCourse_view Course.core s4 n j _ (by intro _; rfl), hs.core]

/-- A course as a swap-in leaves it: its waits are tested again, but those for the host, and it runs; what its slot held and something
has written over is lost (R349). -/
def State.swappedIn (s : State) (n : Nat) : Course :=
  let c := { (s.course n).endWaits (fun w => w.kind != .service && w.kind != .post && w.kind != .move) with phase := .running }
  if s.spoilt (s.course n).ctx (clusterOf (s.course n).place) (some n) then c.spoil (s.free * 2 ^ 16 + n) else c

theorem swapIn_spec (s : State) (h : s.swapInDue s.subj.num = true) (hn : s.subj.num < s.courses.length) :
    let n := s.subj.num
    ∃ t, exec .swapIn s = .next t ∧ SameMemory s t ∧ t.course n = s.swappedIn n ∧ ∀ j, j ≠ n → t.course j = s.course j := by
  intro n
  refine ⟨_, due_next h _ _, (SameMem.refl s).same, ?_, fun j hj => ?_⟩
  · exact modCourse_same s n _ hn
  · exact modCourse_other s n j _ hj

/-! The needles (R413, R415). -/

theorem needleFailover_spec (s : State) (h : s.standbyOk = true) : ∃ t, exec .needleFailover s = .next t ∧ t.needle = (!s.needle)
    ∧ t.standbyOk = false ∧ t.patchNext = none ∧ t.courses = s.courses ∧ SameMemory s t :=
  ⟨_, due_next h _ _, rfl, rfl, rfl, rfl, (SameMem.refl s).same⟩

theorem fwupdTakeover_spec (s : State) (q slot : Nat) (h : s.takeoverDue = true) (hp : s.fwPacket = some (q, slot)) :
    exec .fwupdTakeover s = .next ({ s with needle := !s.needle, patch := s.patchNext, patchNext := none, fwPacket := none }.retirePacket
      q slot 1 0 0) := by
  refine (due_next h _ _).trans (congrArg Host.Outcome.next ?_)
  simp only [hp]

/-- Settles O50, event by event: an event that is not due leaves the machine as it is, and one that is due does what the lemmas above
say of it. -/
theorem schedulerEvents : Obligations.SchedulerEvents := by
  intro s n idle
  refine ⟨fun h => ⟨queueNotify_none s h, queueUnmap_none s h⟩,
    fun q hq => ⟨fun hc => ?_, fun hc => ⟨?_, fun hm hlt => ?_⟩, fun hu => ?_, fun hu => ?_⟩,
    gangPlace_eq s, fun h => ageHeads_none s _ h, fun i hi hd hmin => ageHeads_first s _ i hi hd hmin, gangPlace_no_heads s,
    fun i rest l cores hh hage hl herr hc => gangPlace_places s i rest l cores hh hage hl herr hc,
    reservationAge_idle s, fun l hd hl => ?_, fun h => notDue_next h _ _, fun h => due_next h _ _,
    vacateRequest_inactive s, fun x hx hf => ?_, placeDue_nothing s n,
    fun h => notDue_next h _ _, fun x h hx => saveComplete_spec s x h hx,
    fun h => notDue_next h _ _, gangswVacate_spec s,
    fun h => notDue_next h _ _, fun x h hx => vacateCeiling_spec s x h hx,
    fun h => notDue_next h _ _, fun g h hg => gangswIncomingStart_spec s g h hg,
    fun h => notDue_next h _ _, fun h hn => ?_,
    fun h => notDue_next h _ _, swapIn_spec s,
    fun h => notDue_next h _ _, needleFailover_spec s,
    fun h => notDue_next h _ _, fun q slot h hp => fwupdTakeover_spec s q slot h hp⟩
  · exact (queueNotify_some s q hq).trans (by rw [hc]; rfl)
  · exact (queueNotify_some s q hq).trans (by rw [hc]; rfl)
  · exact ⟨_, _, rfl, mapQueue_maps s n q hq hm hlt, rfl, rfl⟩
  · exact (queueUnmap_some s q hq).trans (notDue_next hu _ _)
  · obtain ⟨hmem, hcourses⟩ := unmap_frame s q n
    exact ⟨_, (queueUnmap_some s q hq).trans (due_next hu _ _), hmem, hcourses, rfl⟩
  · obtain ⟨t, ht, hmem, hcourses, hres⟩ := reservationAge_reserves s l hd hl
    refine ⟨t, ht, hmem, hcourses, fun hk => ?_⟩
    rw [hres]
    exact reserveFor_reservation s n l hl hk
  · exact ⟨_, rfl, requestVacate_spec s n hx (mem_ctxNums_of_find s n x hf)⟩
  · obtain ⟨t, ht, hphase, hcore⟩ := swapOut_spec s h hn
    exact ⟨t, ht, hphase, hcore n, hcore⟩

end Sys2Proof.Machine
end

section
/-! SUPPORT. What waking and loading do to each course, and what the end of a course leaves of the others. -/

namespace Sys2Proof.Machine

/-! Waking, course by course (R28, R223). -/

/-- A wake-up concerns a course: it exists and one of its waits satisfies the condition. -/
def Course.wakes (c : Course) (p : Wait → Bool) : Bool := c.alive && (c.swait.any p || c.lwait.any p)

/-- A course woken: the waits that satisfy the condition have ended. -/
def Course.woken (c : Course) (p : Wait → Bool) (run : Bool) : Course :=
  { c.endWaits p with phase := if run && c.phase == .waiting then .running else c.phase }

/-- One course woken. -/
def State.wakeOne (s : State) (p : Nat → Course → Wait → Bool) (run : Bool) (i : Nat) : State :=
  let r := s.modCourse i fun c => c.woken (p i c) run
  if s.away (s.course i) then r.listWake i else r

theorem wakeIf_eq (s : State) (p : Nat → Course → Wait → Bool) (run : Bool) : s.wakeIf p run
    = ((List.range s.courses.length).filter fun i => (s.course i).wakes (p i (s.course i))).foldl (fun s i => s.wakeOne p run i) s := rfl

theorem wakeOne_course (s : State) (p : Nat → Course → Wait → Bool) (run : Bool) (i j : Nat) (hi : i < s.courses.length) :
    (s.wakeOne p run i).course j = if j = i then (s.course i).woken (p i (s.course i)) run else s.course j := by
  have e : (s.wakeOne p run i).courses = (s.modCourse i fun c => c.woken (p i c) run).courses := by
    unfold State.wakeOne
    simp only
    split <;> rfl
  rw [State.course, e]
  exact modCourse_course s i j _ hi

theorem wakeOne_length (s : State) (p : Nat → Course → Wait → Bool) (run : Bool) (i : Nat) :
    (s.wakeOne p run i).courses.length = s.courses.length := by
  unfold State.wakeOne
  simp only
  split <;> exact modCourse_length s i _

theorem wakeOnes_course (p : Nat → Course → Wait → Bool) (run : Bool) (l : List Nat) (s : State) (j : Nat) (hd : l.Nodup)
    (hl : ∀ i ∈ l, i < s.courses.length) :
    (l.foldl (fun s i => s.wakeOne p run i) s).course j
      = if j ∈ l then (s.course j).woken (p j (s.course j)) run else s.course j := by
  induction l generalizing s with
  | nil => simp
  | cons a l ih =>
    obtain ⟨ha, hd⟩ := List.nodup_cons.mp hd
    have hlen := wakeOne_length s p run a
    rw [List.foldl_cons, ih _ hd fun i hi => by rw [hlen]; exact hl i (List.mem_cons_of_mem a hi)]
    rw [wakeOne_course s p run a j (hl a List.mem_cons_self)]
    by_cases hj : j = a
    · subst hj
      simp [ha]
    · simp [hj]

/-- What a wake-up makes of each course. -/
theorem wakeIf_course (s : State) (p : Nat → Course → Wait → Bool) (run : Bool) (j : Nat) : (s.wakeIf p run).course j
    = if (s.course j).wakes (p j (s.course j)) then (s.course j).woken (p j (s.course j)) run else s.course j := by
  rw [wakeIf_eq, wakeOnes_course p run _ s j (List.nodup_range.filter _) fun i hi => List.mem_range.mp (List.mem_filter.mp hi).1]
  by_cases hj : j < s.courses.length
  · simp [hj]
  · have hblank : s.course j = {} := by rw [State.course, List.getD_eq_getElem?_getD, List.getElem?_eq_none (by omega)]; rfl
    simp [hj, hblank, Course.wakes]

/-- An event of s with the outcome o ends the waits that satisfy a condition: their courses run where run says so, and no byte and no
register changes. -/
def EndsWaits (s : State) (o : Out) (run : Bool) (p : Nat → Wait → Prop) : Prop :=
  ∃ t, o = .next t ∧ SameMemory s t ∧ (∀ j, (t.course j).core = (s.course j).core)
    ∧ ∀ j w, (s.course j).alive = true →
        (((s.course j).lwait = some w ∨ (s.course j).swait = some w) → p j w → (s.course j).phase = .waiting →
          (t.course j).phase = if run then .running else .waiting) ∧
        ((s.course j).lwait = some w → p j w → (t.course j).lwait = none)
        ∧ ((s.course j).swait = some w → p j w → (t.course j).swait = none)
        ∧ ((s.course j).lwait = some w → ¬p j w → (t.course j).lwait = some w)
        ∧ ((s.course j).swait = some w → ¬p j w → (t.course j).swait = some w)

/-- What the end of waits looks at in a course. -/
def Course.waitView (c : Course) : Core × Option Wait × Option Wait × Phase := (c.core, c.swait, c.lwait, c.phase)

theorem wakes_of_lwait (c : Course) (p : Wait → Bool) (w : Wait) (ha : c.alive = true) (h : c.lwait = some w) (hp : p w = true) :
    c.wakes p = true := by simp [Course.wakes, ha, h, hp]

theorem wakes_of_swait (c : Course) (p : Wait → Bool) (w : Wait) (ha : c.alive = true) (h : c.swait = some w) (hp : p w = true) :
    c.wakes p = true := by simp [Course.wakes, ha, h, hp]

/-- A wake-up of a state whose courses have the waits of s ends the waits of s that satisfy its condition. -/
theorem wakeIf_endsWaits (s r : State) (b : Nat → Course → Wait → Bool) (run : Bool) (p : Nat → Wait → Prop) (hm : SameMem s r)
    (hv : ∀ j, (r.course j).waitView = (s.course j).waitView) (hb : ∀ j w, b j (r.course j) w = true ↔ p j w) :
    EndsWaits s (.next (r.wakeIf b run)) run p := by
  refine ⟨_, rfl, (hm.trans (wakeIf_mem r b run)).same, fun j => ?_, fun j w ha => ?_⟩
  · rw [(wakeIf_still r b run).core]
    exact congrArg Prod.fst (hv j)
  · have hs : (s.course j).swait = (r.course j).swait := congrArg (fun v => v.2.1) (hv j).symm
    have hl : (s.course j).lwait = (r.course j).lwait := congrArg (fun v => v.2.2.1) (hv j).symm
    have hph : (s.course j).phase = (r.course j).phase := congrArg (fun v => v.2.2.2) (hv j).symm
    have ha' : (r.course j).alive = true := by rw [Course.alive, ← hph]; exact ha
    rw [wakeIf_course, hs, hl, hph]
    have hbw := hb j w
    generalize r.course j = c at ha' hbw ⊢
    refine ⟨fun hw hp hphase => ?_, fun hw hp => ?_, fun hw hp => ?_, fun hw hp => ?_, fun hw hp => ?_⟩
    · have hwake : c.wakes (b j c) = true := by
        rcases hw with hw | hw
        · exact wakes_of_lwait c _ w ha' hw (hbw.mpr hp)
        · exact wakes_of_swait c _ w ha' hw (hbw.mpr hp)
      rw [if_pos hwake]
      cases run <;> simp [Course.woken, hphase]
    · rw [if_pos (wakes_of_lwait c _ w ha' hw (hbw.mpr hp))]
      simp [Course.woken, Course.endWaits, hw, hbw.mpr hp]
    · rw [if_pos (wakes_of_swait c _ w ha' hw (hbw.mpr hp))]
      simp [Course.woken, Course.endWaits, hw, hbw.mpr hp]
    · have hbf : b j c w = false := by simpa using mt hbw.mp hp
      split
      · simp [Course.woken, Course.endWaits, hw, hbf]
      · exact hw
    · have hbf : b j c w = false := by simpa using mt hbw.mp hp
      split
      · simp [Course.woken, Course.endWaits, hw, hbf]
      · exact hw

/-! The end of a course (R91, R232, R233). -/

theorem acquire_still (s : State) (i t : Nat) : Still Course.stay s (s.acquire i t) := modCourse_still s i _ fun _ => rfl

theorem barrierCheck_still (s : State) (t : Nat) : Still Course.stay s (s.barrierCheck t) := by
  unfold State.barrierCheck
  extract_lets tm ms clk s1 s2
  refine Still.ite (Still.refl s) ?_
  have h1 : Still Course.stay s s1 := Still.foldl _ _ (fun s i => acquire_still s i clk) s
  have h2 : Still Course.stay s1 s2 := modTeam_still s1 t _
  exact (h1.trans h2).trans ((wakeIf_still s2 _ _).trans (wakeIf_still _ _ _)).stays

theorem gatherCheck_still (s : State) (t : Nat) : Still Course.stay s (s.gatherCheck t) := by
  unfold State.gatherCheck
  extract_lets tm ms full s1
  refine Still.ite (Still.refl s) ?_
  have h1 : Still Course.stay s s1 := Still.foldl _ _ (fun s g => modJob_still s _ _) s
  exact (h1.trans (modTeam_still s1 t _)).trans (wakeIf_still _ _ _).stays

theorem breakBarrier_still (s : State) (e : Enrol) : Still Course.frame s (s.breakBarrier e).1 := by
  unfold State.breakBarrier
  simp only
  split
  · exact Still.refl s
  · split
    · exact Still.refl s
    · exact pokeVA_still s _ _ _ _

theorem exitRecord_still (s : State) (t : Nat) (rec : Cap) (mask : Mask) (broken unlocked cause : Nat) :
    Still Course.frame s (s.exitRecord t rec mask broken unlocked cause) :=
  Still.ite (Still.refl s) (pokeVA_still s _ _ _ _)

theorem setPosts_still {α : Type} {v : Course → α} (s : State) (l : List PostWait) : Still v s { s with posts := l } := ⟨rfl, rfl, rfl⟩

theorem setJobs_still {α : Type} {v : Course → α} (s : State) (l : List Job) : Still v s { s with jobs := l } := ⟨rfl, rfl, rfl⟩

theorem endTeam_still (s : State) (t : Nat) (rec : Cap) (mask : Mask) (cause : Nat) : Still Course.frame s (s.endTeam t rec mask cause) := by
  unfold State.endTeam
  extract_lets tm s1 reports s2 lost
  have h1 : Still Course.frame s s1 := modCtx_still s _ _ fun _ => rfl
  have h2 : Still Course.frame s1 s2 := setPosts_still s1 _
  generalize hr : tm.enrols.foldl _ (s2, 0) = r
  have h3 : Still Course.frame s2 r.1 := by
    rw [← hr]
    refine Still.foldl_fst tm.enrols _ ?_ (s2, 0)
    intro q e
    exact breakBarrier_still q.1 e
  obtain ⟨s3, broken⟩ := r
  dsimp -zeta only
  extract_lets s4 s5 ms s6
  have h4 : Still Course.frame s3 s4 := exitRecord_still s3 _ _ _ _ _ _
  have h5 : Still Course.frame s4 s5 := setJobs_still s4 _
  have h6 : Still Course.frame s5 s6 := Still.foldl _ _ (fun s g => modJob_still s _ _) s5
  exact ((((((h1.trans h2).trans h3).trans h4).trans h5).trans h6).trans (modTeam_still s6 t _)).trans (wakeIf_still _ _ _)

theorem leaveTeam_still (s : State) (i : Nat) : Still Course.stay s (s.leaveTeam i) := by
  unfold State.leaveTeam
  extract_lets c
  split
  · exact Still.refl s
  · next t _ =>
    extract_lets s1 s2 first s3 s4 s5
    have h1 : Still Course.stay s s1 := Still.ite (stashBack_still s t).stays (Still.refl s)
    have h2 : Still Course.stay s1 s2 := modCourse_still s1 i _ fun _ => rfl
    have h3 : Still Course.stay s2 s3 := modTeam_still s2 t _
    have h4 : Still Course.stay s3 s4 := Still.foldl _ _ (fun s g => modJob_still s _ _) s3
    have h5 : Still Course.stay s4 s5 := gatherCheck_still s4 t
    refine ((((h1.trans h2).trans h3).trans h4).trans h5).trans (Still.ite ?_ (barrierCheck_still s5 t))
    exact (endTeam_still s5 t _ _ _).stays

theorem coreCheck_course (s : State) (place j : Nat) : (s.coreCheck place).course j = s.course j := by
  unfold State.coreCheck
  simp only
  split <;> rfl

/-- A course that retires is Retired after it. -/
theorem retire_phase (s : State) (i : Nat) (hi : i < s.courses.length) : ((s.retire i).course i).phase = .retired := by
  unfold State.retire
  extract_lets c busy owed s1 s2 s3 s4 s5
  have h2 : (s2.course i).phase = .retired := by
    have hlen : i < s1.courses.length := by rw [(creditGranted_still s i).length]; exact hi
    rw [modCourse_same s1 i _ hlen]
  have h4 : (s4.course i).phase = .retired := h2
  rw [schedule_course, coreCheck_course]
  exact (wakeIf_still s4 _ _).stays.phase_eq i (by decide) (by decide) h4

end Sys2Proof.Machine
end

section
/-! SUPPORT. The forming of a feed's entry, the advance of logical clocks, and the order in which stalled words are evaluated again. -/

namespace Sys2Proof.Machine

/-! The entry of a feed (R83 to R86). -/

/-- What a performed load leaves of a course's operand queues and feeds: all of them. -/
def Course.feeding (c : Course) : List (List QEntry) × List Feed := (c.core.queues, c.core.feeds)

/-- A course with an entry pushed on queue q, whose feed goes on. -/
def Course.fed (c : Course) (q : Nat) (e : QEntry) : Course :=
  { c with core := { c.core with queues := (c.core.queues ++ List.replicate (16 - c.core.queues.length) []).modify q (· ++ [e]),
                                 feeds := c.core.feeds.modify q Feed.advance } }

/-- What loads leave alone: every byte, and every queue and feed. -/
structure Loads (s t : State) : Prop where
  mem : SameMem s t
  still : Still Course.feeding s t

theorem Loads.foldl {α : Type} (l : List α) (f : State → α → State) (h : ∀ s a, Loads s (f s a)) (s : State) : Loads s (l.foldl f s) :=
  ⟨SameMem.foldl l f (fun s a => (h s a).mem) s, Still.foldl l f (fun s a => (h s a).still) s⟩

/-- Copies of lines used or made, and then a course's clock of observations raised. -/
theorem Loads.observe {s t : State} (h : Reads s t) (i w : Nat) :
    Loads s (t.modCourse i fun c => { c with core := { c.core with lobs := max c.core.lobs w } }) :=
  ⟨h.sameMem.trans ⟨rfl, rfl, rfl⟩, (Still.of_reads h).trans (modCourse_still t i _ fun _ => rfl)⟩

theorem noteLoad_loads (s : State) (i va n hint : Nat) : Loads s (s.noteLoad i va n hint) := by
  unfold State.noteLoad
  extract_lets c
  split
  · exact ⟨SameMem.refl s, Still.refl s⟩
  · next ps _ =>
    refine Loads.foldl ps _ (fun r p => ?_) s
    extract_lets line leaf w lease r1 r2 r3
    split
    · next l _ =>
      exact Loads.observe (((forget_reads r c.who line l.wts).trans (l1Put_reads _ l)).trans (tlbNote_reads _ _ _)) i l.wts
    · have h2 : Reads r r2 :=
        ((setStamp_reads r line w lease).trans (tlbNote_reads r1 c.who p.1)).trans (l2Access_reads _ _ _ _ _ _ _)
      have h3 : Reads r2 r3 := by
        unfold r3
        split
        · exact l1Put_reads r2 _
        · exact Reads.refl r2
      exact Loads.observe ((h2.trans h3).trans (forget_reads r3 c.who line w)) i w

theorem getD_modify_same {α : Type} (l : List α) (i : Nat) (f : α → α) (v : α) (h : i < l.length) :
    (l.modify i f).getD i v = f (l.getD i v) := by
  simp [List.getD_eq_getElem?_getD, h]

theorem fed_queue (c : Course) (q : Nat) (e : QEntry) (hq : q < 16) :
    (c.fed q e).core.queues.getD q [] = c.core.queues.getD q [] ++ [e] := by
  have hlen : q < (c.core.queues ++ List.replicate (16 - c.core.queues.length) []).length := by
    rw [List.length_append, List.length_replicate]
    omega
  rw [Course.fed, getD_modify_same _ q _ _ hlen, padded_getD]

theorem fed_feed (c : Course) (q : Nat) (e : QEntry) (hq : q < c.core.feeds.length) :
    (c.fed q e).core.feeds.getD q {} = (c.core.feeds.getD q {}).advance := getD_modify_same _ q _ _ hq

theorem feedEntry_val (s : State) (c : Course) (d : FeedDesc) (k t : Nat) (h : t < 256) :
    (s.feedEntry c d k).vals.getD t 0 = (s.feedElem c d (d.addr k t) t).1 := by
  simp [State.feedEntry, List.getD_eq_getElem?_getD, h]

theorem feedElem_outside (s : State) (c : Course) (d : FeedDesc) (a : Int) (t : Nat)
    (h : a < capBase d.cap ∨ (capBase d.cap : Int) + capLen d.cap < a + (2 ^ (d.flags.toNat % 4) : Nat)) :
    (s.feedElem c d a t).1 = 0 := by
  unfold State.feedElem
  simp only
  rw [if_pos (by simpa using h)]

theorem feedElem_inside (s : State) (c : Course) (d : FeedDesc) (a : Int) (t : Nat) (b : List Byte) (hlo : capBase d.cap ≤ a)
    (hhi : a + (2 ^ (d.flags.toNat % 4) : Nat) ≤ (capBase d.cap : Int) + capLen d.cap)
    (hal : a % (2 ^ (d.flags.toNat % 4) : Nat) = 0) (hm : capPerm d.cap &&& 8 = 8)
    (hb : s.loadVA c a.toNat (2 ^ (d.flags.toNat % 4)) (s.unseen c a.toNat t) = .ok b)
    (hbad : s.badLoad c a.toNat (2 ^ (d.flags.toNat % 4)) (s.unseen c a.toNat t) = false) (hs : d.flags.getLsbD 2 = false) :
    (s.feedElem c d a t).1 = BitVec.ofNat 32 (leNat b) := by
  have hin : ¬(a < capBase d.cap ∨ (capBase d.cap : Int) + capLen d.cap < a + (2 ^ (d.flags.toNat % 4) : Nat)) := by omega
  unfold State.feedElem
  simp only
  rw [if_neg (by simpa using hin), if_neg (by simpa using hal), if_neg (by simp [pM, hm])]
  rw [hb]
  simp only [hbad, hs, Bool.false_and, Bool.false_eq_true, if_false]

/-- A feed that can form its entry d forms it: it is pushed, the feed goes on, and the courses that wait for it are woken. -/
theorem feedEntryForm_forms (s : State) (d : FeedDesc)
    (hd : ((s.course s.subj.num).core.feeds.getD s.subj.num2 {}).active = some d)
    (hdue : s.feedDue s.subj.num s.subj.num2 = true) :
    ∃ r : State, Loads s r ∧ execFeedEntryForm s
      = .next ((r.modCourse s.subj.num fun c => c.fed s.subj.num2 (s.feedEntry (s.course s.subj.num) d d.next)).wakeIf
          fun j _ w => j == s.subj.num && w.kind == .feed) := by
  unfold execFeedEntryForm
  simp only [hd, hdue]
  exact ⟨_, Loads.foldl _ _ (fun s a => noteLoad_loads s _ a 1 _) s, rfl⟩

/-! Logical time (R241). -/

/-- A course as an advance by us microseconds leaves it; course i of a draw of free values. -/
def Course.advanced (c : Course) (us draw : Nat) : Course :=
  if c.isResident then { c with lclock := c.lclock + us + Config.clockRaise draw } else c

theorem lclockAdvance_course (s : State) (t : State) (h : execLclockAdvance s = .next t) (j : Nat) (hj : j < s.courses.length) :
    t.course j = (s.course j).advanced ((s.clock - s.raisedAt) / cyclesOfUs 1) (s.free * 2 ^ 128 + j) := by
  unfold execLclockAdvance at h
  injection h with h
  rw [← h]
  simp [State.course, List.getD_eq_getElem?_getD, hj, Course.advanced]

theorem lclockAdvance_blank (s : State) (t : State) (h : execLclockAdvance s = .next t) (j : Nat) (hj : ¬j < s.courses.length) :
    t.course j = s.course j := by
  unfold execLclockAdvance at h
  injection h with h
  rw [← h]
  simp [State.course, List.getD_eq_getElem?_getD, List.getElem?_eq_none (Nat.le_of_not_lt hj)]

end Sys2Proof.Machine
end

section
/-! SUPPORT. The words stalled at a gate, evaluated again (R344, R346). -/

namespace Sys2Proof.Machine

/-! The order of a sweep: by the key, equal keys by the number. -/

/-- A lies before b in a sweep by the key k. -/
def Before (k : Nat → Nat) (a b : Nat) : Prop := k a < k b ∨ (k a = k b ∧ a < b)

theorem Before.trans (k : Nat → Nat) (a b c : Nat) (h : Before k a b) (g : Before k b c) : Before k a c := by
  unfold Before at *
  omega

theorem Before.asymm (k : Nat → Nat) (a b : Nat) (h : Before k a b) : ¬Before k b a := by
  unfold Before at *
  omega

/-- Sorting an increasing list keeps the order of equal keys. -/
theorem sortBy_before (k : Nat → Nat) (l : List Nat) (h : l.Pairwise (· < ·)) : (sortBy k l).Pairwise (Before k) := by
  have insertAll (l acc : List Nat) (hl : l.Pairwise (· < ·)) (hlt : ∀ a ∈ acc, ∀ x ∈ l, a < x) (hacc : acc.Pairwise (Before k)) :
      (l.foldl (fun r x => insertBy k x r) acc).Pairwise (Before k) := by
    induction l generalizing acc with
    | nil => exact hacc
    | cons x l ih =>
      obtain ⟨hx, hl⟩ := List.pairwise_cons.mp hl
      refine ih _ hl (fun a ha y hy => ?_) (insertBy_pairwise k _ (Before.trans k) x acc (fun y _ h => .inl h) (fun y hy h => ?_) hacc)
      · rcases List.mem_cons.mp ((insertBy_perm k x acc).mem_iff.mp ha) with rfl | ha
        · exact hx y hy
        · exact hlt a ha y (List.mem_cons_of_mem x hy)
      · have hyx := hlt y hy x List.mem_cons_self
        unfold Before
        omega
  exact insertAll l [] h (by simp) List.Pairwise.nil

/-- The sweep of a list begins with its first member in the order, and the rest of it are the other members. -/
theorem sortBy_first (k : Nat → Nat) (l : List Nat) (i : Nat) (h : l.Pairwise (· < ·)) (hi : i ∈ l)
    (hmin : ∀ j ∈ l, j ≠ i → Before k i j) : ∃ rest, sortBy k l = i :: rest ∧ ∀ j, j ∈ rest ↔ j ≠ i ∧ j ∈ l := by
  have hmem (j : Nat) : j ∈ sortBy k l ↔ j ∈ l := (sortBy_perm k l).mem_iff
  have hs := sortBy_before k l h
  have hd : (sortBy k l).Nodup := (sortBy_perm k l).nodup_iff.mpr (h.imp Nat.ne_of_lt)
  cases hl : sortBy k l with
  | nil =>
    have hnil := (hmem i).mpr hi
    simp [hl] at hnil
  | cons a rest =>
    rw [hl] at hs hd
    simp only [hl] at hmem
    obtain ⟨ha, -⟩ := List.nodup_cons.mp hd
    obtain ⟨hbefore, -⟩ := List.pairwise_cons.mp hs
    have hai : a = i := by
      refine Decidable.byContradiction fun hne => ?_
      have hir : i ∈ rest := (List.mem_cons.mp ((hmem i).mpr hi)).resolve_left (Ne.symm hne)
      exact Before.asymm k a i (hbefore i hir) (hmin a ((hmem a).mp List.mem_cons_self) hne)
    subst hai
    refine ⟨rest, rfl, fun j => ⟨fun hj => ⟨?_, (hmem j).mp (List.mem_cons_of_mem a hj)⟩, fun hj => ?_⟩⟩
    · rintro rfl
      exact ha hj
    · exact (List.mem_cons.mp ((hmem j).mpr hj.2)).resolve_left hj.1

/-! The sweep. -/

/-- A course of context n stands at the gate with the wait w. -/
def State.atGate (s : State) (n j : Nat) (w : Wait) : Prop :=
  j < s.courses.length ∧ (s.course j).ctx = n ∧ (s.course j).lwait = some w ∧ w.kind = .gate

/-- The courses of context n that stand at the gate. -/
def State.gated (s : State) (n : Nat) : List Nat :=
  (List.range s.courses.length).filter fun i => (s.course i).ctx == n && (s.course i).lwait.any (·.kind == .gate)

/-- When the lane word a course waits for began to wait. -/
def State.stallOf (s : State) (i : Nat) : Nat := ((s.course i).lwait.map (·.since)).getD 0

theorem mem_gated (s : State) (n j : Nat) : j ∈ s.gated n ↔ ∃ w, s.atGate n j w := by
  simp only [State.gated, List.mem_filter, List.mem_range, Bool.and_eq_true, beq_iff_eq, Option.any_eq_true, State.atGate]
  constructor
  · rintro ⟨hj, hx, w, hw, hk⟩
    exact ⟨w, hj, hx, hw, hk⟩
  · rintro ⟨w, hj, hx, hw, hk⟩
    exact ⟨hj, hx, w, hw, hk⟩

theorem gated_pairwise (s : State) (n : Nat) : (s.gated n).Pairwise (· < ·) := List.pairwise_lt_range.filter _

theorem stallOf_atGate (s : State) (n j : Nat) (w : Wait) (h : s.atGate n j w) : s.stallOf j = w.since := by
  obtain ⟨-, -, hw, -⟩ := h
  simp [State.stallOf, hw]

theorem gateReevaluate_sweeps (s : State) (h : (s.context s.subj.num).mode = .active) :
    execGateReevaluate s = .next ((sortBy s.stallOf (s.gated s.subj.num)).foldl State.reevaluate s) := by
  unfold execGateReevaluate
  simp only [h]
  rfl

theorem gateReevaluate_idle (s : State) (h : (s.context s.subj.num).mode ≠ .active) : execGateReevaluate s = .next s := by
  unfold execGateReevaluate
  simp [h]

/-- The oldest stall is evaluated first, the others after it. -/
theorem gateReevaluate_first (s : State) (i : Nat) (w : Wait) (hx : (s.context s.subj.num).mode = .active)
    (hi : s.atGate s.subj.num i w)
    (hmin : ∀ j v, s.atGate s.subj.num j v → j ≠ i → w.since < v.since ∨ (w.since = v.since ∧ i < j)) :
    ∃ rest : List Nat, execGateReevaluate s = .next (rest.foldl State.reevaluate (s.reevaluate i))
      ∧ ∀ j, j ∈ rest ↔ j ≠ i ∧ ∃ v, s.atGate s.subj.num j v := by
  obtain ⟨rest, hl, hrest⟩ := sortBy_first s.stallOf (s.gated s.subj.num) i (gated_pairwise s _) ((mem_gated s _ i).mpr ⟨w, hi⟩)
    fun j hj hne => by
      obtain ⟨v, hv⟩ := (mem_gated s _ j).mp hj
      rw [Before, stallOf_atGate s _ i w hi, stallOf_atGate s _ j v hv]
      exact hmin j v hv hne
  refine ⟨rest, ?_, fun j => by rw [hrest j, mem_gated]⟩
  rw [gateReevaluate_sweeps s hx, hl]
  rfl

/-! One stalled word (R344, R346). -/

section
variable (s : State) (i : Nat) (w : Wait) (hi : s.atGate s.subj.num i w) (ha : (s.course i).alive = true)
  (hv : (s.course i).phase ≠ .vacated)
include hi ha hv

theorem reevaluate_stall (hg : s.gate s.subj.num (s.course i).place w.charges w.binds = .stall) : s.reevaluate i = s := by
  obtain ⟨-, hx, hw, hk⟩ := hi
  simp [State.reevaluate, hw, hk, ha, hv, hx, hg]

theorem reevaluate_pass (hg : s.gate s.subj.num (s.course i).place w.charges w.binds = .pass) :
    s.reevaluate i = (s.charge s.subj.num w.charges).modCourse i fun c =>
      { c with lwait := none, granted := some w.charges, grantBinds := w.binds } := by
  obtain ⟨-, hx, hw, hk⟩ := hi
  simp [State.reevaluate, hw, hk, ha, hv, hx, hg]

theorem reevaluate_vbnd (hg : s.gate s.subj.num (s.course i).place w.charges w.binds = .vbnd) :
    s.reevaluate i = s.takeTrap i { cause := 12, pc := (s.course i).core.lanePc } := by
  obtain ⟨-, hx, hw, hk⟩ := hi
  simp [State.reevaluate, hw, hk, ha, hv, hx, hg, cVBND]

theorem reevaluate_vbig (hg : s.gate s.subj.num (s.course i).place w.charges w.binds = .vbig) :
    s.reevaluate i = s.takeTrap i { cause := 13, pc := (s.course i).core.lanePc } := by
  obtain ⟨-, hx, hw, hk⟩ := hi
  simp [State.reevaluate, hw, hk, ha, hv, hx, hg, cVBIG]

end

end Sys2Proof.Machine
end

section
/-! PROOFS. The events of courses and of their timers (O48). -/

namespace Sys2Proof.Machine

/-! Completion, retirement and feeds. -/

/-- A course whose remote word is in: it waits no more. -/
def State.wordIn (s : State) (i : Nat) : State :=
  { s with cur := i }.modMe fun c => { c with lwait := none, phase := if c.phase = Phase.waiting then .running else c.phase }

theorem wordIn_eq (s : State) (i : Nat) : s.wordIn i = { s with cur := i }.modMe fun c =>
    { c with lwait := none, phase := if c.phase == Phase.waiting then .running else c.phase } := by
  unfold State.wordIn
  congr 1
  funext c
  by_cases h : c.phase = .waiting <;> simp [h]

theorem laneWordComplete_rld (s : State) (h : s.wordDue s.subj.num = true) (w : Single)
    (hf : (s.wordIn s.subj.num).fetchLane (s.wordIn s.subj.num).me = .word (.rld w)) :
    execLaneWordComplete s = .next ((s.wordIn s.subj.num).completeRld w) := by
  rw [show execLaneWordComplete s = _ from due_next h _ _]
  simp only [← wordIn_eq, hf]

theorem laneWordComplete_ratom (s : State) (h : s.wordDue s.subj.num = true) (w : Single)
    (hf : (s.wordIn s.subj.num).fetchLane (s.wordIn s.subj.num).me = .word (.ratom w)) :
    execLaneWordComplete s = .next ((s.wordIn s.subj.num).completeRatom w) := by
  rw [show execLaneWordComplete s = _ from due_next h _ _]
  simp only [← wordIn_eq, hf]

theorem courseRetire_retires (s : State) (h : s.retireDue s.subj.num = true) (hn : s.subj.num < s.courses.length) :
    ∃ t, execCourseRetire s = .next t ∧ (t.course s.subj.num).phase = .retired
      ∧ t = ((s.commit s.subj.num).leaveTeam s.subj.num).retire s.subj.num := by
  refine ⟨_, due_next h _ _, retire_phase _ _ ?_, rfl⟩
  rw [((commit_still s _).stays.trans (leaveTeam_still _ _)).length]
  exact hn

theorem feedEntryForm_pushes (s : State) (d : FeedDesc)
    (hd : ((s.course s.subj.num).core.feeds.getD s.subj.num2 {}).active = some d)
    (hdue : s.feedDue s.subj.num s.subj.num2 = true) (hn : s.subj.num < s.courses.length) (hq : s.subj.num2 < 16) :
    ∃ t, execFeedEntryForm s = .next t ∧ SameMemory s t
      ∧ (t.course s.subj.num).core.queues.getD s.subj.num2 []
          = (s.course s.subj.num).core.queues.getD s.subj.num2 [] ++ [s.feedEntry (s.course s.subj.num) d d.next]
      ∧ (s.subj.num2 < (s.course s.subj.num).core.feeds.length →
          (t.course s.subj.num).core.feeds.getD s.subj.num2 {}
            = ((s.course s.subj.num).core.feeds.getD s.subj.num2 {}).advance) := by
  obtain ⟨r, ⟨hmem, hstill⟩, ht⟩ := feedEntryForm_forms s d hd hdue
  generalize s.feedEntry (s.course s.subj.num) d d.next = e at ht ⊢
  have hqueues : (r.course s.subj.num).core.queues = (s.course s.subj.num).core.queues := congrArg Prod.fst (hstill.view s.subj.num)
  have hfeeds : (r.course s.subj.num).core.feeds = (s.course s.subj.num).core.feeds := congrArg Prod.snd (hstill.view s.subj.num)
  have hr : s.subj.num < r.courses.length := by rw [hstill.length]; exact hn
  have hfed : SameMem s (r.modCourse s.subj.num fun c => c.fed s.subj.num2 e) := hmem.trans ⟨rfl, rfl, rfl⟩
  refine ⟨_, ht, (hfed.trans (wakeIf_mem _ _ _)).same, ?_, fun hlen => ?_⟩
  · rw [(wakeIf_still _ _ _).core, modCourse_same r _ _ hr, fed_queue _ _ _ hq, hqueues]
  · rw [(wakeIf_still _ _ _).core, modCourse_same r _ _ hr, fed_feed _ _ _ (by rw [hfeeds]; exact hlen), hfeeds]

/-! Wake-ups (R28, R216, R223, R394). -/

theorem wakeup_ends (s : State) : EndsWaits s (execWakeup s) true fun _ w => w.line = some s.subj.num :=
  wakeIf_endsWaits s s _ true _ (SameMem.refl s) (fun _ => rfl) fun _ _ => beq_iff_eq

theorem repollTimer_ends (s : State) (h : s.repollDue s.subj.num = true) : EndsWaits s (execRepollTimer s) false
    fun j w => j = s.subj.num ∧ w.line = none ∧ (w.kind = .word ∨ w.kind = .barrier ∨ w.kind = .spool ∨ w.kind = .ring) := by
  unfold execRepollTimer
  simp only [h, if_true]
  exact wakeIf_endsWaits s s _ false _ (SameMem.refl s) (fun _ => rfl) fun j w => by simp [Wait.polled, or_assoc]

theorem repollTimer_idle (s : State) (h : s.repollDue s.subj.num = false) : execRepollTimer s = .next s := by
  simp [execRepollTimer, h]

theorem holdReturn_ends (s : State) (h : s.holdDue s.subj.num = true) :
    EndsWaits s (execHoldReturn s) true fun _ w => w.line = some s.subj.num := by
  rw [show execHoldReturn s = _ from due_next h _ _]
  exact wakeIf_endsWaits s _ _ true _ ⟨rfl, rfl, rfl⟩ (fun _ => rfl) fun _ _ => beq_iff_eq

theorem evwaitTimeout_ends (s : State) (h : s.evwaitDue s.subj.num = true) :
    EndsWaits s (execEvwaitTimeout s) true fun j w => j = s.subj.num ∧ w.kind = .event := by
  rw [show execEvwaitTimeout s = _ from due_next h _ _]
  refine wakeIf_endsWaits s _ _ true _ ⟨rfl, rfl, rfl⟩ (fun j => ?_) fun j w => by simp
  exact modCourse_view Course.waitView s _ j _ fun _ => rfl

/-! Timers and clocks. -/

theorem graftParkTimeout_ends (s : State) (h : s.parkDue s.subj.num = true) (hn : s.subj.num < s.courses.length) :
    ∃ t, execGraftParkTimeout s = .next t ∧ SameMemory s t
      ∧ t.course s.subj.num = { s.course s.subj.num with parked := none, lwait := none, graftStatus := some 1 }
      ∧ ∀ j, j ≠ s.subj.num → t.course j = s.course j :=
  ⟨_, due_next h _ _, SameMem.same ⟨rfl, rfl, rfl⟩, modCourse_same s _ _ hn, fun j hj => modCourse_other s _ j _ hj⟩

theorem heldStoreTimeout_idle (s : State) (h : s.heldDue s.subj.num = false) : execHeldStoreTimeout s = .next s := by
  simp [execHeldStoreTimeout, h]

theorem heldStoreTimeout_checkpoints (s : State) (h : s.heldDue s.subj.num = true) :
    execHeldStoreTimeout s = .next (s.checkpoint s.subj.num) := by
  simp [execHeldStoreTimeout, h]

theorem advanced_rises (c : Course) (us draw : Nat) : (c.advanced us draw).core = c.core ∧ c.lclock ≤ (c.advanced us draw).lclock
    ∧ (c.isResident = true → c.lclock + us ≤ (c.advanced us draw).lclock) := by
  unfold Course.advanced
  split
  · exact ⟨rfl, by dsimp only; omega, fun _ => by dsimp only; omega⟩
  · next h => exact ⟨rfl, Nat.le_refl _, fun hr => absurd hr h⟩

theorem lclockAdvance_rises (s : State) : ∃ t, execLclockAdvance s = .next t ∧ SameMemory s t
    ∧ ∀ j, (t.course j).core = (s.course j).core ∧ (s.course j).lclock ≤ (t.course j).lclock
      ∧ (j < s.courses.length → (s.course j).isResident = true →
          (s.course j).lclock + (s.clock - s.raisedAt) / cyclesOfUs 1 ≤ (t.course j).lclock) := by
  refine ⟨_, rfl, SameMem.same ⟨rfl, rfl, rfl⟩, fun j => ?_⟩
  by_cases hj : j < s.courses.length
  · rw [lclockAdvance_course s _ rfl j hj]
    obtain ⟨hcore, hle, hus⟩ := advanced_rises (s.course j) ((s.clock - s.raisedAt) / cyclesOfUs 1) (s.free * 2 ^ 128 + j)
    exact ⟨hcore, hle, fun _ => hus⟩
  · rw [lclockAdvance_blank s _ rfl j hj]
    exact ⟨rfl, Nat.le_refl _, fun h => absurd h hj⟩

/-- Settles O48, event by event: the idle cases by the guard, the wake-ups by what a wake-up makes of each course, the sweep of the
gate by the order of its list. -/
theorem courseEvents : Obligations.CourseEvents := by
  unfold Obligations.CourseEvents
  intro s n c idle ends
  refine ⟨fun h => notDue_next h _ _, fun h => ⟨laneWordComplete_rld s h, laneWordComplete_ratom s h⟩,
    fun h => notDue_next h _ _, courseRetire_retires s, fun d hd hdue hn hq => ?feed, wakeup_ends s,
    repollTimer_idle s, repollTimer_ends s, fun h => notDue_next h _ _, holdReturn_ends s,
    fun h => notDue_next h _ _, evwaitTimeout_ends s, fun h => notDue_next h _ _, graftParkTimeout_ends s,
    heldStoreTimeout_idle s, heldStoreTimeout_checkpoints s, fun h => notDue_next h _ _, fun h => due_next h _ _,
    lclockAdvance_rises s, gateReevaluate_idle s, fun i w hx hi ha hv hmin => ?gate, rfl⟩
  case feed =>
    obtain ⟨t, ht, hm, hqueue, hfeed⟩ := feedEntryForm_pushes s d hd hdue hn hq
    refine ⟨t, ht, hm, hqueue, hfeed, fun th hth => ?_⟩
    rw [feedEntry_val s c d d.next th hth]
    exact ⟨feedElem_outside s c d _ th, fun b => feedElem_inside s c d _ th b⟩
  case gate =>
    obtain ⟨rest, ht, hrest⟩ := gateReevaluate_first s i w hx hi hmin
    refine ⟨⟨rest, ht, hrest⟩, fun honly => ?_, reevaluate_stall s i w hi ha hv, fun hg => ?_, reevaluate_vbnd s i w hi ha hv,
      reevaluate_vbig s i w hi ha hv⟩
    · have hnil : rest = [] := List.eq_nil_iff_forall_not_mem.mpr fun j hj => by
        obtain ⟨hne, v, hv⟩ := (hrest j).mp hj
        exact hne (honly j v hv)
      rw [hnil] at ht
      exact ht
    · rw [reevaluate_pass s i w hi ha hv hg]
      exact ⟨modCourse_same _ i _ hi.1, fun j hj => modCourse_other _ i j _ hj⟩

end Sys2Proof.Machine
end

section
/-! PROOFS. The scalar arithmetic words (O1, O2): the illegal words of their encodings, and each result in the spec's own terms. -/

namespace Sys2Proof.Machine

/-! The illegal words (R37, R38, R61). -/

open Enc in
/-- A word of the SR group whose FN names none of the two-operand operations is CLZ, POPC or illegal. -/
theorem decodeScalar_sr (w : Nat) (hop : w < 2 ^ 26) (hfn : 20 ≤ w % 2 ^ 11) :
    decodeScalar w = if w % 2 ^ 11 = 20 then chk false (bits w 11 5 != 0) false (.clz (bits w 21 5) (bits w 16 5))
      else if w % 2 ^ 11 = 21 then chk false (bits w 11 5 != 0) false (.popc (bits w 21 5) (bits w 16 5))
      else .error (.ills 1) := by
  have op : w / 2 ^ 26 % 64 = 0 := by omega
  have none_of_fn : srTable.lookup (w % 2 ^ 11) = none := by
    rw [List.lookup_eq_none_iff]
    simp [srTable]
    omega
  simp only [decodeScalar, op, none_of_fn, beq_self_eq_true, if_true, beq_iff_eq]

theorem bits_ne_zero (w lo n : Nat) (h : w / 2 ^ lo % 2 ^ n ≠ 0) : bits w lo n ≠ 0 := by
  intro hz
  exact h (by simpa [bits] using congrArg BitVec.toNat hz)

theorem decodeScalar_sr_badFn (w : Nat) (hop : w < 2 ^ 26) (hfn : 22 ≤ w % 2 ^ 11) : decodeScalar w = .error (.ills 1) := by
  rw [decodeScalar_sr w hop (by omega), if_neg (by omega), if_neg (by omega)]

theorem decodeScalar_sr_badB (w : Nat) (hop : w < 2 ^ 26) (hfn : w % 2 ^ 11 = 20 ∨ w % 2 ^ 11 = 21)
    (hb : w / 2 ^ 11 % 2 ^ 5 ≠ 0) : decodeScalar w = .error (.ills 3) := by
  have b : (bits w 11 5 != 0) = true := bne_iff_ne.mpr (bits_ne_zero w 11 5 hb)
  rw [decodeScalar_sr w hop (by omega)]
  rcases hfn with h | h
  · rw [if_pos h, b]
    rfl
  · rw [if_neg (by omega), if_pos h, b]
    rfl

theorem decodeScalar_shift_badImm (w : Nat) (hop : w / 2 ^ 26 = 5 ∨ w / 2 ^ 26 = 6 ∨ w / 2 ^ 26 = 7) (hi : 32 ≤ w % 2 ^ 16) :
    decodeScalar w = .error (.ills 4) := by
  have range : (32 ≤ (bits w 0 16).toNat) = True := by simpa [bits] using hi
  rcases hop with h | h | h <;> simp only [decodeScalar, h, range] <;> rfl

theorem decodeScalar_lui_badA (w : Nat) (hop : w / 2 ^ 26 = 10) (ha : w / 2 ^ 16 % 2 ^ 5 ≠ 0) :
    decodeScalar w = .error (.ills 3) := by
  have a : (bits w 16 5 != 0) = true := bne_iff_ne.mpr (bits_ne_zero w 16 5 ha)
  simp only [decodeScalar, hop, a]
  rfl

/-! The results, as the spec states them (R73, R74). -/

/-- The product of two sign-extended words is the product of their values, modulo 2^64. -/
theorem mul_signExtend_64 (x y : Word) : x.signExtend 64 * y.signExtend 64 = BitVec.ofInt 64 (x.toInt * y.toInt) :=
  (BitVec.ofInt_mul _ _).symm

theorem ofInt_high_product (x y : Word) :
    BitVec.ofInt 32 (x.toInt * y.toInt / 2 ^ 32) = (x.signExtend 64 * y.signExtend 64).extractLsb' 32 32 := by
  apply BitVec.eq_of_toNat_eq
  simp only [mul_signExtend_64, BitVec.toNat_ofInt, BitVec.extractLsb'_toNat, Nat.shiftRight_eq_div_pow]
  generalize x.toInt * y.toInt = z
  omega

theorem ofNat_high_product (x y : Word) :
    BitVec.ofNat 32 (x.toNat * y.toNat / 2 ^ 32) = (x.setWidth 64 * y.setWidth 64).extractLsb' 32 32 := by
  have hlt : x.toNat * y.toNat < 2 ^ 32 * 2 ^ 32 := Nat.mul_lt_mul'' x.isLt y.isLt
  have hx := x.isLt
  have hy := y.isLt
  apply BitVec.eq_of_toNat_eq
  simp only [BitVec.toNat_ofNat, BitVec.extractLsb'_toNat, BitVec.toNat_mul, BitVec.toNat_setWidth, Nat.shiftRight_eq_div_pow]
  rw [Nat.mod_eq_of_lt (a := x.toNat) (by omega), Nat.mod_eq_of_lt (a := y.toNat) (by omega),
    Nat.mod_eq_of_lt (a := _ * _) (by omega)]

/-- A word is the number it holds. -/
theorem word_ofNat_toNat (v : Word) : BitVec.ofNat 32 v.toNat = v := by rw [BitVec.ofNat_toNat, BitVec.setWidth_eq]

theorem int_min_of_lt (a b : Int) : min a b = if a < b then a else b := by split <;> omega

theorem int_max_of_lt (a b : Int) : max a b = if a < b then b else a := by split <;> omega

theorem nat_min_of_lt (a b : Nat) : min a b = if a < b then a else b := by split <;> omega

theorem nat_max_of_lt (a b : Nat) : max a b = if a < b then b else a := by split <;> omega

theorem slt_ite_eq_min (x y : Word) : (if x.slt y then x else y) = BitVec.ofInt 32 (min x.toInt y.toInt) := by
  simp only [BitVec.slt, decide_eq_true_eq, int_min_of_lt, apply_ite (BitVec.ofInt 32), BitVec.ofInt_toInt]

theorem slt_ite_eq_max (x y : Word) : (if x.slt y then y else x) = BitVec.ofInt 32 (max x.toInt y.toInt) := by
  simp only [BitVec.slt, decide_eq_true_eq, int_max_of_lt, apply_ite (BitVec.ofInt 32), BitVec.ofInt_toInt]

theorem ult_ite_eq_min (x y : Word) : (if x.ult y then x else y) = BitVec.ofNat 32 (min x.toNat y.toNat) := by
  simp only [BitVec.ult, decide_eq_true_eq, nat_min_of_lt, apply_ite (BitVec.ofNat 32), word_ofNat_toNat]

theorem ult_ite_eq_max (x y : Word) : (if x.ult y then y else x) = BitVec.ofNat 32 (max x.toNat y.toNat) := by
  simp only [BitVec.ult, decide_eq_true_eq, nat_max_of_lt, apply_ite (BitVec.ofNat 32), word_ofNat_toNat]

theorem boolWord_decide (p : Prop) [Decidable p] : boolWord (decide p) = if p then 1 else 0 := by
  simp [boolWord]

theorem eClz_toNat (x : Word) :
    BitVec.ofNat 32 (Num.eClz 32 x.toNat) = if x = 0 then 32 else BitVec.ofNat 32 (31 - Nat.log2 x.toNat) := by
  by_cases h : x = 0
  · rw [if_pos h, h]
    rfl
  · have hn : x.toNat ≠ 0 := fun e => h (BitVec.eq_of_toNat_eq e)
    rw [if_neg h]
    simp [Num.eClz, hn]

theorem ePopc_toNat (x : Word) : Num.ePopc 32 x.toNat = ((List.range 32).filter fun i => x.getLsbD i).length := by
  have bit (i : Nat) : (x.toNat / 2 ^ i % 2 == 1) = x.getLsbD i := Nat.testBit_eq_decide_div_mod_eq.symm
  simp only [Num.ePopc, bit]

theorem setWidth_shift_16 (imm : BitVec 16) : imm.setWidth 32 <<< 16 = BitVec.ofNat 32 (imm.toNat * 65536) := by
  have hi := imm.isLt
  apply BitVec.eq_of_toNat_eq
  simp only [BitVec.toNat_shiftLeft, BitVec.toNat_setWidth, BitVec.toNat_ofNat, Nat.shiftLeft_eq]
  omega

theorem mul_signExtend_imm (x : Word) (imm : BitVec 16) : x * imm.signExtend 32 = BitVec.ofInt 32 (x.toInt * imm.toInt) := by
  rw [BitVec.ofInt_mul, BitVec.ofInt_toInt]
  rfl

/-- A scalar word that writes a value the spec names in other terms (R73). -/
theorem scalarSet_gives (s : State) (d : BitVec 5) {v v' : Word} (h : Running s) (hv : v = v') :
    GivesX s (s.me.core.pc + 4) d v' (s.scalarSet d v) := hv ▸ scalarSet_goes s d v h

/-- Settles O1: every word of the group is one write of x[d], of the value R73 names. -/
theorem scalarRegisterOps : Obligations.ScalarRegisterOps := by
  refine ⟨decodeScalar_sr_badFn, decodeScalar_sr_badB, fun s d a b h => ?_⟩
  have goes (v : Word) := scalarSet_goes s d v h
  have gives {v v' : Word} (hv : v = v') := scalarSet_gives s d h hv
  exact ⟨goes _, goes _, goes _, goes _, goes _, goes _, goes _, goes _, goes _, gives (ofInt_high_product _ _),
    gives (ofNat_high_product _ _), gives (by rw [BitVec.udiv_def]), gives (by rw [BitVec.umod_def]),
    gives (slt_ite_eq_min _ _), gives (slt_ite_eq_max _ _), gives (ult_ite_eq_min _ _), gives (ult_ite_eq_max _ _),
    gives (boolWord_decide _), gives (boolWord_decide _), gives (boolWord_decide _), gives (eClz_toNat _),
    gives (congrArg (BitVec.ofNat 32) (ePopc_toNat _))⟩

/-- Settles O2: every immediate operation is one write of x[d], of the value R74 names. -/
theorem scalarImmediateOps : Obligations.ScalarImmediateOps := by
  refine ⟨fun w _ h5 h7 => decodeScalar_shift_badImm w (by omega), fun w _ => decodeScalar_lui_badA w, fun s d a sh imm h => ?_⟩
  have goes (v : Word) := scalarSet_goes s d v h
  have gives {v v' : Word} (hv : v = v') := scalarSet_gives s d h hv
  refine ⟨goes _, goes _, goes _, goes _, goes _, goes _, goes _, gives ?slti, gives ?sltni, gives (setWidth_shift_16 _),
    gives (mul_signExtend_imm _ _)⟩
  case slti => exact (boolWord_decide _).trans (by rw [BitVec.toInt_signExtend_of_le (by decide)])
  case sltni => exact (boolWord_decide _).trans (by rw [BitVec.toNat_setWidth_of_le (by decide)])

end Sys2Proof.Machine
end

section
/-! PROOFS. The scalar words that transfer control and drive the lane stream (O3, O4). -/

namespace Sys2Proof.Machine

/-! Going on, and going to a target (R34, R75 to R78). -/

/-- A scalar word that changes the core and goes on. -/
theorem givesCore_scalarNext (s : State) (f : Core → Core) (h : Running s) :
    GivesCore s { f s.me.core with pc := (f s.me.core).pc + 4 } (.next (s.scalarNext f)) :=
  ⟨_, rfl, modCore_onlyCore s _ h, modCore_core s _ h⟩

theorem scalarJump_inside (s : State) (target : Int) (f : Core → Core) (h : inSection s target) :
    s.scalarJump target f = s.modCore fun c => { f c with pc := target.toNat } := by
  obtain ⟨hlo, hhi⟩ := h
  exact if_neg (by omega)

/-- A jump inside the section that writes v to x[d]. -/
theorem scalarJump_goes (s : State) (target : Int) (d : BitVec 5) (v : Word) (h : Running s) (ht : inSection s target) :
    GivesX s target.toNat d v (.next (s.scalarJump target fun c => c.setX d.toNat v)) := by
  rw [scalarJump_inside s target _ ht]
  exact givesX_modCore s _ d v _ h rfl

theorem scalarNext_goes (s : State) (h : Running s) : GivesX s (s.me.core.pc + 4) 0 0 (.next (s.scalarNext id)) :=
  givesX_modCore s _ 0 0 _ h rfl

/-- A conditional branch whose condition is c. -/
theorem scalarBranch_goes (s : State) {c : Prop} {taken : Bool} (off : BitVec 16) (h : Running s) (hc : taken = true ↔ c) :
    (c → inSection s (s.branchTarget off.toInt) →
        GivesX s (s.branchTarget off.toInt).toNat 0 0 (s.scalarBranch taken off))
      ∧ (¬c → GivesX s (s.me.core.pc + 4) 0 0 (s.scalarBranch taken off)) := by
  refine ⟨fun k ht => ?_, fun k => ?_⟩
  · rw [State.scalarBranch, if_pos (hc.mpr k)]
    exact scalarJump_goes s _ 0 0 h ht
  · rw [State.scalarBranch, if_neg (mt hc.mp k)]
    exact scalarNext_goes s h

theorem not_slt_iff (x y : Word) : (!x.slt y) = true ↔ y.toInt ≤ x.toInt := by
  simp [BitVec.slt]

theorem not_ult_iff (x y : Word) : (!x.ult y) = true ↔ y.toNat ≤ x.toNat := by
  simp [BitVec.ult]

theorem execJr_inside (s : State) (d a : BitVec 5) (h : Running s) (ha : (s.x a).toNat % 4 = 0)
    (ht : inSection s (s.x a).toNat) :
    GivesX s (s.x a).toNat d (BitVec.ofNat 32 (s.me.core.pc + 4)) (execJr d a s) := by
  unfold execJr
  simp only
  rw [if_neg (by omega)]
  exact scalarJump_goes s _ d _ h ht

theorem execLoop_again (s : State) (a : BitVec 5) (off : BitVec 16) (h : Running s) (hn : s.x a - 1 ≠ 0)
    (ht : inSection s (s.branchTarget off.toInt)) :
    GivesX s (s.branchTarget off.toInt).toNat a (s.x a - 1) (execLoop a off s) := by
  unfold execLoop
  simp only
  rw [if_pos hn]
  exact scalarJump_goes s _ a _ h ht

theorem execLoop_ends (s : State) (a : BitVec 5) (off : BitVec 16) (h : Running s) (hx : s.x a = 1) :
    GivesX s (s.me.core.pc + 4) a 0 (execLoop a off s) := by
  have hn : s.x a - 1 = 0 := by rw [hx]; rfl
  unfold execLoop
  simp only [hn, ne_eq, not_true_eq_false, if_false]
  exact scalarSet_goes s a 0 h

/-- Settles O3: each transfer goes to its target inside the section or on, with its one register written. -/
theorem scalarTransfers : Obligations.ScalarTransfers := by
  intro s d a b off far h
  have branch {c : Prop} {taken : Bool} (hc : taken = true ↔ c) := scalarBranch_goes s off h hc
  exact ⟨branch beq_iff_eq, branch bne_iff_ne, branch BitVec.slt_iff_toInt_lt, branch (not_slt_iff _ _),
    branch BitVec.ult_iff_toNat_lt, branch (not_ult_iff _ _),
    scalarJump_goes s _ 0 0 h, scalarJump_goes s _ 31 _ h, execJr_inside s d a h, execLoop_again s a off h,
    execLoop_ends s a off h⟩

/-! Driving the lane stream (R79 to R82). -/

theorem execLrun_none (s : State) (a : BitVec 5) (imm : BitVec 16) (h : Running s) (hn : (s.x a + imm.setWidth 32).toNat = 0) :
    GivesCore s { s.me.core with pc := s.me.core.pc + 4 } (execLrun a imm s) := by
  unfold execLrun
  simp only [hn]
  exact givesCore_scalarNext s id h

theorem execLjmp_inside (s : State) (a : BitVec 5) (imm : BitVec 16) (h : Running s)
    (ht : (s.x a + imm.setWidth 32).toNat < s.me.laneWords) :
    GivesCore s { s.me.core with pc := s.me.core.pc + 4, rp := (s.x a + imm.setWidth 32).toNat } (execLjmp a imm s) := by
  unfold execLjmp
  simp only
  rw [if_neg (by omega)]
  exact givesCore_scalarNext s _ h

/-- A change of the current course is the only change. -/
theorem modMe_onlyCourse (s : State) (f : Course → Course) : OnlyCourse s (s.modMe f) :=
  ⟨rfl, modCourse_length s s.cur _, fun j hj => modCourse_other s s.cur j f hj⟩

theorem OnlyCourse.trans {s t u : State} (h : OnlyCourse s t) (k : OnlyCourse t u) : OnlyCourse s u := by
  obtain ⟨hs, hl, ho⟩ := h
  obtain ⟨ks, kl, ko⟩ := k
  have hcur : t.cur = s.cur := by rw [hs]
  refine ⟨by rw [ks, hs], kl.trans hl, fun j hj => (ko j (hcur ▸ hj)).trans (ho j hj)⟩

/-- The current course after a scalar word that goes on and then changes more of it. -/
theorem scalarNext_modMe (s : State) (f : Core → Core) (g : Course → Course) (h : Running s) :
    OnlyCourse s ((s.scalarNext f).modMe g)
      ∧ ((s.scalarNext f).modMe g).me = g { s.me with core := { f s.me.core with pc := (f s.me.core).pc + 4 } } := by
  have r : Running (s.scalarNext f) := by simpa [Running, State.scalarNext] using h
  refine ⟨(modCore_onlyCore s _ h).1.trans (modMe_onlyCourse _ g), ?_⟩
  rw [modMe_eq, modCourse_me _ g r, State.scalarNext, modCore_eq, modCourse_me s _ h]

theorem execLsync_goes (s : State) (h : Running s) (hp : s.me.core.pending = 0) (hf : s.me.wordFlags = []) :
    ∃ t, execLsync s = .next t ∧ OnlyCourse s t
      ∧ t.me = { s.me with core := { s.me.core with pc := s.me.core.pc + 4 }, unsynced := [] } := by
  unfold execLsync
  rw [if_pos ⟨hp, hf⟩]
  exact ⟨_, rfl, scalarNext_modMe s id _ h⟩

theorem execXrq_takes (s : State) (d : BitVec 5) (v : Word) (rest : List Word) (h : Running s) (hq : s.me.core.retq = v :: rest) :
    ∃ t, execXrq d s = .next t ∧ OnlyCourse s t ∧ t.me.core.retq = rest ∧ t.me.core.pc = s.me.core.pc + 4
      ∧ t.me.core.x d.toNat = inX d v ∧ ∀ m, m ≠ d.toNat → t.me.core.x m = s.me.core.x m := by
  obtain ⟨only, me⟩ := scalarNext_modMe s (fun k => ({ k with retq := rest } : Core).setX d.toNat v) Course.retryPush h
  have core : ((s.scalarNext fun k => ({ k with retq := rest } : Core).setX d.toNat v).modMe Course.retryPush).me.core
      = { ({ s.me.core with retq := rest } : Core).setX d.toNat v with pc := s.me.core.pc + 4 } := by
    rw [me, setX_eq]
    rfl
  unfold execXrq
  simp only [hq]
  refine ⟨_, rfl, only, ?_, ?_, ?_, fun m hm => ?_⟩ <;> rw [core]
  · rw [setX_eq]
  · exact inX_setX _ d v
  · exact x_setX_ne _ _ _ v hm

/-- Settles O4: each word's own branch of its meaning, where it does not wait. -/
theorem scalarLaneControl : Obligations.ScalarLaneControl := by
  intro s d a imm h
  refine ⟨execLrun_none s a imm h, fun h0 hmax hw hlen hp => ?lrun, execLjmp_inside s a imm h, execLsync_goes s h,
    fun v rest hq => execXrq_takes s d v rest h hq⟩
  case lrun =>
    have room : ¬(s.me.core.relq.length = 16 ∨ 4096 < s.me.core.pending + (s.x a + imm.setWidth 32).toNat) := by omega
    have fits : ¬s.me.laneWords < s.me.core.rp + (s.x a + imm.setWidth 32).toNat := Nat.not_lt.mpr hw
    show GivesCore s _ (execLrun a imm s)
    unfold execLrun
    simp only
    rw [if_neg (Nat.not_lt.mpr hmax), if_neg (Nat.pos_iff_ne_zero.mp h0), if_neg fits, if_neg room]
    exact givesCore_scalarNext s _ h

end Sys2Proof.Machine
end

section
/-! PROOFS. The feeds of the operand queues (O5). -/

namespace Sys2Proof.Machine

/-! Lists indexed by a queue's number. -/

/-- A list padded to 16 places with place n written. -/
theorem padded_set_getD {α : Type} (l : List α) (n p : Nat) (v g : α) (h : n < 16) :
    ((l ++ List.replicate (16 - l.length) v).set n g).getD p v = if p = n then g else l.getD p v := by
  split
  · next e =>
    rw [e]
    exact set_getD_same _ _ _ _ (by rw [List.length_append, List.length_replicate]; omega)
  · next e => rw [set_getD_ne _ _ _ _ _ e, padded_getD]

/-- A list with the blank value put at place n. -/
theorem modify_blank_getD {α : Type} (l : List α) (n p : Nat) (v : α) :
    (l.modify n fun _ => v).getD p v = if p = n then v else l.getD p v := by
  simp only [List.getD_eq_getElem?_getD, List.getElem?_modify]
  by_cases e : p = n
  · subst e
    cases l[p]? <;> simp
  · simp [e, Ne.symm e]

/-! Feeds (R83 to R88). -/

/-- The descriptor QFEED reads from seven x registers, with its capability (R83). -/
def Core.feedDesc (k : Core) (ca : BitVec 4) (b : BitVec 5) : FeedDesc :=
  { cap := k.cap ca.toNat, start := k.x (b.toNat + 0), tstr := k.x (b.toNat + 1), count0 := k.x (b.toNat + 2),
    str0 := k.x (b.toNat + 3), count1 := k.x (b.toNat + 4), str1 := k.x (b.toNat + 5), flags := k.x (b.toNat + 6) }

/-- The slots of a queue once a feed has entered them; a feed of no entries ends at once (R83). -/
def Feed.enter (f : Feed) (desc : FeedDesc) : Feed :=
  if f.active.isSome then { f with waiting := some desc }
  else if desc.count0.toNat * desc.count1.toNat = 0 then f else { f with active := some desc }

/-- The slots of every queue once one of them holds g. -/
def Core.setFeed (k : Core) (q : Nat) (g : Feed) : Core :=
  { k with feeds := (k.feeds ++ List.replicate (16 - k.feeds.length) ({} : Feed)).set q g }

theorem setFeed_getD (k : Core) (q : BitVec 4) (g : Feed) (p : Nat) :
    (k.setFeed q.toNat g).feeds.getD p {} = if p = q.toNat then g else k.feeds.getD p {} :=
  padded_set_getD _ _ _ _ _ q.isLt

/-- QFEED with a good descriptor, a readable ordinary capability and a slot free. -/
theorem execQfeed_enters (s : State) (q ca : BitVec 4) (b : BitVec 5) :
    let k := s.me.core
    let desc := k.feedDesc ca b
    let f := k.feeds.getD q.toNat {}
    b.toNat ≤ 25 → q.toNat < s.me.nq → desc.count0.toNat ≤ 2 ^ 24 → desc.count1.toNat ≤ 2 ^ 24 →
    desc.flags.toNat % 4 ≠ 3 → desc.flags.toNat < 64 → capLen desc.cap ≠ 0 → capKind desc.cap = 0 →
    capPerm desc.cap &&& 1 ≠ 0 → ¬(f.active.isSome ∧ f.waiting.isSome) →
    execQfeed q ca b s = .next (s.scalarNext fun k => k.setFeed q.toNat (f.enter desc)) := by
  intro k desc f hb hq h0 h1 hmod hflags hlen hkind hperm hfree
  have good : ¬(25 < b.toNat ∨ s.me.nq ≤ q.toNat ∨ 2 ^ 24 < desc.count0.toNat ∨ 2 ^ 24 < desc.count1.toNat
      ∨ desc.flags.toNat % 4 = 3 ∨ 64 ≤ desc.flags.toNat) := by omega
  refine congrArg Host.Outcome.next ((if_neg good).trans ((if_neg hlen).trans ((if_neg fun hne => hne hkind).trans
    ((if_neg hperm).trans ((if_neg hfree).trans ?_)))))
  simp only [Feed.enter, FeedDesc.entries, beq_iff_eq]
  rfl

/-- QHALT where every lane word released before it has issued. -/
theorem execQhalt_empties (s : State) (q : BitVec 4)
    (hp : s.me.core.pending = 0 ∨ (s.me.inFlight = true ∧ s.me.core.pending = 1)) :
    execQhalt q s = .next (s.scalarNext fun k =>
      { k with feeds := k.feeds.modify q.toNat fun _ => {}, queues := k.queues.modify q.toNat fun _ => [] }) := by
  unfold execQhalt
  simp only
  rw [if_pos hp]

/-- Settles O5: QFEED and QHALT are one change of the queue's slots and entries, QSTAT one write of its snapshot. -/
theorem scalarFeeds : Obligations.ScalarFeeds := by
  intro s q ca d b h
  refine ⟨fun hb hq h0 h1 hmod hflags hlen hkind hperm hfree => ?qfeed, fun hp => ?qhalt, ?qstat⟩
  case qfeed =>
    obtain ⟨t, ht, only, core⟩ := givesCore_scalarNext s
      (fun k => k.setFeed q.toNat ((s.me.core.feeds.getD q.toNat {}).enter (s.me.core.feedDesc ca b))) h
    have feeds (p : Nat) : t.me.core.feeds.getD p {} = if p = q.toNat then
        (s.me.core.feeds.getD q.toNat {}).enter (s.me.core.feedDesc ca b) else s.me.core.feeds.getD p {} := by
      rw [core]
      exact setFeed_getD s.me.core q _ p
    refine ⟨t, (execQfeed_enters s q ca b hb hq h0 h1 hmod hflags hlen hkind hperm hfree).trans ht, only, by rw [core]; rfl,
      by rw [core]; rfl, ?_, fun p hp => ?_⟩
    · exact (feeds q.toNat).trans (if_pos rfl)
    · exact (feeds p).trans (if_neg hp)
  case qhalt =>
    obtain ⟨t, ht, only, core⟩ := givesCore_scalarNext s
      (fun k => { k with feeds := k.feeds.modify q.toNat fun _ => {}, queues := k.queues.modify q.toNat fun _ => [] }) h
    have feeds (p : Nat) : t.me.core.feeds.getD p {} = if p = q.toNat then {} else s.me.core.feeds.getD p {} := by
      rw [core]
      exact modify_blank_getD _ _ p _
    have queues (p : Nat) : t.me.core.queues.getD p [] = if p = q.toNat then [] else s.me.core.queues.getD p [] := by
      rw [core]
      exact modify_blank_getD _ _ p _
    exact ⟨t, (execQhalt_empties s q hp).trans ht, only, by rw [core], (queues q.toNat).trans (if_pos rfl),
      (feeds q.toNat).trans (if_pos rfl), fun p hp => ⟨(queues p).trans (if_neg hp), (feeds p).trans (if_neg hp)⟩⟩
  case qstat =>
    refine scalarSet_gives s d h ?_
    simp only [flagNat, Nat.mul_comm]
    rfl

end Sys2Proof.Machine
end

section
/-! PROOFS. The special registers (O6). -/

namespace Sys2Proof.Machine

/-! SRD (R69 to R72). -/

/-- The latch of a read leaves every register of the course but the two holding registers (R72). -/
theorem latch_eq (s : State) (n : Nat) (k : Core) (lclock : Nat) :
    s.latch n k lclock = { k with clockHold := (s.latch n k lclock).clockHold, lclockHold := (s.latch n k lclock).lclockHold } := by
  unfold State.latch
  split
  · rfl
  · split <;> rfl

theorem latch_x (s : State) (n : Nat) (k : Core) (lclock m : Nat) : (s.latch n k lclock).x m = k.x m := by
  rw [latch_eq]
  rfl

theorem latch_pc (s : State) (n : Nat) (k : Core) (lclock : Nat) : (s.latch n k lclock).pc = k.pc := by
  rw [latch_eq]

/-- A read of any special register but %clock and %lclock latches nothing. -/
theorem latch_other (s : State) (n : Nat) (k : Core) (lclock : Nat) (hc : n ≠ 0x052) (hl : n ≠ 0x054) :
    s.latch n k lclock = k := by
  rw [State.latch, if_neg hc, if_neg hl]

/-- SRD of any special register: its value in x[d], and the latch. -/
theorem execSrd_core (s : State) (d : BitVec 5) (num : BitVec 16) (h : Running s) :
    GivesCore s { (s.latch num.toNat s.me.core s.me.lclock).setX d.toNat (s.special s.cur num.toNat) with pc := s.me.core.pc + 4 }
      (execSrd d num s) := by
  obtain ⟨t, ht, only, core⟩ := givesCore_scalarNext s
    (fun k => (s.latch num.toNat k s.me.lclock).setX d.toNat (s.special s.cur num.toNat)) h
  refine ⟨t, ht, only, ?_⟩
  rw [core, setX_pc, latch_pc]

/-- SRD of a special register that nothing is latched for: x[d] alone is written, with the value the spec names. -/
theorem execSrd_gives (s : State) (d : BitVec 5) (num : BitVec 16) (v : Nat) (h : Running s)
    (hv : s.special s.cur num.toNat = BitVec.ofNat 32 v) (hn : num.toNat ≠ 0x052 ∧ num.toNat ≠ 0x054) :
    GivesX s (s.me.core.pc + 4) d (BitVec.ofNat 32 v) (execSrd d num s) := by
  refine givesX_modCore s _ d _ _ h ?_
  simp only [latch_other _ _ _ _ hn.1 hn.2, setX_pc, hv]

theorem execSrd_value (s : State) (d : BitVec 5) (num : BitVec 16) (h : Running s) :
    ∃ t, execSrd d num s = .next t ∧ OnlyCore s t ∧ t.me.core.pc = s.me.core.pc + 4
      ∧ t.me.core.x d.toNat = inX d (s.special s.cur num.toNat) ∧ ∀ m, m ≠ d.toNat → t.me.core.x m = s.me.core.x m := by
  obtain ⟨t, ht, only, core⟩ := execSrd_core s d num h
  refine ⟨t, ht, only, by rw [core], ?_, fun m hm => ?_⟩ <;> rw [core]
  · exact inX_setX _ d _
  · exact (x_setX_ne _ _ m _ hm).trans (latch_x s _ _ _ m)

theorem execSrd_clock (s : State) (d : BitVec 5) (h : Running s) :
    ∃ t, execSrd d 0x052 s = .next t ∧ OnlyCore s t ∧ t.me.core.pc = s.me.core.pc + 4
      ∧ t.me.core.x d.toNat = inX d (BitVec.ofNat 32 s.clock) ∧ t.me.core.clockHold = BitVec.ofNat 32 (s.clock / 2 ^ 32) := by
  obtain ⟨t, ht, only, core⟩ := execSrd_core s d 0x052 h
  refine ⟨t, ht, only, by rw [core], ?_, ?_⟩ <;> rw [core]
  · exact inX_setX _ d _
  · rw [setX_eq]
    rfl

theorem execSrd_lclock (s : State) (d : BitVec 5) (h : Running s) :
    ∃ t, execSrd d 0x054 s = .next t ∧ OnlyCore s t ∧ t.me.core.pc = s.me.core.pc + 4
      ∧ t.me.core.x d.toNat = inX d (BitVec.ofNat 32 s.me.lclock)
      ∧ t.me.core.lclockHold = BitVec.ofNat 32 (s.me.lclock / 2 ^ 32) := by
  obtain ⟨t, ht, only, core⟩ := execSrd_core s d 0x054 h
  refine ⟨t, ht, only, by rw [core], ?_, ?_⟩ <;> rw [core]
  · exact inX_setX _ d _
  · rw [setX_eq]
    rfl

/-! SWR (R71, R89). -/

/-- Word w of a 256-bit mask with the bits of v. -/
theorem shifted_word_getLsbD (v : Word) (w i : Nat) (hi : i < 256) :
    (BitVec.ofNat 256 (v.toNat * 2 ^ (32 * w))).getLsbD i = (i / 32 == w && v.getLsbD (i % 32)) := by
  rw [BitVec.getLsbD_ofNat, Nat.testBit_mul_two_pow]
  by_cases hw : i / 32 = w
  · have hlo : 32 * w ≤ i := by omega
    have hrem : i - 32 * w = i % 32 := by omega
    simp [hi, hw, hlo, hrem, BitVec.getLsbD]
  · by_cases hlo : 32 * w ≤ i
    · have far : 32 ≤ i - 32 * w := by omega
      have zero : v.toNat.testBit (i - 32 * w) = false := BitVec.getLsbD_of_ge v _ far
      simp [hw, zero]
    · simp [hw, hlo]

theorem execSwr_fpflags (s : State) (a : BitVec 5) (h : Running s) :
    GivesCore s { s.me.core with pc := s.me.core.pc + 4, fpflags := (s.x a).setWidth 5 } (execSwr a 0x020 s) :=
  givesCore_scalarNext s (fun k => { k with fpflags := (s.x a).setWidth 5 }) h

/-- The number of the special register of word w of %faultmask. -/
theorem faultmask_toNat (w : Nat) (hw : w < 8) : (0x018 + BitVec.ofNat 16 w).toNat = 0x018 + w := by
  rw [BitVec.toNat_add, BitVec.toNat_ofNat]
  simp
  omega

/-- SWR of word w of %faultmask clears the bits that are 1 in x[a]. -/
theorem execSwr_faultmask (s : State) (a : BitVec 5) (w : Nat) (h : Running s) (hw : w < 8) :
    GivesCore s { s.me.core with pc := s.me.core.pc + 4,
                                 faultMask := s.me.core.faultMask &&& ~~~BitVec.ofNat 256 ((s.x a).toNat * 2 ^ (32 * w)) }
      (execSwr a (0x018 + BitVec.ofNat 16 w) s) := by
  have num := faultmask_toNat w hw
  unfold execSwr
  simp only [num, if_neg (show ¬0x018 + w = 0x020 by omega), Nat.add_sub_cancel_left]
  exact givesCore_scalarNext s
    (fun k => { k with faultMask := k.faultMask &&& ~~~BitVec.ofNat 256 ((s.x a).toNat * 2 ^ (32 * w)) }) h

/-- Settles O6: a read writes x[d] and its latch, SWR one register's bits, NOP nothing. -/
theorem scalarSpecialRegisters : Obligations.ScalarSpecialRegisters := by
  intro s d a num h
  have reads (n : BitVec 16) (v : Nat) := execSrd_gives s d n v h
  refine ⟨reads 0x000 _ rfl (by decide), reads 0x001 _ rfl (by decide), reads 0x002 _ rfl (by decide),
    reads 0x004 _ rfl (by decide), reads 0x005 _ rfl (by decide), reads 0x007 _ rfl (by decide), reads 0x009 _ rfl (by decide),
    reads 0x00A _ rfl (by decide), reads 0x00B _ rfl (by decide), reads 0x00C _ rfl (by decide),
    reads 0x020 _ (BitVec.ofNat_toNat 32 s.me.core.fpflags).symm (by decide), reads 0x030 _ rfl (by decide),
    reads 0x032 _ rfl (by decide), reads 0x033 _ rfl (by decide), reads 0x053 _ (word_ofNat_toNat _).symm (by decide),
    reads 0x055 _ (word_ofNat_toNat _).symm (by decide),
    execSrd_clock s d h, execSrd_lclock s d h, execSrd_value s d num h, execSwr_fpflags s a h, fun w hw => ?_,
    givesCore_scalarNext s id h⟩
  obtain ⟨t, ht, only, core⟩ := execSwr_faultmask s a w h hw
  refine ⟨t, ht, only, by rw [core], fun i hi => ?_⟩
  rw [core]
  simp only [BitVec.getLsbD_and, BitVec.getLsbD_not, shifted_word_getLsbD _ _ _ hi, hi, decide_true, Bool.true_and]

end Sys2Proof.Machine
end

section
/-! PROOFS. The scalar trap, exit and wait (O11). -/

namespace Sys2Proof.Machine

/-! Checkpoints (R182). -/

/-- A commit of every held store leaves no held scratch byte. -/
theorem commitS_heldS (s : State) (i : Nat) (hi : i < s.courses.length) : ((s.commitS i fun _ => true).course i).heldS = [] := by
  unfold State.commitS
  simp only
  rw [modCourse_same]
  · simp
  · split
    · split <;> exact hi
    · exact hi

/-- What a checkpoint leaves of its course: the registers as they were, recorded, the shadow and the held scratch bytes gone. -/
theorem checkpoint_course (s : State) (i : Nat) (hi : i < s.courses.length) :
    ((s.checkpoint i).course i).core = (s.course i).core ∧ ((s.checkpoint i).course i).ckpt = (s.course i).core
      ∧ ((s.checkpoint i).course i).shadow = [] ∧ ((s.checkpoint i).course i).heldS = [] := by
  have core := (commit_mild s i).core i
  have hc : i < (s.commit i).courses.length := by rw [(commit_mild s i).length]; exact hi
  unfold State.checkpoint
  rw [modCourse_same _ i _ hc]
  exact ⟨core, core, rfl, commitS_heldS _ i (by rw [(commitG_mild s i _).length]; exact hi)⟩

theorem checkpoint_me (s : State) (h : Running s) :
    (s.checkpoint s.cur).me.core = s.me.core ∧ (s.checkpoint s.cur).me.ckpt = s.me.core ∧ (s.checkpoint s.cur).me.shadow = []
      ∧ (s.checkpoint s.cur).me.heldS = [] := by
  rw [State.me, (checkpoint_mild s s.cur).cur]
  exact checkpoint_course s s.cur h

/-! STRAP (R90). -/

/-- The trap of a scalar word with no lane word pending is taken at once (R67). -/
theorem scalarTrap_takes (s : State) (f : FaultInfo) (hp : s.me.core.pending = 0) :
    s.scalarTrap f = s.takeTrap s.cur { f with scalar := true, pc := s.me.core.pc } := if_pos hp

theorem execStrap_takes (s : State) (code : BitVec 16) (hp : s.me.core.pending = 0) :
    execStrap code s = .next (s.takeTrap s.cur { cause := 19, code := code.toNat, scalar := true, pc := s.me.core.pc }) := by
  rw [execStrap, if_pos hp, scalarTrap_takes s _ hp]
  rfl

theorem execStrap_waits (s : State) (code : BitVec 16) (hp : s.me.core.pending ≠ 0) :
    execStrap code s = .next (s.scalarWait { kind := .lanes }) := by
  rw [execStrap, if_neg hp]

/-! SEXIT (R91). -/

/-- The scalar stream ended: with no live thread the released words go with it (R91). -/
def Core.endScalar (k : Core) : Core :=
  if k.live == 0 then { k with ended := true, relq := [], pending := 0 } else { k with ended := true }

theorem endScalar_next (k : Core) : { k.endScalar with pc := k.endScalar.pc + 4 } =
    if k.live = 0 then { k with pc := k.pc + 4, ended := true, relq := [], pending := 0 }
    else { k with pc := k.pc + 4, ended := true } := by
  simp only [Core.endScalar, beq_iff_eq]
  split <;> rfl

theorem execSexit_ends (s : State) (h : Running s) (hf : s.me.inFlight = false) :
    ∃ t, execSexit s = .next t
      ∧ t.me.core = (if s.me.core.live = 0 then
            { s.me.core with pc := s.me.core.pc + 4, ended := true, relq := [], pending := 0 }
          else { s.me.core with pc := s.me.core.pc + 4, ended := true })
      ∧ t.me.ckpt = t.me.core ∧ t.me.shadow = [] ∧ t.me.heldS = [] := by
  have step : execSexit s = .next (((s.scalarNext Core.endScalar).modMe Course.retryPush).checkpoint s.cur) := by
    rw [execSexit, hf]
    rfl
  obtain ⟨⟨hu, hlen, -⟩, me⟩ := scalarNext_modMe s Core.endScalar Course.retryPush h
  generalize (s.scalarNext Core.endScalar).modMe Course.retryPush = u at step hu hlen me
  have cur : u.cur = s.cur := by rw [hu]
  have ended : u.me.core = { s.me.core.endScalar with pc := s.me.core.endScalar.pc + 4 } := by
    rw [me]
    rfl
  obtain ⟨core, ckpt, shadow, heldS⟩ := checkpoint_me u (by rw [Running, cur, hlen]; exact h)
  rw [← cur] at step
  exact ⟨_, step, core.trans (ended.trans (endScalar_next _)), ckpt.trans core.symm, shadow, heldS⟩

/-! XWAIT (R92). -/

theorem homeRead_reads (s : State) (w : Who) (va n : Nat) (r : List Byte × Nat × State) (h : s.homeRead w va n = .ok r) :
    Reads s r.2.2 := by
  have note := noteHome_reads s w va n
  rw [State.noteHome, h] at note
  exact note

theorem Reads.running {s t : State} (h : Reads s t) (r : Running s) : Running t := by
  rw [Running, h.cur, h.courses]
  exact r

theorem Reads.me {s t : State} (h : Reads s t) : t.me = s.me := by
  rw [State.me, h.cur]
  exact h.course s.cur

/-- XWAIT where its word has been read: it waits for an issued lane word, goes on where the condition holds, or watches. -/
theorem execXwait_read (s t0 : State) (d : BitVec 5) (ca : BitVec 4) (imm : BitVec 16) (bytes : List Byte) (wts : Nat) :
    let c := s.me
    let va := capBase (c.core.cap ca.toNat)
    let w := bytesWord bytes
    let went := t0.scalarNext fun k => { k.setX d.toNat w with lobs := max k.lobs wts }
    s.useErr c.who (c.core.cap ca.toNat) 0 4 va 4 4 false = none → s.homeRead c.who va 4 = .ok (bytes, wts, t0) →
    s.badVA c.who va 4 = false →
    execXwait d ca imm s = .next (
      if imm.getLsbD 3 && c.inFlight then s.scalarWait { kind := .lanes }
      else if waitCond (imm.toNat % 8) w (s.x d) then
        if imm.getLsbD 3 then (went.acquire s.cur wts).checkpoint s.cur else went
      else t0.scalarWait { kind := .word, line := s.watchLine c.who va, internal := !(imm.getLsbD 7 || s.extPage c.who va) }) := by
  intro c va w went herr hread hbad
  unfold execXwait
  simp only
  rw [show s.useErr s.me.who (s.me.core.cap ca.toNat) 0 pA (capBase (s.me.core.cap ca.toNat)) 4 4 false = none from herr]
  simp only
  rw [hread]
  simp only
  rw [hbad]
  rfl

/-- A wait keeps its kind. -/
theorem Wait.begin_kind (w : Wait) (old : Option Wait) (now : Nat) : (w.begin old now).kind = w.kind := by
  unfold Wait.begin
  split <;> rfl

theorem scalarWait_me (s : State) (w : Wait) (h : Running s) :
    (s.scalarWait w).me = { s.me with swait := some (w.begin s.me.swas s.clock), swas := none } :=
  modCourse_me s _ h

/-- Settles O11: STRAP by the trap's own rule, SEXIT by what its checkpoint leaves, XWAIT by what its read leaves. -/
theorem scalarTrapExitWait : Obligations.ScalarTrapExitWait := by
  intro s t0 d ca imm code bytes wts h c k cap word holds reads went
  have step (hr : reads) := execXwait_read s t0 d ca imm bytes wts hr.1 hr.2.1 hr.2.2
  have read (hr : reads) : Running t0 ∧ t0.me = s.me :=
    have left := homeRead_reads s _ _ _ _ hr.2.1
    ⟨left.running h, left.me⟩
  have cond {v : Bool} (hh : holds = v) : waitCond (imm.toNat % 8) (bytesWord bytes) (s.x d) = v := hh
  refine ⟨execStrap_takes s code, execStrap_waits s code, execSexit_ends s h, fun hr hh hacq => ?goes,
    fun hr hh hacq hf => ?acquires, fun hr hh hf => ?waits⟩
  case goes =>
    obtain ⟨run, me⟩ := read hr
    have core : went.me.core = { (k.setX d.toNat word) with lobs := max k.lobs wts, pc := k.pc + 4 } := by
      refine (modCore_core t0 _ run).trans ?_
      rw [me, setX_pc]
    refine ⟨(step hr).trans ?_, ?_, ?_, ?_⟩
    · rw [cond hh, hacq]
      rfl
    · rw [core]
      exact inX_setX _ d _
    · rw [core]
    · rw [core]
  case acquires =>
    refine (step hr).trans ?_
    rw [cond hh, hacq, show s.me.inFlight = false from hf]
    rfl
  case waits =>
    obtain ⟨run, me⟩ := read hr
    have goes := step hr
    rw [cond hh, show (imm.getLsbD 3 && s.me.inFlight) = false from hf, if_neg Bool.false_ne_true,
      if_neg Bool.false_ne_true] at goes
    have waiting (w : Wait) := scalarWait_me t0 w run
    exact ⟨_, _, goes, (congrArg Course.core (waiting _)).trans (show t0.me.core = s.me.core by rw [me]),
      congrArg Course.swait (waiting _), Wait.begin_kind _ _ _⟩

end Sys2Proof.Machine
end

section
/-! SUPPORT. Masks and numbers built bit by bit, comparisons, and the push to the return queue (R82, R158). -/

namespace Sys2Proof.Machine

/-! Numbers and masks built bit by bit. -/

/-- Bit i of the number whose bits are a test of each element of a list, the first lowest. -/
theorem foldr_flags_testBit {α : Type} (l : List α) (f : α → Bool) (i : Nat) :
    (l.foldr (fun v acc => flagNat (f v) + 2 * acc) 0).testBit i = l[i]?.any f := by
  induction l generalizing i with
  | nil => simp
  | cons v l ih =>
    rw [List.foldr_cons]
    generalize l.foldr (fun v acc => flagNat (f v) + 2 * acc) 0 = rest at ih
    cases i with
    | zero => cases h : f v <;> simp [flagNat, h]
    | succ i =>
      have half : (flagNat (f v) + 2 * rest) / 2 = rest := by cases f v <;> simp [flagNat]; omega
      rw [Nat.testBit_succ, half, ih, List.getElem?_cons_succ]

theorem foldr_range_testBit (n : Nat) (f : Nat → Bool) (i : Nat) (hi : i < n) :
    ((List.range n).foldr (fun v acc => flagNat (f v) + 2 * acc) 0).testBit i = f i := by
  rw [foldr_flags_testBit, List.getElem?_range hi]
  rfl

/-! A mask whose bits are a test p of each thread. -/

section
variable {m : Mask} {p : Nat → Bool}

theorem mask_ne_zero (hp : ∀ i, i < 256 → m.getLsbD i = p i) : (m != 0) = (List.range 256).any p := by
  have zero (i : Nat) : (0 : Mask).getLsbD i = false := BitVec.getLsbD_zero
  rw [Bool.eq_iff_iff, bne_iff_ne, List.any_eq_true]
  constructor
  · refine fun hm => Classical.byContradiction fun hno => hm (BitVec.eq_of_getLsbD_eq fun i hi => ?_)
    rw [hp i hi, zero, Bool.eq_false_iff]
    exact fun hb => hno ⟨i, List.mem_range.mpr hi, hb⟩
  · rintro ⟨i, hi, hb⟩ hm
    rw [← hp i (List.mem_range.mp hi), hm, zero] at hb
    cases hb

/-- Where m holds only threads of n, it is n if each thread of n passes the test. -/
theorem mask_eq_all {n : Mask} (hp : ∀ i, i < 256 → m.getLsbD i = p i) (hn : ∀ i, p i = true → n.getLsbD i = true) :
    (m == n) = (List.range 256).all fun i => !n.getLsbD i || p i := by
  have bit (i : Nat) : (!n.getLsbD i || p i) = true ↔ p i = n.getLsbD i := by
    cases hpi : p i with
    | true => simp [hn i hpi]
    | false => cases n.getLsbD i <;> simp
  rw [Bool.eq_iff_iff, beq_iff_eq, List.all_eq_true]
  constructor
  · rintro rfl i hi
    exact (bit i).mpr (hp i (List.mem_range.mp hi)).symm
  · intro h
    exact BitVec.eq_of_getLsbD_eq fun i hi => (hp i hi).trans ((bit i).mp (h i (List.mem_range.mpr hi)))

theorem threadsOf_eq_filter (hp : ∀ i, i < 256 → m.getLsbD i = p i) : threadsOf m = (List.range 256).filter p :=
  List.filter_congr fun i hi => hp i (List.mem_range.mp hi)
end

/-! Comparisons (R158). -/

/-- The threads of a comparison's mask: those it is asked of whose operands meet the condition. -/
theorem compareUnits_getLsbD (sel : Mask) (ty cnd : Nat) (a b : List Word) (ha : a.length = 256) (i : Nat) (hi : i < 256) :
    (compareUnits sel ty cnd a b).1.getLsbD i = (sel.getLsbD i && (cond ty cnd (a.getD i 0) (b.getD i 0)).1) := by
  have step (t : Nat) (acc : Nat) :
      (if sel.getLsbD (0 + t) then if (cond ty cnd (a.getD t 0) (b.getD t 0)).1 then (1 : Word) else 0 else 0).toNat + 2 * acc
        = flagNat (sel.getLsbD t && (cond ty cnd (a.getD t 0) (b.getD t 0)).1) + 2 * acc := by
    rw [Nat.zero_add]
    cases sel.getLsbD t <;> cases (cond ty cnd (a.getD t 0) (b.getD t 0)).1 <;> rfl
  simp only [compareUnits, mapUnits_vals, ha, List.foldr_map, step]
  rw [BitVec.getLsbD_ofNat, foldr_range_testBit 256 _ i hi]
  simp [hi]

/-! The issue and the push (R82). -/

/-- What an issue takes from the course is the course itself. -/
theorem issue_me (s : State) (qguard : Mask) (reads grouped : List (BitVec 8 × Mask)) (e : Env)
    (h : s.issue qguard reads grouped = .ok e) : e.me = s.me := by
  unfold State.issue at h
  simp only at h
  split at h
  · cases h
  · next e' he =>
    have me : e'.me = s.me := by
      split at he
      · cases he
        rfl
      · split at he
        · split at he <;> cases he
        · split at he
          · cases he
            rfl
          · split at he <;> cases he
          · cases he
            rfl
    split at h
    · cases h
    · split at h
      · cases h
      · cases h
        exact me

/-- A push that has room, or that is discarded after SEXIT, completes its word. -/
theorem pushRet_end (s : State) (e : Env) (es : List Word) (f : Core → Core) (h : Running s) (ha : e.after = none)
    (hroom : decide (s.me.core.retq.length + es.length ≤ 32) = true ∨ s.me.core.ended = true) :
    LaneEnd s (s.pushRet e es f) e [] fun c =>
      if decide (s.me.core.retq.length + es.length ≤ 32) then { f c with retq := (f c).retq ++ es } else f c := by
  unfold State.pushRet
  by_cases fits : s.me.core.retq.length + es.length ≤ 32
  · simp only [fits, decide_true, if_true]
    exact finish_end s e [] _ h ha
  · have ended : s.me.core.ended = true := by simpa [fits] using hroom
    simp only [fits, ended, decide_false, if_true, if_false, Bool.false_eq_true]
    exact finish_end s e [] f h ha

/-- A push without room waits while the scalar stream goes on. -/
theorem pushRet_waits (s : State) (e : Env) (es : List Word) (f : Core → Core)
    (hfull : decide (s.me.core.retq.length + es.length ≤ 32) = false) (hend : s.me.core.ended = false) :
    s.pushRet e es f = s.stop (.wait { kind := .push }) := by
  rw [State.pushRet, if_neg (of_decide_eq_false hfull), if_neg (by simp [hend])]

theorem dropWord_retq (c : Core) : c.dropWord.retq = c.retq := by
  unfold Core.dropWord
  split <;> rfl

theorem after_retq (c : Core) (q : Option Nat) : (c.after q).retq = c.retq := by
  unfold Core.after
  rw [dropWord_retq]
  cases q <;> rfl

end Sys2Proof.Machine
end

section
/-! PROOFS. VOTE and RQP, which push to the return queue (O23). -/

namespace Sys2Proof.Machine

/-! VOTE (R164). -/

/-- The entries a vote pushes for the threads that voted, by its mode. -/
def voteEntries (e : Env) (w : Single) (votes : Mask) : List Word :=
  match w.mod.toNat / 16 % 4 with
  | 0 => ballot e.me.core (e.guard w.ng) votes
  | 1 => [if votes != 0 then 1 else 0]
  | 2 => [if votes == e.guard w.ng then 1 else 0]
  | _ => [BitVec.ofNat 32 (threadsOf votes).length]

/-- The votes of a VOTE word and their flags. -/
def voteOf (e : Env) (w : Single) : Mask × Num.Flags :=
  compareUnits (e.guard w.ng) w.ty.toNat (w.mod.toNat % 16) (e.src w.ty.toNat w.imm w.a) (e.src w.ty.toNat w.imm w.b)

/-- What a VOTE word does to the registers beside its push. -/
def voteFlags (e : Env) (w : Single) (c : Core) : Core := { c with fpflags := c.fpflags ||| (voteOf e w).2 }

/-- VOTE where its sources can be read. -/
theorem execVote_pushes (s : State) (w : Single) (e : Env)
    (he : s.issue (s.me.core.guard w.ng) [(w.a, s.me.core.guard w.ng), (w.b, s.me.core.guard w.ng)] = .ok e) :
    execVote w s = .next (s.pushRet e (voteEntries e w (voteOf e w).1) (voteFlags e w)) := by
  unfold execVote
  simp only [he]
  rfl

theorem voteEntries_length (e : Env) (w : Single) (votes : Mask) :
    (voteEntries e w votes).length = if w.mod.toNat / 16 % 4 = 0 then 8 else 1 := by
  unfold voteEntries
  split
  · next h => simp [h, ballot]
  · next h => simp [h]
  · next h => simp [h]
  · next h _ _ => rw [if_neg h]; rfl

theorem voteOf_getLsbD (e : Env) (w : Single) (i : Nat) (hi : i < 256) :
    (voteOf e w).1.getLsbD i = ((e.guard w.ng).getLsbD i
      && (cond w.ty.toNat (w.mod.toNat % 16) (e.unit w.ty.toNat w.imm w.a i) (e.unit w.ty.toNat w.imm w.b i)).1) :=
  compareUnits_getLsbD _ _ _ _ _ (source_length _ _ _ _ _ _) i hi

/-- Bit j of a ballot: some active voter has the identifier j. -/
theorem ballot_getLsbD (c : Core) (active votes : Mask) (j : Nat) (hj : j < 256) :
    ((ballot c active votes).getD (j / 32) 0).getLsbD (j % 32) = true
      ↔ ∃ i, i < 256 ∧ active.getLsbD i = true ∧ votes.getLsbD i = true ∧ c.cli.getD i i = j := by
  have word : (ballot c active votes).getD (j / 32) 0 = BitVec.ofNat 32 ((List.range 32).foldr (fun i acc =>
      flagNat ((((threadsOf active).filter fun t => votes.getLsbD t).map fun t => c.cli.getD t t).contains (32 * (j / 32) + i))
        + 2 * acc) 0) := by
    rw [List.getD_eq_getElem?_getD]
    simp only [ballot, List.getElem?_map, List.getElem?_range (show j / 32 < 8 by omega), Option.map_some, Option.getD_some]
  have hlo : j % 32 < 32 := Nat.mod_lt _ (by omega)
  rw [word, BitVec.getLsbD_ofNat, foldr_range_testBit 32 _ _ hlo, Nat.div_add_mod, decide_eq_true hlo, Bool.true_and]
  simp only [List.contains_iff_mem, List.mem_map, List.mem_filter, threadsOf, List.mem_range, and_assoc]

/-! RQP (R165). -/

theorem rqValue_first (l : List Word) : rqValue 0 l = BitVec.ofNat 32 ((l.map BitVec.toNat).headD 0) := by
  cases l with
  | nil => rfl
  | cons v l => exact (word_ofNat_toNat v).symm

theorem foldl_max_toNat (l : List Word) (a : Word) :
    (l.foldl (fun m v => if m.toNat < v.toNat then v else m) a).toNat = (l.map BitVec.toNat).foldl max a.toNat := by
  induction l generalizing a with
  | nil => rfl
  | cons v l ih =>
    rw [List.foldl_cons, ih, List.map_cons, List.foldl_cons, nat_max_of_lt]
    congr 1
    split <;> rfl

theorem foldl_min_toNat (l : List Word) (a : Word) :
    (l.foldl (fun m v => if v.toNat < m.toNat then v else m) a).toNat = (l.map BitVec.toNat).foldl min a.toNat := by
  induction l generalizing a with
  | nil => rfl
  | cons v l ih =>
    rw [List.foldl_cons, ih, List.map_cons, List.foldl_cons, Nat.min_comm a.toNat, nat_min_of_lt]
    congr 1
    split <;> rfl

theorem foldl_add_word (l : List Word) (a : Word) : l.foldl (· + ·) a = a + BitVec.ofNat 32 (l.map BitVec.toNat).sum := by
  induction l generalizing a with
  | nil => simp
  | cons v l ih =>
    rw [List.foldl_cons, ih, List.map_cons, List.sum_cons, BitVec.ofNat_add, word_ofNat_toNat, BitVec.add_assoc]

theorem rqValue_largest (l : List Word) : rqValue 1 l = BitVec.ofNat 32 ((l.map BitVec.toNat).foldl max 0) :=
  (word_ofNat_toNat _).symm.trans (congrArg (BitVec.ofNat 32) (foldl_max_toNat l 0))

theorem rqValue_smallest (l : List Word) : rqValue 2 l = BitVec.ofNat 32 ((l.map BitVec.toNat).foldl min (2 ^ 32 - 1)) :=
  (word_ofNat_toNat _).symm.trans (congrArg (BitVec.ofNat 32) (foldl_min_toNat l 0xFFFFFFFF))

theorem rqValue_sum (l : List Word) : rqValue 3 l = BitVec.ofNat 32 (l.map BitVec.toNat).sum :=
  (foldl_add_word l 0).trans (BitVec.zero_add _)

/-- The values RQP takes its one from: those of the active threads, in their order. -/
def rqpValues (e : Env) (w : Single) : List Word := (threadsOf (e.guard w.ng)).map (e.unit 0 0 w.d)

/-- RQP where its source can be read. -/
theorem execRqp_pushes (s : State) (w : Single) (e : Env)
    (he : s.issue (s.me.core.guard w.ng) [(w.d, s.me.core.guard w.ng)] = .ok e) :
    execRqp w s = .next (s.pushRet e [rqValue (w.mod.toNat % 4) (rqpValues e w)] id) := by
  unfold execRqp
  simp only [he]
  rfl

/-- Settles O23: a push completes its word or waits, and each entry is read bit by bit or as one value. -/
theorem laneReturnQueueWords : Obligations.LaneReturnQueueWords := by
  intro s w h k g ty fits pushed idOf
  refine ⟨?vote, ?rqp, ?rqpWaits, ?full⟩
  case vote =>
    intro e he ha mode n on yes all hroom
    have len : (voteEntries e w (voteOf e w).1).length = n := voteEntries_length e w _
    have votes (i : Nat) (hi : i < 256) : (voteOf e w).1.getLsbD i = yes i := voteOf_getLsbD e w i hi
    have active (i : Nat) (hy : yes i = true) : (e.guard w.ng).getLsbD i = true := (Bool.and_eq_true_iff.mp hy).1
    have room := pushRet_end s e (voteEntries e w (voteOf e w).1) (voteFlags e w) h ha
    rw [len] at room
    refine ⟨_, voteEntries e w (voteOf e w).1, (voteOf e w).2, execVote_pushes s w e he, room hroom, len, fun hm => ?ballot,
      fun hm => ?any, fun hm => ?all, fun hm => ?count⟩ <;> rw [voteEntries, show w.mod.toNat / 16 % 4 = _ from hm]
    case ballot =>
      intro j hj
      rw [Bool.eq_iff_iff, issue_me s _ _ _ e he, List.any_eq_true]
      refine (ballot_getLsbD k _ _ j hj).trans ⟨?_, ?_⟩
      · rintro ⟨i, hi, -, hv, hid⟩
        exact ⟨i, List.mem_range.mpr hi, Bool.and_eq_true_iff.mpr ⟨(votes i hi).symm.trans hv, beq_iff_eq.mpr hid⟩⟩
      · rintro ⟨i, hi, hb⟩
        obtain ⟨hy, hid⟩ := Bool.and_eq_true_iff.mp hb
        have hi := List.mem_range.mp hi
        exact ⟨i, hi, active i hy, (votes i hi).trans hy, beq_iff_eq.mp hid⟩
    case any => exact congrArg (fun b : Bool => [if b then (1 : Word) else 0]) (mask_ne_zero votes)
    case all => exact congrArg (fun b : Bool => [if b then (1 : Word) else 0]) (mask_eq_all votes active)
    case count => exact congrArg (fun l : List Nat => [BitVec.ofNat 32 l.length]) (threadsOf_eq_filter votes)
  case rqp =>
    intro e he ha vs red hroom
    have vals : vs = (rqpValues e w).map BitVec.toNat := by
      rw [rqpValues, List.map_map]
      rfl
    refine ⟨_, _, execRqp_pushes s w e he, pushRet_end s e _ id h ha hroom, ?_⟩
    rw [vals]
    refine ⟨fun hr => ?_, fun hr => ?_, fun hr => ?_, fun hr => ?_⟩ <;> rw [show w.mod.toNat % 4 = _ from hr]
    · exact rqValue_first _
    · exact rqValue_largest _
    · exact rqValue_smallest _
    · exact rqValue_sum _
  case rqpWaits =>
    intro e he hfull hend
    exact (execRqp_pushes s w e he).trans (congrArg _ (pushRet_waits s e _ id hfull hend))
  case full =>
    intro e he n
    have len : (voteEntries e w (voteOf e w).1).length = n := voteEntries_length e w _
    have room : fits n = decide (k.retq.length + (voteEntries e w (voteOf e w).1).length ≤ 32) := by rw [len]
    refine ⟨fun hfull hend => ?_, fun hfull hend ha => ?_⟩ <;> rw [room] at hfull
    · exact (execVote_pushes s w e he).trans (congrArg _ (pushRet_waits s e _ _ hfull hend))
    · have fin := pushRet_end s e (voteEntries e w (voteOf e w).1) (voteFlags e w) h ha (.inr hend)
      refine ⟨_, execVote_pushes s w e he, ?_⟩
      rw [fin.core, show decide (s.me.core.retq.length + _ ≤ 32) = false from hfull, if_neg Bool.false_ne_true]
      exact after_retq _ _

end Sys2Proof.Machine
end

section
/-! PROOFS. The conversion class (O19). -/

namespace Sys2Proof.Machine

/-! CVT (R126). -/

/-- Element i of A as CVT converts it. -/
def cvtElem (w : Single) (a : Word) (i : Nat) : Num.Res :=
  Num.conv w.ty.toNat (w.mod.toNat % 16) (Num.rmOf w.rnd) w.sat (Num.elem (Legal.width w.ty.toNat) a i)

/-- A CVT to a type of no more elements writes all of D. -/
theorem execCvt_fills (s : State) (w : Single) (hc : Legal.count (w.mod.toNat % 16) ≤ Legal.count w.ty.toNat) :
    let nd := Legal.count (w.mod.toNat % 16)
    execCvt w s = .next (s.mapWord w { a := some w.ty.toNat } fun _ a _ _ =>
      Num.packRes (Legal.width (w.mod.toNat % 16)) ((List.range nd).map fun i =>
        cvtElem w a (if nd < Legal.count w.ty.toNat then w.sel.toNat * nd + i else i))) := by
  simp only [execCvt, cvtElem, decide_eq_false (Nat.not_lt.mpr hc), Bool.false_eq_true, if_false]

/-- A CVT to a type of more elements writes one part of D. -/
theorem execCvt_narrows (s : State) (w : Single) (hc : Legal.count w.ty.toNat < Legal.count (w.mod.toNat % 16)) :
    let ns := Legal.count w.ty.toNat
    let wd := Legal.width (w.mod.toNat % 16)
    let lo := w.sel.toNat * ns * wd
    execCvt w s = .next (s.mapWord w { a := some w.ty.toNat, d := true } (fun _ a _ _ =>
      let r := Num.packRes wd ((List.range ns).map (cvtElem w a))
      (r.1 <<< lo, r.2)) false (bitMask lo (ns * wd))) := by
  simp only [execCvt, decide_eq_true hc, if_true]
  rfl

/-! SCACC (R129). -/

theorem execScacc_f32 (s : State) (w : Single) (hf : w.mod.toNat % 4 = 1) :
    execScacc w s = .next (s.mapWord w { a := some 2, b := some 2, c := some 2, d := true } scaccF32) := by
  simp only [execScacc, hf, beq_self_eq_true, if_true]

theorem execScacc_e8 (s : State) (w : Single) (hf : w.mod.toNat % 4 ≠ 1) :
    execScacc w s = .next (s.mapWord w { a := some 2, b := some 1, c := some 1, d := true } fun d a b c =>
      Num.scaccE8 d a (Num.elem 8 b (w.sel.toNat % 4)) (Num.elem 8 c (w.sel.toNat / 4))) := by
  simp only [execScacc, beq_eq_false_iff_ne.mpr hf, Bool.false_eq_true, if_false]

/-! SCALE (R130). -/

/-- SCALE reads D where it writes less than all of it. -/
theorem scaleSources_codes (w : Single) :
    Sources.codes { a := some 2, b := some 1, d := w.ty.toNat != 2 } w = if w.ty.toNat ≠ 2 then [w.a, w.b, w.d] else [w.a, w.b] := by
  by_cases h : w.ty.toNat = 2 <;> simp [Sources.codes, h]

/-! BSCL (R131). -/

/-- The values of the threads of block j that a mask has. -/
def blockValues (on : Mask) (v : Nat → Word) (j : Nat) : List Word :=
  (List.range 32).filterMap fun i => if on.getLsbD (32 * j + i) then some (v (32 * j + i)) else none

/-- The greatest exponent of an element type by a BSCL's TGT. -/
def targetEmax (w : Single) : Nat := match w.mod.toNat % 4 with | 0 => 8 | 1 => 15 | _ => 6

/-- The scale bytes a BSCL writes, one word for each thread. -/
def scaleWords (e : Env) (w : Single) : List Word :=
  (List.range 256).map fun t =>
    BitVec.ofNat 32 (blockScale (targetEmax w) (blockValues (e.guard w.ng) (e.unit 2 w.imm w.a) (t / 32)) * 0x01010101)

/-- One value per block, repeated for each of its n threads: thread t's is that of block t / n. -/
theorem flatMap_replicate_blocks {α : Type} (m n : Nat) (f : Nat → α) :
    ((List.range m).flatMap fun j => List.replicate n (f j)) = (List.range (m * n)).map fun t => f (t / n) := by
  induction m with
  | zero => simp
  | succ m ih =>
    rw [List.range_succ, List.flatMap_append, ih, Nat.succ_mul, List.range_add, List.map_append, List.map_map]
    congr 1
    rw [List.flatMap_singleton]
    refine List.ext_getElem (by simp) fun i hi _ => ?_
    have hi : i < n := by simpa using hi
    simp [Nat.div_eq_of_lt hi, Nat.mul_comm m n, Nat.mul_add_div (Nat.zero_lt_of_lt hi)]

/-- The model's list of a block's values, read from a list of all 256, is the block's values by thread. -/
theorem filterMap_block (on : Mask) (l : List Word) (hl : l.length = 256) (j : Nat) (hj : j < 8) :
    ((List.range 32).filterMap fun i => if on.getLsbD (32 * j + i) then l[32 * j + i]? else none)
      = blockValues on (fun t => l.getD t 0) j := by
  have values : (List.range 32).map (fun i => if on.getLsbD (32 * j + i) then l[32 * j + i]? else none)
      = (List.range 32).map fun i => if on.getLsbD (32 * j + i) then some (l.getD (32 * j + i) 0) else none := by
    refine map_range_congr 32 _ _ fun i hi => ?_
    have hi : 32 * j + i < l.length := by omega
    rw [List.getD_eq_getElem?_getD, List.getElem?_eq_getElem hi, Option.getD_some]
  have found := congrArg (List.filterMap id) values
  rwa [List.filterMap_map, List.filterMap_map] at found

/-- BSCL where its source can be read. -/
theorem execBscl_writes (s : State) (w : Single) (e : Env)
    (he : s.issue (s.me.core.guard w.ng) [(w.a, s.me.core.guard w.ng)] = .ok e) :
    execBscl w s = .next (s.finish e [keyOf w.d] none fun c => c.writeV w.d (e.guard w.ng) (scaleWords e w)) := by
  have vals : ((List.range 8).map fun j => blockScale (targetEmax w) ((List.range 32).filterMap fun i =>
      if (e.guard w.ng).getLsbD (32 * j + i) then (e.src 2 w.imm w.a)[32 * j + i]? else none)).flatMap
      (fun b => List.replicate 32 (BitVec.ofNat 32 (b * 0x01010101))) = scaleWords e w := by
    have block (j : Nat) (hj : j < 8) := filterMap_block (e.guard w.ng) (e.src 2 w.imm w.a) (source_length _ _ _ _ _ _) j hj
    rw [map_range_congr 8 _ _ fun j hj => congrArg (blockScale (targetEmax w)) (block j hj), List.flatMap_map]
    exact flatMap_replicate_blocks 8 32 _
  rw [← vals]
  simp only [execBscl, he]
  rfl

/-- Settles O19: every word but BSCL is one word computed unit by unit; BSCL ends with its blocks' bytes written. -/
theorem laneConversionWords : Obligations.LaneConversionWords := by
  intro s w h ty rm dst part cv ns nd ws wd sel
  refine ⟨fun hc => ?fills, fun hc => ?narrows, ?pack, ?unpk, fun hf => ?scaccF32, fun hf => ?scaccE8, ?scale, ?bscl⟩
  case fills =>
    rw [show exec (.cvt w) s = _ from execCvt_fills s w hc]
    exact mapWord_computes s w { a := some ty } _ false _ h
  case narrows =>
    rw [show exec (.cvt w) s = _ from execCvt_narrows s w hc]
    exact mapWord_computes s w { a := some ty, d := true } _ false _ h
  case pack => exact mapWord_computes s w { a := some (packSource ty), b := some (packSource ty), d := true } _ false _ h
  case unpk => exact mapWord_computes s w { a := some ty, b := some 1 } _ false _ h
  case scaccF32 =>
    rw [show exec (.scacc w) s = _ from execScacc_f32 s w hf]
    exact mapWord_computes s w { a := some 2, b := some 2, c := some 2, d := true } _ false _ h
  case scaccE8 =>
    rw [show exec (.scacc w) s = _ from execScacc_e8 s w hf]
    exact mapWord_computes s w { a := some 2, b := some 1, c := some 1, d := true } _ false _ h
  case scale =>
    intro pos
    rw [show (if ty ≠ 2 then [w.a, w.b, w.d] else [w.a, w.b]) = _ from (scaleSources_codes w).symm]
    exact mapWord_computes s w { a := some 2, b := some 1, d := ty != 2 } _ false _ h
  case bscl =>
    intro e he ha
    exact ⟨_, execBscl_writes s w e he, finish_end s e [keyOf w.d] _ h ha⟩

end Sys2Proof.Machine
end

section
/-! SUPPORT. The frame of the integer, float and special-function classes: each word computes unit by unit (R136, R137). -/

namespace Sys2Proof.Machine

theorem sources_codes (w : Single) (n : Nat) : (sources w n).codes w = [w.a, w.b, w.c].take n := by
  match n with
  | 0 | 1 | 2 | n + 3 => simp [sources, Sources.codes]

/-- A word of these classes with its first n sources is computed unit by unit, B with the broadcast of SEL. -/
theorem arith_computes (s : State) (w : Single) (n : Nat) (f : Word → Word → Word → Word × Num.Flags) (look : Bool)
    (h : Running s) : ComputesN s w n look (.next (s.arith w n f look)) f := by
  have word := mapWord_computes s w (sources w n) (fun _ a b c => f a (bcast w b) c) look (BitVec.allOnes 32) h
  rw [sources_codes] at word
  match n with
  | 0 | 1 | 2 => exact word
  | n + 3 => simpa [sources, ComputesN, State.arith] using word

/-- A word that applies an operation to each element of TYPE. -/
theorem elementwise_computes (s : State) (w : Single) (n : Nat) (f : Nat → Nat → Nat → Num.Res) (look : Bool) (h : Running s) :
    ComputesN s w n look (.next (s.arith w n (elementwise w.ty.toNat f) look)) (onElems w.ty.toNat f) :=
  arith_computes s w n _ look h

end Sys2Proof.Machine
end

section
/-! PROOFS. The float class (O16). -/

namespace Sys2Proof.Machine

/-- Settles O16: every word but FDP2 applies its operation to each element, and FMA takes its two signs from NEG. -/
theorem laneFloatWords : Obligations.LaneFloatWords := by
  intro s w h ty rm m elems
  have each (n : Nat) (f : Nat → Nat → Nat → Num.Res) := elementwise_computes s w n f false h
  refine ⟨each 2 _, each 2 _, each 2 _, ?fma, each 2 _, each 2 _, each 1 _, each 1 _, each 2 _, each 1 _, each 1 _,
    arith_computes s w 3 _ false h⟩
  case fma =>
    have neg0 : (w.mod.setWidth 2).getLsbD 0 = m := by simp [m]
    have neg1 : (w.mod.setWidth 2).getLsbD 1 = w.mod.getLsbD 1 := by simp
    rw [← neg0, ← neg1]
    exact each 3 _

end Sys2Proof.Machine
end

section
/-! SUPPORT. The integer operations on elements, in the spec's own terms (R116, R140, R144). -/

namespace Sys2Proof.Machine

open Sys2Proof.Num

/-! A register packed from results for each element. -/

/-- The register of the results of an operation on the elements of three registers, without flags. -/
def packElems (ty : Nat) (g : Nat → Nat → Nat → Nat) (a b c : Word) : Word :=
  pack (Legal.width ty) ((List.range (Legal.count ty)).map fun i =>
    g (elem (Legal.width ty) a i) (elem (Legal.width ty) b i) (elem (Legal.width ty) c i))

theorem foldl_flags_none (l : List Res) (h : ∀ r ∈ l, r.fl = 0) : l.foldl (fun f r => f ||| r.fl) 0 = 0 := by
  induction l with
  | nil => rfl
  | cons r l ih =>
    rw [List.foldl_cons, h r List.mem_cons_self]
    exact ih fun r hr => h r (List.mem_cons_of_mem _ hr)

/-- Elements computed without flags are the packed register and no flag. -/
theorem onElems_plain (ty : Nat) (g : Nat → Nat → Nat → Nat) (a b c : Word) :
    onElems ty (fun x y z => ⟨g x y z, 0⟩) a b c = (packElems ty g a b c, 0) := by
  refine Prod.ext (congrArg (pack _) (List.map_map ..)) (foldl_flags_none _ fun r hr => ?_)
  obtain ⟨i, -, rfl⟩ := List.mem_map.mp hr
  rfl

/-- Only the low bits of each result are packed. -/
theorem pack_map_congr (n : Nat) (l : List Nat) (f g : Nat → Nat) (h : ∀ i, f i % 2 ^ n = g i % 2 ^ n) :
    pack n (l.map f) = pack n (l.map g) := by
  unfold pack
  simp only [List.foldr_map, h]

/-- Two operations that agree on elements modulo 2^w pack the same register. -/
theorem packElems_congr (ty : Nat) (f g : Nat → Nat → Nat → Nat) (a b c : Word)
    (h : ∀ x y z, x < 2 ^ Legal.width ty → y < 2 ^ Legal.width ty → z < 2 ^ Legal.width ty →
      f x y z % 2 ^ Legal.width ty = g x y z % 2 ^ Legal.width ty) :
    packElems ty f a b c = packElems ty g a b c := by
  have lt (x : Word) (i : Nat) : elem (Legal.width ty) x i < 2 ^ Legal.width ty := Nat.mod_lt _ (Nat.two_pow_pos _)
  exact pack_map_congr _ _ _ _ fun i => h _ _ _ (lt a i) (lt b i) (lt c i)

/-! The model's operations as operations on each element. -/

theorem intRes_eq_elemFit (ty : Nat) (sat : Bool) (r : Int) :
    intRes (Legal.isSigned ty) sat (Legal.width ty) r = elemFit ty sat r := by
  have half : (0 : Int) < 2 ^ (Legal.width ty - 1) := Int.pow_pos (by decide)
  have full : (0 : Int) < 2 ^ Legal.width ty := Int.pow_pos (by decide)
  have clamped (lo hi : Int) (h : lo ≤ hi) : (if r < lo then lo else if hi < r then hi else r) = max lo (min hi r) := by omega
  unfold intRes elemFit clamp imin imax wrap
  dsimp only
  rw [clamped _ _ (by split <;> omega)]

theorem intMap1_eq (ty : Nat) (sat : Bool) (f : Int → Int) (a b c : Word) :
    intMap1 ty sat f a = packElems ty (fun x _ _ => elemFit ty sat (f (elemValue ty x))) a b c := by
  unfold intMap1 packElems elems
  simp only [List.map_map, intRes_eq_elemFit]
  rfl

theorem intMap2_eq (ty : Nat) (sat : Bool) (f : Int → Int → Int) (a b c : Word) :
    intMap2 ty sat f a b = packElems ty (fun x y _ => elemFit ty sat (f (elemValue ty x) (elemValue ty y))) a b c := by
  unfold intMap2 packElems elems
  simp only [List.zipWith_map, List.zipWith_self, intRes_eq_elemFit]
  rfl

theorem imad_eq (ty : Nat) (sat : Bool) (a b c : Word) :
    imad ty sat a b c
      = packElems ty (fun x y z => elemFit ty sat (elemValue ty x * elemValue ty y + elemValue ty z)) a b c := by
  unfold imad packElems elems
  simp only [List.zip, List.zipWith_map, List.zipWith_self, intRes_eq_elemFit]
  rfl

theorem patMap1_eq (ty : Nat) (f : Nat → Nat → Nat) (a b c : Word) :
    patMap1 ty f a = packElems ty (fun x _ _ => f (Legal.width ty) x) a b c := by
  unfold patMap1 packElems elems
  simp only [List.map_map]
  rfl

theorem patMap2_eq (ty : Nat) (f : Nat → Nat → Nat → Nat) (a b c : Word) :
    patMap2 ty f a b = packElems ty (fun x y _ => f (Legal.width ty) x y) a b c := by
  unfold patMap2 packElems elems
  simp only [List.zipWith_map, List.zipWith_self]

theorem selElems_eq (ty : Nat) (a b c : Word) :
    selElems ty a b c = packElems ty (fun x y z => if z ≠ 0 then x else y) a b c := by
  unfold selElems packElems elems
  simp only [List.zip, List.zipWith_map, List.zipWith_self, bne_iff_ne]

/-! The element results. -/

/-- The value of an element, wrapped, is the element. -/
theorem elemFit_elemValue (ty x : Nat) (hx : x < 2 ^ Legal.width ty) : elemFit ty false (elemValue ty x) = x := by
  have low : ((x : Int) % 2 ^ Legal.width ty).toNat = x := by
    rw [Int.emod_eq_of_lt (by omega) (by exact_mod_cast hx), Int.toNat_natCast]
  unfold elemFit elemValue
  simp only [Bool.false_eq_true, if_false]
  split
  · rw [Int.sub_emod_right, low]
  · exact low

/-- One of two elements chosen by their values. -/
theorem elemFit_choice (ty x y : Nat) (p : Prop) [Decidable p] (hx : x < 2 ^ Legal.width ty) (hy : y < 2 ^ Legal.width ty) :
    elemFit ty false (if p then elemValue ty x else elemValue ty y) = if p then x else y := by
  split
  · exact elemFit_elemValue ty x hx
  · exact elemFit_elemValue ty y hy

theorem intMap2_min_eq (ty : Nat) (a b c : Word) : intMap2 ty false (fun u v => if u ≤ v then u else v) a b
    = packElems ty (fun x y _ => if elemValue ty x ≤ elemValue ty y then x else y) a b c := by
  refine (intMap2_eq ty false _ a b c).trans (packElems_congr ty _ _ a b c fun x y _ hx hy _ => ?_)
  rw [elemFit_choice ty x y _ hx hy]

theorem intMap2_max_eq (ty : Nat) (a b c : Word) : intMap2 ty false (fun u v => if u ≤ v then v else u) a b
    = packElems ty (fun x y _ => if elemValue ty x ≤ elemValue ty y then y else x) a b c := by
  refine (intMap2_eq ty false _ a b c).trans (packElems_congr ty _ _ a b c fun x y _ hx hy _ => ?_)
  rw [elemFit_choice ty y x _ hy hx]

theorem natAbs_eq_ite (v : Int) : (v.natAbs : Int) = if v < 0 then -v else v := by omega

theorem ePopc_eq (n x : Nat) : ePopc n x = ((List.range n).filter fun i => x.testBit i).length := by
  have bit (i : Nat) : (x / 2 ^ i % 2 == 1) = x.testBit i := Nat.testBit_eq_decide_div_mod_eq.symm
  simp only [ePopc, bit]

theorem eClz_eq (n x : Nat) : eClz n x = if x = 0 then n else n - 1 - Nat.log2 x := by
  simp only [eClz, beq_iff_eq]

theorem eBrev_eq (n x : Nat) :
    eBrev n x = ((List.range n).map fun i => if x.testBit i then 2 ^ (n - 1 - i) else 0).sum := by
  have bit (i : Nat) : x / 2 ^ i % 2 * 2 ^ (n - 1 - i) = if x.testBit i then 2 ^ (n - 1 - i) else 0 := by
    rw [← Nat.toNat_testBit]
    cases x.testBit i <;> simp
  simp only [eBrev, bit, List.sum_eq_foldl, List.foldl_map]

theorem eSra_eq (n x y : Nat) :
    eSra n x y = (((if 2 ^ (n - 1) ≤ x then (x : Int) - 2 ^ n else x) / 2 ^ (y % n)) % 2 ^ n).toNat := by
  simp only [eSra, wrap, sval, Bool.true_and, decide_eq_true_eq]

theorem patMap2_rot_eq (ty : Nat) (a b c : Word) :
    let n := Legal.width ty
    patMap2 ty eRot a b = packElems ty (fun x y _ => x * 2 ^ (y % n) % 2 ^ n + x / 2 ^ (n - y % n)) a b c := by
  refine (patMap2_eq ty eRot a b c).trans (packElems_congr ty _ _ a b c fun x y _ _ _ _ => ?_)
  rw [eRot, Nat.mod_mod, Nat.mod_add_mod]

end Sys2Proof.Machine
end

section
/-! PROOFS. The integer class (O15). -/

namespace Sys2Proof.Machine

open Sys2Proof.Num

/-! Words that are not of an element each: IMULH, BFE, IDP4 (R141 to R143). -/

theorem sval_signed_word (x : Word) : sval true 32 x.toNat = x.toInt := by
  simp only [sval, BitVec.toInt_eq_toNat_cond, Bool.true_and, decide_eq_true_eq]
  split <;> split <;> omega

theorem imulh_eq (signed : Bool) (a b : Word) : imulh signed a b
    = if signed then (a.signExtend 64 * b.signExtend 64).extractLsb' 32 32
      else (a.setWidth 64 * b.setWidth 64).extractLsb' 32 32 := by
  unfold imulh
  cases signed with
  | true =>
    rw [sval_signed_word, sval_signed_word]
    exact ofInt_high_product a b
  | false => exact ofNat_high_product a b

/-- The bits of a field of a length. -/
def fieldMask (n : Nat) : Word := BitVec.ofNat 32 (2 ^ n - 1)

theorem fieldMask_toNat (n : Nat) (hn : n ≤ 32) : (fieldMask n).toNat = 2 ^ n - 1 := by
  have hle : 2 ^ n ≤ 2 ^ 32 := Nat.pow_le_pow_right (by omega) hn
  have hpos := Nat.two_pow_pos n
  rw [fieldMask, BitVec.toNat_ofNat, Nat.mod_eq_of_lt (by omega)]

/-- A field shifted down, as a number. -/
theorem field_toNat (a : Word) (p n : Nat) (hn : n ≤ 32) :
    ((a >>> p) &&& fieldMask n).toNat = a.toNat / 2 ^ p % 2 ^ n := by
  rw [BitVec.toNat_and, fieldMask_toNat n hn, Nat.and_two_pow_sub_one_eq_mod, BitVec.toNat_ushiftRight,
    Nat.shiftRight_eq_div_pow]

/-- The top bit of a number of n bits. -/
theorem testBit_top_iff (x n : Nat) (hn : 0 < n) (hx : x < 2 ^ n) : x.testBit (n - 1) = true ↔ 2 ^ (n - 1) ≤ x := by
  constructor
  · exact Nat.ge_two_pow_of_testBit
  · intro h
    refine Nat.testBit_of_two_pow_le_and_two_pow_add_one_gt h ?_
    rwa [Nat.sub_add_cancel hn]

/-- The value of a signed field: its top bit set, the bits above it are ones. -/
theorem ofInt_sval_field (f : Word) (n : Nat) (h0 : 0 < n) (hn : n ≤ 32) (hf : f &&& fieldMask n = f) :
    BitVec.ofInt 32 (sval true n f.toNat) = if f.getLsbD (n - 1) then f ||| ~~~fieldMask n else f := by
  have mask := fieldMask_toNat n hn
  have hpos := Nat.two_pow_pos n
  have lt : f.toNat < 2 ^ n := by
    rw [← hf, BitVec.toNat_and, mask]
    exact Nat.and_lt_two_pow _ (by omega)
  have disjoint : f &&& ~~~fieldMask n = 0 := by
    rw [← hf, BitVec.and_assoc, BitVec.and_not_self]
    exact BitVec.and_zero
  have top : f.getLsbD (n - 1) = true ↔ 2 ^ (n - 1) ≤ f.toNat := testBit_top_iff _ n h0 lt
  unfold sval
  by_cases ht : 2 ^ (n - 1) ≤ f.toNat
  · have hle : 2 ^ n ≤ 2 ^ 32 := Nat.pow_le_pow_right (by omega) hn
    rw [if_pos (by simpa using ht), if_pos (top.mpr ht), ← BitVec.add_eq_or_of_and_eq_zero _ _ disjoint]
    apply BitVec.eq_of_toNat_eq
    rw [BitVec.toNat_ofInt, BitVec.toNat_add, BitVec.toNat_not, mask, show (2 : Int) ^ n = (2 ^ n : Nat) by push_cast; rfl]
    omega
  · rw [if_neg (by simpa using ht), if_neg (mt top.mp ht), BitVec.ofInt_natCast]
    exact word_ofNat_toNat f

theorem bfLen_le (b : Word) : bfLen b ≤ 32 := Nat.min_le_right _ _

/-- BFE, whose field is sign-extended where its top bit is set. -/
theorem bfe_eq (signed : Bool) (a b : Word) :
    let f := (a >>> bfPos b) &&& fieldMask (bfLen b)
    bfe signed a b = if signed = true ∧ 0 < bfLen b ∧ f.getLsbD (bfLen b - 1) then f ||| ~~~fieldMask (bfLen b) else f := by
  intro f
  have len := bfLen_le b
  have num : a.toNat / 2 ^ bfPos b % 2 ^ bfLen b = f.toNat := (field_toNat a _ _ len).symm
  have own : f &&& fieldMask (bfLen b) = f := by rw [BitVec.and_assoc, BitVec.and_self]
  clear_value f
  simp only [bfe, num, Bool.and_eq_true, decide_eq_true_eq]
  by_cases hs : signed = true ∧ 0 < bfLen b
  · by_cases hl : bfLen b < 32
    · rw [if_pos ⟨hs, hl⟩, ofInt_sval_field f _ hs.2 len own]
      simp only [hs, true_and]
    · have noHigh : ~~~fieldMask (bfLen b) = 0 := by
        rw [show bfLen b = 32 by omega]
        rfl
      rw [if_neg fun h => hl h.2, noHigh, show f ||| 0 = f from BitVec.or_zero, ite_self]
      exact word_ofNat_toNat f
  · rw [if_neg fun h => hs h.1, if_neg fun h => hs ⟨h.1, h.2.1⟩]
    exact word_ofNat_toNat f

theorem foldl_add_int (l : List Int) (c : Int) : l.foldl (· + ·) c = l.sum + c := by
  rw [Int.add_comm, ← List.sum_cons, List.sum_eq_foldl, List.foldl_cons, Int.zero_add]

/-- A sum written as an i32, modulo 2^32 or clamped. -/
theorem ofNat_intRes_i32 (sat : Bool) (r : Int) :
    BitVec.ofNat 32 (intRes true sat 32 r) = BitVec.ofInt 32 (if sat then max (-2 ^ 31) (min (2 ^ 31 - 1) r) else r) := by
  have wrapped (v : Int) : BitVec.ofNat 32 (wrap 32 v) = BitVec.ofInt 32 v := by
    apply BitVec.eq_of_toNat_eq
    rw [BitVec.toNat_ofNat, BitVec.toNat_ofInt, wrap]
    omega
  have clamped : clamp true 32 r = max (-2 ^ 31) (min (2 ^ 31 - 1) r) := by
    simp only [clamp, imin, imax, if_true]
    omega
  rw [intRes, wrapped, clamped]

/-- IDP4, whose sum of products is added to C. -/
theorem idp4_eq (ty : Nat) (mix sat : Bool) (a b c : Word) : idp4 ty mix sat a b c =
    (let n := Legal.width ty
     let other (y : Nat) : Int := if (Legal.isSigned ty != mix) && 2 ^ (n - 1) ≤ y then (y : Int) - 2 ^ n else y
     let sum := ((List.range (Legal.count ty)).map fun i => elemValue ty (elem n a i) * other (elem n b i)).sum + c.toInt
     BitVec.ofInt 32 (if sat then max (-2 ^ 31) (min (2 ^ 31 - 1) sum) else sum)) := by
  unfold idp4 elems
  simp only [List.zipWith_map, List.zipWith_self, foldl_add_int, ofNat_intRes_i32]
  rfl

/-! The frame of a word without flags. -/

theorem plain_computes (s : State) (w : Single) (n : Nat) {f g : Word → Word → Word → Word} (h : Running s)
    (hf : ∀ a b c, f a b c = g a b c) :
    ComputesN s w n false (.next (s.arith w n (plain f))) fun a b c => (g a b c, 0) := by
  rw [show f = g from funext fun a => funext fun b => funext fun c => hf a b c]
  exact arith_computes s w n _ false h

/-- A word whose register is packed from an operation on each element. -/
theorem packed_computes (s : State) (w : Single) (n : Nat) {f : Word → Word → Word → Word} {g : Nat → Nat → Nat → Nat}
    (h : Running s) (hf : ∀ a b c, f a b c = packElems w.ty.toNat g a b c) :
    ComputesN s w n false (.next (s.arith w n (plain f))) fun a b c => onElems w.ty.toNat (fun x y z => ⟨g x y z, 0⟩) a b c := by
  simp only [onElems_plain]
  exact plain_computes s w n h hf

/-- Settles O15: each word applies to its sources the register its element results pack to, or the one value R141 to R144 name. -/
theorem laneIntegerWords : Obligations.LaneIntegerWords := by
  intro s w h ty n v fit elems words pos len field
  have each (k : Nat) {f : Word → Word → Word → Word} {g : Nat → Nat → Nat → Nat}
      (hf : ∀ a b c, f a b c = packElems ty g a b c) := packed_computes s w k h hf
  have whole (k : Nat) {f g : Word → Word → Word → Word} (hf : ∀ a b c, f a b c = g a b c) := plain_computes s w k h hf
  have named (k : Nat) (f : Word → Word → Word → Word) := whole k (f := f) fun _ _ _ => rfl
  have signed : (w.ty == 0) = decide (ty = 0) := by
    rw [Bool.eq_iff_iff, beq_iff_eq, decide_eq_true_iff]
    exact BitVec.toNat_eq
  refine ⟨each 2 (intMap2_eq ty w.sat _), each 2 (intMap2_eq ty w.sat _), each 2 (intMap2_eq ty w.sat _),
    each 3 (imad_eq ty w.sat), each 2 (intMap2_min_eq ty), each 2 (intMap2_max_eq ty), each 1 fun a b c => ?iabs,
    each 1 (intMap1_eq ty w.sat _), named 2 _, named 2 _, named 2 _, named 1 _, each 2 (patMap2_eq ty _),
    each 2 (patMap2_eq ty _), each 2 fun a b c => ?sra, each 2 (patMap2_rot_eq ty), each 1 fun a b c => ?popc, each 1 fun a b c => ?clz,
    each 1 fun a b c => ?brev, whole 2 fun a b c => ?imulh, whole 2 fun a b c => ?bfe, named 3 _, named 1 _,
    each 3 (selElems_eq ty), whole 3 (idp4_eq ty _ _)⟩
  case iabs => exact (intMap1_eq ty w.sat _ a b c).trans (by simp only [natAbs_eq_ite]; rfl)
  case sra => exact (patMap2_eq ty _ a b c).trans (by simp only [eSra_eq]; rfl)
  case popc => exact (patMap1_eq ty _ a b c).trans (by simp only [ePopc_eq]; rfl)
  case clz => exact (patMap1_eq ty _ a b c).trans (by simp only [eClz_eq]; rfl)
  case brev => exact (patMap1_eq ty _ a b c).trans (by simp only [eBrev_eq]; rfl)
  case imulh => exact (imulh_eq _ a b).trans (by simp only [signed, decide_eq_true_eq])
  case bfe => exact (bfe_eq _ a b).trans (by simp only [signed, decide_eq_true_eq]; rfl)

end Sys2Proof.Machine
end

