-- ==== Sys2Proof/Proofs/HeldScratch.lean ====
section
/-! SUPPORT. Scratch stores put in the store-hold area where it has room, and what the end of a word leaves of them (R181, R195). -/

namespace Sys2Proof.Machine

/-! Byte maps. -/

/-- Bytes put into a map in their order. -/
def heldAdd (m : Memory) (cells : List Host.Cell) : Memory := cells.foldl (fun m x => heldPut m x.1 x.2) m

/-- The cells of a line. -/
def lineCells (cells : List Host.Cell) (l : Nat) : List Host.Cell := cells.filter fun x => x.1 / 64 == l

/-- What an address holds after cells were put there one after another: the last byte for it, or else the old one. -/
def lastCell (cells : List Host.Cell) (old : Option Byte) (a : Nat) : Option Byte :=
  match cells.reverse.find? fun x => x.1 == a with
  | some x => some x.2
  | none => old

@[simp] theorem lastCell_nil (old : Option Byte) (a : Nat) : lastCell [] old a = old := rfl

theorem lastCell_cons (x : Host.Cell) (cells : List Host.Cell) (old : Option Byte) (a : Nat) :
    lastCell (x :: cells) old a = lastCell cells (if x.1 = a then some x.2 else old) a := by
  unfold lastCell
  rw [List.reverse_cons, List.find?_append]
  cases cells.reverse.find? fun x => x.1 == a with
  | some y => rfl
  | none => by_cases h : x.1 = a <;> simp [h]

theorem heldGet_heldPut (m : Memory) (a x : Nat) (b : Byte) :
    heldGet (heldPut m a b) x = if a = x then some b else heldGet m x := by
  induction m with
  | nil => rfl
  | cons c m ih =>
    obtain ⟨k, v⟩ := c
    unfold heldPut
    split
    · rfl
    · split
      · next e => subst e; simp only [heldGet]; split <;> rfl
      · next e =>
        simp only [heldGet, ih]
        by_cases hk : k = x
        · rw [if_pos hk, if_pos hk, if_neg fun ha => e (ha.trans hk.symm)]
        · rw [if_neg hk, if_neg hk]

theorem heldGet_heldAdd (cells : List Host.Cell) (m : Memory) (a : Nat) :
    heldGet (heldAdd m cells) a = lastCell cells (heldGet m a) a := by
  induction cells generalizing m with
  | nil => rfl
  | cons x cells ih => exact (ih (heldPut m x.1 x.2)).trans (by rw [heldGet_heldPut, lastCell_cons])

/-- The cells of an address are all in its line. -/
theorem lastCell_lineCells (cells : List Host.Cell) (old : Option Byte) (a l : Nat) :
    lastCell (lineCells cells l) old a = if a / 64 = l then lastCell cells old a else old := by
  induction cells generalizing old with
  | nil => simp [lineCells]
  | cons x cells ih =>
    have drop (h : x.1 / 64 ≠ l) : lineCells (x :: cells) l = lineCells cells l := by simp [lineCells, h]
    have keep (h : x.1 / 64 = l) : lineCells (x :: cells) l = x :: lineCells cells l := by simp [lineCells, h]
    rw [lastCell_cons]
    by_cases hx : x.1 / 64 = l
    · rw [keep hx, lastCell_cons, ih]
      by_cases ha : a / 64 = l
      · rw [if_pos ha, if_pos ha]
      · rw [if_neg ha, if_neg ha, if_neg fun e : x.1 = a => ha (e ▸ hx)]
    · rw [drop hx, ih]
      by_cases ha : a / 64 = l
      · rw [if_pos ha, if_pos ha, if_neg fun e : x.1 = a => hx (e ▸ ha)]
      · rw [if_neg ha, if_neg ha]

theorem lastCell_twice (cells : List Host.Cell) (old : Option Byte) (a : Nat) :
    lastCell cells (lastCell cells old a) a = lastCell cells old a := by
  unfold lastCell
  cases cells.reverse.find? fun x => x.1 == a <;> rfl

theorem lastCell_absent (cells : List Host.Cell) (old : Option Byte) (a : Nat) (h : ∀ x ∈ cells, x.1 ≠ a) :
    lastCell cells old a = old := by
  have none : (cells.reverse.find? fun x => x.1 == a) = none :=
    List.find?_eq_none.mpr fun x hx => by simpa using h x (List.mem_reverse.mp hx)
  rw [lastCell, none]

/-- Cells put into a map line by line: an address of the lines holds the last byte for it. -/
theorem heldGet_lines (cells : List Host.Cell) (lines : List Nat) (m : Memory) (a : Nat) :
    heldGet (lines.foldl (fun m l => heldAdd m (lineCells cells l)) m) a
      = if a / 64 ∈ lines then lastCell cells (heldGet m a) a else heldGet m a := by
  induction lines generalizing m with
  | nil => rfl
  | cons l lines ih =>
    rw [List.foldl_cons, ih, heldGet_heldAdd, lastCell_lineCells]
    by_cases hl : a / 64 = l
    · simp only [hl, if_true, lastCell_twice, ite_self, List.mem_cons, true_or]
    · simp only [hl, if_false, List.mem_cons, false_or]

/-- Put in for every line of the cells, the map holds at each address the last byte for it. -/
theorem heldGet_allLines (cells : List Host.Cell) (m : Memory) (a : Nat) :
    heldGet ((cells.map fun x => x.1 / 64).eraseDups.foldl (fun m l => heldAdd m (lineCells cells l)) m) a
      = lastCell cells (heldGet m a) a := by
  rw [heldGet_lines]
  split
  · rfl
  · next h =>
    refine (lastCell_absent cells _ a fun x hx e => h ?_).symm
    exact List.mem_eraseDups.mpr (List.mem_map.mpr ⟨x, hx, by rw [e]⟩)

/-! The lines of a map. -/

theorem nodup_eraseDups (l : List Nat) : l.eraseDups.Nodup := by
  match l with
  | [] => exact List.nodup_nil
  | x :: l =>
    rw [List.eraseDups_cons]
    refine List.nodup_cons.mpr ⟨fun h => ?_, nodup_eraseDups _⟩
    simpa using (List.mem_filter.mp (List.mem_eraseDups.mp h)).2
termination_by l.length
decreasing_by exact Nat.lt_succ_of_le (List.length_filter_le _ _)

theorem mem_heldPut {m : Memory} {a : Nat} {b : Byte} {c : Host.Cell} (h : c ∈ heldPut m a b) : c = (a, b) ∨ c ∈ m := by
  induction m with
  | nil => exact .inl (List.mem_singleton.mp h)
  | cons d m ih =>
    obtain ⟨k, v⟩ := d
    unfold heldPut at h
    split at h
    · exact List.mem_cons.mp h
    · split at h
      · exact (List.mem_cons.mp h).imp_right (List.mem_cons_of_mem _)
      · rcases List.mem_cons.mp h with e | e
        · exact .inr (e ▸ List.mem_cons_self)
        · exact (ih e).imp_right (List.mem_cons_of_mem _)

theorem mem_heldAdd {cells : List Host.Cell} {m : Memory} {c : Host.Cell} (h : c ∈ heldAdd m cells) : c ∈ cells ∨ c ∈ m := by
  induction cells generalizing m with
  | nil => exact .inr h
  | cons x cells ih =>
    rcases ih h with e | e
    · exact .inl (List.mem_cons_of_mem _ e)
    · exact (mem_heldPut e).imp_left fun (e : c = x) => e ▸ List.mem_cons_self

/-- The cells of one line touch at most one line more. -/
theorem heldLines_add_line (cells : List Host.Cell) (m : Memory) (l : Nat) :
    (heldLines (heldAdd m (lineCells cells l))).length ≤ (heldLines m).length + 1 := by
  have sub : heldLines (heldAdd m (lineCells cells l)) ⊆ l :: heldLines m := by
    intro n hn
    obtain ⟨c, hc, rfl⟩ := List.mem_map.mp (List.mem_eraseDups.mp hn)
    rcases mem_heldAdd hc with e | e
    · exact List.mem_cons.mpr (.inl (by simpa using (List.mem_filter.mp e).2))
    · exact List.mem_cons_of_mem _ (List.mem_eraseDups.mpr (List.mem_map.mpr ⟨c, e, rfl⟩))
  exact (nodup_eraseDups _).length_le_of_subset sub

/-! The store-hold area of a core. -/

/-- The lines that a course counts for a core. -/
def Course.heldOn (place : Nat) (c : Course) : Nat := if c.place == place then c.heldCount else 0

theorem coreHeld_eq_sum (s : State) (place : Nat) : s.coreHeld place = (s.courses.map (Course.heldOn place)).sum := by
  have fold (l : List Course) (n : Nat) :
      l.foldl (fun n c => if c.place == place then n + c.heldCount else n) n = n + (l.map (Course.heldOn place)).sum := by
    induction l generalizing n with
    | nil => rfl
    | cons c l ih =>
      rw [List.foldl_cons, ih, List.map_cons, List.sum_cons, Course.heldOn]
      split <;> omega
  exact (fold s.courses 0).trans (Nat.zero_add _)

theorem sum_modify_le {α : Type} (l : List α) (i n : Nat) (f : α → α) (g : α → Nat) (h : ∀ x, g (f x) ≤ g x + n) :
    ((l.modify i f).map g).sum ≤ (l.map g).sum + n := by
  induction l generalizing i with
  | nil => simp
  | cons x l ih =>
    cases i with
    | zero =>
      have := h x
      simp only [List.modify_zero_cons, List.map_cons, List.sum_cons]
      omega
    | succ i =>
      have := ih i
      simp only [List.modify_succ_cons, List.map_cons, List.sum_cons]
      omega

/-- A change that adds at most n lines to a course of a core adds at most n to the core's. -/
theorem coreHeld_modCourse_le (s : State) (i place n : Nat) (f : Course → Course) (hp : ∀ c, (f c).place = c.place)
    (hn : ∀ c, (f c).heldCount ≤ c.heldCount + n) : (s.modCourse i f).coreHeld place ≤ s.coreHeld place + n := by
  rw [coreHeld_eq_sum, coreHeld_eq_sum]
  refine sum_modify_le s.courses i n f _ fun c => ?_
  have := hn c
  rw [Course.heldOn, Course.heldOn, hp]
  split <;> omega

/-! Holding scratch stores. -/

/-- A course with the cells of a line among the stores it holds for its window. -/
def Course.holdLine (now : Nat) (cells : List Host.Cell) (l : Nat) (c : Course) : Course :=
  { c with heldS := heldAdd c.heldS (lineCells cells l), heldSince := if c.heldCount == 0 then now else c.heldSince }

/-- One line of the scratch stores held by course i. -/
def State.holdScratchLine (i : Nat) (cells : List Host.Cell) (s : State) (l : Nat) : State :=
  let c := s.course i
  let full := !(heldLines c.heldS).contains l && (64 ≤ c.heldCount || 512 ≤ s.coreHeld c.place)
  let s := if full then s.checkpoint i else s
  s.modCourse i (Course.holdLine s.clock cells l)

theorem holdCells_scratch (s : State) (i : Nat) (cells : List Host.Cell) :
    s.holdCells i true cells = (cells.map fun x => x.1 / 64).eraseDups.foldl (State.holdScratchLine i cells) s := rfl

theorem holdLine_heldCount (now : Nat) (cells : List Host.Cell) (l : Nat) (c : Course) :
    (c.holdLine now cells l).heldCount ≤ c.heldCount + 1 := by
  have := heldLines_add_line cells c.heldS l
  simp only [Course.heldCount, Course.holdLine]
  omega

/-- t differs from s in the stores that course i holds for its window, f of those it held, which took at most n lines more; no
checkpoint was taken. -/
structure HeldMore (i n : Nat) (f : Memory → Memory) (s t : State) : Prop where
  length : t.courses.length = s.courses.length
  cur : t.cur = s.cur
  mem : SameMem s t
  heldG : (t.course i).heldG = (s.course i).heldG
  heldS : (t.course i).heldS = f (s.course i).heldS
  place : (t.course i).place = (s.course i).place
  count : (t.course i).heldCount ≤ (s.course i).heldCount + n
  core : ∀ p, t.coreHeld p ≤ s.coreHeld p + n

theorem HeldMore.refl (i : Nat) (s : State) : HeldMore i 0 id s s :=
  ⟨rfl, rfl, ⟨rfl, rfl, rfl⟩, rfl, rfl, rfl, Nat.le_refl _, fun _ => Nat.le_refl _⟩

theorem HeldMore.trans {i n m : Nat} {f g : Memory → Memory} {s t u : State} (h : HeldMore i n f s t) (k : HeldMore i m g t u) :
    HeldMore i (n + m) (g ∘ f) s u := by
  refine ⟨k.length.trans h.length, k.cur.trans h.cur, h.mem.trans k.mem, k.heldG.trans h.heldG, ?_,
    k.place.trans h.place, ?_, fun p => ?_⟩
  · rw [k.heldS, h.heldS]; rfl
  · have a := h.count
    have b := k.count
    omega
  · have a := h.core p
    have b := k.core p
    omega

/-- A line held where the area has room for it. -/
theorem holdScratchLine_room (s : State) (i : Nat) (cells : List Host.Cell) (l : Nat) (hi : i < s.courses.length)
    (hc : (s.course i).heldCount < 64) (hk : s.coreHeld (s.course i).place < 512) :
    HeldMore i 1 (fun m => heldAdd m (lineCells cells l)) s (s.holdScratchLine i cells l) := by
  have room : (64 ≤ (s.course i).heldCount || 512 ≤ s.coreHeld (s.course i).place) = false := by simp [hc, hk]
  have e : s.holdScratchLine i cells l = s.modCourse i (Course.holdLine s.clock cells l) := by
    simp only [State.holdScratchLine, room, Bool.and_false, Bool.false_eq_true, if_false]
  have more := holdLine_heldCount s.clock cells l
  rw [e]
  have same := modCourse_same s i (Course.holdLine s.clock cells l) hi
  exact ⟨modCourse_length _ _ _, rfl, ⟨rfl, rfl, rfl⟩, by rw [same]; rfl, by rw [same]; rfl, by rw [same]; rfl,
    by rw [same]; exact more _, fun p => coreHeld_modCourse_le s i p 1 _ (fun _ => rfl) more⟩

/-- Lines held where the area has room for all of them. -/
theorem holdScratchLines_room (lines : List Nat) (s : State) (i : Nat) (cells : List Host.Cell) (hi : i < s.courses.length)
    (hc : (s.course i).heldCount + lines.length ≤ 64) (hk : s.coreHeld (s.course i).place + lines.length ≤ 512) :
    HeldMore i lines.length (fun m => lines.foldl (fun m l => heldAdd m (lineCells cells l)) m) s
      (lines.foldl (State.holdScratchLine i cells) s) := by
  induction lines generalizing s with
  | nil => exact HeldMore.refl i s
  | cons l lines ih =>
    rw [List.length_cons] at hc hk
    have first := holdScratchLine_room s i cells l hi (by omega) (by omega)
    have rest := ih (s.holdScratchLine i cells l) (by rw [first.length]; exact hi)
      (by have := first.count; omega) (by have := first.core (s.course i).place; rw [first.place]; omega)
    have both := first.trans rest
    rw [Nat.add_comm] at both
    exact both

/-- Scratch stores held where the area has room for all their lines: each address holds its last byte, and memory and the global
stores stay. -/
theorem holdCells_scratch_room (s : State) (cells : List Host.Cell) (h : Running s)
    (hc : s.me.heldCount + (cells.map fun x => x.1 / 64).eraseDups.length ≤ 64)
    (hk : s.coreHeld s.me.place + (cells.map fun x => x.1 / 64).eraseDups.length ≤ 512) :
    SameMem s (s.holdCells s.cur true cells) ∧ (s.holdCells s.cur true cells).me.heldG = s.me.heldG
      ∧ ∀ a, heldGet (s.holdCells s.cur true cells).me.heldS a = lastCell cells (heldGet s.me.heldS a) a := by
  have held := holdScratchLines_room _ s s.cur cells h hc hk
  rw [holdCells_scratch, State.me, held.cur]
  exact ⟨held.mem, held.heldG, fun a => by rw [held.heldS]; exact heldGet_allLines cells _ a⟩

/-! The end of a word. -/

/-- The stores a course holds. -/
def Course.stores (c : Course) : Memory × Memory := (c.heldG, c.heldS)

theorem wakeIf_stores (s : State) (p : Nat → Course → Wait → Bool) (run : Bool) : Still Course.stores s (s.wakeIf p run) := by
  unfold State.wakeIf
  refine Still.foldl _ _ (fun s i => ?_) s
  have woken : Still Course.stores s (s.modCourse i fun c =>
      { c.endWaits (p i c) with phase := if run && c.phase == .waiting then .running else c.phase }) :=
    modCourse_still s i _ fun _ => rfl
  exact Still.ite (woken.trans (listWake_still _ i)) woken

theorem creditGranted_stores (s : State) (i : Nat) : Still Course.stores s (s.creditGranted i) := by
  unfold State.creditGranted
  split
  · exact Still.refl s
  · have cleared : Still Course.stores s (s.modCourse i fun c => { c with granted := none, grantBinds := false }) :=
      modCourse_still s i _ fun _ => rfl
    refine (cleared.trans ?_).trans (credit_still _ _ _)
    exact Still.ite (wakeIf_stores _ _ _) (Still.refl _)

/-- A word that writes no register of the shadow and completes leaves the held stores of every course. -/
theorem finish_stores (s : State) (e : Env) (f : Core → Core) (he : e.after = none) :
    Still Course.stores s (s.finish e [] none f) := by
  unfold State.finish
  rw [he]
  refine (modCourse_still s s.cur _ fun _ => ?_).trans ((creditGranted_stores _ _).trans (modCourse_still _ _ _ fun _ => ?_)) <;> rfl

theorem Still.me {α : Type} {v : Course → α} {s t : State} (h : Still v s t) : v t.me = v s.me := by
  have cur : t.cur = s.cur := congrArg (fun f => f.2.2.1) h.fixed
  rw [State.me, State.me, cur]
  exact h.view s.cur

/-- A word that writes no register of the shadow and completes changes no memory. -/
theorem finish_mem (s : State) (e : Env) (f : Core → Core) (h : Running s) (he : e.after = none) :
    SameMem s (s.finish e [] none f) :=
  have done := finish_end s e [] f h he
  ⟨done.mem, done.hostMem, done.lentMem⟩

end Sys2Proof.Machine
end

