-- ==== Sys2Proof/Proofs/LaneScratch.lean ====
section
/-! PROOFS. LDS and STS in the window, and scratch violations (O31). -/

namespace Sys2Proof.Machine

theorem maskOf_congr (n : Nat) (f g : Nat → Bool) (h : ∀ t, t < n → f t = g t) : maskOf n f = maskOf n g := by
  have bits (p : Nat → Bool) : maskOf n p = BitVec.ofNat 256 (((List.range n).map p).foldr (fun b acc => b.toNat + 2 * acc) 0) := by
    rw [List.foldr_map, maskOf]
  rw [bits, bits, map_range_congr n f g h]

theorem sum_map_scale (l : List Nat) (c : Nat) (f : Nat → Nat) : (l.map fun j => c * f j).sum = c * (l.map f).sum := by
  induction l with
  | nil => rfl
  | cons x l ih => rw [List.map_cons, List.map_cons, List.sum_cons, List.sum_cons, ih, Nat.mul_add]

/-- Words side by side, the first lowest, as a sum. -/
theorem foldr_words_eq_sum (n : Nat) (f : Nat → Word) :
    ((List.range n).map f).foldr (fun v acc => v.toNat + 2 ^ 32 * acc) 0
      = ((List.range n).map fun j => (f j).toNat * 2 ^ (32 * j)).sum := by
  induction n generalizing f with
  | zero => rfl
  | succ n ih =>
    have shift (j : Nat) : (f (j + 1)).toNat * 2 ^ (32 * (j + 1)) = 2 ^ 32 * ((f (j + 1)).toNat * 2 ^ (32 * j)) := by
      rw [Nat.mul_succ, Nat.pow_add, Nat.mul_comm (2 ^ (32 * j)), Nat.mul_left_comm]
    rw [List.range_succ_eq_map, List.map_cons, List.map_cons, List.map_map, List.map_map, List.foldr_cons, List.sum_cons, ih,
      ← sum_map_scale]
    simp only [Function.comp_def, Nat.succ_eq_add_one, shift, Nat.mul_zero, Nat.pow_zero, Nat.mul_one]

/-! The accesses of a word (R193, R199). -/

/-- SA(t), the offset in the window of thread t's element. -/
def scratchAddr (e : Env) (w : Single) (t : Nat) : Int := ((e.unit 1 0 w.a t).toNat * 2 ^ (w.mod.toNat % 8) : Nat) + w.imm.toInt

/-- The access of thread t. -/
def scratchAcc (e : Env) (w : Single) (t : Nat) : Acc := { t := t, addr := scratchAddr e w t }

/-- Thread t is active and its access is a violation. -/
def State.scratchOut (s : State) (e : Env) (w : Single) (write : Bool) (t : Nat) : Bool :=
  (e.guard w.ng).getLsbD t && (s.window s.me).violates s.me.heldS (scratchAddr e w t) (accSize w) write

/-- The active threads whose access is none, which perform. -/
def State.scratchGood (s : State) (e : Env) (w : Single) (write : Bool) : List Nat :=
  (threadsOf (e.guard w.ng)).filter fun t => !s.scratchOut e w write t

/-- Every active thread's address is a multiple of the element's size. -/
def scratchAligned (e : Env) (w : Single) : Prop :=
  ∀ t, t ∈ threadsOf (e.guard w.ng) → scratchAddr e w t % (accSize w : Int) = 0

/-- No line of the stash is to be fetched for the threads that perform. -/
def State.scratchFilled (s : State) (e : Env) (w : Single) (write : Bool) : Prop :=
  s.fills s.me ((s.scratchGood e w write).map fun t => (scratchAddr e w t).toNat) = []

/-- The accesses of a word, as the model splits them. -/
def State.scratchSplit (s : State) (e : Env) (w : Single) (write : Bool) : ScratchSplit :=
  s.splitScratch s.me (scratchAccs (e.guard w.ng) (e.src 1 0 w.a) (scaleOf w.mod.toNat) w.imm.toInt) (accSize w) write

section
variable {s : State} {e : Env} {w : Single}

theorem scratchOut_of_active (write : Bool) {t : Nat} (h : t ∈ threadsOf (e.guard w.ng)) :
    s.scratchOut e w write t = (s.window s.me).violates s.me.heldS (scratchAddr e w t) (accSize w) write := by
  rw [threadsOf, List.mem_filter] at h
  rw [State.scratchOut, h.2, Bool.true_and]

/-- Aligned accesses are those that perform and those that are violations. -/
theorem scratchSplit_aligned (write : Bool) (h : scratchAligned e w) : s.scratchSplit e w write =
    { misaligned := [],
      violating := ((threadsOf (e.guard w.ng)).filter (s.scratchOut e w write)).map (scratchAcc e w),
      good := (s.scratchGood e w write).map (scratchAcc e w) } := by
  have accs : scratchAccs (e.guard w.ng) (e.src 1 0 w.a) (scaleOf w.mod.toNat) w.imm.toInt
      = (threadsOf (e.guard w.ng)).map (scratchAcc e w) := rfl
  have mis : ((threadsOf (e.guard w.ng)).map (scratchAcc e w)).filter (fun a => a.addr % (accSize w : Int) != 0) = [] :=
    List.filter_eq_nil_iff.mpr fun a ha => by
      obtain ⟨t, ht, rfl⟩ := List.mem_map.mp ha
      simpa [scratchAcc] using h t ht
  have al : ((threadsOf (e.guard w.ng)).map (scratchAcc e w)).filter (fun a => a.addr % (accSize w : Int) == 0)
      = (threadsOf (e.guard w.ng)).map (scratchAcc e w) :=
    List.filter_eq_self.mpr fun a ha => by
      obtain ⟨t, ht, rfl⟩ := List.mem_map.mp ha
      simpa [scratchAcc] using h t ht
  rw [State.scratchSplit, State.splitScratch, accs]
  simp only [mis, al, List.filter_map]
  congr 2
  · exact List.filter_congr fun t ht => (scratchOut_of_active write ht).symm
  · exact List.filter_congr fun t ht => congrArg (!·) (scratchOut_of_active write ht).symm

/-- Accesses without a misaligned one that need no fetch go on as they are. -/
theorem fillScratch_filled (sp : ScratchSplit) (hm : sp.misaligned = [])
    (hf : s.fills s.me (sp.good.map fun a => a.addr.toNat) = []) :
    s.fillScratch sp = .ok (s, sp.good, none) := by
  have good : sp.good.filter (fun _ => true) = sp.good := List.filter_eq_self.mpr fun _ _ => rfl
  simp [State.fillScratch, hm, hf, State.fillsLost, State.fillErr, good, alignFault]

theorem fillScratch_aligned (write : Bool) (h : scratchAligned e w) (hf : s.scratchFilled e w write) :
    s.fillScratch (s.scratchSplit e w write) = .ok (s, (s.scratchGood e w write).map (scratchAcc e w), none) := by
  rw [scratchSplit_aligned write h]
  refine fillScratch_filled _ rfl ?_
  rw [List.map_map]
  exact hf

/-- A test of the access of thread t, among the accesses of some threads. -/
theorem any_scratchAcc (l : List Nat) (t : Nat) (p : Int → Bool) :
    (l.map (scratchAcc e w)).any (fun a => a.t == t && p a.addr) = (l.contains t && p (scratchAddr e w t)) := by
  induction l with
  | nil => rfl
  | cons u l ih =>
    have head : ((scratchAcc e w u).t == t && p (scratchAcc e w u).addr) = (t == u && p (scratchAddr e w t)) := by
      by_cases hu : t = u
      · rw [hu]; rfl
      · rw [beq_false_of_ne hu, scratchAcc, beq_false_of_ne (Ne.symm hu)]
        rfl
    rw [List.map_cons, List.any_cons, ih, head, List.contains_cons, Bool.and_or_distrib_right]

theorem accMask_scratchAcc (l : List Nat) : accMask (l.map (scratchAcc e w)) = maskOf 256 fun t => l.contains t := by
  refine maskOf_congr 256 _ _ fun t _ => ?_
  simpa using any_scratchAcc (e := e) (w := w) l t fun _ => true

/-- The mask of the violations. -/
theorem accMask_violating (write : Bool) (h : scratchAligned e w) :
    accMask (s.scratchSplit e w write).violating = maskOf 256 (s.scratchOut e w write) := by
  rw [scratchSplit_aligned write h, accMask_scratchAcc]
  refine maskOf_congr 256 _ _ fun t ht => ?_
  rw [Bool.eq_iff_iff, List.contains_iff_mem, List.mem_filter, threadsOf, List.mem_filter, List.mem_range]
  refine ⟨And.right, fun out => ⟨⟨ht, ?_⟩, out⟩⟩
  exact (Bool.and_eq_true_iff.mp out).1

end

/-! LDS (R192, R199). -/

/-- The threads whose register j a load poisons: a byte of it that the course does not hold is uncorrectable (R200). -/
def State.scratchBad (s : State) (e : Env) (w : Single) (j : Nat) : Mask :=
  maskOf 256 fun t => (s.scratchGood e w false).contains t && (List.range (min (accSize w) 4)).any fun i =>
    (heldGet s.me.heldS ((scratchAddr e w t).toNat + 4 * j + i)).isNone
      && (s.window s.me).bad.contains ((scratchAddr e w t).toNat + 4 * j + i)

/-- What an LDS leaves in the registers. -/
def Core.scratchLoaded (k : Core) (s : State) (e : Env) (w : Single) : Core :=
  (k.writeLoads s.me.core w.look.toNat w.d (accRegs w) (maskOf 256 fun t => (s.scratchGood e w false).contains t)
    ((s.scratchGood e w false).map fun t => (t, loadRegs w.ty.toNat (s.scratchRead s.me (scratchAddr e w t).toNat (accSize w))))
    (s.scratchBad e w)).scratchFault (maskOf 256 (s.scratchOut e w false))

theorem execLds_aligned (s : State) (w : Single) (e : Env) (hi : s.issue (s.me.core.guard w.ng) [(w.a, s.me.core.guard w.ng)] = .ok e)
    (ha : scratchAligned e w) (hf : s.scratchFilled e w false) :
    execLds w s = .next (s.finish e ((List.range (accRegs w)).map fun j => keyOf (plusCode w.d j)) none
      fun k => k.scratchLoaded s e w) := by
  have filled := fillScratch_aligned false ha hf
  have viol := accMask_violating (s := s) false ha
  unfold State.scratchSplit at filled viol
  have bad : (fun j => maskOf 256 fun t => ((s.scratchGood e w false).map (scratchAcc e w)).any fun a =>
      a.t == t && (List.range (min (accSize w) 4)).any fun i =>
        (heldGet s.me.heldS (a.addr.toNat + 4 * j + i)).isNone && (s.window s.me).bad.contains (a.addr.toNat + 4 * j + i))
      = s.scratchBad e w :=
    funext fun j => maskOf_congr 256 _ _ fun t _ => any_scratchAcc _ t fun a => (List.range (min (accSize w) 4)).any fun i =>
      (heldGet s.me.heldS (a.toNat + 4 * j + i)).isNone && (s.window s.me).bad.contains (a.toNat + 4 * j + i)
  unfold execLds
  simp only [hi, filled, viol, bad, accMask_scratchAcc, List.map_map, issue_me s _ _ _ e hi]
  rfl

/-! STS (R195, R199). -/

/-- The bytes that an STS holds, with their offsets in the window, in thread order. -/
def State.scratchCells (s : State) (e : Env) (w : Single) : List Host.Cell :=
  (s.scratchGood e w true).flatMap fun t => cellsAt (scratchAddr e w t).toNat (leBytes (accSize w)
    ((List.range (accRegs w)).map fun j => (e.unit w.ty.toNat 0 (w.d + BitVec.ofNat 8 j) t).toNat * 2 ^ (32 * j)).sum)

theorem storeBytes_storeData (e : Env) (w : Single) (z t : Nat) : storeBytes z (e.storeData w t) =
    leBytes z ((List.range (accRegs w)).map fun j => (e.unit w.ty.toNat 0 (w.d + BitVec.ofNat 8 j) t).toNat * 2 ^ (32 * j)).sum := by
  rw [← foldr_words_eq_sum]
  rfl

theorem execSts_aligned (s : State) (w : Single) (e : Env)
    (hi : s.issue (s.me.core.guard w.ng)
      ((w.a, s.me.core.guard w.ng) :: (storeReads w).map fun r => (r, s.me.core.guard w.ng)) = .ok e)
    (ha : scratchAligned e w) (hf : s.scratchFilled e w true) :
    execSts w s = .next ((s.holdCells s.cur true (s.scratchCells e w)).finish e [] none
      fun k => k.scratchFault (maskOf 256 (s.scratchOut e w true))) := by
  have filled := fillScratch_aligned true ha hf
  have viol := accMask_violating (s := s) true ha
  unfold State.scratchSplit at filled viol
  unfold execSts
  simp only [hi, filled, viol, List.flatMap_map, storeBytes_storeData]
  rfl

/-- The end of a word that has held an STS's bytes: f is its effect on the registers, and where the store-hold area has room for its
lines, each address holds its last byte and no memory has changed. -/
theorem holdCells_scratch_finish (s : State) (w : Single) (e : Env) (f : Core → Core) (h : Running s) (he : e.after = none) :
    let cells := s.scratchCells e w
    let lines := (cells.map fun x => x.1 / 64).eraseDups.length
    let t := (s.holdCells s.cur true cells).finish e [] none f
    t.me.core = f (s.me.core.after e.queue)
    ∧ (s.me.heldCount + lines ≤ 64 → s.coreHeld s.me.place + lines ≤ 512 →
        SameMemory s t ∧ t.me.heldG = s.me.heldG ∧ ∀ a, heldGet t.me.heldS a = lastCell cells (heldGet s.me.heldS a) a) := by
  intro cells lines t
  have mild := holdCells_mild s s.cur true cells
  refine ⟨?_, fun hc hk => ?_⟩
  · rw [(finish_end (s.holdCells s.cur true cells) e [] f (mild.running h) he).core, mild.me_core]
  · obtain ⟨mem, heldG, heldS⟩ := holdCells_scratch_room s cells h hc hk
    have stores : (t.me.heldG, t.me.heldS) = _ := (finish_stores (s.holdCells s.cur true cells) e f he).me
    obtain ⟨sameG, sameS⟩ := Prod.mk.inj stores
    exact ⟨(mem.trans (finish_mem _ e f (mild.running h) he)).same, sameG.trans heldG, fun a => by rw [sameS, heldS]⟩

/-- Settles O31: with aligned addresses and no line to fetch, each word's accesses are those that perform and the violations; its end
writes the loaded registers or holds the stored bytes, and switches the violating threads off. -/
theorem laneScratchWords : Obligations.LaneScratchWords := by
  intro s w e h
  refine ⟨fun hi ⟨after, aligned, filled⟩ => ?lds, fun hi ⟨after, aligned, filled⟩ => ?sts⟩
  case lds => exact ⟨_, execLds_aligned s w e hi aligned filled, finish_end s e _ _ h after⟩
  case sts =>
    have reads : s.issue (s.me.core.guard w.ng)
        ((w.a, s.me.core.guard w.ng) :: (storeReads w).map fun r => (r, s.me.core.guard w.ng)) = .ok e := by
      rw [storeReads, List.map_map]
      exact hi
    exact ⟨_, execSts_aligned s w e reads aligned filled, holdCells_scratch_finish s w e _ h after⟩

end Sys2Proof.Machine
end
